-- ==== Sys2Proof/Word.lean ====
section
/-! DEFINITION. The byte and the 64-byte line of frame-store memory (spec/00_scope.md, "line"). -/

namespace Sys2Proof

/-- One byte. -/
abbrev Byte := BitVec 8

/-- The bytes of one frame-store line, byte 0 first; a line the part composes has 64 of them. -/
abbrev Line := List Byte

end Sys2Proof
end

