-- ==== Sys2Proof/Syntax.lean ====
section
/-! DEFINITION. The commands the part takes: one constructor of `Instr` per row of
spec/opcode_table.json, with the data that row's event brings to the part. -/

namespace Sys2Proof

/-- The master that issued an upstream transaction (R159). -/
inductive Requester
  | station | camL | camR | service
deriving DecidableEq, Repr

/-- A camera, or the side of an opening it sees (R36, R188). -/
inductive Camera
  | left | right
deriving DecidableEq, Repr

/-- A change of an input line on which no rule of the spec acts and for which the opcode table has
no row: the other direction of the changes that have rows. PLATEN_DOWN and ARM_PARKED become inactive
by REST_LOSS only. DESIGN CHOICE: notes/assumptions/2.md. -/
inductive QuietChange
  | platenUpInactive
  | armAtLeftInactive
  | doubleSenseInactive
  | camReadyInactive (cam : Camera)
  | haltInInactive
  | lampOkActive (channel : Fin 6)
deriving DecidableEq, Repr

/-- When a command is taken: the microseconds since the command before it, and the input lines that
changed quietly in between. DESIGN CHOICE: notes/assumptions/1.md. -/
structure Moment where
  elapsed : Nat
  quiet : List QuietChange
deriving DecidableEq, Repr

/-- Bytes 1 to 7 of a request line (R174): the flags, the tag, the handle byte and the three bytes
that must be zero. -/
structure Head where
  flags : Byte
  tag : BitVec 16
  handle : Byte
  zero5 : Byte
  zero6 : Byte
  zero7 : Byte
deriving DecidableEq, Repr

/-- One upstream transaction (R159). `enables` and `data` have one entry per byte of its length; a
read carries no data. -/
structure Txn where
  addr : BitVec 34
  len : Nat
  enables : List Bool
  requester : Requester
  dataError : Bool
  data : List Byte
deriving DecidableEq, Repr

/-- What a camera receiver's write carries besides its place in the aperture (05 section 5.4). -/
structure Payload where
  len : Nat
  enables : List Bool
  dataError : Bool
  data : List Byte
deriving DecidableEq, Repr

/-- The parameters of REGISTER_VOLUME (R12, R190). -/
structure RegisterParams where
  mark : List Byte
  material : Byte
  override : Byte
  leaves : BitVec 16
  budget : BitVec 32
  levels : List (BitVec 16)
  exposure : BitVec 16
deriving DecidableEq, Repr

/-- The parameters of SET_VOLUME (R13, R190). -/
structure SetVolumeParams where
  budget : BitVec 32
  levels : List (BitVec 16)
  exposure : BitVec 16
  override : Byte
deriving DecidableEq, Repr

/-- The parameters of CALIBRATE (R123, R190). -/
structure CalibrateParams where
  target : BitVec 16
  levels : List (BitVec 16)
  exposure : BitVec 16
deriving DecidableEq, Repr

/-- The class fields as a request or the profile holds them (R7, R190). -/
structure ClassFields where
  vacuum : Byte
  grip : Byte
  hold : Byte
  mode : Byte
  holdTimeout : BitVec 16
  knife : BitVec 16
  maxRetries : Byte
  maxRetakes : Byte
  ceiling : BitVec 16
  doseLimit : BitVec 32
  exposure : BitVec 16
  baseLevel : BitVec 16
  settle : BitVec 16
  haltMarginal : Byte
deriving DecidableEq, Repr

/-- The two inputs whose loss ends an exposure's rest (R95). -/
inductive RestInput
  | platenDown | armParked
deriving DecidableEq, Repr

/-- The commands, one constructor per row of spec/opcode_table.json, in the table's order. -/
inductive Instr
  | powerOn (m : Moment) (resetIn : Bool)
  | lineReset (m : Moment)
  | resetEnd (m : Moment)
  | profileSignatureRead (m : Moment) (signature : List Byte) (control : BitVec 16)
  | profileGroupRead (m : Moment) (bytes : List Byte)
  | upstreamWrite (m : Moment) (x : Txn)
  | upstreamRead (m : Moment) (x : Txn)
  | apertureWrite (m : Moment) (cam : Camera) (offset : BitVec 34) (p : Payload)
  | requestUnknownKind (m : Moment) (kind : Byte) (h : Head)
  | registerVolume (m : Moment) (h : Head) (p : RegisterParams)
  | setVolume (m : Moment) (h : Head) (p : SetVolumeParams)
  | activate (m : Moment) (h : Head) (opening : BitVec 16)
  | suspend (m : Moment) (h : Head)
  | setOpening (m : Moment) (h : Head) (opening : BitVec 16)
  | closeVolume (m : Moment) (h : Head) (claimed : BitVec 16) (complement : BitVec 16)
  | retireVolume (m : Moment) (h : Head)
  | snapshotVolume (m : Moment) (h : Head) (mapAddress : BitVec 64)
  | run (m : Moment) (h : Head) (stopOpening : BitVec 16)
  | stepTurn (m : Moment) (h : Head)
  | pause (m : Moment) (h : Head)
  | resumeContinue (m : Moment) (h : Head)
  | resumeRetry (m : Moment) (h : Head)
  | resumeSkip (m : Moment) (h : Head)
  | resumeAbandon (m : Moment) (h : Head)
  | stop (m : Moment) (h : Head)
  | clearFault (m : Moment) (h : Head)
  | releaseSlots (m : Moment) (h : Head) (cam : Byte) (mask : BitVec 16)
  | loadGains (m : Moment) (h : Head) (cam : Byte) (lineAddress : BitVec 64)
  | setCorrection (m : Moment) (h : Head) (cam : Byte) (setting : Byte)
  | calibrate (m : Moment) (h : Head) (p : CalibrateParams)
  | setRules (m : Moment) (h : Head) (target : BitVec 16) (tolerance : BitVec 16) (clip : BitVec 16)
  | setClassEntry (m : Moment) (h : Head) (cls : Byte) (f : ClassFields)
  | setMaterialMap (m : Moment) (h : Head) (classes : List Byte)
  | logTaken (m : Moment) (h : Head) (n : BitVec 32)
  | verifyLog (m : Moment) (h : Head)
  | downstreamIssue (m : Moment)
  | downstreamResponse (m : Moment) (refused : Bool) (data : List Byte)
  | ownTrafficWaitAdmit (m : Moment)
  | logAppendAccept (m : Moment)
  | haltInActive (m : Moment)
  | camReadyActive (m : Moment) (cam : Camera)
  | cameraReadyTimeout (m : Moment)
  | channelRampStart (m : Moment) (channel : Fin 6)
  | lampRampStep (m : Moment)
  | warmEnd (m : Moment)
  | triggerFall (m : Moment)
  | exposureCompletion (m : Moment)
  | frameTimeout (m : Moment) (cam : Camera)
  | restLoss (m : Moment) (input : RestInput)
  | lampOkInactive (m : Moment) (channel : Fin 6)
  | platenUpActive (m : Moment)
  | platenDownActive (m : Moment)
  | armParkedActive (m : Moment)
  | armAtLeftActive (m : Moment)
  | leafSenseActive (m : Moment)
  | leafSenseInactive (m : Moment)
  | doubleSenseActive (m : Moment)
  | wandPressureSample (m : Moment) (pressure : Byte)
  | holdTimeout (m : Moment)
  | supplySenseSample (m : Moment) (sample : Byte)
  | platenTimeout (m : Moment)
  | gripTimeout (m : Moment)
  | liftTimeout (m : Moment)
  | sweepTimeout (m : Moment)
  | returnTimeout (m : Moment)
  | knifePulseElapsed (m : Moment)
  | retryPauseElapsed (m : Moment)
  | releaseElapsed (m : Moment)
  | settleElapsed (m : Moment)
  | powerEstablished (m : Moment)
deriving DecidableEq, Repr

/-- The moment a command carries. -/
def Instr.moment : Instr → Moment
  | .powerOn m _ | .lineReset m | .resetEnd m | .profileSignatureRead m _ _ | .profileGroupRead m _
  | .upstreamWrite m _ | .upstreamRead m _ | .apertureWrite m _ _ _ | .requestUnknownKind m _ _
  | .registerVolume m _ _ | .setVolume m _ _ | .activate m _ _ | .suspend m _ | .setOpening m _ _
  | .closeVolume m _ _ _ | .retireVolume m _ | .snapshotVolume m _ _ | .run m _ _ | .stepTurn m _
  | .pause m _ | .resumeContinue m _ | .resumeRetry m _ | .resumeSkip m _ | .resumeAbandon m _
  | .stop m _ | .clearFault m _ | .releaseSlots m _ _ _ | .loadGains m _ _ _
  | .setCorrection m _ _ _ | .calibrate m _ _ | .setRules m _ _ _ _ | .setClassEntry m _ _ _
  | .setMaterialMap m _ _ | .logTaken m _ _ | .verifyLog m _ | .downstreamIssue m
  | .downstreamResponse m _ _ | .ownTrafficWaitAdmit m | .logAppendAccept m | .haltInActive m
  | .camReadyActive m _ | .cameraReadyTimeout m | .channelRampStart m _ | .lampRampStep m
  | .warmEnd m | .triggerFall m | .exposureCompletion m | .frameTimeout m _ | .restLoss m _
  | .lampOkInactive m _ | .platenUpActive m | .platenDownActive m | .armParkedActive m
  | .armAtLeftActive m | .leafSenseActive m | .leafSenseInactive m | .doubleSenseActive m
  | .wandPressureSample m _ | .holdTimeout m | .supplySenseSample m _ | .platenTimeout m
  | .gripTimeout m | .liftTimeout m | .sweepTimeout m | .returnTimeout m | .knifePulseElapsed m
  | .retryPauseElapsed m | .releaseElapsed m | .settleElapsed m | .powerEstablished m => m

end Sys2Proof
end

