-- ==== Sys2Proof/Decode.lean ====
section
/-! DEFINITION. Words of the opcode table. The rows of spec/opcode_table.json carry no "fixed" and no
"fields" bits, so no word spells a command (notes/assumptions/18.md). -/

namespace Sys2Proof

/-- The command a word spells by the opcode table's bits: the table gives none, so none. -/
def decodeTableWord (_nbits _w : Nat) : Option Instr := none

end Sys2Proof
end

