-- ==== Sys2Proof/Config.lean ====
section
/-! DEFINITION. What the spec leaves open as a value: free values, with no body. -/

namespace Sys2Proof.Config

/-- The halt-on-marginal setting a class takes when its byte in a loaded profile group G3 is above 1, by the
class and the byte. R185 clamps numeric fields and gives three enumerated fields their default; it does not
name this yes/no field. A free value: notes/assumptions/16.md. -/
opaque haltMarginalOutOfRange : Nat → Byte → Bool

end Sys2Proof.Config
end

