-- ==== Sys2Proof/Machine/State.lean ====
section
/-! DEFINITION. The state of the part, block by block (spec/00_scope.md "The blocks"), as plain data,
the reasons a command can stop, and the state right after POWER_ON. -/

namespace Sys2Proof.Machine

/-- One value per camera. -/
structure PerCam (α : Type) where
  left : α
  right : α
deriving DecidableEq, Repr

/-- A set of sides (R188: none, LEFT, RIGHT, BOTH). -/
structure Sides where
  left : Bool
  right : Bool
deriving DecidableEq, Repr

/-! ## Start-up (spec/10) -/

/-- The three start-up states (10, R182). -/
inductive StartPhase
  | reset | profileLoad | ready
deriving DecidableEq, Repr

/-- The reset causes (R182). -/
inductive ResetCause
  | powerOn | lineReset
deriving DecidableEq, Repr

/-- How a profile group was settled (R184). -/
inductive LoadResult
  | loaded | defaulted | rejected
deriving DecidableEq, Repr

/-- What the profile loader reads next (R184). -/
inductive LoaderWait
  | nothing | signature | group (g : Nat)
deriving DecidableEq, Repr

/-- Start-up state and the profile loader. `loadResult` has one entry per group G0..G6, none before
the group is settled. -/
structure Start where
  phase : StartPhase
  cause : ResetCause
  runningMark : Bool
  readyAt : Nat
  loadResult : List (Option LoadResult)
  accept : BitVec 16
  waiting : LoaderWait
deriving DecidableEq, Repr

/-- The levels of the part's inputs (00_scope "The cradle lines"); `power` is "power is established". -/
structure Lines where
  platenUp : Bool
  platenDown : Bool
  leafSense : Bool
  doubleSense : Bool
  armAtLeft : Bool
  armParked : Bool
  wandPressure : Nat
  supplySense : Nat
  lampOk : List Bool
  camReady : PerCam Bool
  haltIn : Bool
  resetIn : Bool
  power : Bool
deriving DecidableEq, Repr

/-! ## Transit unit (spec/08) -/

/-- A window of the region map; the mask has bit 0 STATION, 1 CAM_L, 2 CAM_R, 3 SERVICE (R161, R195). -/
structure Window where
  base : Nat
  len : Nat
  mask : BitVec 4
deriving DecidableEq, Repr

/-- The seven windows (R161). -/
structure RegionMap where
  request : Window
  reply : Window
  status : Window
  log : Window
  apertureL : Window
  apertureR : Window
  slotPool : Window
deriving DecidableEq, Repr

/-- A response on the upstream port (R159). -/
inductive Response
  | done | refused | data (bytes : List Byte)
deriving DecidableEq, Repr

/-- An upstream transaction as the transit unit holds it: its arrival number, whether it writes,
whether it is the corrected write of a redirected aperture line (R165). -/
structure Passed where
  seq : Nat
  write : Bool
  redirected : Bool
  txn : Txn
deriving DecidableEq, Repr

/-- A held read, noted against the own write `waitsFor` (R171). -/
structure Hold where
  read : Passed
  waitsFor : Nat
deriving DecidableEq, Repr

/-- What an own-traffic entry is (R168: the block that placed it, and the status line number). -/
inductive Origin
  | entry
  | snapshotReply
  | status (k : Nat)
  | record
  | snapshotLine
  | gainRead (cam : Camera) (second : Bool)
  | verifyRead
deriving DecidableEq, Repr

/-- An entry of the own-traffic queue: a write of `content`, or a read where there is none (R168). -/
structure OwnEntry where
  id : Nat
  addr : Nat
  content : Option Line
  origin : Origin
deriving DecidableEq, Repr

/-- What waits for a place in the own-traffic queue (R168): a composed write, a status line (composed
on joining, R181), the log's head append (R150), the snapshot's next line (R26), a verify read (R157),
a gain-table read (R121). -/
inductive Waiting
  | write (addr : Nat) (content : Line) (origin : Origin)
  | status (k : Nat)
  | append
  | snapshotLine
  | verifyRead
  | gainRead (cam : Camera) (second : Bool)
deriving DecidableEq, Repr

/-- An item of the wait list. -/
structure WaitItem where
  id : Nat
  what : Waiting
deriving DecidableEq, Repr

/-- The two claimants of the downstream port (R170). -/
inductive Claimant
  | forwarded | own
deriving DecidableEq, Repr

/-- A transaction issued downstream and not answered (R160). -/
inductive Issued
  | forwarded (p : Passed)
  | own (e : OwnEntry)
deriving DecidableEq, Repr

/-- The transit unit. `stale` counts the transactions issued before the last reset whose answers are
discarded (R172). -/
structure Transit where
  map : RegionMap
  stream : List Passed
  holds : List Hold
  queue : List OwnEntry
  wait : List WaitItem
  mark : Claimant
  outstanding : List Issued
  stale : Nat
  refusedWrites : Nat
  nextId : Nat
  nextSeq : Nat
deriving DecidableEq, Repr

/-! ## Request unit (spec/09) -/

/-- What a reply echoes of its request (R175). -/
structure Ticket where
  kind : Byte
  tag : BitVec 16
  handle : Byte
deriving DecidableEq, Repr

/-- The request unit. `shown` is the content each of status lines 0..3 was last composed with, none
before its first write (notes/assumptions/14.md). -/
structure RequestUnit where
  newest : Nat
  noticeOut : Bool
  newestIssued : Bool
  newestId : Option Nat
  newestLine : Option Nat
  partialRequests : Nat
  dirty : List Bool
  shown : List (Option Line)
deriving DecidableEq, Repr

/-! ## Volume table (spec/01) -/

/-- The states of a record (R2). -/
inductive VolState
  | registered | active | suspended | closed
deriving DecidableEq, Repr

/-- A side's coverage (R2). -/
inductive Coverage
  | absent | marginal | taken
deriving DecidableEq, Repr

/-- A volume record (R2). -/
structure Volume where
  mark : List Byte
  state : VolState
  material : Nat
  override : Option Nat
  leaves : Nat
  budget : Nat
  doseUsed : Nat
  openingDose : Nat
  baseLevels : Option (List Nat)
  exposureTime : Option Nat
  cursor : Nat
  coverage : List Coverage
  sidesCovered : Nat
  framesAccepted : Nat
  framesMarginal : Nat
  framesRejected : Nat
  framesDamaged : Nat
  retakes : Nat
  repeatFrames : Nat
  turnsDone : Nat
  turnFaults : Nat
  doubleLeafEvents : Nat
  firstRecord : Nat
  lastRecord : Nat
deriving DecidableEq, Repr

/-- Vacuum monitor modes (R7). -/
inductive VacuumMode
  | abort | hold
deriving DecidableEq, Repr

/-- An entry of the class table (R7). -/
structure ClassEntry where
  vacuum : Nat
  grip : Nat
  hold : Nat
  mode : VacuumMode
  holdTimeout : Nat
  knife : Nat
  maxRetries : Nat
  maxRetakes : Nat
  ceiling : Nat
  doseLimit : Nat
  exposure : Nat
  baseLevel : Nat
  settle : Nat
  haltMarginal : Bool
deriving DecidableEq, Repr

/-- A snapshot in flight (R25, R26): the lines still to be placed, with their addresses. -/
structure Snapshot where
  ticket : Ticket
  lines : List (Nat × Line)
  mapLines : Nat
  replyWritten : Bool
deriving DecidableEq, Repr

/-- The volume table. `table` has 32 places, one per handle (R1). -/
structure VolumeTable where
  table : List (Option Volume)
  material : List Nat
  classes : List ClassEntry
  snapshot : Option Snapshot
deriving DecidableEq, Repr

/-! ## Frame verdicts, faults, log records (spec/02, 05, 07) -/

/-- Verdicts (R188). -/
inductive Verdict
  | accepted | marginal | rejected | damaged | lost | aborted
deriving DecidableEq, Repr

/-- Frame reasons (R188). -/
inductive FrameReason
  | none | low | high | clipped | sequence | partialLine | dataError | lamp | timeout
deriving DecidableEq, Repr

/-- The nine stages of a turn (R60). -/
inductive Stage
  | platenRise | separate | grip | lift | sweep | release | returning | platenLower | settle
deriving DecidableEq, Repr

/-- Fault kinds (R52, R71). -/
inductive FaultKind
  | notAtRest | cameraNotReady | doseLimit | lampFault | cameraTimeout | captureFault | marginalHalt
  | platenTimeout | gripFail | doubleLeaf | liftTimeout | leafDropped | sweepTimeout | vacuumLow
  | returnTimeout | turnAborted | supplyLow
deriving DecidableEq, Repr

/-- Fault classes (R188). -/
inductive FaultClass
  | capture | turn
deriving DecidableEq, Repr

/-- The current fault record, when it is not empty (R28). -/
structure FaultRecord where
  kind : FaultKind
  cls : FaultClass
  handle : Nat
  stage : Option Stage
  sides : Sides
  opening : Nat
  time : Nat
deriving DecidableEq, Repr

/-- Why a cycle was stopped (R49, R50). -/
inductive StopCause
  | stop | haltIn | supplyLow
deriving DecidableEq, Repr

/-- Volume events (R148). -/
inductive VolumeEvent
  | activate | suspend | close
deriving DecidableEq, Repr

/-- Calibration causes (R188). -/
inductive CalCause
  | none | cameraNotReady | refusedLamp | notAtRest | damaged | lost | stop | haltIn | supplyLow
deriving DecidableEq, Repr

/-- The contents of a FRAME record (R148). -/
structure FrameBody where
  handle : Nat
  opening : Nat
  side : Nat
  cam : Camera
  slot : Nat
  number : Nat
  verdict : Verdict
  reason : FrameReason
  mean : Nat
  clip : Nat
  retake : Nat
  corrected : Bool
  charge : Nat
  repeated : Bool
deriving DecidableEq, Repr

/-- The contents of a TURN record (R80). -/
structure TurnBody where
  handle : Nat
  opening : Nat
  retry : Nat
  doubles : Nat
  byHand : Bool
deriving DecidableEq, Repr

/-- The contents of a VOLUME record, and the reply owed when it is accepted (R148, R175). -/
structure VolumeBody where
  handle : Nat
  event : VolumeEvent
  cursor : Nat
  doseUsed : Nat
  sidesCovered : Nat
  mark : List Byte
  ticket : Ticket
  clamped : Bool
deriving DecidableEq, Repr

/-- What a CALIBRATION record says of one camera (R125). -/
structure CalCamera where
  number : Nat
  mean : Nat
  clamped : Nat
  dark : Nat
deriving DecidableEq, Repr

/-- The contents of a CALIBRATION record, and the reply owed when it is accepted (R125, R175). -/
structure CalBody where
  done : Bool
  cause : CalCause
  concerned : Option Camera
  target : Nat
  levels : List Nat
  exposure : Nat
  charge : Nat
  cams : PerCam CalCamera
  ticket : Ticket
  clamped : Bool
  stopped : Option StopCause
deriving DecidableEq, Repr

/-- An append requested of the capture log (R148, R150). -/
inductive Append
  | frame (b : FrameBody)
  | turn (b : TurnBody)
  | volume (b : VolumeBody)
  | fault (b : FaultRecord)
  | calibration (b : CalBody)
deriving DecidableEq, Repr

/-- The LOG_LOW mark (R155). -/
inductive LowMark
  | armed | spent
deriving DecidableEq, Repr

/-- The verification in flight (R156, R157). -/
structure Verify where
  ticket : Ticket
  handle : Nat
  last : Nat
  next : Nat
  checked : Nat
  other : Nat
  bad : Nat
  notHeld : Nat
  firstBad : Nat
deriving DecidableEq, Repr

/-- The capture log (R145). -/
structure CaptureLog where
  appended : Nat
  taken : Nat
  appends : List Append
  unloggedFaults : Nat
  lowMark : LowMark
  verify : Option Verify
deriving DecidableEq, Repr

/-! ## Cycle controller (spec/02) -/

/-- Cycle states (02 section 2.1). -/
inductive CycleState
  | idle | prepare | expose | review | turn | paused | halted | calibrate
deriving DecidableEq, Repr

/-- What the cycle is waiting for (02 section 2.1). -/
inductive SubCondition
  | none | waitSlot | waitLog | waitCamera
deriving DecidableEq, Repr

/-- Where a PAUSED cycle carries on (R28). -/
inductive ResumePoint
  | beginOpening | prepare | turn
deriving DecidableEq, Repr

/-- Run kinds (R28). -/
inductive RunKind
  | run | step
deriving DecidableEq, Repr

/-- The run record (R28). -/
structure RunRecord where
  kind : RunKind
  stop : Nat
  skipCovered : Bool
  stopReached : Bool
  pausePending : Bool
  resume : Option ResumePoint
deriving DecidableEq, Repr

/-- A side's status at an opening (R28). -/
inductive SideStatus
  | wanted | pending | settled | passed
deriving DecidableEq, Repr

/-- The result of a side's last frame (R28). -/
structure LastResult where
  verdict : Verdict
  reason : FrameReason
  slot : Option Nat
deriving DecidableEq, Repr

/-- One side of the opening record (R28). -/
structure SideRecord where
  status : SideStatus
  last : Option LastResult
deriving DecidableEq, Repr

/-- A planned exposure (R88): levels, exposure time, ramp span, predicted dose. -/
structure Plan where
  levels : List Nat
  time : Nat
  span : Nat
  predicted : Nat
deriving DecidableEq, Repr

/-- The exposure being prepared: FIRST, or RETAKE with the admitted plan (R28). -/
structure Prepared where
  sides : Sides
  retake : Option Plan
deriving DecidableEq, Repr

/-- The opening record (R28). `lampFault` is the fault noted under R38, `exposed` whether an exposure
was made at this opening (R43), `charge` the last exposure's charge (R42). -/
structure OpeningRecord where
  number : Nat
  sides : PerCam SideRecord
  retakes : Nat
  prepared : Prepared
  lampFault : Bool
  exposed : Bool
  charge : Nat
deriving DecidableEq, Repr

/-- A frame judged at review and not yet recorded (R39, R42). -/
structure Judged where
  cam : Camera
  slot : Nat
  verdict : Verdict
  reason : FrameReason
  status : SideStatus
deriving DecidableEq, Repr

/-- What follows a review's records (R39 to R41). -/
inductive AfterReview
  | finish
  | retake (sides : Sides) (plan : Plan)
  | halt (kind : FaultKind) (sides : Sides)
deriving DecidableEq, Repr

/-- A review that waits for the acceptance of its first frame's record (R42). -/
structure Review where
  todo : List Judged
  after : AfterReview
deriving DecidableEq, Repr

/-- The exposure rules (R131). -/
structure Rules where
  target : Nat
  tolerance : Nat
  clip : Nat
deriving DecidableEq, Repr

/-- The calibration in flight (R123 to R125). `exposureDone`: its exposure has completed. `recorded`:
it has ended and its record is in the append list. -/
structure Calibration where
  ticket : Ticket
  target : Nat
  levels : List Nat
  exposure : Nat
  clamped : Bool
  exposureDone : Bool
  charge : Nat
  recorded : Bool
deriving DecidableEq, Repr

/-- The cycle controller (R28), with the exposure rules (R131) and the calibration in flight. -/
structure Cycle where
  state : CycleState
  sub : SubCondition
  run : Option RunRecord
  opening : Option OpeningRecord
  review : Option Review
  fault : Option FaultRecord
  camTimer : Option Nat
  rules : Rules
  cal : Option Calibration
deriving DecidableEq, Repr

/-! ## Leaf turner (spec/03) -/

/-- Turner states (03 section 3.1). -/
inductive TurnerState
  | rest | turning | hold | faulted
deriving DecidableEq, Repr

/-- Turner sub-conditions (R57). -/
inductive TurnerSub
  | none | retryPause | completing
deriving DecidableEq, Repr

/-- The class values a turn uses (R59). -/
structure TurnValues where
  vacuum : Nat
  grip : Nat
  hold : Nat
  mode : VacuumMode
  holdTimeout : Nat
  knife : Nat
  maxRetries : Nat
  settle : Nat
deriving DecidableEq, Repr

/-- A stage timer (R57): running since a time with so many ms left then, or suspended with its
remaining ms (R73). -/
inductive StageTimer
  | off
  | running (since : Nat) (left : Nat)
  | suspended (left : Nat)
deriving DecidableEq, Repr

/-- What ended or aborted a turn (R71, R77). -/
inductive ReportCause
  | fault (kind : FaultKind)
  | aborted (cause : StopCause)
deriving DecidableEq, Repr

/-- The turner's fault report (R57). -/
structure TurnReport where
  cause : ReportCause
  stage : Option Stage
  held : Bool
deriving DecidableEq, Repr

/-- PLATEN_DRIVE values. -/
inductive PlatenDrive
  | off | up | down
deriving DecidableEq, Repr

/-- ARM_DRIVE values. -/
inductive ArmDrive
  | off | toLeft | toPark
deriving DecidableEq, Repr

/-- The turner's outputs (R58); `vacuum` 0 is off. -/
structure TurnerOutputs where
  platen : PlatenDrive
  knife : Bool
  vacuum : Nat
  arm : ArmDrive
deriving DecidableEq, Repr

/-- The supply monitor's state (R75). -/
inductive SupplyState
  | ok | low
deriving DecidableEq, Repr

/-- The supply monitor's mode (R76). -/
inductive SupplyMode
  | notice | safeStop
deriving DecidableEq, Repr

/-- Profile group G6 (R79). -/
structure TurnerProfile where
  platen : Nat
  grip : Nat
  lift : Nat
  sweep : Nat
  goBack : Nat
  supplyLevel : Nat
  supplyMode : SupplyMode
deriving DecidableEq, Repr

/-- The leaf turner (R57, R75, R79). Timers hold times in microseconds: `stageTime` and `holdTimer`
the moment at which they end. -/
structure Turner where
  state : TurnerState
  stage : Option Stage
  sub : TurnerSub
  handle : Nat
  vals : TurnValues
  retry : Nat
  doubles : Nat
  stageTimer : StageTimer
  stageTime : Option Nat
  holdTimer : Option Nat
  report : Option TurnReport
  pendingTurn : Bool
  outputs : TurnerOutputs
  supply : SupplyState
  g6 : TurnerProfile
deriving DecidableEq, Repr

/-! ## Lighting unit (spec/04) -/

/-- Side maps (R81). -/
inductive SideMap
  | left | right | both | none
deriving DecidableEq, Repr

/-- Channel states (R81). -/
inductive ChannelState
  | off | rampUp | on | rampDown | failed
deriving DecidableEq, Repr

/-- A lamp channel record (R81); LAMP_DRIVE is `level`. While the channel is lit `litAt` is the moment
it left OFF on the exposure's clock and `nextStep` the moment of its next ramp step; once dark,
`onTime` is its on-time in whole ms. `wasLit`: it was lit in the exposure in flight (R94). -/
structure Channel where
  k : Nat
  sideMap : SideMap
  state : ChannelState
  level : Nat
  target : Nat
  onTime : Nat
  litAt : Option Nat
  nextStep : Nat
  wasLit : Bool
deriving DecidableEq, Repr

/-- Exposure phases (R87). -/
inductive Phase
  | none | admitted | rampUp | warm | capture | rampDown | ending
deriving DecidableEq, Repr

/-- Exposure kinds (R87). -/
inductive ExposureKind
  | first | retake | calibration
deriving DecidableEq, Repr

/-- The exposure record (R87). `triggered`: WARM has ended. `charged`: a rest loss has made the
charge (R95). -/
structure Exposure where
  phase : Phase
  kind : ExposureKind
  sides : Sides
  plan : Plan
  handle : Option Nat
  lampFault : Bool
  startedAt : Nat
  triggered : Bool
  charged : Bool
deriving DecidableEq, Repr

/-- The lighting unit (R81, R82, R87, R99). -/
structure Lighting where
  channels : List Channel
  rampRate : Nat
  warm : Nat
  exposure : Exposure
  calibrationDose : Nat
deriving DecidableEq, Repr

/-! ## Frame intake (spec/05) -/

/-- Slot states (R104). -/
inductive SlotState
  | free | armed | filling | filled
deriving DecidableEq, Repr

/-- How a frame ended (R104). -/
inductive FrameEnd
  | inFlight | complete | damaged | lost | aborted
deriving DecidableEq, Repr

/-- The frame record of a slot (R104). -/
structure Frame where
  number : Nat
  handle : Option Nat
  opening : Nat
  side : Option Nat
  retake : Nat
  ending : FrameEnd
  reason : FrameReason
  verdict : Option (Verdict × FrameReason)
  mean : Nat
  clip : Nat
  sum : Nat
  corrected : Bool
deriving DecidableEq, Repr

/-- A slot (R104); a FREE slot has no frame record. -/
structure Slot where
  state : SlotState
  frame : Option Frame
deriving DecidableEq, Repr

/-- Intake record states (R106). -/
inductive IntakeState
  | idle | waitFirst | receiving | draining
deriving DecidableEq, Repr

/-- The intake record of a camera (R106); `trigger` is none while CAM_TRIG is low, else the moment its
hold ends (R108); `timer` is the moment the frame timer expires. -/
structure IntakeRecord where
  state : IntakeState
  armed : Option Nat
  expected : Nat
  remaining : Nat
  dataError : Bool
  lamp : Bool
  table : List Nat
  corrected : Bool
  sum : Nat
  clip : Nat
  bands : List Nat
  trigger : Option Nat
  timer : Option Nat
deriving DecidableEq, Repr

/-- A gain load in flight (R121): the clamped halves returned so far, each with its count of values
clamped. -/
structure GainLoad where
  ticket : Ticket
  addr : Nat
  first : Option (List Nat × Nat)
  second : Option (List Nat × Nat)
  refused : Bool
deriving DecidableEq, Repr

/-- What the intake holds for one camera (R104, R106, R120, R121). -/
structure CamState where
  slots : List Slot
  intakeRec : IntakeRecord
  counter : Nat
  activeTable : List Nat
  pendingTable : List Nat
  pendingTableFlag : Bool
  activeCorrection : Bool
  pendingCorrection : Bool
  pendingCorrectionFlag : Bool
  load : Option GainLoad
deriving DecidableEq, Repr

/-- Profile group G1 (R102): W, H, S, the frame timeout and the camera-ready timeout. -/
structure Geometry where
  width : Nat
  height : Nat
  slots : Nat
  frameTimeout : Nat
  camReadyTimeout : Nat
deriving DecidableEq, Repr

/-- The frame intake. -/
structure Intake where
  geo : Geometry
  cams : PerCam CamState
  drops : Nat
  excess : Nat
deriving DecidableEq, Repr

/-! ## The whole machine -/

/-- The state of the part. `pending` is the queue of commands that wait, first in, first out; `now` is
the timebase in microseconds; `out` holds the upstream responses the command just taken gave (R159). -/
structure State where
  pending : List Instr
  now : Nat
  out : List (Txn × Response)
  lines : Lines
  start : Start
  transit : Transit
  req : RequestUnit
  vols : VolumeTable
  log : CaptureLog
  cycle : Cycle
  turner : Turner
  light : Lighting
  intake : Intake
deriving DecidableEq, Repr

/-- No command stops the machine with a fault: the spec gives every event an effect, or says that it
is not acted on. -/
inductive Fault
deriving DecidableEq, Repr

/-- Why a command has no meaning. -/
inductive Refusal
  /-- The command's arm of `exec` is not modelled yet; raised by `exec` only. Safe. No arm uses it. -/
  | notModelled (mnemonic : String)
deriving DecidableEq, Repr

/-! ## Reset values -/

/-- The region map after reset (R161). -/
def RegionMap.default : RegionMap where
  request := ⟨0x3FFF00000, 8 * 64, 0b0001#4⟩
  reply := ⟨0x3FFF01000, 64 * 64, 0#4⟩
  status := ⟨0x3FFF02000, 8 * 64, 0#4⟩
  log := ⟨0x3FFF10000, 4096 * 64, 0#4⟩
  apertureL := ⟨0x380000000, 134217728, 0b0010#4⟩
  apertureR := ⟨0x388000000, 134217728, 0b0100#4⟩
  slotPool := ⟨0x200000000, 402653184, 0b1001#4⟩

/-- The class table after reset (R7). -/
def ClassEntry.defaults : List ClassEntry :=
  [⟨12, 160, 120, .abort, 500, 120, 3, 2, 1023, 3000000, 80, 700, 150, false⟩,
   ⟨9, 120, 90, .abort, 500, 80, 3, 2, 900, 2000000, 100, 650, 250, false⟩,
   ⟨6, 90, 68, .hold, 1500, 50, 2, 1, 700, 1500000, 120, 600, 400, true⟩,
   ⟨4, 70, 52, .hold, 3000, 0, 1, 1, 500, 900000, 150, 450, 600, true⟩]

/-- The material map after reset (R6). -/
def VolumeTable.defaultMaterial : List Nat :=
  [0, 0, 0, 0, 1, 1, 1, 1, 2, 2, 2, 2, 3, 3, 3, 3]

/-- Group G1 after reset (R102). -/
def Geometry.default : Geometry := ⟨4096, 6144, 4, 1000, 2000⟩

/-- Group G5 after reset (R131). -/
def Rules.default : Rules := ⟨3000, 300, 66⟩

/-- Group G6 after reset (R79). -/
def TurnerProfile.default : TurnerProfile := ⟨3000, 800, 1500, 4000, 4000, 150, .notice⟩

/-- Every turner output at its rest value (R57). -/
def TurnerOutputs.atRest : TurnerOutputs := ⟨.off, false, 0, .off⟩

/-- The side maps after reset (R81). -/
def SideMap.defaults : List SideMap := [.left, .left, .right, .right, .none, .none]

/-- A channel record after reset (R81). -/
def Channel.dark (m : SideMap) : Channel := ⟨2000, m, .off, 0, 0, 0, .none, 0, false⟩

/-- No plan: the exposure record's plan before the first exposure (notes/assumptions/17.md). -/
def Plan.zero : Plan := ⟨[0, 0, 0, 0, 0, 0], 0, 0, 0⟩

/-- The exposure record after reset (R87). -/
def Exposure.idle : Exposure :=
  ⟨.none, .first, ⟨false, false⟩, Plan.zero, .none, false, 0, false, false⟩

/-- A slot that holds no frame (R104). -/
def Slot.empty : Slot := ⟨.free, .none⟩

/-- A gain table of 64 unit gains (R120). -/
def unitGains : List Nat := List.replicate 64 1024

/-- The intake record after reset (R106). -/
def IntakeRecord.idle : IntakeRecord :=
  ⟨.idle, .none, 0, 0, false, false, unitGains, true, 0, 0, List.replicate 64 0, .none, .none⟩

/-- What the intake holds for a camera with `n` slots after reset (R104, R106, R120). -/
def CamState.fresh (n : Nat) : CamState :=
  ⟨List.replicate n Slot.empty, IntakeRecord.idle, 0, unitGains, unitGains, false, true, true, false,
    .none⟩

/-- The state right after POWER_ON (R182, R183): every field at the value the spec states for reset;
what the spec leaves open as notes/assumptions/17.md says. -/
def State.reset : State where
  pending := []
  now := 0
  out := []
  lines := ⟨false, false, false, false, false, false, 0, 0, List.replicate 6 false, ⟨false, false⟩,
    false, false, false⟩
  start := ⟨.reset, .powerOn, false, 0, List.replicate 7 .none, 0#16, .nothing⟩
  transit := ⟨RegionMap.default, [], [], [], [], .own, [], 0, 0, 0, 0⟩
  req := ⟨0, false, false, .none, .none, 0, List.replicate 4 false, List.replicate 4 .none⟩
  vols := ⟨List.replicate 32 .none, VolumeTable.defaultMaterial, ClassEntry.defaults, .none⟩
  log := ⟨0, 0, [], 0, .armed, .none⟩
  cycle := ⟨.idle, .none, .none, .none, .none, .none, .none, Rules.default, .none⟩
  turner := ⟨.rest, .none, .none, 0, ⟨12, 160, 120, .abort, 500, 120, 3, 150⟩, 0, 0, .off, .none, .none,
    .none, false, TurnerOutputs.atRest, .ok, TurnerProfile.default⟩
  light := ⟨SideMap.defaults.map Channel.dark, 32, 40, Exposure.idle, 0⟩
  intake := ⟨Geometry.default, ⟨CamState.fresh 4, CamState.fresh 4⟩, 0, 0⟩

end Sys2Proof.Machine
end

