-- ==== Sys2Proof/Machine/Arith.lean ====
section
/-! DEFINITION. The exact whole-number computations of spec/06, and the saturating counters of
spec/00_scope.md "Counters". -/

namespace Sys2Proof.Machine

/-- The largest value of a 32-bit counter. -/
def max32 : Nat := 4294967295

/-- Addition of a saturating 32-bit counter (00_scope "Counters"). -/
def satAdd (a b : Nat) : Nat := min (a + b) max32

/-- A saturating counter raised by one. -/
def satSucc (a : Nat) : Nat := satAdd a 1

/-- A value clamped to lo..hi (00_scope "Arithmetic"). -/
def clampTo (lo hi v : Nat) : Nat := min hi (max lo v)

/-- ceil(a ÷ b). -/
def ceilDiv (a b : Nat) : Nat := (a + b - 1) / b

/-- Milliseconds as microseconds of the timebase. -/
def ms (n : Nat) : Nat := n * 1000

/-- Elapsed microseconds as whole milliseconds, a part counting as a whole one (R91). -/
def ceilMs (us : Nat) : Nat := ceilDiv us 1000

/-! ## Pixels (R126 to R128) -/

/-- The raw clamp of R126. -/
def rawClamp (p : Nat) : Nat := min p 4095

/-- The corrected value of a clamped pixel (R128). -/
def correctPixel (on : Bool) (gain p : Nat) : Nat :=
  if on then min 4095 ((p * gain + 512) / 1024) else p

/-- The band of the pixel at even frame offset `o` in an image `w` pixels wide (R127). -/
def bandOf (w o : Nat) : Nat := (o / 2 % w) * 64 / w

/-- The 32 clamped raw pixels of a line (R126). -/
def linePixels (data : List Byte) : List Nat :=
  (List.range 32).map fun i =>
    rawClamp ((data.getD (2 * i) 0#8).toNat + 256 * (data.getD (2 * i + 1) 0#8).toNat)

/-- The corrected pixels of the line at frame offset `o`, each with its band (R110, R127, R128). -/
def correctLine (w o : Nat) (table : List Nat) (on : Bool) (data : List Byte) : List (Nat × Nat) :=
  (linePixels data).zipIdx.map fun q =>
    let b := bandOf w (o + 2 * q.2)
    (b, correctPixel on (table.getD b 1024) q.1)

/-- Corrected pixels as the bytes of a line (R126). -/
def pixelBytes (px : List (Nat × Nat)) : Line :=
  px.flatMap fun q => [BitVec.ofNat 8 q.2, BitVec.ofNat 8 (q.2 / 256)]

/-- The band sums with the corrected pixels added (R129). -/
def addBands (bands : List Nat) (px : List (Nat × Nat)) : List Nat :=
  px.foldl (fun bs q => bs.set q.1 (bs.getD q.1 0 + q.2)) bands

/-- The sum of the corrected pixels. -/
def pixelSum (px : List (Nat × Nat)) : Nat := (px.map Prod.snd).sum

/-- How many corrected pixels equal 4095 (R129). -/
def pixelClips (px : List (Nat × Nat)) : Nat := px.countP fun q => q.2 == 4095

/-! ## Geometry (R102, R103) -/

/-- frame bytes = W × H × 2 (R102). -/
def Geometry.frameBytes (g : Geometry) : Nat := g.width * g.height * 2

/-- N, the pixel count of a frame (R102). -/
def Geometry.pixels (g : Geometry) : Nat := g.width * g.height

/-- The mean of a frame, over the full N (R130). -/
def Geometry.mean (g : Geometry) (sum : Nat) : Nat := sum / g.pixels

/-! ## Verdicts and trims (R133 to R136) -/

/-- The verdict of the exposure rules on a complete frame (R133). -/
def Rules.judge (r : Rules) (pixels mean clip : Nat) : Verdict × FrameReason :=
  if r.clip * pixels < clip * 65536 then (.rejected, .clipped)
  else if mean + r.tolerance < r.target then (.rejected, .low)
  else if r.target + r.tolerance < mean then (.rejected, .high)
  else (.accepted, .none)

/-- The trim factor of a REJECTED side (R134). -/
def trimFactor (target : Nat) (reason : FrameReason) (mean : Nat) : Nat :=
  match reason with
  | .clipped => 896
  | _ => clampTo 256 4096 ((1024 * target + mean / 2) / max mean 1)

/-- A level trimmed for a retake (R135); a dark channel stays dark. -/
def trimLevel (ceiling level f : Nat) : Nat :=
  if level = 0 then 0 else min ceiling (max 1 ((level * f + 512) / 1024))

/-- What a retake does with one side: not in it, DAMAGED, or REJECTED with a factor (R136). -/
inductive SideTrim
  | out
  | damaged
  | rejected (f : Nat)
deriving DecidableEq, Repr

/-- The planned level in a retake of a channel that had `level` (R85, R136). -/
def retakeLevel (ceiling level : Nat) (m : SideMap) (l r : SideTrim) : Nat :=
  let own : SideTrim → Nat
    | .out => 0
    | .damaged => min ceiling level
    | .rejected f => trimLevel ceiling level f
  match m with
  | .none => 0
  | .left => own l
  | .right => own r
  | .both =>
    match l, r with
    | .rejected f, .rejected g => trimLevel ceiling level (min f g)
    | .rejected f, _ | _, .rejected f => trimLevel ceiling level f
    | .out, .out => 0
    | _, _ => min ceiling level

/-! ## Calibration gains (R137, R138) -/

/-- The gain of a band with sum `sum`, whether it was clamped, whether it is dark. -/
def bandGain (g : Geometry) (target sum : Nat) : Nat × Bool × Bool :=
  let mean := sum / (g.width / 64 * g.height)
  if mean < 64 then (4095, false, true)
  else
    let raw := (1024 * target + mean / 2) / mean
    (clampTo 512 4095 raw, raw != clampTo 512 4095 raw, false)

/-- A gain that came from memory, clamped on arrival (R121). -/
def clampGain (v : Nat) : Nat := clampTo 512 4095 v

/-! ## Dose (R139 to R143) -/

/-- r_c = ceil(v_c ÷ ρ) ms (R90, R139). -/
def rampTime (rate level : Nat) : Nat := ceilDiv level rate

/-- t_c = 2 × r_c + w + e ms (R139). -/
def plannedOnTime (rate warm time level : Nat) : Nat := 2 * rampTime rate level + warm + time

/-- dose_c = ceil(v_c × K_c × t ÷ 1000) lux·ms (R140). -/
def dose (level k t : Nat) : Nat := ceilDiv (level * k * t) 1000

/-- D_pred over the channels with constants `ks` at planned `levels`; a channel at level 0 has no term
(R141). -/
def predictedDose (rate warm time : Nat) : List Nat → List Nat → Nat
  | v :: vs, k :: ks =>
    (if v = 0 then 0 else dose v k (plannedOnTime rate warm time v)) +
      predictedDose rate warm time vs ks
  | _, _ => 0

/-- The ramp span: the largest ramp time among the needed channels, 0 when none is needed (R90). -/
def rampSpan (rate : Nat) (levels : List Nat) : Nat :=
  levels.foldl (fun a v => max a (rampTime rate v)) 0

end Sys2Proof.Machine
end

