-- ==== Sys2Proof/Machine/Layout.lean ====
section
/-! DEFINITION. Byte layouts and codes of every line and record (spec/11), and the check word (R149). -/

namespace Sys2Proof.Machine

/-! ## Bytes and fields -/

/-- Fields of a line: byte offset and bytes. -/
abbrev Fields := List (Nat × List Byte)

/-- A number as `n` little-endian bytes (00_scope "Byte order"). -/
def le : Nat → Nat → List Byte
  | 0, _ => []
  | n + 1, v => BitVec.ofNat 8 v :: le n (v / 256)

/-- A one-byte field. -/
def u8 (v : Nat) : List Byte := le 1 v
/-- A u16 field. -/
def u16 (v : Nat) : List Byte := le 2 v
/-- A u32 field. -/
def u32 (v : Nat) : List Byte := le 4 v
/-- A yes/no field (R188). -/
def yes (b : Bool) : List Byte := u8 (if b then 1 else 0)

/-- The byte the fields put at offset `i`, 0 where none does (R189). -/
def byteAt : Fields → Nat → Byte
  | [], _ => 0#8
  | (off, bs) :: rest, i => if off ≤ i ∧ i < off + bs.length then bs.getD (i - off) 0#8 else byteAt rest i

/-- The 64-byte line with these fields, 0 elsewhere (R189). -/
def compose (fs : Fields) : Line := (List.range 64).map (byteAt fs)

/-- The byte at an offset of a line read, as a number. -/
def rd8 (l : Line) (o : Nat) : Nat := (l.getD o 0#8).toNat
/-- The u16 at an offset. -/
def rd16 (l : Line) (o : Nat) : Nat := rd8 l o + 256 * rd8 l (o + 1)
/-- The u32 at an offset. -/
def rd32 (l : Line) (o : Nat) : Nat := rd16 l o + 65536 * rd16 l (o + 2)
/-- The 8-byte field at an offset. -/
def rd64 (l : Line) (o : Nat) : Nat := rd32 l o + 4294967296 * rd32 l (o + 4)

/-- `n` consecutive u16 fields from an offset. -/
def rd16s (l : Line) (o n : Nat) : List Nat := (List.range n).map fun i => rd16 l (o + 2 * i)

/-! ## Codes (R188): the position of a value in its list -/

def Verdict.code : Verdict → Nat
  | .accepted => 0 | .marginal => 1 | .rejected => 2 | .damaged => 3 | .lost => 4 | .aborted => 5

def FrameReason.code : FrameReason → Nat
  | .none => 0 | .low => 1 | .high => 2 | .clipped => 3 | .sequence => 4 | .partialLine => 5
  | .dataError => 6 | .lamp => 7 | .timeout => 8

def Stage.code : Option Stage → Nat
  | .none => 0 | some .platenRise => 1 | some .separate => 2 | some .grip => 3 | some .lift => 4
  | some .sweep => 5 | some .release => 6 | some .returning => 7 | some .platenLower => 8
  | some .settle => 9

def FaultKind.code : FaultKind → Nat
  | .notAtRest => 1 | .cameraNotReady => 2 | .doseLimit => 3 | .lampFault => 4 | .cameraTimeout => 5
  | .captureFault => 6 | .marginalHalt => 7 | .platenTimeout => 8 | .gripFail => 9 | .doubleLeaf => 10
  | .liftTimeout => 11 | .leafDropped => 12 | .sweepTimeout => 13 | .vacuumLow => 14
  | .returnTimeout => 15 | .turnAborted => 16 | .supplyLow => 17

def FaultClass.code : FaultClass → Nat
  | .capture => 0 | .turn => 1

def Sides.code (s : Sides) : Nat := (if s.left then 1 else 0) + (if s.right then 2 else 0)

def CycleState.code : CycleState → Nat
  | .idle => 0 | .prepare => 1 | .expose => 2 | .review => 3 | .turn => 4 | .paused => 5
  | .halted => 6 | .calibrate => 7

def SubCondition.code : SubCondition → Nat
  | .none => 0 | .waitSlot => 1 | .waitLog => 2 | .waitCamera => 3

def ResumePoint.code : ResumePoint → Nat
  | .beginOpening => 0 | .prepare => 1 | .turn => 2

def RunKind.code : RunKind → Nat
  | .run => 0 | .step => 1

def StopCause.code : StopCause → Nat
  | .stop => 0 | .haltIn => 1 | .supplyLow => 2

def SideStatus.code : SideStatus → Nat
  | .wanted => 0 | .pending => 1 | .settled => 2 | .passed => 3

def VolState.code : VolState → Nat
  | .registered => 0 | .active => 1 | .suspended => 2 | .closed => 3

def VolumeEvent.code : VolumeEvent → Nat
  | .activate => 0 | .suspend => 1 | .close => 2

def Coverage.code : Coverage → Nat
  | .absent => 0 | .marginal => 1 | .taken => 2

def CalCause.code : CalCause → Nat
  | .none => 0 | .cameraNotReady => 1 | .refusedLamp => 2 | .notAtRest => 3 | .damaged => 4
  | .lost => 5 | .stop => 6 | .haltIn => 7 | .supplyLow => 8

def cameraCode : Camera → Nat
  | .left => 0 | .right => 1

def TurnerState.code : TurnerState → Nat
  | .rest => 0 | .turning => 1 | .hold => 2 | .faulted => 3

def TurnerSub.code : TurnerSub → Nat
  | .none => 0 | .retryPause => 1 | .completing => 2

def SupplyState.code : SupplyState → Nat
  | .ok => 0 | .low => 1

def SupplyMode.code : SupplyMode → Nat
  | .notice => 0 | .safeStop => 1

def ChannelState.code : ChannelState → Nat
  | .off => 0 | .rampUp => 1 | .on => 2 | .rampDown => 3 | .failed => 4

def SlotState.code : SlotState → Nat
  | .free => 0 | .armed => 1 | .filling => 2 | .filled => 3

def ResetCause.code : ResetCause → Nat
  | .powerOn => 0 | .lineReset => 1

/-- A group not yet settled is never shown: no line is written before READY. -/
def LoadResult.code : Option LoadResult → Nat
  | some .loaded => 0 | some .defaulted => 1 | some .rejected => 2 | .none => 1

/-- The outcomes a reply carries (R176). -/
inductive ReplyOutcome
  | done | accepted | failed | refused
deriving DecidableEq, Repr

def ReplyOutcome.code : ReplyOutcome → Nat
  | .done => 0 | .accepted => 1 | .failed => 2 | .refused => 3

/-- The reasons of a REFUSED reply (R176). -/
inductive Reason
  | unknownKind | badField | range | state | busy | noVolume | activeExists | tableFull | duplicate
  | closed | mismatch | logFull | slotsHeld | haltActive | endOfVolume | supplyLow
deriving DecidableEq, Repr

def Reason.code : Reason → Nat
  | .unknownKind => 1 | .badField => 2 | .range => 3 | .state => 4 | .busy => 5 | .noVolume => 6
  | .activeExists => 7 | .tableFull => 8 | .duplicate => 9 | .closed => 10 | .mismatch => 11
  | .logFull => 12 | .slotsHeld => 13 | .haltActive => 14 | .endOfVolume => 15 | .supplyLow => 16

/-- The notices (R177). -/
inductive NoticeKind
  | ready | stopOpeningReached | runComplete | openingCaptured | cyclePaused | cycleStopped
  | cycleHalted | supplyLow | logLow
deriving DecidableEq, Repr

def NoticeKind.code : NoticeKind → Nat
  | .ready => 0 | .stopOpeningReached => 1 | .runComplete => 2 | .openingCaptured => 3
  | .cyclePaused => 4 | .cycleStopped => 5 | .cycleHalted => 6 | .supplyLow => 7 | .logLow => 8

/-- A handle, slot or override that may be none: $FF (R188). -/
def orFF (v : Option Nat) : Nat := v.getD 0xFF

/-! ## Fault record, replies and notices (R191) -/

/-- The fault record's fields at an offset; an empty record is 12 zero bytes. -/
def faultFields (o : Nat) : Option FaultRecord → Fields
  | .none => []
  | some f =>
    [(o, u8 f.kind.code), (o + 1, u8 f.cls.code), (o + 2, u8 f.handle), (o + 3, u8 (Stage.code f.stage)),
     (o + 4, u8 f.sides.code), (o + 6, u16 f.opening), (o + 8, u32 f.time)]

/-- The fields of a reply but for its number (R175, R191). -/
def replyFields (t : Ticket) (o : ReplyOutcome) (reason : Nat) (clamped extended : Bool)
    (results : Fields) : Fields :=
  [(4, u8 0), (5, [t.kind]), (6, u16 t.tag.toNat), (8, [t.handle]), (9, u8 o.code), (10, u8 reason),
   (11, u8 ((if clamped then 1 else 0) + (if extended then 2 else 0)))] ++ results

/-- The fields of a notice but for its number (R177, R191). -/
def noticeFields (k : NoticeKind) (contents : Fields) : Fields :=
  [(4, u8 1), (5, u8 k.code)] ++ contents

/-- One side in OPENING_CAPTURED: status, verdict ($FF where never exposed), reason, slot (R191). A side without
a result shows as never exposed, though its frame was aborted before any record (notes/assumptions/57.md). -/
def sideFields (o : Nat) (r : SideRecord) : Fields :=
  match r.last with
  | .none => [(o, u8 r.status.code), (o + 1, u8 0xFF), (o + 2, u8 0), (o + 3, u8 0xFF)]
  | some l =>
    [(o, u8 r.status.code), (o + 1, u8 l.verdict.code), (o + 2, u8 l.reason.code),
     (o + 3, u8 (orFF l.slot))]

/-! ## Log records (R149, R193) -/

/-- Ones'-complement addition of 16-bit words (R149). -/
def onesAdd (a b : Nat) : Nat := if a + b < 65536 then a + b else a + b - 65535

/-- The ones'-complement sum of the first `n` words of a line (R149). -/
def onesSum (l : Line) (n : Nat) : Nat := (rd16s l 0 n).foldl onesAdd 0

/-- A line with its check word in bytes 62 and 63 (R149). -/
def withCheckWord (fs : Fields) : Line :=
  compose ((62, u16 (65535 - onesSum (compose fs) 31)) :: fs)

/-- A record is good when the sum of all its 32 words is $FFFF (R149). -/
def goodRecord (l : Line) : Bool := onesSum l 32 == 65535

/-- The kind code of an append (R188). -/
def Append.kindCode : Append → Nat
  | .frame _ => 0 | .turn _ => 1 | .volume _ => 2 | .fault _ => 3 | .calibration _ => 4

/-- The volume handle a record carries; CALIBRATION carries none (R147). -/
def Append.handle : Append → Option Nat
  | .frame b => some b.handle
  | .turn b => some b.handle
  | .volume b => some b.handle
  | .fault b => some b.handle
  | .calibration _ => none

/-- One camera of a CALIBRATION record. -/
def calCamFields (o : Nat) (c : CalCamera) : Fields :=
  [(o, u32 c.number), (o + 4, u16 c.mean), (o + 6, u8 c.clamped), (o + 7, u8 c.dark)]

/-- The contents of a record from byte 12 on (R193). -/
def Append.fields : Append → Fields
  | .frame b =>
    [(12, u16 b.opening), (14, u16 b.side), (16, u8 (cameraCode b.cam)), (17, u8 b.slot),
     (18, u32 b.number), (22, u8 b.verdict.code), (23, u8 b.reason.code), (24, u16 b.mean),
     (26, u32 b.clip), (30, u8 b.retake), (31, yes b.corrected), (32, u32 b.charge),
     (36, yes b.repeated)]
  | .turn b =>
    [(12, u16 b.opening), (14, u8 b.retry), (15, u8 b.doubles), (16, yes b.byHand)]
  | .volume b =>
    [(12, u8 b.event.code), (14, u16 b.cursor), (16, u32 b.doseUsed), (20, u16 b.sidesCovered),
     (22, b.mark)]
  | .fault b => faultFields 12 (some b)
  | .calibration b =>
    [(12, u8 (if b.done then ReplyOutcome.done.code else ReplyOutcome.failed.code)),
     (13, u8 b.cause.code), (14, u16 b.target), (16, b.levels.flatMap u16), (28, u16 b.exposure),
     (30, u32 b.charge)] ++ calCamFields 34 b.cams.left ++ calCamFields 42 b.cams.right

/-- The record line of an append accepted with number `n` at `time` ms since READY (R193). -/
def recordLine (a : Append) (n time : Nat) : Line :=
  withCheckWord ([(0, u8 a.kindCode), (1, u8 (orFF a.handle)), (4, u32 n), (8, u32 time)] ++ a.fields)

/-! ## Snapshot and coverage-dump lines (R26, R27, R192) -/

/-- Snapshot line 4. -/
def snapshotLine4 (ready : Bool) (handle cls : Nat) (t : Ticket) (v : Volume) : Line :=
  compose [(0, yes ready), (1, u8 handle), (2, u16 t.tag.toNat), (4, u8 v.state.code), (5, u8 v.material),
    (6, u8 (orFF v.override)), (7, u8 cls), (8, v.mark)]

/-- Snapshot line 5; with base levels absent their bytes are 0 (notes/assumptions/52.md). -/
def snapshotLine5 (v : Volume) : Line :=
  compose [(0, u16 v.leaves), (2, u16 v.cursor), (4, u32 v.budget), (8, u32 v.doseUsed),
    (12, u32 v.openingDose), (16, u16 (v.exposureTime.getD 0)), (18, yes v.baseLevels.isSome),
    (20, (v.baseLevels.getD []).flatMap u16)]

/-- Snapshot line 6: the ten counters. -/
def snapshotLine6 (v : Volume) : Line :=
  compose [(0, [v.sidesCovered, v.framesAccepted, v.framesMarginal, v.framesRejected, v.framesDamaged,
    v.retakes, v.repeatFrames, v.turnsDone, v.turnFaults, v.doubleLeafEvents].flatMap u32)]

/-- Snapshot line 7. -/
def snapshotLine7 (v : Volume) (mapAddress mapLines : Nat) : Line :=
  compose [(0, u16 (v.coverage.count .absent)), (2, u16 (v.coverage.count .marginal)),
    (4, u16 (v.coverage.count .taken)), (8, u32 v.firstRecord), (12, u32 v.lastRecord),
    (16, le 8 mapAddress), (24, u8 mapLines)]

/-- The number of coverage-dump lines of a volume: ceil((2L+2)/256) (R27). -/
def mapLineCount (v : Volume) : Nat := ceilDiv (2 * v.leaves + 2) 256

/-- Coverage-dump line `j`: side s in line s/256, byte (s mod 256)/4, bit pair s mod 4 (R27). -/
def coverageLine (c : List Coverage) (j : Nat) : Line :=
  (List.range 64).map fun i =>
    let code (p : Nat) : Nat := (c.getD (256 * j + 4 * i + p) .absent).code
    BitVec.ofNat 8 (code 0 + 4 * code 1 + 16 * code 2 + 64 * code 3)

end Sys2Proof.Machine
end

