-- ==== Sys2Proof/Machine/Flags.lean ====
section
/-! DEFINITION. Status lines 0 to 3 as composed from the current values (R180, R192), and the small
readings of State they show. -/

namespace Sys2Proof.Machine

/-- The value of one camera. -/
def PerCam.get {α : Type} (p : PerCam α) : Camera → α
  | .left => p.left
  | .right => p.right

/-- A value per camera with one replaced. -/
def PerCam.set {α : Type} (p : PerCam α) (c : Camera) (a : α) : PerCam α :=
  match c with
  | .left => { p with left := a }
  | .right => { p with right := a }

/-- Whether a side is in a set. -/
def Sides.has (s : Sides) : Camera → Bool
  | .left => s.left
  | .right => s.right

/-- The number of sides in a set. -/
def Sides.size (s : Sides) : Nat := (if s.left then 1 else 0) + (if s.right then 1 else 0)

/-- The cameras, left first. -/
def cameras : List Camera := [.left, .right]

/-- The cameras of a side set, left first. -/
def Sides.list (s : Sides) : List Camera := cameras.filter s.has

/-- The side set of the cameras that satisfy a test. -/
def sidesWhere (p : Camera → Bool) : Sides := ⟨p .left, p .right⟩

/-- The record at a handle, if the handle is in use (R1). -/
def VolumeTable.get (t : VolumeTable) (h : Nat) : Option Volume := t.table.getD h none

/-- Whether a place of the table holds the ACTIVE record. -/
def isActive : Option Volume → Bool
  | some v => v.state == .active
  | none => false

/-- The handle of the active volume, if there is one (R10). -/
def VolumeTable.activeHandle (t : VolumeTable) : Option Nat := t.table.findIdx? isActive

/-- The active volume with its handle (R10). -/
def VolumeTable.active (t : VolumeTable) : Option (Nat × Volume) :=
  t.activeHandle.bind fun h => (t.get h).map fun v => (h, v)

/-- The cursor of the active record, 0 when none is active (R192). -/
def VolumeTable.cursor (t : VolumeTable) : Nat := (t.active.map fun p => p.2.cursor).getD 0

/-- The pause-pending mark (R28). -/
def Cycle.pausePending (c : Cycle) : Bool := (c.run.map fun r => r.pausePending).getD false

/-- Slot states at 2 bits per slot, positions past the last slot FREE (R180, R192). -/
def slotBits : List Slot → Nat
  | [] => 0
  | x :: rest => x.state.code + 4 * slotBits rest

/-- The content of status line `k` from the current values (R180, R192). -/
def statusLine (k : Nat) (s : State) : Line :=
  match k with
  | 0 =>
    compose
      [(0, u8 s.start.cause.code), (1, yes s.start.runningMark),
       (2, s.start.loadResult.flatMap fun r => u8 (LoadResult.code r)),
       (9, u8 s.cycle.state.code), (10, u8 s.cycle.sub.code), (11, yes s.cycle.pausePending),
       (12, u8 (orFF s.vols.activeHandle)), (14, u16 s.vols.cursor), (16, u32 s.req.newest),
       (20, u32 s.log.appended), (24, u32 s.log.taken), (28, u32 s.log.unloggedFaults)]
  | 1 =>
    compose (faultFields 0 s.cycle.fault ++
      [(12, u8 s.turner.state.code), (13, u8 (Stage.code s.turner.stage)), (14, u8 s.turner.sub.code),
       (15, yes (s.turner.state == .hold)), (16, u8 s.turner.supply.code),
       (17, u8 s.turner.g6.supplyMode.code), (18, s.light.channels.flatMap fun c => u8 c.state.code),
       (24, s.light.channels.flatMap fun c => u16 c.level)])
  | 2 =>
    compose
      [(0, u32 s.transit.refusedWrites), (4, u32 s.intake.drops), (8, u32 s.intake.excess),
       (12, u32 s.req.partialRequests), (16, u32 s.light.calibrationDose)]
  | _ =>
    let l := s.intake.cams.left
    let r := s.intake.cams.right
    compose
      [(0, u32 (slotBits l.slots)), (4, u32 (slotBits r.slots)),
       (8, yes l.pendingTableFlag), (9, yes l.pendingCorrectionFlag), (10, yes l.activeCorrection),
       (11, yes r.pendingTableFlag), (12, yes r.pendingCorrectionFlag), (13, yes r.activeCorrection)]

end Sys2Proof.Machine
end

