-- ==== Sys2Proof/Machine/Ops.lean ====
section
/-! DEFINITION. The operations every command is built from: its arrival, windows of the region map, the
own-traffic queue and its wait list, status lines, replies and notices. -/

namespace Sys2Proof.Machine

/-! ## Arrival of a command -/

/-- An input line after a quiet change (notes/assumptions/2.md). -/
def applyQuiet (l : Lines) : QuietChange → Lines
  | .platenUpInactive => { l with platenUp := false }
  | .armAtLeftInactive => { l with armAtLeft := false }
  | .doubleSenseInactive => { l with doubleSense := false }
  | .camReadyInactive c => { l with camReady := l.camReady.set c false }
  | .haltInInactive => { l with haltIn := false }
  | .lampOkActive c => { l with lampOk := l.lampOk.set c.val true }

/-- The state at the moment a command is taken: the timebase and the quiet changes brought up to it,
and no response given yet (notes/assumptions/1.md). -/
def arrive (m : Moment) (s : State) : State :=
  { s with
    now := s.now + m.elapsed
    lines := m.quiet.foldl applyQuiet s.lines
    out := [] }

/-- In PLATEN_RISE and in a retry pause ARM_DRIVE is TO_PARK exactly while ARM_PARKED is inactive (R58,
R61, R70). -/
def refreshPark (s : State) : State :=
  if s.turner.state = .turning ∧
      (s.turner.stage = some .platenRise ∨ s.turner.sub = .retryPause) then
    { s with turner := { s.turner with
      outputs := { s.turner.outputs with arm := if s.lines.armParked then .off else .toPark } } }
  else s

/-- The ms count since READY, 32 bits that wrap (R147). -/
def State.sinceReady (s : State) : Nat := ((s.now - s.start.readyAt) / 1000) % 4294967296

/-- Whether the part is READY (R182). -/
def State.ready (s : State) : Bool := s.start.phase == .ready

/-- A response given to an upstream requester (R159). -/
def respond (x : Txn) (r : Response) (s : State) : State := { s with out := s.out ++ [(x, r)] }

/-! ## The region map (R161) -/

/-- Whether an address lies inside a window (00_scope "Addresses"). -/
def Window.holds (w : Window) (a : Nat) : Bool := w.base ≤ a && a < w.base + w.len

/-- The seven windows, in the order of R195. -/
def RegionMap.windows (m : RegionMap) : List Window :=
  [m.request, m.reply, m.status, m.log, m.apertureL, m.apertureR, m.slotPool]

/-- Whether an address lies inside any window. -/
def RegionMap.inside (m : RegionMap) (a : Nat) : Bool := m.windows.any fun w => w.holds a

/-- CAP, the number of records the log holds (R145). -/
def State.cap (s : State) : Nat := s.transit.map.log.len / 64

/-- The address of record `n` (R146). -/
def State.recordAddr (s : State) (n : Nat) : Nat := s.transit.map.log.base + (n - 1) % s.cap * 64

/-- The address of STATUS line `k`. -/
def State.statusAddr (s : State) (k : Nat) : Nat := s.transit.map.status.base + k * 64

/-- The address of the line of reply list entry `n` (R178). -/
def State.entryAddr (s : State) (n : Nat) : Nat := s.transit.map.reply.base + (n - 1) % 64 * 64

/-! ## The own-traffic queue and the wait list (R168, R169) -/

/-- Whether a new item finds a place: the queue is not full and nothing waits before it (R168). -/
def Transit.hasPlace (t : Transit) : Bool := t.queue.length < 16 && t.wait.isEmpty

/-- An entry joins the queue at its end. -/
def enqueue (addr : Nat) (content : Option Line) (origin : Origin) (id : Nat) (s : State) : State :=
  { s with transit := { s.transit with queue := s.transit.queue ++ [⟨id, addr, content, origin⟩] } }

/-- An item joins the wait list at its end. -/
def waitFor (w : Waiting) (id : Nat) (s : State) : State :=
  { s with transit := { s.transit with wait := s.transit.wait ++ [⟨id, w⟩] } }

/-- The next own item's number is used up. -/
def bumpId (s : State) : State := { s with transit := { s.transit with nextId := s.transit.nextId + 1 } }

/-- A composed write is placed, or waits for a place (R168). -/
def placeWrite (addr : Nat) (content : Line) (origin : Origin) (s : State) : State :=
  let id := s.transit.nextId
  if s.transit.hasPlace then enqueue addr (some content) origin id (bumpId s)
  else waitFor (.write addr content origin) id (bumpId s)

/-! ## Status lines (R169, R181) -/

/-- Status line `k` was composed with this content. -/
def setShown (k : Nat) (l : Line) (s : State) : State :=
  { s with req := { s.req with shown := s.req.shown.set k (some l) } }

/-- The dirty mark of status line `k` (R181). -/
def setDirty (k : Nat) (b : Bool) (s : State) : State :=
  { s with req := { s.req with dirty := s.req.dirty.set k b } }

/-- An entry with the content of a status line's queued write replaced in place (R169). -/
def coalesce (k : Nat) (l : Line) (e : OwnEntry) : OwnEntry :=
  if e.origin = .status k then { e with content := some l } else e

/-- Status line `k` is brought up to date (R181): into its queued write in place; left to the item
that waits, marked dirty; or placed as a new write. -/
def placeStatus (k : Nat) (s : State) : State :=
  let l := statusLine k s
  if s.transit.queue.any fun e => e.origin == .status k then
    setShown k l
      { s with transit := { s.transit with queue := s.transit.queue.map (coalesce k l) } }
  else if s.transit.wait.any fun w => w.what == .status k then setDirty k true s
  else if s.transit.hasPlace then
    setShown k l (enqueue (s.statusAddr k) (some l) (.status k) s.transit.nextId (bumpId s))
  else setDirty k true (waitFor (.status k) s.transit.nextId (bumpId s))

/-- Status line `k` is brought up to date if a value it shows has changed since it was last composed;
before its first write at READY there is nothing to do (R181, R187). -/
def syncLine (k : Nat) (s : State) : State :=
  match s.req.shown.getD k none with
  | none => s
  | some l => if l = statusLine k s then s else placeStatus k s

/-- The status lines whose values have changed are brought up to date (R181). Done at each placing of own
traffic, after each entry and at a step's end, and inside a step wherever a line changes after one of a higher
number, so that the writes are placed in the order of the changes (notes/assumptions/14.md). -/
def sync (s : State) : State := syncLine 3 (syncLine 2 (syncLine 1 (syncLine 0 s)))

/-! ## Replies and notices (R175 to R179) -/

/-- An entry of the reply list takes the next number, its line is composed with that number and placed, and
NOTICE_OUT rises (R178 steps 1 to 4, R179). -/
def placeEntry (fs : Fields) (origin : Origin) (s : State) : State :=
  let n := satSucc s.req.newest
  let line := compose ((0, u32 n) :: fs)
  let addr := s.entryAddr n
  placeWrite addr line origin
    { s with
      req := { s.req with
        newest := n
        noticeOut := true
        newestIssued := false
        newestId := some s.transit.nextId
        newestLine := some addr } }

/-- An entry of the reply list is written (R178): the status lines of what came before it are placed
first, and status line 0 follows with the new newest number (R181; notes/assumptions/14.md). -/
def writeEntry (fs : Fields) (origin : Origin) (s : State) : State := sync (placeEntry fs origin (sync s))

/-- A notice (R177). -/
def notice (k : NoticeKind) (contents : Fields) (s : State) : State :=
  writeEntry (noticeFields k contents) .entry s

/-- A REFUSED reply with its reason (R176). -/
def refuse (t : Ticket) (r : Reason) (s : State) : State :=
  writeEntry (replyFields t .refused r.code false false []) .entry s

/-- A DONE reply (R176). -/
def replyDone (t : Ticket) (clamped : Bool) (results : Fields) (s : State) : State :=
  writeEntry (replyFields t .done 0 clamped false results) .entry s

/-! ## Running a command -/

/-- A command's outcome: it arrives, has its effect, and the status lines it changed are brought up to
date. -/
def takeCommand (m : Moment) (f : State → State) (s : State) : Host.Outcome State Fault Refusal :=
  .next (sync (f (arrive m s)))

end Sys2Proof.Machine
end

