-- ==== Sys2Proof/Machine/Log.lean ====
section
/-! DEFINITION. Held reads and their release (R171, R179), volume updates, and the capture log's
operations: free room, requests, acceptance, withdrawal, verification (spec/07). -/

namespace Sys2Proof.Machine

/-! ## Held reads -/

/-- Whether two addresses lie in one line. -/
def sameLine (a b : Nat) : Bool := a / 64 == b / 64

/-- A read is forwarded: a STATION read of the newest entry's line after its write has been issued
lowers NOTICE_OUT (R179). -/
def readForwarded (x : Txn) (s : State) : State :=
  match s.req.newestLine with
  | some a =>
    if x.requester = .station ∧ s.req.newestIssued ∧ sameLine a x.addr.toNat ∧ s.ready then
      { s with req := { s.req with noticeOut := false } }
    else s
  | none => s

/-- A released read's place in the stream: behind the last upstream write to its line that arrived
before it, else at the head (R171). -/
def insertReleased (r : Passed) : List Passed → List Passed
  | [] => [r]
  | p :: rest =>
    if (p :: rest).any fun q => q.write && q.seq < r.seq && sameLine q.txn.addr.toNat r.txn.addr.toNat then
      p :: insertReleased r rest
    else r :: p :: rest

/-- The held reads noted against own write `id` enter the forwarded stream, taking their places in the
order they arrived (R171). -/
def releaseHolds (id : Nat) (s : State) : State :=
  let freed := (s.transit.holds.filter fun h => h.waitsFor == id).map Hold.read
  let s := { s with
    transit := { s.transit with
      holds := s.transit.holds.filter fun h => h.waitsFor != id
      stream := freed.foldr insertReleased s.transit.stream } }
  freed.foldl (fun s r => readForwarded r.txn s) s

/-! ## Volume updates -/

/-- The record at a handle is changed, if the handle is in use. -/
def updVol (h : Nat) (f : Volume → Volume) (s : State) : State :=
  match s.vols.get h with
  | some v => { s with vols := { s.vols with table := s.vols.table.set h (some (f v)) } }
  | none => s

/-- The active record is changed, if there is one. -/
def updActive (f : Volume → Volume) (s : State) : State :=
  match s.vols.activeHandle with
  | some h => updVol h f s
  | none => s

/-- The effective class of a record (R5). -/
def VolumeTable.classOf (t : VolumeTable) (v : Volume) : Nat :=
  v.override.getD (t.material.getD v.material 0)

/-- The class table entry of a class (R7). -/
def VolumeTable.entry (t : VolumeTable) (c : Nat) : ClassEntry :=
  t.classes.getD c (ClassEntry.defaults.headD ⟨1, 0, 0, .abort, 1, 0, 0, 0, 0, 1, 1, 0, 0, false⟩)

/-- The class entry of the active record's effective class. -/
def State.activeClass (s : State) : Option ClassEntry :=
  s.vols.active.map fun p => s.vols.entry (s.vols.classOf p.2)

/-- A record with handle `h` and number `n` was accepted (R21). -/
def touchRecords (n : Nat) (v : Volume) : Volume :=
  { v with firstRecord := if v.firstRecord = 0 then n else v.firstRecord, lastRecord := n }

/-! ## Free room (R152, R155) -/

/-- The log's free room; 0 once the numbers are used up (R146, R152). -/
def State.freeRoom (s : State) : Nat :=
  if s.log.appended = max32 then 0
  else s.cap - (s.log.appended - s.log.taken) - s.log.appends.length

/-- The LOG_LOW test (R155). -/
def lowTest (s : State) : State :=
  if s.log.lowMark = .armed ∧ s.freeRoom ≤ s.cap / 8 then
    notice .logLow [(12, u32 s.log.appended), (16, u32 s.log.taken), (20, u32 s.freeRoom)]
      { s with log := { s.log with lowMark := .spent } }
  else s

/-- The LOG_LOW mark re-arms when free room rises above CAP/4 (R155). -/
def rearm (s : State) : State :=
  if s.cap / 4 < s.freeRoom then { s with log := { s.log with lowMark := .armed } } else s

/-! ## Appending (R150) -/

/-- The next append, if there is one that can ever be accepted, becomes an item of the wait list
(R150, R168; notes/assumptions/13.md), behind the status lines of what came before (R181). -/
def markNextAppend (s : State) : State :=
  if s.log.appends = [] ∨ s.log.appended = max32 then s
  else
    let s := sync s
    waitFor .append s.transit.nextId (bumpId s)

/-- The head append is accepted, its write being own item `id` (R150). The record in use at its handle takes
the number, though the handle was retired and registered again meanwhile (R21; notes/assumptions/45.md);
the block that asked acts after this and after the LOG_LOW test (notes/assumptions/50.md). -/
def acceptHead (id : Nat) (s : State) : State :=
  match s.log.appends with
  | [] => s
  | a :: rest =>
    let n := s.log.appended + 1
    let s := enqueue (s.recordAddr n) (some (recordLine a n s.sinceReady)) .record id
      { s with log := { s.log with appended := n, appends := rest } }
    let s := match a.handle with
      | some h => updVol h (touchRecords n) s
      | none => s
    lowTest (markNextAppend s)

/-- An append is requested and joins the list; it is accepted at once when it heads the list and its
write finds a place (R150). The room was tested by the one who asks (R152). -/
def requestAppend (a : Append) (s : State) : State × Bool :=
  let s := sync s
  let s := lowTest { s with log := { s.log with appends := s.log.appends ++ [a] } }
  match s.log.appends with
  | [_] =>
    if s.transit.hasPlace ∧ s.log.appended < max32 then
      (acceptHead s.transit.nextId (bumpId s), true)
    else (markNextAppend s, false)
  | _ => (s, false)

/-- A FAULT record, or the TURN record of a turn completed by hand, is asked for: without room it is
not appended and unlogged_faults counts it (R153), what changed before it shown first (R181). -/
def appendOrCount (a : Append) (s : State) : State :=
  if s.freeRoom = 0 then
    let s := sync s
    { s with log := { s.log with unloggedFaults := satSucc s.log.unloggedFaults } }
  else (requestAppend a s).1

/-- Whether an append is a FRAME record. -/
def Append.isFrame : Append → Bool
  | .frame _ => true
  | .turn _ => false
  | .volume _ => false
  | .fault _ => false
  | .calibration _ => false

/-- Whether a wait item is the log's head append. -/
def WaitItem.isAppend (w : WaitItem) : Bool := w.what == .append

/-- The FRAME append still in the list is withdrawn (R151). If it headed the list its item leaves the
wait list, reads held for it are released, and the next append takes its place at the end
(notes/assumptions/13.md). -/
def withdrawFrame (s : State) : State :=
  if s.log.appends.any Append.isFrame then
    let heads := (s.log.appends.head?.map Append.isFrame).getD false
    let s := { s with log := { s.log with appends := s.log.appends.filter fun a => !a.isFrame } }
    let s :=
      if heads then
        let ids := (s.transit.wait.filter WaitItem.isAppend).map WaitItem.id
        let s := { s with
          transit := { s.transit with wait := s.transit.wait.filter fun w => !w.isAppend } }
        markNextAppend (ids.foldl (fun s i => releaseHolds i s) s)
      else s
    rearm s
  else s

/-! ## Verification (R156 to R158) -/

/-- The results of a VERIFY_LOG reply (R158, R191). -/
def verifyResults (v : Verify) : Fields :=
  [(12, u32 v.checked), (16, u32 v.other), (20, u32 v.bad), (24, u32 v.notHeld), (28, u32 v.firstBad)]

/-- The held test: the records from `next` on whose lines have been reused count as not held (R157). -/
def Verify.skipReused (v : Verify) (limit : Nat) : Verify :=
  let upTo := min limit v.last
  if v.next ≤ upTo then { v with notHeld := v.notHeld + (upTo - v.next + 1), next := upTo + 1 } else v

/-- The verification comes to its next record: it ends, or the record's line is read, in the place
`grant` when the wait list gave one, whichever record is the next held one by then (R157;
notes/assumptions/48.md). -/
def verifyAdvance (grant : Option Nat) (s : State) : State :=
  match s.log.verify with
  | none => s
  | some v =>
    let v := v.skipReused (s.log.appended - s.cap)
    if v.last < v.next then
      replyDone v.ticket false (verifyResults v) { s with log := { s.log with verify := none } }
    else
      let s := { s with log := { s.log with verify := some v } }
      match grant with
      | some id => enqueue (s.recordAddr v.next) none .verifyRead id s
      | none =>
        let s := sync s
        if s.transit.hasPlace then
          enqueue (s.recordAddr v.next) none .verifyRead s.transit.nextId (bumpId s)
        else waitFor .verifyRead s.transit.nextId (bumpId s)

/-- How a verify read that returned is classified (R157). -/
def Verify.classify (v : Verify) (refused : Bool) (l : Line) : Verify :=
  if refused ∨ ¬ goodRecord l ∨ rd32 l 4 ≠ v.next then
    { v with bad := v.bad + 1, firstBad := if v.firstBad = 0 then v.next else v.firstBad,
             next := v.next + 1 }
  else if rd8 l 1 ≠ v.handle then { v with other := v.other + 1, next := v.next + 1 }
  else { v with checked := v.checked + 1, next := v.next + 1 }

/-- A verify read returned (R157). -/
def verifyReturned (refused : Bool) (l : Line) (s : State) : State :=
  match s.log.verify with
  | none => s
  | some v => verifyAdvance none { s with log := { s.log with verify := some (v.classify refused l) } }

end Sys2Proof.Machine
end

