-- ==== Sys2Proof/Machine/IntakeOps.lean ====
section
/-! DEFINITION. The frame intake's operations: arming, triggers, lines of a frame, lamp marks, abort,
settling, gain loads (spec/05). -/

namespace Sys2Proof.Machine

/-- What the intake holds for a camera is changed. -/
def updCam (c : Camera) (f : CamState → CamState) (s : State) : State :=
  { s with intake := { s.intake with cams := s.intake.cams.set c (f (s.intake.cams.get c)) } }

/-- What the intake holds for a camera. -/
def State.cam (s : State) (c : Camera) : CamState := s.intake.cams.get c

/-- The slot that is ARMED or FILLING, if there is one (R105). -/
def CamState.inFlight (c : CamState) : Option Nat :=
  c.slots.findIdx? fun x => x.state == .armed || x.state == .filling

/-- The lowest-numbered FREE slot (R105). -/
def CamState.firstFree (c : CamState) : Option Nat := c.slots.findIdx? fun x => x.state == .free

/-- The frame record of a slot. -/
def CamState.frameAt (c : CamState) (k : Nat) : Option Frame := (c.slots.getD k Slot.empty).frame

/-- The frame record of the slot in flight. -/
def CamState.flying (c : CamState) : Option Frame := c.inFlight.bind c.frameAt

/-- A slot's contents are replaced. -/
def CamState.putSlot (c : CamState) (k : Nat) (x : Slot) : CamState := { c with slots := c.slots.set k x }

/-- A slot's frame record is changed. -/
def CamState.updFrame (c : CamState) (k : Nat) (f : Frame → Frame) : CamState :=
  let x := c.slots.getD k Slot.empty
  c.putSlot k { x with frame := x.frame.map f }

/-- Slot size (R102). -/
def Geometry.slotSize (g : Geometry) : Nat := g.frameBytes

/-- The address of slot `k` of a camera (R103). -/
def State.slotBase (s : State) (c : Camera) (k : Nat) : Nat :=
  s.transit.map.slotPool.base + (cameraCode c * s.intake.geo.slots + k) * s.intake.geo.slotSize

/-- The slot state at an address of the pool, none past the slots (R103). -/
def State.slotStateAt (s : State) (a : Nat) : Option SlotState :=
  let i := (a - s.transit.map.slotPool.base) / s.intake.geo.slotSize
  if i < s.intake.geo.slots then ((s.cam .left).slots[i]?).map Slot.state
  else if i < 2 * s.intake.geo.slots then
    ((s.cam .right).slots[i - s.intake.geo.slots]?).map Slot.state
  else none

/-! ## Arming (R105) -/

/-- A fresh frame record (R105). -/
def Frame.fresh (handle : Option Nat) (opening : Nat) (side : Option Nat) (retake : Nat) : Frame :=
  ⟨0, handle, opening, side, retake, .inFlight, .none, none, 0, 0, 0, false⟩

/-- A camera's lowest FREE slot is armed, unless one is in flight (R105). -/
def CamState.arm (c : CamState) (f : Frame) : CamState :=
  match c.inFlight, c.firstFree with
  | none, some k => c.putSlot k ⟨.armed, some f⟩
  | _, _ => c

/-! ## Frame ends (R111, R113, R115, R130) -/

/-- The frame in flight ends: its statistics are filled and its end set (R130). -/
def CamState.endFrame (g : Geometry) (e : FrameEnd) (r : FrameReason) (c : CamState) : CamState :=
  match c.intakeRec.armed with
  | none => c
  | some k =>
    c.updFrame k fun f =>
      { f with ending := e, reason := r, sum := c.intakeRec.sum, clip := c.intakeRec.clip,
               mean := g.mean c.intakeRec.sum }

/-- The intake record with its state changed. -/
def CamState.setIntake (c : CamState) (f : IntakeRecord → IntakeRecord) : CamState :=
  { c with intakeRec := f c.intakeRec }

/-- Whether a frame is being received or awaited. -/
def IntakeRecord.busy (r : IntakeRecord) : Bool := r.state == .waitFirst || r.state == .receiving

/-! ## The trigger (R107) -/

/-- A slot armed for an exposure whose trigger has not come: its frame has no number yet (R105). -/
def Slot.awaits (x : Slot) : Bool :=
  x.state == .armed && (x.frame.map fun f => f.ending == .inFlight && f.number == 0).getD false

/-- The slot a camera is armed with for the trigger to come. -/
def CamState.awaiting (c : CamState) : Option Nat := c.slots.findIdx? Slot.awaits

/-- A camera armed for the exposure is triggered, its CAM_TRIG high until `fall`; a frame it still
awaited or received ends first (R107). `lamp`: the exposure already has a lamp fault (R96;
notes/assumptions/24.md). -/
def CamState.trigger (g : Geometry) (calibration lamp : Bool) (fall : Nat) (c : CamState) : CamState :=
  match c.awaiting with
  | none => c
  | some k =>
    let c := if c.intakeRec.busy then c.endFrame g .damaged .sequence else c
    let n := if c.counter = max32 then 1 else c.counter + 1
    let table := if c.pendingTableFlag then c.pendingTable else c.activeTable
    let corr := if c.pendingCorrectionFlag then c.pendingCorrection else c.activeCorrection
    let use := corr && !calibration
    let c := { c with
      counter := n
      activeTable := table
      pendingTableFlag := false
      activeCorrection := corr
      pendingCorrectionFlag := false
      intakeRec := ⟨.waitFirst, some k, 0, g.frameBytes, false, lamp, table, use, 0, 0,
        List.replicate 64 0, some fall, none⟩ }
    c.updFrame k fun f => { f with number := n, corrected := use }

/-- A raised trigger whose hold has ended falls: the frame timer starts unless the frame has ended
complete (R108, R113). -/
def CamState.triggerFalls (now : Nat) (g : Geometry) (c : CamState) : CamState :=
  match c.intakeRec.trigger with
  | some x =>
    if x ≤ now then
      c.setIntake fun r =>
        { r with trigger := none
                 timer := if r.state = .idle then r.timer else some (now + ms g.frameTimeout) }
    else c
  | none => c

/-! ## Lines of a frame (R109 to R114) -/

/-- What became of an aperture write. -/
inductive LineFate
  | dropped
  | broke
  | written (offset : Nat) (data : Line) (ended : Bool)
deriving DecidableEq, Repr

/-- A frame broken by a line (R113). -/
def CamState.breakFrame (g : Geometry) (r : FrameReason) (c : CamState) : CamState :=
  (c.endFrame g .damaged (if c.intakeRec.lamp then .lamp else r)).setIntake fun x =>
    { x with state := .draining, armed := none }

/-- The end of a frame whose last line has been written (R111). -/
def CamState.completeFrame (g : Geometry) (c : CamState) : CamState :=
  let r := c.intakeRec
  let c := if r.lamp then c.endFrame g .damaged .lamp
    else if r.dataError then c.endFrame g .damaged .dataError
    else c.endFrame g .complete .none
  c.setIntake fun x => { x with state := .idle, armed := none, timer := none }

/-- An ARMED slot becomes FILLING with its frame's first line (R110). -/
def Slot.fill (x : Slot) : Slot := if x.state = .armed then { x with state := .filling } else x

/-- A good line: corrected, accumulated and written (R110, R112). -/
def CamState.goodLine (g : Geometry) (offset : Nat) (dataError : Bool) (data : List Byte)
    (c : CamState) : CamState × LineFate :=
  let r := c.intakeRec
  let px := correctLine g.width offset r.table r.corrected data
  let c := match r.state, r.armed with
    | .waitFirst, some k => c.putSlot k (c.slots.getD k Slot.empty).fill
    | _, _ => c
  let left := r.remaining - 64
  let c := c.setIntake fun x =>
    { x with
      state := .receiving
      expected := x.expected + 64
      remaining := left
      dataError := x.dataError || dataError
      sum := x.sum + pixelSum px
      clip := x.clip + pixelClips px
      bands := addBands x.bands px }
  if left = 0 then (c.completeFrame g, .written offset (pixelBytes px) true)
  else (c, .written offset (pixelBytes px) false)

/-- Whether a write is a full line: 64 bytes with every enable on. -/
def fullLine (len : Nat) (enables : List Bool) : Bool := len == 64 && enables.all id

/-- An aperture write is classified and handled, by the first test that fits (R109). -/
def takeLine (c : Camera) (offset : Nat) (x : Txn) (s : State) : State × LineFate :=
  let g := s.intake.geo
  let r := (s.cam c).intakeRec
  if ¬ r.busy then
    ({ s with intake := { s.intake with drops := satSucc s.intake.drops } }, .dropped)
  else if g.frameBytes ≤ offset then
    ({ s with intake := { s.intake with excess := satSucc s.intake.excess } }, .dropped)
  else if ¬ fullLine x.len x.enables then (updCam c (CamState.breakFrame g .partialLine) s, .broke)
  else if offset ≠ r.expected then (updCam c (CamState.breakFrame g .sequence) s, .broke)
  else
    let q := (s.cam c).goodLine g offset x.dataError x.data
    (updCam c (fun _ => q.1) s, q.2)

/-! ## Frame timeout (R115) -/

/-- A camera's frame timer expires (R115). -/
def CamState.expire (g : Geometry) (c : CamState) : CamState :=
  if c.intakeRec.busy then
    (c.endFrame g .lost .timeout).setIntake fun r =>
      { r with state := .idle, armed := none, timer := none }
  else c.setIntake fun r =>
    { r with state := if r.state = .draining then .idle else r.state, timer := none }

/-! ## Lamp faults and abort (R116, R117) -/

/-- A lamp fault of the exposure is marked on a camera's frame (R116). -/
def CamState.markLamp (c : CamState) : CamState :=
  match c.inFlight with
  | none => c
  | some k =>
    if c.intakeRec.busy ∧ c.intakeRec.armed = some k then c.setIntake fun r => { r with lamp := true }
    else c.updFrame k fun f =>
      match f.ending with
      | .complete | .damaged => { f with ending := .damaged, reason := .lamp }
      | .inFlight | .lost | .aborted => f

/-- A lamp fault or rest loss is marked on every frame of the exposure (R116). -/
def markLamps (s : State) : State := updCam .right CamState.markLamp (updCam .left CamState.markLamp s)

/-- A camera's frame that is armed and not settled ends ABORTED and its slot becomes FREE (R117). -/
def CamState.abortFrame (now : Nat) (g : Geometry) (c : CamState) : CamState :=
  match c.inFlight with
  | none => c
  | some k =>
    let c := c.putSlot k Slot.empty
    c.setIntake fun r =>
      if r.busy then
        { r with
          state := .draining
          armed := none
          trigger := none
          timer := if r.trigger.isSome then some (now + ms g.frameTimeout) else r.timer }
      else { r with armed := none }

/-- Every frame armed and not settled is aborted (R117). -/
def abortFrames (s : State) : State :=
  let f := CamState.abortFrame s.now s.intake.geo
  updCam .right f (updCam .left f s)

/-! ## Settling (R118) -/

/-- Review settles a frame: FILLED for ACCEPTED or MARGINAL, FREE for any other (R42, R118). -/
def CamState.settleFrame (k : Nat) (v : Verdict) (r : FrameReason) (c : CamState) : CamState :=
  match v with
  | .accepted | .marginal =>
    let x := c.slots.getD k Slot.empty
    c.putSlot k ⟨.filled, x.frame.map fun f => { f with verdict := some (v, r) }⟩
  | .rejected | .damaged | .lost | .aborted => c.putSlot k Slot.empty

/-! ## Gain loads (R121) -/

/-- The 32 gains of a line that came from memory, clamped, with the number of values changed. -/
def gainHalf (l : Line) : List Nat × Nat :=
  let raw := rd16s l 0 32
  (raw.map clampGain, raw.countP fun v => v != clampGain v)

/-- A gain read is placed, in the place `grant` when the wait list gave one, else where it finds room;
the load's second read is produced when the first has its place (R121, R168; notes/assumptions/25.md). -/
def placeGainRead (c : Camera) (second : Bool) (grant : Option Nat) (s : State) : State × Bool :=
  match (s.cam c).load with
  | none => (s, false)
  | some l =>
    let addr := l.addr + if second then 64 else 0
    match grant with
    | some id => (enqueue addr none (.gainRead c second) id s, true)
    | none =>
      let s := sync s
      if s.transit.hasPlace then
        (enqueue addr none (.gainRead c second) s.transit.nextId (bumpId s), true)
      else (waitFor (.gainRead c second) s.transit.nextId (bumpId s), false)

/-- The gain reads of a load are placed from the first or the second on. -/
def placeGainReads (c : Camera) (second : Bool) (grant : Option Nat) (s : State) : State :=
  let r := placeGainRead c second grant s
  if r.2 ∧ ¬ second then (placeGainRead c true none r.1).1 else r.1

/-- Both reads of a load have returned: the load ends (R121; the CLAMPED flag of its reply, R176:
notes/assumptions/42.md). -/
def endLoad (c : Camera) (s : State) : State :=
  match (s.cam c).load with
  | none => s
  | some l =>
    match l.first, l.second with
    | some a, some b =>
      let s := updCam c (fun x => { x with load := none }) s
      if l.refused then refuse l.ticket .badField s
      else
        replyDone l.ticket (0 < a.2 + b.2 : Bool) [(12, u8 (a.2 + b.2))]
          (updCam c (fun x => { x with pendingTable := a.1 ++ b.1, pendingTableFlag := true }) s)
    | _, _ => s

/-- A gain read returned (R121). -/
def gainReturned (c : Camera) (second refused : Bool) (l : Line) (s : State) : State :=
  let half := gainHalf l
  endLoad c (updCam c (fun x =>
    { x with load := x.load.map fun g =>
        if second then { g with second := some half, refused := g.refused || refused }
        else { g with first := some half, refused := g.refused || refused } }) s)

end Sys2Proof.Machine
end

