-- ==== Sys2Proof/Machine/LightOps.lean ====
section
/-! DEFINITION. The lighting unit's operations: planning, admission, the schedule, charges, faults and
abort (spec/04, spec/06 sections 6.4 and 6.6). -/

namespace Sys2Proof.Machine

/-- Whether a channel is chosen for a side set (R83). -/
def SideMap.chosen (m : SideMap) (s : Sides) : Bool :=
  match m with
  | .left => s.left
  | .right => s.right
  | .both => true
  | .none => false

/-- Whether a channel is lit: in RAMP_UP, ON or RAMP_DOWN (R81). -/
def Channel.lit (c : Channel) : Bool :=
  c.state == .rampUp || c.state == .on || c.state == .rampDown

/-- The exposure record is changed. -/
def updExposure (f : Exposure → Exposure) (s : State) : State :=
  { s with light := { s.light with exposure := f s.light.exposure } }

/-- Every channel record is changed, each with its number. -/
def mapChannels (f : Nat → Channel → Channel) (s : State) : State :=
  { s with light := { s.light with channels := s.light.channels.mapIdx f } }

/-- The planned level of channel `i` in the exposure record. -/
def Exposure.level (e : Exposure) (i : Nat) : Nat := e.plan.levels.getD i 0

/-- The cradle's rest as the lighting unit checks it (R90): PLATEN_DOWN, ARM_PARKED, turner at REST. -/
def State.cradleAtRest (s : State) : Bool :=
  s.lines.platenDown && s.lines.armParked && s.turner.state == .rest

/-! ## Planning (R83 to R86, R88) -/

/-- The plan of an exposure with these levels and exposure time (R88, R139, R141). -/
def State.planOf (s : State) (levels : List Nat) (time : Nat) : Plan :=
  ⟨levels, time, rampSpan s.light.rampRate levels,
    predictedDose s.light.rampRate s.light.warm time levels (s.light.channels.map Channel.k)⟩

/-- The planned levels of a FIRST exposure (R84). -/
def firstLevels (channels : List Channel) (v : Volume) (e : ClassEntry) (sides : Sides) : List Nat :=
  channels.mapIdx fun i c =>
    if c.sideMap.chosen sides then
      min e.ceiling (match v.baseLevels with | some ls => ls.getD i 0 | none => e.baseLevel)
    else 0

/-- The planned levels of a RETAKE from the levels of the exposure just taken (R85, R136). -/
def retakeLevels (channels : List Channel) (before : List Nat) (ceiling : Nat) (l r : SideTrim) :
    List Nat :=
  channels.mapIdx fun i c => retakeLevel ceiling (before.getD i 0) c.sideMap l r

/-- The exposure time of a volume exposure (R86). -/
def exposureTimeOf (v : Volume) (e : ClassEntry) : Nat := v.exposureTime.getD e.exposure

/-- The answer to a request for admission (R88); BUSY as R87 says. -/
inductive Admission
  | admitted (p : Plan)
  | refused (lamp dose : Bool)
  | busy
deriving DecidableEq, Repr

/-- The lamp test: no needed channel is FAILED (R88). -/
def lampTest (channels : List Channel) (levels : List Nat) : Bool :=
  (channels.zip levels).all fun q => q.2 == 0 || !(q.1.state == .failed)

/-- The dose test, on exact sums (R88, R141). -/
def doseTest (v : Volume) (e : ClassEntry) (predicted : Nat) : Bool :=
  v.openingDose + predicted ≤ e.doseLimit && v.doseUsed + predicted ≤ v.budget

/-- Admission of a planned volume exposure (R87, R88). -/
def judgeAdmission (s : State) (v : Volume) (e : ClassEntry) (p : Plan) : Admission :=
  if s.light.exposure.phase ≠ .none then .busy
  else
    let lamp := lampTest s.light.channels p.levels
    let fits := doseTest v e p.predicted
    if lamp && fits then .admitted p else .refused (!lamp) (!fits)

/-! ## Holding and starting an exposure (R89, R90) -/

/-- A RETAKE's plan is held with phase ADMITTED (R89). -/
def holdAdmitted (sides : Sides) (p : Plan) (s : State) : State :=
  updExposure (fun _ => ⟨.admitted, .retake, sides, p, s.vols.activeHandle, false, 0, false, false⟩) s

/-- An ADMITTED exposure is dropped (R89). -/
def dropAdmitted (s : State) : State :=
  if s.light.exposure.phase = .admitted then updExposure (fun e => { e with phase := .none }) s else s

/-- An exposure is started: its clock starts; with no channel needed WARM begins at once (R90). The
rest check has been made. -/
def startExposure (kind : ExposureKind) (sides : Sides) (p : Plan) (handle : Option Nat) (s : State) :
    State :=
  mapChannels (fun _ c => { c with wasLit := false, onTime := 0, target := 0 })
    (updExposure (fun _ =>
      ⟨if p.span = 0 then .warm else .rampUp, kind, sides, p, handle, false, s.now, false, false⟩) s)

/-- Whether the exposure's clock has reached `n` ms. -/
def State.clockAt (s : State) (n : Nat) : Bool := s.light.exposure.startedAt + ms n ≤ s.now

/-! ## Triggers (R91, R107) -/

/-- When the exposure's triggers fall, on its clock (R91, R108). -/
def State.fallMoment (s : State) : Nat :=
  s.light.exposure.startedAt +
    ms (s.light.exposure.plan.span + s.light.warm + s.light.exposure.plan.time)

/-- The trigger of one camera, if it is armed for the exposure (R107). -/
def fireTrigger (c : Camera) (s : State) : State :=
  let e := s.light.exposure
  if e.sides.has c then
    updCam c (CamState.trigger s.intake.geo (e.kind == .calibration) e.lampFault s.fallMoment) s
  else s

/-- WARM ends: the armed cameras' triggers are fired and held for the exposure time (R91, R107). In
ENDING the phase stays (R95). -/
def fireTriggers (s : State) : State :=
  updExposure (fun e =>
      { e with triggered := true, phase := if e.phase = .ending then .ending else .capture })
    (fireTrigger .right (fireTrigger .left s))

/-- A warm time of 0 ends WARM on entry (R91). -/
def warmOnEntry (s : State) : State :=
  if s.light.exposure.phase = .warm ∧ s.light.warm = 0 then fireTriggers s else s

/-! ## Ramps (R90, R91, R96) -/

/-- The on-time of a channel in whole ms up to `now`, a part counting as a whole one, and never above
its planned on-time (R91, R93; notes/assumptions/7.md). -/
def Channel.onTimeAt (c : Channel) (now planned : Nat) : Nat :=
  match c.litAt with
  | some t => min planned (ceilMs (now - t))
  | none => c.onTime

/-- The planned on-time of channel `i` in the exposure record (R139). -/
def State.plannedFor (s : State) (i : Nat) : Nat :=
  plannedOnTime s.light.rampRate s.light.warm s.light.exposure.plan.time (s.light.exposure.level i)

/-- A channel put out: its on-time stops (R94, R96). -/
def Channel.putOut (c : Channel) (st : ChannelState) (now planned : Nat) : Channel :=
  { c with state := st, level := 0, onTime := c.onTimeAt now planned, litAt := none }

/-- One ramp step of a channel whose step is due (R90, R91). The step's moment is counted on the
exposure's clock (notes/assumptions/6.md). -/
def Channel.step (now rate planned : Nat) (c : Channel) : Channel :=
  if c.nextStep ≤ now then
    match c.state with
    | .rampUp =>
      let l := min c.target (c.level + rate)
      { c with level := l, state := if l = c.target then .on else .rampUp,
               nextStep := c.nextStep + ms 1 }
    | .rampDown =>
      if c.level - rate = 0 then c.putOut .off c.nextStep planned
      else { c with level := c.level - rate, nextStep := c.nextStep + ms 1 }
    | .off | .on | .failed => c
  else c

/-- Every ramping channel makes its due step; at the ramp span the exposure enters WARM (R90, R91). -/
def rampStep (s : State) : State :=
  let s := mapChannels (fun i c => c.step s.now s.light.rampRate (s.plannedFor i)) s
  if s.light.exposure.phase = .rampUp ∧ s.clockAt s.light.exposure.plan.span then
    warmOnEntry (updExposure (fun e => { e with phase := .warm }) s)
  else s

/-! ## Charges (R17, R92, R94, R99) -/

/-- The charge of the exposure: the dose of every channel lit in it over its on-time (R142, R143). -/
def chargeOf : List Channel → List Nat → Nat
  | c :: cs, v :: vs => (if c.wasLit then dose v c.k c.onTime else 0) + chargeOf cs vs
  | _, _ => 0

/-- A charge is added to a record (R17). -/
def chargeVolume (d : Nat) (v : Volume) : Volume :=
  { v with openingDose := satAdd v.openingDose d, doseUsed := satAdd v.doseUsed d }

/-- The calibration in flight is changed. -/
def updCal (f : Calibration → Calibration) (s : State) : State :=
  { s with cycle := { s.cycle with cal := s.cycle.cal.map f } }

/-- A charge goes to the active record, or to calibration_dose (R17, R92, R99). -/
def makeCharge (d : Nat) (s : State) : State :=
  if s.light.exposure.kind = .calibration then
    updCal (fun c => { c with charge := c.charge + d })
      { s with light := { s.light with calibrationDose := satAdd s.light.calibrationDose d } }
  else updActive (chargeVolume d) s

/-- Every lit channel is cut to 0 and returns to OFF (R94, R95). -/
def cutLit (s : State) : State :=
  mapChannels (fun i c => if c.lit then c.putOut .off s.now (s.plannedFor i) else c) s

/-- The charge of the exposure record's channels as they stand. -/
def State.chargeNow (s : State) : Nat := chargeOf s.light.channels s.light.exposure.plan.levels

/-- Every channel's target and on-time go to 0; every channel but a FAILED one is OFF (R92). -/
def clearChannels (s : State) : State :=
  mapChannels (fun _ c =>
    { c with target := 0, onTime := 0, litAt := none, wasLit := false, level := 0,
             state := if c.state = .failed then .failed else .off }) s

/-- The cycle notes the charge of its exposure, for every FRAME record of it (R42, R142, R148). -/
def noteCharge (d : Nat) (s : State) : State :=
  if s.light.exposure.kind = .calibration then s
  else { s with cycle := { s.cycle with
    opening := s.cycle.opening.map fun o => { o with charge := d } } }

/-- The lighting unit's part of the completion event: the charge is made unless a rest loss made it,
the channels are cleared, the record returns to NONE. Answers the charge it reports (R92), 0 where a rest loss
has made the charge (R95). -/
def completeExposure (s : State) : State × Nat :=
  let d := if s.light.exposure.charged then 0 else s.chargeNow
  let s := if s.light.exposure.charged then s else makeCharge d s
  (updExposure (fun e => { e with phase := .none }) (clearChannels s), d)

/-- The lighting unit's answer to an abort (R94). -/
def abortExposure (s : State) : State :=
  match s.light.exposure.phase with
  | .none => s
  | .admitted => dropAdmitted s
  | .ending => updExposure (fun e => { e with phase := .none }) (clearChannels s)
  | .rampUp | .warm | .capture | .rampDown =>
    let s := cutLit s
    updExposure (fun e => { e with phase := .none }) (clearChannels (makeCharge s.chargeNow s))

/-! ## Lamp faults and rest losses (R95, R96) -/

/-- The cycle notes a lamp fault in its opening record (R38). -/
def noteLampFault (s : State) : State :=
  if s.light.exposure.kind = .calibration then s
  else { s with cycle := { s.cycle with
    opening := s.cycle.opening.map fun o => { o with lampFault := true } } }

/-- A lamp fault or rest loss is marked and reported to the cycle and the intake (R95, R96). -/
def reportLampFault (s : State) : State :=
  markLamps (noteLampFault (updExposure (fun e => { e with lampFault := true }) s))

/-- A lit channel suffers a lamp fault (R96). -/
def lampFault (i : Nat) (s : State) : State :=
  reportLampFault (mapChannels (fun j c =>
    if j = i then c.putOut .failed s.now (s.plannedFor j) else c) s)

/-- Whether channel `i` is to leave OFF now: needed, not lit before, and due (R90). -/
def State.rampDue (s : State) (i : Nat) : Bool :=
  match s.light.channels[i]? with
  | none => false
  | some c =>
    let v := s.light.exposure.level i
    s.light.exposure.phase == .rampUp && c.state == .off && !c.wasLit && v != 0 &&
      s.clockAt (s.light.exposure.plan.span - rampTime s.light.rampRate v)

/-- Channel `i` leaves OFF for RAMP_UP at its scheduled start (R90). -/
def beginRamp (i : Nat) (s : State) : State :=
  let v := s.light.exposure.level i
  let at0 := s.light.exposure.startedAt +
    ms (s.light.exposure.plan.span - rampTime s.light.rampRate v)
  mapChannels (fun j c =>
    if j = i then
      { c with state := .rampUp, target := v, wasLit := true, litAt := some at0,
               nextStep := at0 + ms 1 }
    else c) s

/-- At the trigger fall every lit channel begins RAMP_DOWN (R91); `fall` is the fall's moment. -/
def beginRampDown (fall : Nat) (s : State) : State :=
  updExposure (fun e => { e with phase := .rampDown })
    (mapChannels (fun _ c =>
      if c.lit then { c with state := .rampDown, nextStep := fall + ms 1 } else c) s)

/-- Whether any channel is lit. -/
def State.anyLit (s : State) : Bool := s.light.channels.any Channel.lit

/-- Whether an exposure is in RAMP_UP, WARM, CAPTURE or RAMP_DOWN. -/
def Phase.running : Phase → Bool
  | .rampUp | .warm | .capture | .rampDown => true
  | .none | .admitted | .ending => false

end Sys2Proof.Machine
end

