-- ==== Sys2Proof/Machine/Halt.lean ====
section
/-! DEFINITION. Small changes of the cycle's and the turner's state, and the halt that both blocks use
(R52). -/

namespace Sys2Proof.Machine

/-- The cycle's state is changed. -/
def updCycle (f : Cycle → Cycle) (s : State) : State := { s with cycle := f s.cycle }

/-- The run record is changed, if there is one. -/
def updRun (f : RunRecord → RunRecord) (s : State) : State :=
  updCycle (fun c => { c with run := c.run.map f }) s

/-- The opening record is changed, if there is one. -/
def updOpening (f : OpeningRecord → OpeningRecord) (s : State) : State :=
  updCycle (fun c => { c with opening := c.opening.map f }) s

/-- The cycle takes a state and a sub-condition. -/
def enterCycle (st : CycleState) (sub : SubCondition) (s : State) : State :=
  updCycle (fun c => { c with state := st, sub := sub }) s

/-- The turner's state is changed. -/
def updTurner (f : Turner → Turner) (s : State) : State := { s with turner := f s.turner }

/-- No side. -/
def Sides.empty : Sides := ⟨false, false⟩

/-- Both sides. -/
def Sides.both : Sides := ⟨true, true⟩

/-- The fault record of a halt taken now (R52 step 1). -/
def State.faultNow (s : State) (kind : FaultKind) (cls : FaultClass) (stage : Option Stage)
    (sides : Sides) : FaultRecord :=
  ⟨kind, cls, orFF s.vols.activeHandle, stage, sides, s.vols.cursor, s.sinceReady⟩

/-- The cycle's part of HALTED (R52 step 3): no timeout, no pause pending, no review; the opening record
is kept for a capture fault. -/
def Cycle.halted (c : Cycle) (cls : FaultClass) : Cycle :=
  { c with
    state := .halted
    sub := .none
    camTimer := none
    review := none
    run := c.run.map fun r => { r with pausePending := false, resume := none }
    opening := match cls with
      | .capture => c.opening
      | .turn => none }

/-- The cycle halts (R52). An ADMITTED exposure is dropped (R89). -/
def halt (kind : FaultKind) (cls : FaultClass) (stage : Option Stage) (sides : Sides) (s : State) :
    State :=
  let f := s.faultNow kind cls stage sides
  let s := dropAdmitted (updCycle (fun c => { c with fault := some f }) s)
  let s := appendOrCount (.fault f) s
  notice .cycleHalted (faultFields 12 (some f)) (updCycle (fun c => c.halted cls) s)

/-- A capture fault halts the cycle (R52). -/
def haltCapture (kind : FaultKind) (sides : Sides) (s : State) : State := halt kind .capture none sides s

/-- A turn fault halts the cycle (R52). -/
def haltTurn (kind : FaultKind) (stage : Option Stage) (s : State) : State :=
  halt kind .turn stage Sides.empty s

end Sys2Proof.Machine
end

