-- ==== Sys2Proof/Machine/TurnerOps.lean ====
section
/-! DEFINITION. The leaf turner: its stages up to RELEASE, retries, the vacuum monitor, the ends of a
turn, abort and resolutions (spec/03). What follows RELEASE is in Machine/Flow.lean. -/

namespace Sys2Proof.Machine

/-- Whether a turn is in flight: TURNING or HOLD, and not COMPLETING (R77). -/
def Turner.inFlight (t : Turner) : Bool :=
  (t.state == .turning || t.state == .hold) && !(t.sub == .completing)

/-- Whether the turner is in HOLD or TURNING at a stage. -/
def Turner.atStage (t : Turner) (st : Stage) : Bool :=
  (t.state == .turning || t.state == .hold) && t.stage == some st

/-- Whether the turner is TURNING at a stage, its sub-condition none. -/
def Turner.runsStage (t : Turner) (st : Stage) : Bool :=
  t.state == .turning && t.stage == some st && t.sub == .none

/-- The wand holds a leaf in LIFT, SWEEP and HOLD (R71, R77). -/
def Turner.holdsLeaf (t : Turner) : Bool := t.atStage .lift || t.atStage .sweep

/-- Whether the stage timer runs and has reached its count. -/
def Turner.timerDue (t : Turner) (now : Nat) : Bool :=
  match t.stageTimer with
  | .running since left => since + ms left ≤ now
  | .off => false
  | .suspended _ => false

/-- Whether the stage time has elapsed. -/
def Turner.timeDue (t : Turner) (now : Nat) : Bool :=
  match t.stageTime with
  | some x => x ≤ now
  | none => false

/-- A move to a stage: outputs, stage timer and stage time are the new stage's (R58). -/
def setStage (st : Stage) (sub : TurnerSub) (out : TurnerOutputs) (timer : StageTimer)
    (time : Option Nat) (s : State) : State :=
  updTurner (fun t =>
    { t with state := .turning, stage := some st, sub := sub, outputs := out, stageTimer := timer,
             stageTime := time, holdTimer := none }) s

/-- ARM_DRIVE where the arm is to be parked: TO_PARK while ARM_PARKED is inactive (R58). -/
def State.parkDrive (s : State) : ArmDrive := if s.lines.armParked then .off else .toPark

/-! ## The ends of a turn (R71, R77, R78) -/

/-- The turner becomes FAULTED with a report; every output at rest, no timer running (R71, R77). -/
def Turner.faulted (t : Turner) (cause : ReportCause) : Turner :=
  { t with
    state := .faulted
    sub := .none
    stageTimer := .off
    stageTime := none
    holdTimer := none
    outputs := TurnerOutputs.atRest
    report := some ⟨cause, t.stage, t.holdsLeaf⟩ }

/-- A turn fault is counted on the active record (R18). -/
def countTurnFault (v : Volume) : Volume := { v with turnFaults := satSucc v.turnFaults }

/-- A turn ends with a fault, and the cycle that waits for it halts (R46, R71). -/
def endTurn (kind : FaultKind) (s : State) : State :=
  let stage := s.turner.stage
  let s := updTurner (fun t => t.faulted (.fault kind)) s
  if s.cycle.state = .turn then haltTurn kind stage (updActive countTurnFault s) else s

/-- The turner's answer to an abort (R77): whether a turn was aborted, the stage, the held leaf. -/
structure AbortAnswer where
  aborted : Bool
  stage : Option Stage
  held : Bool
deriving DecidableEq, Repr

/-- The cycle aborts a turn (R77). -/
def abortTurn (cause : StopCause) (s : State) : State × AbortAnswer :=
  if s.turner.inFlight then
    (updTurner (fun t => t.faulted (.aborted cause)) s, ⟨true, s.turner.stage, s.turner.holdsLeaf⟩)
  else if s.turner.state = .faulted then
    (s, ⟨true, s.turner.report.bind TurnReport.stage,
      (s.turner.report.map TurnReport.held).getD false⟩)
  else (s, ⟨false, none, false⟩)

/-- The turner at REST, its outputs and timers as REST has them. -/
def Turner.toRest (t : Turner) : Turner :=
  { t with state := .rest, stage := none, sub := .none, stageTimer := .off, stageTime := none,
           holdTimer := none, outputs := TurnerOutputs.atRest }

/-- The turner with its retry and double-leaf counts cleared (R59). -/
def Turner.cleared (t : Turner) : Turner := { t with retry := 0, doubles := 0 }

/-- Repeat: back to REST, the counts kept; nothing at REST (R54, R78). -/
def resolveRepeat (s : State) : State :=
  if s.turner.state = .faulted then updTurner Turner.toRest s else s

/-- Skip and abandon, and an abort that leaves the cycle IDLE: the counts cleared, and back to REST from
FAULTED (R49, R55, R56, R59, R78; a turner already at REST: notes/assumptions/41.md). -/
def resolveClear (s : State) : State :=
  updTurner (fun t => if t.state = .faulted then t.cleared.toRest else t.cleared) s

/-! ## Retries (R69, R70) -/

/-- The turn goes back to SEPARATE with a retry pause (R70). A stage left within the same step has been shown
(R181; notes/assumptions/14.md). -/
def enterRetryPause (s : State) : State :=
  setStage .separate .retryPause { TurnerOutputs.atRest with arm := s.parkDrive }
    (.running s.now s.turner.g6.goBack) (some (s.now + ms 200))
    (updTurner (fun t => { t with retry := t.retry + 1 }) (sync s))

/-- A retryable fault: a retry, or the turn's end (R69). -/
def retryable (kind : FaultKind) (s : State) : State :=
  if s.turner.retry < s.turner.vals.maxRetries then enterRetryPause s else endTurn kind s

/-- DOUBLE_LEAF is raised: counted by the turner and on the active record, then retried or not (R18,
R64, R69). -/
def doubleLeaf (s : State) : State :=
  retryable .doubleLeaf
    (updActive (fun v => { v with doubleLeafEvents := satSucc v.doubleLeafEvents })
      (updTurner (fun t => { t with doubles := min (t.doubles + 1) 255 }) s))

/-! ## The vacuum monitor (R72 to R74) -/

/-- A stage timer suspended now: what is left is its limit less the whole ms counted (R73). -/
def StageTimer.suspend (now : Nat) : StageTimer → StageTimer
  | .running since left => .suspended (left - (now - since) / 1000)
  | .off => .off
  | .suspended left => .suspended left

/-- A suspended stage timer runs again (R74). -/
def StageTimer.resume (now : Nat) : StageTimer → StageTimer
  | .suspended left => .running now left
  | .off => .off
  | .running since left => .running since left

/-- A pressure below the hold level (R72). -/
def State.gripLost (s : State) : Bool := s.lines.wandPressure < s.turner.vals.hold

/-- A grip loss in LIFT or SWEEP: the turn ends, or HOLD is entered (R72, R73). -/
def gripLoss (s : State) : State :=
  match s.turner.vals.mode with
  | .abort => endTurn .vacuumLow s
  | .hold =>
    updTurner (fun t =>
      { t with
        state := .hold
        outputs := { t.outputs with arm := .off }
        stageTimer := t.stageTimer.suspend s.now
        holdTimer := some (s.now + ms t.vals.holdTimeout) }) s

/-! ## The stages up to RELEASE (R61 to R66) -/

/-- The outputs while the wand carries a leaf to the left (R58). -/
def Turner.carrying (t : Turner) : TurnerOutputs := ⟨.off, false, t.vals.vacuum, .toLeft⟩

/-- RELEASE is entered (R66). -/
def enterRelease (s : State) : State :=
  setStage .release .none TurnerOutputs.atRest .off (some (s.now + ms 200)) s

/-- SWEEP is entered: the monitor looks first, then the ending condition (R65, R72;
notes/assumptions/19.md). -/
def enterSweep (s : State) : State :=
  let s := setStage .sweep .none s.turner.carrying (.running s.now s.turner.g6.sweep) none s
  if s.gripLost then gripLoss s
  else if s.lines.armAtLeft then enterRelease s
  else s

/-- LIFT is entered: DOUBLE_SENSE, the monitor, then the ending condition (R64, R72;
notes/assumptions/19.md). -/
def enterLift (s : State) : State :=
  let s := setStage .lift .none s.turner.carrying (.running s.now s.turner.g6.lift) none s
  if s.lines.doubleSense then doubleLeaf s
  else if s.gripLost then gripLoss s
  else if s.lines.leafSense then enterSweep s
  else s

/-- GRIP is entered (R63). -/
def enterGrip (s : State) : State :=
  let s := setStage .grip .none ⟨.off, false, s.turner.vals.vacuum, .off⟩
    (.running s.now s.turner.g6.grip) none s
  if s.turner.vals.grip ≤ s.lines.wandPressure then enterLift s else s

/-- The knife pulse of SEPARATE, or GRIP at once when it is 0 (R62). -/
def enterPulse (s : State) : State :=
  if s.turner.vals.knife = 0 then enterGrip s
  else
    setStage .separate .none { TurnerOutputs.atRest with knife := true } .off
      (some (s.now + ms s.turner.vals.knife)) s

/-- PLATEN_RISE as its inputs stand: the platen stops at PLATEN_UP, the arm at ARM_PARKED, and the stage
ends when both are active (R61). -/
def checkRise (s : State) : State :=
  let s := refreshPark s
  let s :=
    if s.lines.platenUp then
      updTurner (fun t => { t with outputs := { t.outputs with platen := .off } }) s
    else s
  if s.lines.platenUp ∧ s.lines.armParked then enterPulse s else s

/-- The class values a turn copies (R59). -/
def ClassEntry.turnValues (e : ClassEntry) : TurnValues :=
  ⟨e.vacuum, e.grip, e.hold, e.mode, e.holdTimeout, e.knife, e.maxRetries, e.settle⟩

/-- The turner at REST takes a turn (R59). -/
def takeTurn (s : State) : State :=
  match s.vols.active, s.activeClass with
  | some (h, _), some e =>
    checkRise (setStage .platenRise .none { TurnerOutputs.atRest with platen := .up }
      (.running s.now s.turner.g6.platen) none
      (updTurner (fun t => { t with handle := h, vals := e.turnValues }) s))
  | _, _ => s

/-- A turn request reaches the turner: taken at REST, held while COMPLETING (R59). -/
def askTurn (s : State) : State :=
  if s.turner.state = .rest then takeTurn s
  else if s.turner.sub = .completing then updTurner (fun t => { t with pendingTurn := true }) s
  else s

/-- The retry pause ends when its 200 ms have elapsed and the arm is parked (R70). -/
def checkRetryPause (s : State) : State :=
  if s.turner.timeDue s.now ∧ s.lines.armParked then enterPulse s else s

/-- The ending condition of LIFT or SWEEP as it stands (R60, R74). -/
def checkCarry (s : State) : State :=
  if s.turner.runsStage .lift && s.lines.leafSense then enterSweep s
  else if s.turner.runsStage .sweep && s.lines.armAtLeft then enterRelease s
  else s

/-- The grip recovers in HOLD (R74). -/
def recoverGrip (s : State) : State :=
  checkCarry (updTurner (fun t =>
    { t with
      state := .turning
      outputs := { t.outputs with arm := .toLeft }
      stageTimer := t.stageTimer.resume s.now
      holdTimer := none }) s)

/-- A wand pressure sample (R63, R72, R74). -/
def samplePressure (s : State) : State :=
  if s.turner.runsStage .grip then
    if s.turner.vals.grip ≤ s.lines.wandPressure then enterLift s else s
  else if s.turner.runsStage .lift || s.turner.runsStage .sweep then
    if s.gripLost then gripLoss s else s
  else if s.turner.state = .hold then
    if s.turner.vals.hold + 8 ≤ s.lines.wandPressure then recoverGrip s else s
  else s

end Sys2Proof.Machine
end

