-- ==== Sys2Proof/Machine/Flow.lean ====
section
/-! DEFINITION. The opening cycle: openings, PREPARE, exposures, review and its records, pause, the end of
a turn, abort and stop (spec/02; spec/03 R66 to R68). -/

namespace Sys2Proof.Machine

/-! ## Readings of the cycle -/

/-- The run's stop opening, 0 without a run. -/
def Cycle.stop (c : Cycle) : Nat := (c.run.map RunRecord.stop).getD 0

/-- The resume point of a paused run (R28). -/
def Cycle.point (c : Cycle) : Option ResumePoint := c.run.bind RunRecord.resume

/-- The side set of the exposure being prepared. -/
def Cycle.preparedSides (c : Cycle) : Sides :=
  (c.opening.map fun o => o.prepared.sides).getD Sides.empty

/-- The sides of the opening that satisfy a test of their status. -/
def Cycle.sidesWith (c : Cycle) (p : SideStatus → Bool) : Sides :=
  match c.opening with
  | some o => sidesWhere fun x => p (o.sides.get x).status
  | none => Sides.empty

/-- WANTED or PENDING. -/
def SideStatus.owed : SideStatus → Bool
  | .wanted | .pending => true
  | .settled | .passed => false

/-- The cradle's rest as the cycle checks it on entering PREPARE (R35). -/
def State.restCheck (s : State) : Bool := s.cradleAtRest

/-- SAFE_STOP mode with the sample below the supply level (R30, R48, R53, R123). -/
def State.supplyShort (s : State) : Bool :=
  s.turner.g6.supplyMode == .safeStop && s.lines.supplySense < s.turner.g6.supplyLevel

/-- The turner is COMPLETING a turn (R68). -/
def State.completing (s : State) : Bool := s.turner.sub == .completing

/-- The side number a camera sees at an opening (01 section 1.2). -/
def sideOf (opening : Nat) (c : Camera) : Nat := 2 * opening + cameraCode c

/-! ## Notices of the cycle (02 section 2.10) -/

/-- STOP_OPENING_REACHED is written and its mark set (R32). -/
def stopReached (s : State) : State :=
  updRun (fun r => { r with stopReached := true })
    (notice .stopOpeningReached
      [(12, u8 (orFF s.vols.activeHandle)), (14, u16 s.cycle.stop), (16, u16 s.vols.cursor)] s)

/-- The run completes (R32). The turner's retry and double-leaf counts stay as they are, also where a turn that
RETRY repeated had yet to begin (R59; notes/assumptions/55.md). -/
def runComplete (s : State) : State :=
  let kind := (s.cycle.run.map RunRecord.kind).getD .run
  enterCycle .idle .none
    (updCycle (fun c => { c with run := none, opening := none, camTimer := none })
      (notice .runComplete
        [(12, u8 (orFF s.vols.activeHandle)), (14, u16 s.cycle.stop), (16, u16 s.vols.cursor),
         (18, u8 kind.code)] s))

/-- PAUSED is entered: no timeout runs, no pause is pending, and the lighting unit drops its copy of a
held retake (R47, R89). -/
def pausedState (p : ResumePoint) (s : State) : State :=
  dropAdmitted (enterCycle .paused .none
    (updRun (fun r => { r with resume := some p, pausePending := false })
      (updCycle (fun c => { c with camTimer := none }) s)))

/-- CYCLE_PAUSED (R47). -/
def pausedNotice (p : ResumePoint) (s : State) : State :=
  notice .cyclePaused
    [(12, u8 (orFF s.vols.activeHandle)), (14, u16 s.vols.cursor), (16, u16 s.cycle.stop),
     (18, u8 p.code)] s

/-- PAUSED is entered and CYCLE_PAUSED written (R47). -/
def enterPaused (p : ResumePoint) (s : State) : State := pausedNotice p (pausedState p s)

/-- OPENING_CAPTURED (R43). -/
def openingCaptured (s : State) : State :=
  match s.cycle.opening with
  | none => s
  | some o =>
    notice .openingCaptured
      ([(12, u8 (orFF s.vols.activeHandle)), (14, u16 o.number)] ++ sideFields 16 o.sides.left ++
        sideFields 20 o.sides.right) s

/-! ## Turning (R45) -/

/-- The room test in front of a turn, and the request to the turner (R45). -/
def tryTurn (s : State) : State :=
  if s.freeRoom < 5 then enterCycle .turn .waitLog s else askTurn (enterCycle .turn .none s)

/-- A turn is started (R45); no turn is started at opening L (R4; notes/assumptions/36.md). -/
def startTurn (s : State) : State :=
  match s.vols.active with
  | some (_, v) => if v.leaves ≤ v.cursor then runComplete s else tryTurn s
  | none => s

/-! ## Finishing an opening (R44) -/

/-- An opening is finished: its record is discarded and the cycle goes on (R44). -/
def finish (s : State) : State :=
  let s := updCycle (fun c => { c with opening := none }) s
  if s.vols.cursor = s.cycle.stop then runComplete s
  else if s.cycle.pausePending then enterPaused .turn s
  else startTurn s

/-- An opening is finished; OPENING_CAPTURED first if it was exposed (R43, R44). -/
def finishOpening (s : State) : State :=
  finish (if (s.cycle.opening.map OpeningRecord.exposed).getD false then openingCaptured s else s)

/-! ## PREPARE (R35 to R37) -/

/-- The answer to the cycle's request for a FIRST exposure (R84, R86, R88). -/
def admitFirst (s : State) (v : Volume) (e : ClassEntry) (sides : Sides) : Admission :=
  judgeAdmission s v e
    (s.planOf (firstLevels s.light.channels v e sides) (exposureTimeOf v e))

/-- The slots of the cameras in a side set are armed (R37, R105). -/
def armSides (handle opening retake : Nat) : List Camera → State → State
  | [], s => s
  | c :: rest, s =>
    armSides handle opening retake rest
      (updCam c (fun x =>
        x.arm (Frame.fresh (some handle) opening (some (sideOf opening c)) retake)) s)

/-- An exposure the lighting unit has admitted is started: its rest check, the slots, EXPOSE (R37, R89,
R90), the slots' line shown before the cycle's (R181; notes/assumptions/14.md). -/
def beginExposure (kind : ExposureKind) (o : OpeningRecord) (h : Nat) (p : Plan) (s : State) : State :=
  if s.cradleAtRest then
    warmOnEntry (enterCycle .expose .none
      (updOpening (fun o => { o with exposed := true, lampFault := false })
        (sync (armSides h o.number o.retakes o.prepared.sides.list
          (startExposure kind o.prepared.sides p (some h) s)))))
  else haltCapture .notAtRest o.prepared.sides s

/-- PREPARE has met its waits and goes on (R37). -/
def goOn (s : State) : State :=
  let s := updCycle (fun c => { c with camTimer := none }) s
  match s.cycle.opening, s.vols.active, s.activeClass with
  | some o, some (h, v), some e =>
    if s.lines.platenDown ∧ s.lines.armParked then
      match o.prepared.retake with
      | some p => beginExposure .retake o h p s
      | none =>
        match admitFirst s v e o.prepared.sides with
        | .admitted p => beginExposure .first o h p s
        | .refused lamp _ => haltCapture (if lamp then .lampFault else .doseLimit) o.prepared.sides s
        | .busy => s
    else haltCapture .notAtRest o.prepared.sides s
  | _, _, _ => s

/-- Whether the cameras of a side set are all ready (R37). -/
def State.camerasReady (s : State) (sides : Sides) : Bool :=
  sides.list.all fun c => s.lines.camReady.get c

/-- Whether each camera of a side set has a FREE slot (R36). -/
def State.slotsFree (s : State) (sides : Sides) : Bool :=
  sides.list.all fun c => (s.cam c).firstFree.isSome

/-- The waits of PREPARE: slots, log room, cameras (R36, R37). -/
def prepareWaits (s : State) : State :=
  let sides := s.cycle.preparedSides
  if ¬ s.slotsFree sides then enterCycle .prepare .waitSlot s
  else if s.freeRoom < 4 + sides.size then enterCycle .prepare .waitLog s
  else if s.camerasReady sides then goOn (enterCycle .prepare .none s)
  else
    enterCycle .prepare .waitCamera
      (updCycle (fun c => { c with camTimer := some (s.now + ms s.intake.geo.camReadyTimeout) }) s)

/-- PREPARE is entered: the rest check, then the waits (R35, R36). -/
def enterPrepare (s : State) : State :=
  let s := enterCycle .prepare .none s
  if s.restCheck then prepareWaits s else haltCapture .notAtRest s.cycle.preparedSides s

/-! ## Beginning an opening (R34) -/

/-- A side's status as an opening begins (R34). -/
def sideAtBegin (skip : Bool) (v : Volume) (c : Camera) : SideRecord :=
  ⟨if skip && v.coverage.getD (sideOf v.cursor c) .absent == .taken then .passed else .wanted, none⟩

/-- A fresh opening record (R34). -/
def OpeningRecord.fresh (skip : Bool) (v : Volume) : OpeningRecord :=
  let l := sideAtBegin skip v .left
  let r := sideAtBegin skip v .right
  ⟨v.cursor, ⟨l, r⟩, 0, ⟨⟨l.status == .wanted, r.status == .wanted⟩, none⟩, false, false, 0⟩

/-- The cycle begins the cursor opening (R32, R34). -/
def beginOpening (s : State) : State :=
  match s.cycle.run, s.vols.active with
  | some r, some (_, v) =>
    let s := if v.cursor = r.stop ∧ ¬ r.stopReached then stopReached s else s
    let o := OpeningRecord.fresh r.skipCovered v
    let s := updCycle (fun c => { c with opening := some o }) s
    if o.prepared.sides.size = 0 then finishOpening s else enterPrepare s
  | _, _ => s

/-! ## Verdicts of the active record (R19, R20) -/

/-- The REPEAT flag (R19). -/
def repeatFlag (v : Verdict) (before : Coverage) : Bool :=
  match v, before with
  | .accepted, .taken => true
  | .marginal, .marginal | .marginal, .taken => true
  | _, _ => false

/-- A recorded verdict is applied to the record (R20). -/
def applyVerdict (side : Nat) (verdict : Verdict) (repeated : Bool) (v : Volume) : Volume :=
  let before := v.coverage.getD side .absent
  let after : Coverage := match verdict, before with
    | .accepted, _ => .taken
    | .marginal, .absent => .marginal
    | _, b => b
  { v with
    coverage := v.coverage.set side after
    sidesCovered :=
      if before = .absent ∧ after ≠ .absent ∧ side < v.coverage.length then v.sidesCovered + 1
      else v.sidesCovered
    framesAccepted := if verdict = .accepted then satSucc v.framesAccepted else v.framesAccepted
    framesMarginal := if verdict = .marginal then satSucc v.framesMarginal else v.framesMarginal
    framesRejected := if verdict = .rejected then satSucc v.framesRejected else v.framesRejected
    framesDamaged := if verdict = .damaged then satSucc v.framesDamaged else v.framesDamaged
    repeatFrames := if repeated then satSucc v.repeatFrames else v.repeatFrames }

/-! ## Review (R39 to R43) -/

/-- A side's status and last result are set (R42). -/
def setSide (c : Camera) (st : SideStatus) (last : LastResult) (s : State) : State :=
  updOpening (fun o => { o with sides := o.sides.set c ⟨st, some last⟩ }) s

/-- The results of one side at review (R39). -/
def judgeFrame (rules : Rules) (g : Geometry) (lamp : Bool) (f : Frame) : Verdict × FrameReason :=
  match f.ending with
  | .lost => (.lost, .timeout)
  | .complete => if lamp then (.damaged, .lamp) else rules.judge g.pixels f.mean f.clip
  | .damaged => if lamp then (.damaged, .lamp) else (.damaged, f.reason)
  | .inFlight | .aborted => (.aborted, .none)

/-- The frame of one side, judged, its side status still as after a rejection (R39). -/
def judgeSide (s : State) (o : OpeningRecord) (c : Camera) : Option Judged :=
  match (s.cam c).inFlight, (s.cam c).flying with
  | some k, some f =>
    let q := judgeFrame s.cycle.rules s.intake.geo o.lampFault f
    some ⟨c, k, q.1, q.2, if q.1 = .accepted then .settled else .pending⟩
  | _, _ => none

/-- The frames of an exposure judged, left first (R39). -/
def judgeSides (s : State) (o : OpeningRecord) : List Judged :=
  o.prepared.sides.list.filterMap (judgeSide s o)

/-- The sides of the frames that satisfy a test. -/
def judgedSides (js : List Judged) (p : Judged → Bool) : Sides :=
  sidesWhere fun c => js.any fun j => j.cam == c && p j

/-- What a retake does with a side (R40, R134, R136). -/
def trimOf (target : Nat) (s : State) (js : List Judged) (c : Camera) : SideTrim :=
  match js.find? fun j => j.cam == c with
  | some j =>
    match j.verdict with
    | .rejected =>
      .rejected (trimFactor target j.reason (((s.cam c).frameAt j.slot).map Frame.mean |>.getD 0))
    | .damaged => .damaged
    | _ => .out
  | none => .out

/-- The plan of a retake (R40, R85, R86). -/
def retakePlan (s : State) (v : Volume) (e : ClassEntry) (js : List Judged) : Plan :=
  s.planOf
    (retakeLevels s.light.channels s.light.exposure.plan.levels e.ceiling
      (trimOf s.cycle.rules.target s js .left) (trimOf s.cycle.rules.target s js .right))
    (exposureTimeOf v e)

/-- A REJECTED frame kept as MARGINAL, its reason kept (R41). -/
def Judged.keep (j : Judged) : Judged :=
  if j.verdict = .rejected then { j with verdict := .marginal, status := .settled } else j

/-- The review without a retake (R41). -/
def settleMarginal (e : ClassEntry) (js : List Judged) : List Judged × AfterReview :=
  let js := js.map Judged.keep
  let owed := judgedSides js fun j => j.status == .pending
  let marginal := judgedSides js fun j => j.verdict == .marginal
  (js,
    if owed.size ≠ 0 then .halt .captureFault owed
    else if marginal.size ≠ 0 ∧ e.haltMarginal then .halt .marginalHalt marginal
    else .finish)

/-- The decision of a review: the frames as they are recorded, and what follows (R39 to R41). -/
def decideReview (s : State) (o : OpeningRecord) (v : Volume) (e : ClassEntry) : List Judged × AfterReview :=
  let js := judgeSides s o
  let lost := judgedSides js fun j => j.verdict == .lost
  let pending := judgedSides js fun j => j.status == .pending
  if o.lampFault then
    (js.map fun j => { j with status := .pending }, .halt .lampFault o.prepared.sides)
  else if lost.size ≠ 0 then (js, .halt .cameraTimeout lost)
  else if pending.size = 0 then (js, .finish)
  else if o.retakes < e.maxRetakes then
    match judgeAdmission s v e (retakePlan s v e js) with
    | .admitted p => (js, .retake pending p)
    | .refused _ _ | .busy => settleMarginal e js
  else settleMarginal e js

/-- The contents of a judged frame's FRAME record (R42, R148). -/
def frameBody (s : State) (o : OpeningRecord) (h : Nat) (v : Volume) (j : Judged) : FrameBody :=
  let f := ((s.cam j.cam).frameAt j.slot).getD (Frame.fresh none o.number none 0)
  ⟨h, o.number, sideOf o.number j.cam, j.cam, j.slot, f.number, j.verdict, j.reason, f.mean, f.clip,
    f.retake, f.corrected, o.charge,
    repeatFlag j.verdict (v.coverage.getD (sideOf o.number j.cam) .absent)⟩

/-- A slot made FILLED is named in the side's last result (R28). -/
def filledSlot (v : Verdict) (k : Nat) : Option Nat :=
  match v with
  | .accepted | .marginal => some k
  | .rejected | .damaged | .lost | .aborted => none

/-- Review settles a frame at the intake and in the opening record (R42, R118). -/
def settleSide (j : Judged) (s : State) : State :=
  setSide j.cam j.status ⟨j.verdict, j.reason, filledSlot j.verdict j.slot⟩
    (updCam j.cam (CamState.settleFrame j.slot j.verdict j.reason) s)

/-- The FRAME record of a judged frame has been accepted (R20, R42). -/
def frameRecorded (j : Judged) (b : FrameBody) (s : State) : State :=
  settleSide j (updVol b.handle (applyVerdict b.side b.verdict b.repeated) s)

/-- A review's records are all accepted: what follows (R40, R41, R43, R44). The slots it settled are shown before
the cycle goes on (R104, R181), though a retake arms the same slot again within the step
(notes/assumptions/14.md). -/
def reviewEnd (a : AfterReview) (s : State) : State :=
  let s := sync (updCycle (fun c => { c with review := none }) s)
  match a with
  | .finish => finishOpening s
  | .retake sides p =>
    enterPrepare (updOpening (fun o => { o with retakes := o.retakes + 1, prepared := ⟨sides, some p⟩ })
      (updActive (fun v => { v with retakes := satSucc v.retakes }) s))
  | .halt kind sides => haltCapture kind sides (openingCaptured s)

/-- The frames of a review are recorded one by one, left first; where the log's acceptance waits, the
cycle waits with it in REVIEW (R42). -/
def recordAll (a : AfterReview) : List Judged → State → State
  | [], s => reviewEnd a s
  | j :: rest, s =>
    if j.verdict = .lost then recordAll a rest (settleSide j s)
    else
      match s.cycle.opening, s.vols.active with
      | some o, some (h, v) =>
        let b := frameBody s o h v j
        let q := requestAppend (.frame b) s
        if q.2 then recordAll a rest (frameRecorded j b q.1)
        else updCycle (fun c => { c with review := some ⟨j :: rest, a⟩ }) q.1
      | _, _ => s

/-- Whether the frame in flight of a camera, if there is one, has ended. -/
def CamState.hasEnded (c : CamState) : Bool :=
  match c.flying with
  | some f => f.ending != .inFlight
  | none => true

/-- An ADMITTED retake is held by the lighting unit (R89). -/
def holdRetake (a : AfterReview) (s : State) : State :=
  match a with
  | .retake sides p => holdAdmitted sides p s
  | .finish => s
  | .halt _ _ => s

/-- REVIEW goes on once every frame of the exposure has ended (R39). -/
def reviewCheck (s : State) : State :=
  if s.cycle.state = .review ∧ s.cycle.review = none ∧
      s.cycle.preparedSides.list.all fun c => (s.cam c).hasEnded then
    match s.cycle.opening, s.vols.active, s.activeClass with
    | some o, some (_, v), some e =>
      let q := decideReview s o v e
      recordAll q.2 q.1 (holdRetake q.2 s)
    | _, _, _ => s
  else s

/-! ## The end of a turn (R46, R66 to R68) -/

/-- The cycle hears TURN_DONE (R46). The opening is begun with the cursor above the run's stop too
(notes/assumptions/46.md). -/
def afterTurn (s : State) : State :=
  match s.cycle.run with
  | none => s
  | some r =>
    if r.kind = .step then runComplete s
    else if r.pausePending then enterPaused .beginOpening s
    else beginOpening s

/-- A turn is counted on a record: the cursor rises by one, never past L (R4, R18). -/
def turnCounted (v : Volume) : Volume :=
  { v with cursor := min (v.cursor + 1) v.leaves, openingDose := 0, turnsDone := satSucc v.turnsDone }

/-- The TURN record is accepted (R68). -/
def turnDone (s : State) : State :=
  let s := updTurner (fun t => t.cleared.toRest) (updVol s.turner.handle turnCounted s)
  let s := if s.cycle.state = .turn then afterTurn s else s
  if s.turner.pendingTurn ∧ s.turner.state = .rest then
    takeTurn (updTurner (fun t => { t with pendingTurn := false }) s)
  else s

/-- The TURN record of the turn now completing (R80). -/
def State.turnBody (s : State) : TurnBody :=
  ⟨s.turner.handle, ((s.vols.get s.turner.handle).map Volume.cursor).getD 0 + 1, s.turner.retry,
    s.turner.doubles, false⟩

/-- SETTLE ends: COMPLETING, and the TURN record is asked for (R68). -/
def completeTurn (s : State) : State :=
  let s := setStage .settle .completing TurnerOutputs.atRest .off none s
  let q := requestAppend (.turn s.turnBody) s
  if q.2 then turnDone q.1 else q.1

/-- SETTLE is entered; a settle time of 0 ends it (R67). -/
def enterSettle (s : State) : State :=
  if s.turner.vals.settle = 0 then completeTurn s
  else setStage .settle .none TurnerOutputs.atRest .off (some (s.now + ms s.turner.vals.settle)) s

/-- PLATEN_LOWER is entered (R67). -/
def enterPlatenLower (s : State) : State :=
  let s := setStage .platenLower .none { TurnerOutputs.atRest with platen := .down }
    (.running s.now s.turner.g6.platen) none s
  if s.lines.platenDown then enterSettle s else s

/-- RETURN is entered (R66). -/
def enterReturn (s : State) : State :=
  let s := setStage .returning .none { TurnerOutputs.atRest with arm := .toPark }
    (.running s.now s.turner.g6.goBack) none s
  if s.lines.armParked then enterPlatenLower s else s

/-! ## Abort and stop (R49, R51) -/

/-- Whether the cycle is in PREPARE, EXPOSE, REVIEW, TURN or PAUSED. -/
def CycleState.working : CycleState → Bool
  | .prepare | .expose | .review | .turn | .paused => true
  | .idle | .halted | .calibrate => false

/-- Everything in flight is aborted (R49, R94, R117, R151, R77), what each part of it changes shown in its turn
(R181; notes/assumptions/14.md). -/
def abortWork (cause : StopCause) (s : State) : State × AbortAnswer :=
  let s := abortExposure (updCycle (fun c => { c with camTimer := none }) s)
  let s := abortFrames (updCycle (fun c => { c with review := none }) (withdrawFrame (sync s)))
  abortTurn cause (sync s)

/-- CYCLE_STOPPED (R49, R50); with no volume active its cursor is 0 (notes/assumptions/53.md). -/
def cycleStopped (cause : StopCause) (former : CycleState) (s : State) : State :=
  notice .cycleStopped
    [(12, u8 cause.code), (13, u8 (orFF s.vols.activeHandle)), (14, u16 s.vols.cursor),
     (16, u8 former.code)] s

/-- What follows an abort by STOP or HALT_IN: CYCLE_STOPPED, then the halt or IDLE (R49), the turner's line shown
before the cycle's (R181). -/
def stopTail (cause : StopCause) (former : CycleState) (a : AbortAnswer) (s : State) : State :=
  let s := cycleStopped cause former s
  if a.held then haltTurn .turnAborted a.stage s
  else
    enterCycle .idle .none
      (updCycle (fun c => { c with run := none, opening := none })
        (sync (resolveClear s)))

/-- A SAFE_STOP fall in a running or paused cycle (R51; notes/assumptions/20.md). -/
def safeStopFall (s : State) : State :=
  let owed := s.cycle.sidesWith SideStatus.owed
  let turning := s.cycle.state == .turn ||
    (s.cycle.state == .paused && s.cycle.point == some .turn)
  let stage := s.turner.stage
  let q := abortWork .supplyLow s
  if turning ∨ q.2.aborted then haltTurn .supplyLow stage q.1 else haltCapture .supplyLow owed q.1

end Sys2Proof.Machine
end

