-- ==== Sys2Proof/Machine/Calibration.lean ====
section
/-! DEFINITION. The calibration (spec/05 section 5.10; R50, R98), snapshots (R25, R26), what follows the
acceptance of an append (R150), and the completion of an exposure (R38, R92). -/

namespace Sys2Proof.Machine

/-! ## The calibration's end (R125) -/

/-- What a CALIBRATION record says of one camera (R125). -/
def calCamera (c : CamState) (clamped dark : Nat) : CalCamera :=
  match c.flying with
  | some f => ⟨f.number, f.mean, clamped, dark⟩
  | none => ⟨0, 0, clamped, dark⟩

/-- The slot a calibration armed becomes FREE (R125). -/
def CamState.freeFlying (c : CamState) : CamState :=
  match c.inFlight with
  | some k => c.putSlot k Slot.empty
  | none => c

/-- The reply of a calibration (R125, R191). -/
def calReply (b : CalBody) (s : State) : State :=
  writeEntry (replyFields b.ticket (if b.done then .done else .failed) 0 b.clamped false
    [(12, u8 b.cause.code), (13, u8 (orFF (b.concerned.map cameraCode))),
     (14, u8 b.cams.left.clamped), (15, u8 b.cams.left.dark), (16, u8 b.cams.right.clamped),
     (17, u8 b.cams.right.dark)]) .entry s

/-- The CALIBRATION record is accepted: reply, CYCLE_STOPPED after a stop, IDLE (R50, R125). -/
def calFinish (b : CalBody) (s : State) : State :=
  let s := calReply b s
  let s := match b.stopped with
    | some cause => cycleStopped cause .calibrate s
    | none => s
  enterCycle .idle .none (updCycle (fun c => { c with cal := none, camTimer := none }) s)

/-- The calibration ends: its slots become FREE and its record is asked for (R125). A WAIT_CAMERA it still shows
ends here with its timeout, between the two, and so after a STOP's reply: DESIGN CHOICE, R50 and R125 not saying
when (notes/assumptions/59.md). -/
def calEnd (done : Bool) (cause : CalCause) (concerned : Option Camera) (cams : PerCam CalCamera)
    (stopped : Option StopCause) (s : State) : State :=
  match s.cycle.cal with
  | none => s
  | some c =>
    let s := updCal (fun c => { c with recorded := true })
      (enterCycle .calibrate .none (updCycle (fun c => { c with camTimer := none })
        (updCam .right CamState.freeFlying (updCam .left CamState.freeFlying s))))
    let b : CalBody := ⟨done, cause, concerned, c.target, c.levels, c.exposure, c.charge, cams, c.ticket,
      c.clamped, stopped⟩
    let q := requestAppend (.calibration b) s
    if q.2 then calFinish b q.1 else q.1

/-- A calibration that ends FAILED without a frame at fault (R98, R124). -/
def calFail (cause : CalCause) (s : State) : State :=
  calEnd false cause none ⟨calCamera (s.cam .left) 0 0, calCamera (s.cam .right) 0 0⟩ none s

/-! ## The calibration's steps (R124) -/

/-- The planned levels of a calibration exposure: those of the channels not mapped NONE (R98). -/
def calLevels (channels : List Channel) (levels : List Nat) : List Nat :=
  channels.mapIdx fun i c => if c.sideMap.chosen Sides.both then levels.getD i 0 else 0

/-- The cameras are ready: the exposure is started and both slots are armed (R98, R124). -/
def calGo (s : State) : State :=
  match s.cycle.cal with
  | none => s
  | some c =>
    let s := enterCycle .calibrate .none (updCycle (fun c => { c with camTimer := none }) s)
    let p := s.planOf (calLevels s.light.channels c.levels) c.exposure
    if ¬ lampTest s.light.channels p.levels then calFail .refusedLamp s
    else if ¬ s.cradleAtRest then calFail .notAtRest s
    else
      let f := Frame.fresh none 0 none 0
      warmOnEntry (updCam .right (fun x => x.arm f) (updCam .left (fun x => x.arm f)
        (startExposure .calibration Sides.both p none s)))

/-- The calibration looks at the cameras (R124). -/
def calCameras (s : State) : State :=
  if s.camerasReady Sides.both then calGo s
  else
    enterCycle .calibrate .waitCamera
      (updCycle (fun c => { c with camTimer := some (s.now + ms s.intake.geo.camReadyTimeout) }) s)

/-- The 64 new gains of a camera, each with its clamp and dark marks (R137). -/
def newGains (g : Geometry) (target : Nat) (bands : List Nat) : List (Nat × Bool × Bool) :=
  bands.map (bandGain g target)

/-- A pending gain table is filled (R120). -/
def CamState.fillPending (gains : List Nat) (c : CamState) : CamState :=
  { c with pendingTable := gains, pendingTableFlag := true }

/-- How a camera's calibration frame ended. -/
def CamState.endOf (c : CamState) : FrameEnd := (c.flying.map Frame.ending).getD .inFlight

/-- The calibration's exposure and frames have all ended: success or failure (R125). -/
def calJudge (s : State) : State :=
  match s.cycle.cal with
  | none => s
  | some c =>
    let l := s.cam .left
    let r := s.cam .right
    if l.endOf = .complete ∧ r.endOf = .complete then
      let gl := newGains s.intake.geo c.target l.intakeRec.bands
      let gr := newGains s.intake.geo c.target r.intakeRec.bands
      let cams : PerCam CalCamera :=
        ⟨calCamera l (gl.countP fun q => q.2.1) (gl.countP fun q => q.2.2),
          calCamera r (gr.countP fun q => q.2.1) (gr.countP fun q => q.2.2)⟩
      calEnd true .none none cams none
        (updCam .right (CamState.fillPending (gr.map Prod.fst))
          (updCam .left (CamState.fillPending (gl.map Prod.fst)) s))
    else
      let failed : FrameEnd := if l.endOf = .lost ∨ r.endOf = .lost then .lost else .damaged
      calEnd false (if failed = .lost then .lost else .damaged)
        (some (if l.endOf = failed then .left else .right)) ⟨calCamera l 0 0, calCamera r 0 0⟩ none s

/-- The calibration goes on once its exposure and both frames have ended (R124, R125). -/
def calCheck (s : State) : State :=
  match s.cycle.cal with
  | none => s
  | some c =>
    if c.exposureDone ∧ ¬ c.recorded ∧ (s.cam .left).hasEnded ∧ (s.cam .right).hasEnded then calJudge s
    else s

/-- The calibration's cause for a stop (R50). -/
def StopCause.calCause : StopCause → CalCause
  | .stop => .stop
  | .haltIn => .haltIn
  | .supplyLow => .supplyLow

/-- STOP, HALT_IN or a SAFE_STOP fall ends a calibration (R50); one whose record already waits has
ended (notes/assumptions/23.md). `reply` is the STOP's reply, written before the calibration's (R177) and while
status line 0 still shows a WAIT_CAMERA that `calEnd` then clears: DESIGN CHOICE (notes/assumptions/59.md). -/
def calStop (cause : StopCause) (reply : State → State) (s : State) : State :=
  match s.cycle.cal with
  | none => reply s
  | some c =>
    if c.recorded then reply s
    else
      let cams : PerCam CalCamera := ⟨calCamera (s.cam .left) 0 0, calCamera (s.cam .right) 0 0⟩
      calEnd false cause.calCause none cams (some cause) (reply (abortFrames (abortExposure s)))

/-! ## Snapshots (R25, R26) -/

/-- The snapshot in flight is changed. -/
def setSnapshot (p : Option Snapshot) (s : State) : State := { s with vols := { s.vols with snapshot := p } }

/-- Whether an item of the wait list is a snapshot's reply. -/
def WaitItem.isSnapshotReply (w : WaitItem) : Bool :=
  match w.what with
  | .write _ _ o => o == .snapshotReply
  | .status _ | .append | .snapshotLine | .verifyRead | .gainRead _ _ => false

/-- The snapshot's reply is written; the snapshot is in flight until it has its place (R25, R26). -/
def snapshotReply (s : State) : State :=
  match s.vols.snapshot with
  | none => s
  | some p =>
    let s := writeEntry (replyFields p.ticket .done 0 false false [(12, u8 p.mapLines)]) .snapshotReply s
    if s.transit.wait.any WaitItem.isSnapshotReply then
      setSnapshot (some { p with lines := [], replyWritten := true }) s
    else setSnapshot none s

/-- A snapshot places its lines one after the other, waiting at the one that finds no room, then writes
its reply (R26, R168). -/
def snapshotPlace : List (Nat × Line) → State → State
  | [], s => snapshotReply s
  | (a, l) :: rest, s =>
    let s := sync s
    if s.transit.hasPlace then
      snapshotPlace rest (enqueue a (some l) .snapshotLine s.transit.nextId (bumpId s))
    else
      setSnapshot (s.vols.snapshot.map fun p => { p with lines := (a, l) :: rest })
        (waitFor .snapshotLine s.transit.nextId (bumpId s))

/-- The snapshot's waiting line joins the queue as own item `id`, and the snapshot goes on (R168). -/
def snapshotGranted (id : Nat) (s : State) : State :=
  match s.vols.snapshot with
  | some p =>
    match p.lines with
    | (a, l) :: rest => snapshotPlace rest (enqueue a (some l) .snapshotLine id s)
    | [] => s
  | none => s

/-! ## Acceptance (R150) -/

/-- The block that asked for an append hears of its acceptance (R42, R68, R125, R150, R175): the cycle of a
FRAME record while its review waits, and of a CALIBRATION record while it is in CALIBRATE. -/
def afterAccepted (a : Append) (s : State) : State :=
  match a with
  | .frame b =>
    match s.cycle.review with
    | some r =>
      match r.todo with
      | j :: rest =>
        recordAll r.after rest
          (frameRecorded j b (updCycle (fun c => { c with review := none }) s))
      | [] => s
    | none => s
  | .turn b => if b.byHand then s else turnDone s
  | .volume b => replyDone b.ticket b.clamped [] s
  | .fault _ => s
  | .calibration b => if s.cycle.state = .calibrate then calFinish b s else s

/-- The waiting head append is accepted as own item `id`; then the block that asked for it hears (R150, R168;
notes/assumptions/50.md). -/
def acceptWaiting (id : Nat) (s : State) : State :=
  match s.log.appends with
  | a :: _ => afterAccepted a (acceptHead id s)
  | [] => s

/-- A request's append is asked for; its reply comes with the acceptance (R175). -/
def appendForReply (a : Append) (s : State) : State :=
  let q := requestAppend a s
  if q.2 then afterAccepted a q.1 else q.1

/-! ## The wait list's next item (R168) -/

/-- A waiting item joins the queue as the block that produced it says (R168, R181). -/
def joinQueue (w : WaitItem) (s : State) : State :=
  match w.what with
  | .write addr line origin =>
    let s := enqueue addr (some line) origin w.id s
    if origin = .snapshotReply then setSnapshot none s else s
  | .status k =>
    let l := statusLine k s
    setDirty k false (setShown k l (enqueue (s.statusAddr k) (some l) (.status k) w.id s))
  | .append => acceptWaiting w.id s
  | .snapshotLine => snapshotGranted w.id s
  | .verifyRead => verifyAdvance (some w.id) s
  | .gainRead c second => placeGainReads c second (some w.id) s

/-- The oldest waiting item that satisfies `p` joins the queue, if the queue has a free place and the
item heads the list (R168). -/
def admitOldest (p : WaitItem → Bool) (s : State) : State :=
  match s.transit.wait with
  | [] => s
  | w :: rest =>
    if s.transit.queue.length < 16 ∧ p w then
      joinQueue w { s with transit := { s.transit with wait := rest } }
    else s

/-! ## Completion of an exposure (R38, R92) -/

/-- The completion event: charge, channels, record, and the report to whoever started the exposure
(R38, R92). The cycle notes the charge reported; where a rest loss made the charge it has noted that one
(R142; notes/assumptions/56.md). What the completion changed is shown before the cycle's state (R181). -/
def exposureEnds (s : State) : State :=
  let e := s.light.exposure
  let q := completeExposure s
  if e.kind = .calibration then calCheck (updCal (fun c => { c with exposureDone := true }) q.1)
  else if q.1.cycle.state = .expose then
    let u := sync q.1
    reviewCheck (enterCycle .review .none (if e.charged then u else noteCharge q.2 u))
  else q.1

/-- A frame's end is reported to whoever armed its slot (R118). -/
def frameReported (s : State) : State :=
  if s.cycle.state = .calibrate then calCheck s else reviewCheck s

end Sys2Proof.Machine
end

