-- ==== Sys2Proof/Machine/Heads.lean ====
section
/-! DEFINITION. Readings of a request's header (R174) and of the class fields of a request (R7, R9). -/

namespace Sys2Proof

open Sys2Proof.Machine

/-- Whether a header's zero bytes are zero and no flag outside `used` is set (R174). -/
def Head.fits (h : Head) (used : Byte) : Bool :=
  h.zero5 == 0#8 && h.zero6 == 0#8 && h.zero7 == 0#8 && (h.flags &&& ~~~used) == 0#8

/-- Whether flag `n` is set. -/
def Head.flag (h : Head) (n : Nat) : Bool := h.flags.getLsbD n

/-- What a reply echoes of a request of this code. -/
def Head.ticket (h : Head) (code : Byte) : Ticket := ⟨code, h.tag, h.handle⟩

/-- Whether a flag of SET_VOLUME's "absent" group stands without its "change" flag (R190). -/
def Head.absentAlone (h : Head) : Bool :=
  (h.flag 4 && !h.flag 1) || (h.flag 5 && !h.flag 2) || (h.flag 6 && !h.flag 3)

/-- A field of a class entry outside its range (R7). -/
def ClassFields.bad (f : ClassFields) : Bool :=
  f.vacuum.toNat == 0 || 15 < f.vacuum.toNat || 1 < f.mode.toNat ||
    f.holdTimeout.toNat == 0 || 10000 < f.holdTimeout.toNat || 1000 < f.knife.toNat ||
    7 < f.maxRetries.toNat || 3 < f.maxRetakes.toNat || 1023 < f.ceiling.toNat ||
    f.doseLimit.toNat == 0 || f.exposure.toNat == 0 || 2000 < f.exposure.toNat ||
    1023 < f.baseLevel.toNat || 5000 < f.settle.toNat || 1 < f.haltMarginal.toNat

/-- The class entry of in-range fields (R7). -/
def ClassFields.entry (f : ClassFields) : ClassEntry :=
  ⟨f.vacuum.toNat, f.grip.toNat, f.hold.toNat, if f.mode.toNat = 0 then .abort else .hold,
    f.holdTimeout.toNat, f.knife.toNat, f.maxRetries.toNat, f.maxRetakes.toNat, f.ceiling.toNat,
    f.doseLimit.toNat, f.exposure.toNat, f.baseLevel.toNat, f.settle.toNat, f.haltMarginal.toNat == 1⟩

end Sys2Proof
end

