-- ==== Sys2Proof/Machine/VolumeRequests.lean ====
section
/-! DEFINITION. How a request is taken (R174) and the requests of the volume table (spec/01). -/

namespace Sys2Proof.Machine

/-! ## Taking a request (R11, R174) -/

/-- A request of a known kind is taken: header checks, then its owner (R174). Before READY nothing is
taken (R173). -/
def ask (code used : Byte) (h : Head) (f : Ticket → State → State) (s : State) : State :=
  if s.ready then
    if h.fits used then f (h.ticket code) s else refuse (h.ticket code) .badField s
  else s

/-- A request line whose byte 0 names no kind (R174). -/
def askUnknown (kind : Byte) (h : Head) (s : State) : State :=
  if s.ready then refuse (h.ticket kind) .unknownKind s else s

/-- Checks in a fixed order: the first that fails gives the reason (R11). -/
def firstFailure : List (Bool × Reason) → Option Reason
  | [] => none
  | (failed, r) :: rest => if failed then some r else firstFailure rest

/-- A request is refused by its first failing check, else carried out. -/
def checked (t : Ticket) (cs : List (Bool × Reason)) (f : State → State) (s : State) : State :=
  match firstFailure cs with
  | some r => refuse t r s
  | none => f s

/-- Whether the cycle is IDLE. -/
def State.idle (s : State) : Bool := s.cycle.state == .idle

/-- The record a ticket's handle byte names, if there is one. -/
def State.named (s : State) (t : Ticket) : Option Volume :=
  if t.handle.toNat < 32 then s.vols.get t.handle.toNat else none

/-- Whether the named record satisfies a test. -/
def State.namedIs (s : State) (t : Ticket) (p : Volume → Bool) : Bool :=
  match s.named t with
  | some v => p v
  | none => false

/-- Handle byte above 31 (R11). -/
def Ticket.badHandle (t : Ticket) : Bool := 31 < t.handle.toNat

/-! ## Values brought into range (R12, R13) -/

/-- Six levels of a request. -/
def sixLevels (ls : List (BitVec 16)) : List Nat := (List.range 6).map fun i => (ls.getD i 0#16).toNat

/-- Levels clamped to a ceiling, and whether that changed one. -/
def clampLevels (ceiling : Nat) (ls : List Nat) : List Nat × Bool :=
  (ls.map (min ceiling), ls.any fun v => ceiling < v)

/-- An exposure time clamped to 1..2000, and whether that changed it. -/
def clampExposure (e : Nat) : Nat × Bool := (clampTo 1 2000 e, clampTo 1 2000 e != e)

/-! ## REGISTER_VOLUME (R12) -/

/-- A shelf-mark padded to 32 characters (R3). -/
def padMark (m : List Byte) : List Byte := (m ++ List.replicate 32 0x20#8).take 32

/-- A valid shelf-mark (R3). -/
def validMark (m : List Byte) : Bool :=
  m.all (fun b => 0x20 ≤ b.toNat && b.toNat ≤ 0x7E) && m.any (fun b => b != 0x20#8)

/-- The lowest free handle (R1). -/
def VolumeTable.firstFree (t : VolumeTable) : Option Nat := t.table.findIdx? Option.isNone

/-- Whether a record of the table carries this mark (R3). -/
def VolumeTable.hasMark (t : VolumeTable) (m : List Byte) : Bool :=
  t.table.any fun o => match o with
    | some v => v.mark == m
    | none => false

/-- A new record (R2), with the mark of whether a value was brought into range (R12). -/
def newVolume (t : VolumeTable) (h : Head) (p : RegisterParams) : Volume × Bool :=
  let override := if h.flag 0 then some p.override.toNat else none
  let cls := override.getD (t.material.getD p.material.toNat 0)
  let levels := clampLevels (t.entry cls).ceiling (sixLevels p.levels)
  let exposure := clampExposure p.exposure.toNat
  let budget := max 1 p.budget.toNat
  (⟨padMark p.mark, .registered, p.material.toNat, override, p.leaves.toNat, budget, 0, 0,
    if h.flag 1 then some levels.1 else none, if h.flag 2 then some exposure.1 else none, 0,
    List.replicate (2 * p.leaves.toNat + 2) .absent, 0, 0, 0, 0, 0, 0, 0, 0, 0, 0, 0, 0⟩,
   budget != p.budget.toNat || (h.flag 1 && levels.2) || (h.flag 2 && exposure.2))

/-- The field check of REGISTER_VOLUME (R12). -/
def badRegister (h : Head) (p : RegisterParams) : Bool :=
  !validMark (padMark p.mark) || 15 < p.material.toNat || (h.flag 0 && 3 < p.override.toNat) ||
    p.leaves.toNat == 0 || 4095 < p.leaves.toNat

/-- REGISTER_VOLUME (R12). -/
def takeRegister (h : Head) (p : RegisterParams) (t : Ticket) (s : State) : State :=
  checked t
    [(badRegister h p, .badField), (s.vols.firstFree.isNone, .tableFull),
     (s.vols.hasMark (padMark p.mark), .duplicate)]
    (fun s =>
      match s.vols.firstFree with
      | none => s
      | some k =>
        let q := newVolume s.vols h p
        replyDone t q.2 [(12, u8 k)]
          { s with vols := { s.vols with table := s.vols.table.set k (some q.1) } }) s

/-! ## SET_VOLUME (R13) -/

/-- The override after SET_VOLUME (R13 step 1). -/
def setOverride (h : Head) (p : SetVolumeParams) (v : Volume) : Volume :=
  if h.flag 3 then { v with override := if h.flag 6 then none else some p.override.toNat } else v

/-- The base levels after SET_VOLUME (R13 step 2). -/
def setLevels (ceiling : Nat) (h : Head) (p : SetVolumeParams) (v : Volume) : Volume × Bool :=
  if h.flag 1 then
    if h.flag 4 then ({ v with baseLevels := none }, false)
    else
      let q := clampLevels ceiling (sixLevels p.levels)
      ({ v with baseLevels := some q.1 }, q.2)
  else (v, false)

/-- The exposure time after SET_VOLUME (R13 step 3). -/
def setExposure (h : Head) (p : SetVolumeParams) (v : Volume) : Volume × Bool :=
  if h.flag 2 then
    if h.flag 5 then ({ v with exposureTime := none }, false)
    else
      let q := clampExposure p.exposure.toNat
      ({ v with exposureTime := some q.1 }, q.2)
  else (v, false)

/-- The budget after SET_VOLUME (R13 step 4). -/
def setBudget (h : Head) (p : SetVolumeParams) (v : Volume) : Volume × Bool :=
  if h.flag 0 then
    let b := max 1 (max p.budget.toNat v.doseUsed)
    ({ v with budget := b }, b != p.budget.toNat)
  else (v, false)

/-- The record after SET_VOLUME, and whether a value was brought into range (R13). -/
def changeVolume (t : VolumeTable) (h : Head) (p : SetVolumeParams) (v : Volume) : Volume × Bool :=
  let v := setOverride h p v
  let a := setLevels (t.entry (t.classOf v)).ceiling h p v
  let b := setExposure h p a.1
  let c := setBudget h p b.1
  (c.1, a.2 || b.2 || c.2)

/-- SET_VOLUME (R13). -/
def takeSetVolume (h : Head) (p : SetVolumeParams) (t : Ticket) (s : State) : State :=
  checked t
    [(h.absentAlone || (h.flag 3 && !h.flag 6 && 3 < p.override.toNat) || t.badHandle, .badField),
     (!s.idle, .state), ((s.named t).isNone, .noVolume),
     (s.namedIs t fun v => v.state == .closed, .closed),
     (h.flag 3 && s.namedIs t fun v => v.state == .active, .state)]
    (fun s =>
      match s.named t with
      | none => s
      | some v =>
        let q := changeVolume s.vols h p v
        replyDone t q.2 [] (updVol t.handle.toNat (fun _ => q.1) s)) s

/-! ## ACTIVATE, SUSPEND, SET_OPENING, CLOSE_VOLUME, RETIRE_VOLUME (R14 to R16, R22, R24) -/

/-- The contents of a VOLUME record of the named record as it stands (R148). -/
def volumeBody (t : Ticket) (e : VolumeEvent) (clamped : Bool) (v : Volume) : VolumeBody :=
  ⟨t.handle.toNat, e, v.cursor, v.doseUsed, v.sidesCovered, v.mark, t, clamped⟩

/-- The named record is changed and its VOLUME record asked for; the reply comes with its acceptance
(R14, R15, R22, R175). -/
def changeAndLog (t : Ticket) (e : VolumeEvent) (clamped : Bool) (f : Volume → Volume) (s : State) :
    State :=
  match s.named t with
  | none => s
  | some v =>
    appendForReply (.volume (volumeBody t e clamped (f v))) (updVol t.handle.toNat f s)

/-- The cursor set to an opening, at most L, the opening dose 0 (R4, R14, R16). -/
def placeAt (opening : Nat) (v : Volume) : Volume :=
  { v with cursor := min opening v.leaves, openingDose := 0 }

/-- Whether another record than the named one is ACTIVE (R10). -/
def State.otherActive (s : State) (t : Ticket) : Bool :=
  match s.vols.activeHandle with
  | some h => h != t.handle.toNat
  | none => false

/-- ACTIVATE (R14). -/
def takeActivate (opening : BitVec 16) (t : Ticket) (s : State) : State :=
  checked t
    [(t.badHandle, .badField), (!s.idle, .state), ((s.named t).isNone, .noVolume),
     (s.namedIs t fun v => v.state == .closed, .closed),
     (s.namedIs t fun v => v.state == .active, .state),
     (s.otherActive t, .activeExists), (s.freeRoom == 0, .logFull)]
    (fun s => changeAndLog t .activate (s.namedIs t fun v => v.leaves < opening.toNat)
      (fun v => { placeAt opening.toNat v with state := .active }) s) s

/-- SUSPEND (R15). -/
def takeSuspend (t : Ticket) (s : State) : State :=
  checked t
    [(t.badHandle, .badField), (!s.idle || s.completing, .state), ((s.named t).isNone, .noVolume),
     (s.namedIs t fun v => v.state == .closed, .closed),
     (s.namedIs t fun v => v.state != .active, .state), (s.freeRoom == 0, .logFull)]
    (changeAndLog t .suspend false fun v => { v with state := .suspended }) s

/-- SET_OPENING (R16). -/
def takeSetOpening (opening : BitVec 16) (t : Ticket) (s : State) : State :=
  checked t
    [(t.badHandle, .badField), (!s.idle || s.completing, .state), ((s.named t).isNone, .noVolume),
     (s.namedIs t fun v => v.state == .closed, .closed),
     (s.namedIs t fun v => v.state != .active, .state)]
    (fun s => replyDone t (s.namedIs t fun v => v.leaves < opening.toNat) []
      (updVol t.handle.toNat (placeAt opening.toNat) s)) s

/-- CLOSE_VOLUME (R22). -/
def takeClose (claimed complement : BitVec 16) (t : Ticket) (s : State) : State :=
  checked t
    [(t.badHandle, .badField), (!s.idle || s.completing, .state), ((s.named t).isNone, .noVolume),
     (s.namedIs t fun v => v.state == .closed, .closed),
     (s.namedIs t fun v => v.state == .registered, .state),
     (complement.toNat != 65535 - claimed.toNat ||
        s.namedIs t (fun v => v.sidesCovered != claimed.toNat), .mismatch),
     (s.freeRoom == 0, .logFull)]
    (changeAndLog t .close false fun v => { v with state := .closed }) s

/-- Whether a camera has a FILLED slot with a frame of a handle (R24). -/
def CamState.holdsFrameOf (c : CamState) (h : Nat) : Bool :=
  c.slots.any fun x => x.state == .filled && (x.frame.map Frame.handle) == some (some h)

/-- RETIRE_VOLUME (R24). -/
def takeRetire (t : Ticket) (s : State) : State :=
  checked t
    [(t.badHandle, .badField), ((s.named t).isNone, .noVolume),
     (s.namedIs t fun v => v.state == .active || v.state == .suspended, .state),
     ((s.cam .left).holdsFrameOf t.handle.toNat || (s.cam .right).holdsFrameOf t.handle.toNat, .slotsHeld)]
    (fun s => replyDone t false []
      { s with vols := { s.vols with table := s.vols.table.set t.handle.toNat none } }) s

/-! ## SNAPSHOT_VOLUME (R25 to R27) -/

/-- The highest line address. -/
def lastLine : Nat := 0x3FFFFFFC0

/-- Whether a request may not use `n` lines from an address: not on a line boundary, past the end, or a
line inside a window (R25, R121). -/
def RegionMap.forbids (m : RegionMap) (a n : Nat) : Bool :=
  a % 64 != 0 || lastLine < a + 64 * (n - 1) || (List.range n).any fun i => m.inside (a + 64 * i)

/-- The lines of a snapshot of a record, with their addresses, but for its reply (R26). With no map address
given, the map address written in line 7 is 0: notes/assumptions/54.md. -/
def snapshotLines (s : State) (t : Ticket) (map : Option Nat) (v : Volume) : List (Nat × Line) :=
  let h := t.handle.toNat
  let cls := s.vols.classOf v
  let n := if map.isSome then mapLineCount v else 0
  let a := map.getD 0
  [(s.statusAddr 4, snapshotLine4 false h cls t v), (s.statusAddr 5, snapshotLine5 v),
   (s.statusAddr 6, snapshotLine6 v), (s.statusAddr 7, snapshotLine7 v a n)] ++
  (List.range n).map (fun j => (a + 64 * j, coverageLine v.coverage j)) ++
  [(s.statusAddr 4, snapshotLine4 true h cls t v)]

/-- SNAPSHOT_VOLUME (R25). -/
def takeSnapshot (h : Head) (mapAddress : BitVec 64) (t : Ticket) (s : State) : State :=
  let map := if h.flag 0 then some mapAddress.toNat else none
  checked t
    [(t.badHandle || (h.flag 0 && 2 ^ 34 ≤ mapAddress.toNat), .badField),
     (s.vols.snapshot.isSome, .busy), ((s.named t).isNone, .noVolume),
     (h.flag 0 && s.namedIs t (fun v => s.transit.map.forbids mapAddress.toNat (mapLineCount v)),
      .badField)]
    (fun s =>
      match s.named t with
      | none => s
      | some v =>
        let n := if map.isSome then mapLineCount v else 0
        snapshotPlace (snapshotLines s t map v) (setSnapshot (some ⟨t, [], n, false⟩) s)) s

/-! ## SET_CLASS_ENTRY and SET_MATERIAL_MAP (R8, R9) -/

/-- SET_CLASS_ENTRY (R9). -/
def takeSetClass (cls : Byte) (f : ClassFields) (t : Ticket) (s : State) : State :=
  checked t [(3 < cls.toNat || f.bad, .badField), (s.vols.activeHandle.isSome, .state)]
    (fun s => replyDone t false []
      { s with vols := { s.vols with classes := s.vols.classes.set cls.toNat f.entry } }) s

/-- SET_MATERIAL_MAP (R8). -/
def takeSetMaterial (classes : List Byte) (t : Ticket) (s : State) : State :=
  let m := (List.range 16).map fun i => (classes.getD i 0#8).toNat
  checked t [(m.any fun c => 3 < c, .badField), (s.vols.activeHandle.isSome, .state)]
    (fun s => replyDone t false [] { s with vols := { s.vols with material := m } }) s

end Sys2Proof.Machine
end

