-- ==== Sys2Proof/Machine/Requests.lean ====
section
/-! DEFINITION. The requests of the cycle controller (spec/02), the frame intake (spec/05), the exposure
rules (R132) and the capture log (spec/07). -/

namespace Sys2Proof.Machine

/-! ## RUN, STEP_TURN, PAUSE (R30 to R33, R47) -/

/-- An ACCEPTED reply (R30, R31). -/
def replyAccepted (t : Ticket) (extended : Bool) (s : State) : State :=
  writeEntry (replyFields t .accepted 0 false extended []) .entry s

/-- L and the cursor of the active record, as far as one is ACTIVE. -/
def State.leaves (s : State) : Nat := (s.vols.active.map fun p => p.2.leaves).getD 0

/-- A turn is in flight for the cycle: it is in TURN and has asked the turner (R28, R45). -/
def Cycle.turnInFlight (c : Cycle) : Bool := c.state == .turn && !(c.sub == .waitLog)

/-- The run's current opening (R28). -/
def State.currentOpening (s : State) : Nat :=
  s.vols.cursor + if s.cycle.turnInFlight then 1 else 0

/-- A run begins (R30, R33). -/
def makeRun (kind : RunKind) (stop : Nat) (skip : Bool) (s : State) : State :=
  updCycle (fun c => { c with run := some ⟨kind, stop, skip, false, false, none⟩ }) s

/-- RUN taken in IDLE (R30). -/
def runFromIdle (skip : Bool) (stop : Nat) (t : Ticket) (s : State) : State :=
  checked t
    [(s.vols.activeHandle.isNone, .noVolume), (s.lines.haltIn, .haltActive),
     (s.supplyShort, .supplyLow), (stop < s.vols.cursor || s.leaves < stop, .range),
     (s.completing, .state)]
    (fun s => beginOpening (replyAccepted t false (makeRun .run stop skip s))) s

/-- RUN taken during a run (R31; notes/assumptions/22.md). -/
def runReplace (stop : Nat) (t : Ticket) (s : State) : State :=
  checked t
    [(!((s.cycle.run.map RunRecord.kind) == some .run), .state),
     (stop < s.currentOpening || s.leaves < stop, .range)]
    (fun s =>
      let longer : Bool := s.cycle.stop < stop
      let s := replyAccepted t longer (updRun (fun r => { r with stop := stop, stopReached := false }) s)
      if stop = s.currentOpening ∧ ¬ s.cycle.turnInFlight then
        let s := stopReached s
        if s.cycle.state = .turn then runComplete s else s
      else s) s

/-- RUN (R30, R31). -/
def takeRun (h : Head) (stop : BitVec 16) (t : Ticket) (s : State) : State :=
  match s.cycle.state with
  | .idle => runFromIdle (h.flag 0) stop.toNat t s
  | .halted | .calibrate => refuse t .state s
  | .prepare | .expose | .review | .turn | .paused => runReplace stop.toNat t s

/-- STEP_TURN (R33). -/
def takeStepTurn (t : Ticket) (s : State) : State :=
  if s.idle then
    checked t
      [(s.vols.activeHandle.isNone, .noVolume), (s.lines.haltIn, .haltActive),
       (s.supplyShort, .supplyLow), (s.vols.cursor == s.leaves, .endOfVolume), (s.completing, .state)]
      (fun s => startTurn (replyDone t false [] (makeRun .step (s.vols.cursor + 1) false s))) s
  else refuse t .state s

/-- PAUSE where nothing stands in the way of PAUSED: the state, the reply, then CYCLE_PAUSED (R47;
notes/assumptions/15.md). -/
def pauseNow (p : ResumePoint) (t : Ticket) (s : State) : State :=
  pausedNotice p (replyDone t false [] (pausedState p s))

/-- PAUSE (R47). -/
def takePause (t : Ticket) (s : State) : State :=
  match s.cycle.state with
  | .idle | .halted | .calibrate => refuse t .state s
  | .paused => replyDone t false [] s
  | .prepare =>
    if s.cycle.pausePending then replyDone t false [] s else pauseNow .prepare t s
  | .turn =>
    if s.cycle.turnInFlight then
      replyDone t false [] (updRun (fun r => { r with pausePending := true }) s)
    else pauseNow .turn t s
  | .expose | .review => replyDone t false [] (updRun (fun r => { r with pausePending := true }) s)

/-! ## RESUME (R48, R53 to R56) -/

/-- A paused run leaves its resume point: at PREPARE the cycle is in PREPARE again, a retake held again by
the lighting unit (R48, R89). -/
def leavePause (point : Option ResumePoint) (s : State) : State :=
  let s := updRun (fun r => { r with resume := none }) s
  match point, s.cycle.opening with
  | some .prepare, some o =>
    enterCycle .prepare .none (match o.prepared.retake with
      | some p => holdAdmitted o.prepared.sides p s
      | none => s)
  | _, _ => s

/-- A paused run carries on (R48). -/
def carryOn (point : Option ResumePoint) (s : State) : State :=
  match point with
  | some .beginOpening => beginOpening s
  | some .prepare => enterPrepare s
  | some .turn => if s.vols.cursor = s.cycle.stop then runComplete s else startTurn s
  | none => s

/-- RESUME with CONTINUE (R48, R53; the reply's place: notes/assumptions/15.md). -/
def takeContinue (t : Ticket) (s : State) : State :=
  if s.cycle.state = .paused then
    checked t [(s.lines.haltIn, .haltActive), (s.supplyShort, .supplyLow)]
      (fun s => carryOn s.cycle.point (replyDone t false [] (leavePause s.cycle.point s))) s
  else refuse t .state s

/-- A side's status as RETRY makes it: owed sides, and those the halting review settled as MARGINAL, are
WANTED (R54). -/
def retrySide (marginal : Bool) (r : SideRecord) : SideRecord :=
  if r.status.owed || marginal then { r with status := .wanted } else r

/-- The opening record as RETRY makes it (R54). -/
def OpeningRecord.retried (marginal : Sides) (o : OpeningRecord) : OpeningRecord :=
  let l := retrySide marginal.left o.sides.left
  let r := retrySide marginal.right o.sides.right
  { o with sides := ⟨l, r⟩, prepared := ⟨⟨l.status == .wanted, r.status == .wanted⟩, none⟩ }

/-- Whether an exposure is prepared for any side. -/
def OpeningRecord.wants (o : OpeningRecord) : Bool := o.prepared.sides.size != 0

/-- What RETRY of a capture fault changes (R54): the sides WANTED again and the exposure prepared for
them; with any, the cycle is in PREPARE. -/
def retryCapture (f : FaultRecord) (s : State) : State :=
  match s.cycle.opening with
  | none => s
  | some o =>
    let o := o.retried (if f.kind = .marginalHalt then f.sides else Sides.empty)
    let s := updCycle (fun c => { c with opening := some o }) s
    if o.wants then enterCycle .prepare .none s else s

/-- RETRY of a capture fault goes on (R54): PREPARE, or the opening is finished where no side is WANTED;
with no opening record the cursor opening is begun (notes/assumptions/21.md). -/
def retriedCapture (s : State) : State :=
  match s.cycle.opening with
  | none => beginOpening s
  | some o => if o.wants then enterPrepare s else finishOpening s

/-- The class of the fault the cycle is HALTED with. -/
def FaultRecord.isTurn (f : FaultRecord) : Bool := f.cls == .turn

/-- What RETRY changes as it is taken (R54, R175). -/
def retryStep (s : State) : State :=
  match s.cycle.fault with
  | none => s
  | some f => if f.isTurn then resolveRepeat s else retryCapture f s

/-- The failed step is repeated (R54). -/
def retryGoOn (s : State) : State :=
  match s.cycle.fault with
  | none => s
  | some f => if f.isTurn then startTurn s else retriedCapture s

/-- RESUME with RETRY (R53, R54; the reply's place: notes/assumptions/15.md). -/
def takeRetry (t : Ticket) (s : State) : State :=
  if s.cycle.state = .halted then
    checked t
      [(s.lines.haltIn, .haltActive), (s.supplyShort, .supplyLow), (s.completing, .state)]
      (fun s => retryGoOn (replyDone t false [] (retryStep s))) s
  else refuse t .state s

/-- A side as SKIP leaves it (R55). -/
def skipSide (r : SideRecord) : SideRecord := if r.status.owed then { r with status := .passed } else r

/-- What SKIP of a capture fault changes (R55; without an opening record notes/assumptions/21.md). -/
def skipCapture (s : State) : State :=
  let passed : SideRecord := ⟨.passed, none⟩
  let o := s.cycle.opening.getD
    ⟨s.vols.cursor, ⟨passed, passed⟩, 0, ⟨Sides.empty, none⟩, false, false, 0⟩
  updCycle (fun c =>
    { c with opening := some { o with sides := ⟨skipSide o.sides.left, skipSide o.sides.right⟩ } }) s

/-- The TURN record of a turn completed by hand (R55, R80). -/
def handBody (s : State) : TurnBody :=
  ⟨orFF s.vols.activeHandle, min (s.vols.cursor + 1) s.leaves, s.turner.retry, s.turner.doubles, true⟩

/-- What SKIP of a turn fault changes (R55): the turner at REST (line 1, shown first, R181), the turn counted
(line 0), its TURN record asked for. -/
def skipTurn (s : State) : State :=
  let b := handBody s
  appendOrCount (.turn b) (updActive turnCounted (sync (resolveClear s)))

/-- What SKIP changes as it is taken (R55, R175). -/
def skipStep (s : State) : State :=
  match s.cycle.fault with
  | none => s
  | some f => if f.isTurn then skipTurn s else skipCapture s

/-- The failed step counts as done, and the cycle goes on from there (R55). -/
def skipGoOn (s : State) : State :=
  match s.cycle.fault with
  | none => s
  | some f => if f.isTurn then afterTurn s else finish (openingCaptured s)

/-- RESUME with SKIP (R53, R55; the reply's place: notes/assumptions/15.md). -/
def takeSkip (t : Ticket) (s : State) : State :=
  if s.cycle.state = .halted then
    checked t
      [(s.lines.haltIn, .haltActive), (s.supplyShort, .supplyLow), (s.completing, .state)]
      (fun s => skipGoOn (replyDone t false [] (skipStep s))) s
  else refuse t .state s

/-- The run is given up, and for a turn fault the turn is abandoned, the turner's line shown before the cycle's
(R56, R181; notes/assumptions/14.md). -/
def abandonRun (s : State) : State :=
  enterCycle .idle .none (updCycle (fun c => { c with run := none, opening := none })
    (if (s.cycle.fault.map FaultRecord.isTurn).getD false then sync (resolveClear s) else s))

/-- RESUME with ABANDON (R53, R56). -/
def takeAbandon (t : Ticket) (s : State) : State :=
  if s.cycle.state = .halted then
    checked t [(s.lines.haltIn, .haltActive)] (fun s => replyDone t false [] (abandonRun s)) s
  else refuse t .state s

/-- RESUME with a resolution that is none of the four (R53). -/
def takeBadResolution (t : Ticket) (s : State) : State := refuse t .badField s

/-! ## STOP and CLEAR_FAULT (R49, R50, R56) -/

/-- A stop by STOP or HALT_IN, with what it writes after the abort (R49, R50; the reply's place:
notes/assumptions/15.md). -/
def stopBy (cause : StopCause) (reply : State → State) (s : State) : State :=
  let former := s.cycle.state
  if former.working then
    let q := abortWork cause s
    stopTail cause former q.2 (reply q.1)
  else if former = .calibrate then calStop cause reply s
  else reply s

/-- STOP (R49, R50). -/
def takeStop (t : Ticket) (s : State) : State := stopBy .stop (replyDone t false []) s

/-- Every FAILED channel returns to OFF (R56, R97). -/
def restoreFailed (s : State) : State :=
  mapChannels (fun _ c => if c.state = .failed then { c with state := .off } else c) s

/-- CLEAR_FAULT (R56). -/
def takeClearFault (t : Ticket) (s : State) : State :=
  checked t [(!s.idle, .state)]
    (fun s => replyDone t false [] (restoreFailed (updCycle (fun c => { c with fault := none }) s))) s

/-! ## RELEASE_SLOTS, LOAD_GAINS, SET_CORRECTION, CALIBRATE (R119, R121 to R123) -/

/-- The camera a parameter byte names. -/
def cameraOf (b : Byte) : Option Camera :=
  if b.toNat = 0 then some .left else if b.toNat = 1 then some .right else none

/-- The number whose set bits are the slots that satisfy a test, from slot `k` on. -/
def maskFrom (p : Nat → Slot → Bool) : Nat → List Slot → Nat
  | _, [] => 0
  | k, x :: rest => (if p k x then 2 ^ k else 0) + maskFrom p (k + 1) rest

/-- The slots of a camera after a release (R119). -/
def CamState.release (mask : Nat) (c : CamState) : CamState :=
  { c with slots := c.slots.mapIdx fun k x =>
      if mask.testBit k ∧ x.state = .filled then Slot.empty else x }

/-- A PREPARE that waits for slots rechecks its wait (R36, R119). -/
def recheckSlots (s : State) : State :=
  if s.cycle.state = .prepare ∧ s.cycle.sub = .waitSlot then prepareWaits s else s

/-- RELEASE_SLOTS (R119). -/
def takeRelease (cam : Byte) (mask : BitVec 16) (t : Ticket) (s : State) : State :=
  match cameraOf cam with
  | none => refuse t .badField s
  | some c =>
    let m := mask.toNat
    checked t [(2 ^ s.intake.geo.slots ≤ m, .badField)]
      (fun s =>
        let slots := (s.cam c).slots
        let freed := maskFrom (fun k x => m.testBit k && x.state == .filled) 0 slots
        recheckSlots (replyDone t false [(12, u16 freed), (14, u16 (m - freed))]
          (updCam c (CamState.release m) s))) s

/-- LOAD_GAINS (R121). -/
def takeLoadGains (cam : Byte) (lineAddress : BitVec 64) (t : Ticket) (s : State) : State :=
  let a := lineAddress.toNat
  match cameraOf cam with
  | none => refuse t .badField s
  | some c =>
    checked t
      [(2 ^ 34 ≤ a || s.transit.map.forbids a 2, .badField),
       ((s.cam c).load.isSome || s.cycle.cal.isSome, .busy)]
      (fun s => placeGainReads c false none
        (updCam c (fun x => { x with load := some ⟨t, a, none, none, false⟩ }) s)) s

/-- SET_CORRECTION (R122). -/
def takeSetCorrection (cam setting : Byte) (t : Ticket) (s : State) : State :=
  match cameraOf cam with
  | none => refuse t .badField s
  | some c =>
    checked t [(1 < setting.toNat, .badField), (s.cycle.state == .calibrate, .busy)]
      (fun s => replyDone t false [] (updCam c (fun x =>
        { x with pendingCorrection := setting.toNat == 1, pendingCorrectionFlag := true }) s)) s

/-- The calibration a request asks for, its values brought into range (R123). -/
def newCalibration (p : CalibrateParams) (t : Ticket) : Calibration :=
  let levels := clampLevels 1023 (sixLevels p.levels)
  let exposure := clampExposure p.exposure.toNat
  ⟨t, p.target.toNat, levels.1, exposure.1, levels.2 || exposure.2, false, 0, false⟩

/-- CALIBRATE (R123). -/
def takeCalibrate (p : CalibrateParams) (t : Ticket) (s : State) : State :=
  checked t
    [(p.target.toNat < 256 || 4095 < p.target.toNat, .badField), (!s.idle, .state),
     (s.vols.activeHandle.isSome, .activeExists), (s.lines.haltIn, .haltActive),
     (s.supplyShort, .supplyLow),
     ((s.cam .left).load.isSome || (s.cam .right).load.isSome, .busy),
     ((s.cam .left).firstFree.isNone || (s.cam .right).firstFree.isNone, .slotsHeld),
     (s.freeRoom < 5, .logFull)]
    (fun s => calCameras (enterCycle .calibrate .none
      (updCycle (fun c => { c with cal := some (newCalibration p t) }) s))) s

/-! ## SET_RULES (R132) -/

/-- SET_RULES (R132). -/
def takeSetRules (target tolerance clip : BitVec 16) (t : Ticket) (s : State) : State :=
  checked t [(4095 < target.toNat || 2047 < tolerance.toNat, .badField), (!s.idle, .state)]
    (fun s => replyDone t false []
      (updCycle (fun c => { c with rules := ⟨target.toNat, tolerance.toNat, clip.toNat⟩ }) s)) s

/-! ## LOG_TAKEN and VERIFY_LOG (R154, R156) -/

/-- A cycle that waits for log room rechecks its wait (R36, R45, R154). -/
def recheckRoom (s : State) : State :=
  if s.cycle.sub = .waitLog then
    match s.cycle.state with
    | .prepare => prepareWaits s
    | .turn => startTurn s
    | .idle | .expose | .review | .paused | .halted | .calibrate => s
  else s

/-- LOG_TAKEN (R154): after a rise the waiting cycle goes on first, and the re-arm is tested on the room it
leaves (notes/assumptions/49.md). -/
def takeLogTaken (n : BitVec 32) (t : Ticket) (s : State) : State :=
  let above : Bool := s.log.appended < n.toNat
  let taken := max s.log.taken (min n.toNat s.log.appended)
  let rises : Bool := s.log.taken < taken
  let s := { s with log := { s.log with taken := taken } }
  let s := replyDone t above [(12, u32 taken), (16, u32 s.freeRoom)] s
  if rises then rearm (recheckRoom s) else s

/-- The verification of a record's range (R156). -/
def newVerify (t : Ticket) (v : Volume) : Verify :=
  ⟨t, t.handle.toNat, v.lastRecord, v.firstRecord, 0, 0, 0, 0, 0⟩

/-- VERIFY_LOG (R156). -/
def takeVerify (t : Ticket) (s : State) : State :=
  checked t
    [(t.badHandle, .badField), (s.log.verify.isSome, .busy), ((s.named t).isNone, .noVolume)]
    (fun s =>
      match s.named t with
      | none => s
      | some v =>
        if v.firstRecord = 0 then replyDone t false (verifyResults (newVerify t v)) s
        else verifyAdvance none { s with log := { s.log with verify := some (newVerify t v) } }) s

end Sys2Proof.Machine
end

