-- ==== Sys2Proof/Machine/Operands.lean ====
section
/-! DEFINITION. A request line's operands (R190) and the request it makes: every form of a line a
requester stores into the REQUEST window (R173, R174). -/

namespace Sys2Proof.Machine

/-- The byte at an offset of a request line. -/
def lineByte (l : Line) (o : Nat) : Byte := l.getD o 0#8

/-- A field of `n` bytes at an offset, low byte first, as a word. -/
def lineWord (w : Nat) (l : Line) (o n : Nat) : BitVec w :=
  BitVec.ofNat w ((List.range n).foldr (fun i acc => (lineByte l (o + i)).toNat + 256 * acc) 0)

/-- Six levels from an offset. -/
def lineLevels (l : Line) (o : Nat) : List (BitVec 16) :=
  (List.range 6).map fun i => lineWord 16 l (o + 2 * i) 2

/-- The header of a request line (R174). -/
def lineHead (l : Line) : Head :=
  ⟨lineByte l 1, lineWord 16 l 2 2, lineByte l 4, lineByte l 5, lineByte l 6, lineByte l 7⟩

/-- REGISTER_VOLUME's parameters (R190). -/
def lineRegister (l : Line) : RegisterParams :=
  ⟨(l.drop 8).take 32, lineByte l 40, lineByte l 41, lineWord 16 l 42 2, lineWord 32 l 44 4,
    lineLevels l 48, lineWord 16 l 60 2⟩

/-- SET_VOLUME's parameters (R190). -/
def lineSetVolume (l : Line) : SetVolumeParams :=
  ⟨lineWord 32 l 8 4, lineLevels l 12, lineWord 16 l 24 2, lineByte l 26⟩

/-- CALIBRATE's parameters (R190). -/
def lineCalibrate (l : Line) : CalibrateParams :=
  ⟨lineWord 16 l 8 2, lineLevels l 10, lineWord 16 l 22 2⟩

/-- The class fields from an offset (R190). -/
def lineClass (l : Line) (o : Nat) : ClassFields :=
  ⟨lineByte l o, lineByte l (o + 1), lineByte l (o + 2), lineByte l (o + 3), lineWord 16 l (o + 4) 2,
    lineWord 16 l (o + 6) 2, lineByte l (o + 8), lineByte l (o + 9), lineWord 16 l (o + 10) 2,
    lineWord 32 l (o + 12) 4, lineWord 16 l (o + 16) 2, lineWord 16 l (o + 18) 2,
    lineWord 16 l (o + 20) 2, lineByte l (o + 22)⟩

/-- The request of a kind that uses no flag and carries nothing but its header. -/
def askBare (code : Byte) (l : Line) (f : Ticket → State → State) (s : State) : State :=
  ask code 0#8 (lineHead l) f s

/-- RESUME by its resolution byte (R53, R190). -/
def askResume (l : Line) (s : State) : State :=
  askBare 0x0C#8 l
    (match (lineByte l 8).toNat with
      | 0 => takeContinue
      | 1 => takeRetry
      | 2 => takeSkip
      | 3 => takeAbandon
      | _ => takeBadResolution) s

/-- A full request line is taken: the request its kind code names (R174, R190). -/
def askLine (l : Line) (s : State) : State :=
  let h := lineHead l
  match (lineByte l 0).toNat with
  | 0x01 => ask 0x01#8 0x07#8 h (takeRegister h (lineRegister l)) s
  | 0x02 => ask 0x02#8 0x7F#8 h (takeSetVolume h (lineSetVolume l)) s
  | 0x03 => askBare 0x03#8 l (takeActivate (lineWord 16 l 8 2)) s
  | 0x04 => askBare 0x04#8 l takeSuspend s
  | 0x05 => askBare 0x05#8 l (takeSetOpening (lineWord 16 l 8 2)) s
  | 0x06 => askBare 0x06#8 l (takeClose (lineWord 16 l 8 2) (lineWord 16 l 10 2)) s
  | 0x07 => askBare 0x07#8 l takeRetire s
  | 0x08 => ask 0x08#8 0x01#8 h (takeSnapshot h (lineWord 64 l 16 8)) s
  | 0x09 => ask 0x09#8 0x01#8 h (takeRun h (lineWord 16 l 8 2)) s
  | 0x0A => askBare 0x0A#8 l takeStepTurn s
  | 0x0B => askBare 0x0B#8 l takePause s
  | 0x0C => askResume l s
  | 0x0D => askBare 0x0D#8 l takeStop s
  | 0x0E => askBare 0x0E#8 l takeClearFault s
  | 0x0F => askBare 0x0F#8 l (takeRelease (lineByte l 8) (lineWord 16 l 10 2)) s
  | 0x10 => askBare 0x10#8 l (takeLoadGains (lineByte l 8) (lineWord 64 l 16 8)) s
  | 0x11 => askBare 0x11#8 l (takeSetCorrection (lineByte l 8) (lineByte l 9)) s
  | 0x12 => askBare 0x12#8 l (takeCalibrate (lineCalibrate l)) s
  | 0x13 =>
    askBare 0x13#8 l (takeSetRules (lineWord 16 l 8 2) (lineWord 16 l 10 2) (lineWord 16 l 12 2)) s
  | 0x14 => askBare 0x14#8 l (takeSetClass (lineByte l 8) (lineClass l 9)) s
  | 0x15 => askBare 0x15#8 l (takeSetMaterial ((l.drop 8).take 16)) s
  | 0x16 => askBare 0x16#8 l (takeLogTaken (lineWord 32 l 8 4)) s
  | 0x17 => askBare 0x17#8 l takeVerify s
  | _ => askUnknown (lineByte l 0) h s

/-- A write handed to the request unit: a full line is a request, any other counts as partial (R173). -/
def handWrite (x : Txn) (s : State) : State :=
  if fullLine x.len x.enables then askLine x.data s
  else { s with req := { s.req with partialRequests := satSucc s.req.partialRequests } }

end Sys2Proof.Machine
end

