-- ==== Sys2Proof/Machine/TransitOps.lean ====
section
/-! DEFINITION. The transit unit: classification of upstream transactions, read hold, the downstream
arbiter and its answers (spec/08). -/

namespace Sys2Proof.Machine

/-! ## The forwarded stream (R167) -/

/-- Whether the upstream port takes a write: not in RESET, the stream has room (R167, R172). -/
def State.portOpen (s : State) : Bool :=
  !(s.start.phase == .reset) && s.transit.stream.length < 32

/-- Whether the upstream port takes a read: the hold list has a free place too (R159, R171). -/
def State.readOpen (s : State) : Bool := s.portOpen && s.transit.holds.length < 16

/-- A transaction as the transit unit holds it, under the next arrival number. -/
def State.passed (s : State) (write redirected : Bool) (x : Txn) : Passed :=
  ⟨s.transit.nextSeq, write, redirected, x⟩

/-- The arrival number is used up. -/
def bumpSeq (s : State) : State :=
  { s with transit := { s.transit with nextSeq := s.transit.nextSeq + 1 } }

/-- A transaction joins the end of the forwarded stream (R167). -/
def forward (p : Passed) (s : State) : State :=
  { s with transit := { s.transit with stream := s.transit.stream ++ [p] } }

/-- An upstream write is refused and counted (R162, R166). -/
def refuseWrite (x : Txn) (s : State) : State :=
  respond x .refused
    { s with transit := { s.transit with refusedWrites := satSucc s.transit.refusedWrites } }

/-! ## Aperture writes (R109, R165) -/

/-- The corrected write of a redirected line, at its place in the armed slot (R110, R165); its requester and
its data-error attribute are the camera's write's (notes/assumptions/47.md). -/
def correctedWrite (x : Txn) (addr : Nat) (data : Line) : Txn :=
  { x with addr := BitVec.ofNat 34 addr, data := data }

/-- A permitted aperture write: DONE at once, dropped, or corrected and put in the stream; the end of a
frame is reported (R109, R118, R165). -/
def redirect (c : Camera) (offset : Nat) (x : Txn) (s : State) : State :=
  let k := ((s.cam c).intakeRec.armed).getD 0
  let base := s.slotBase c k
  let q := takeLine c offset x (respond x .done s)
  match q.2 with
  | .dropped => bumpSeq q.1
  | .broke => frameReported (bumpSeq q.1)
  | .written o data ended =>
    let s := bumpSeq (forward (q.1.passed true true (correctedWrite x (base + o) data)) q.1)
    if ended then frameReported s else s

/-! ## Classification (R162 to R165) -/

/-- Whether a requester is in a writer mask (R161, R195). -/
def Requester.allowed (r : Requester) (mask : BitVec 4) : Bool :=
  match r with
  | .station => mask.getLsbD 0
  | .camL => mask.getLsbD 1
  | .camR => mask.getLsbD 2
  | .service => mask.getLsbD 3

/-- The camera of a camera receiver. -/
def Requester.isCamera (r : Requester) (c : Camera) : Bool :=
  match c with
  | .left => r == .camL
  | .right => r == .camR

/-- A write is forwarded. -/
def forwardWrite (x : Txn) (s : State) : State := bumpSeq (forward (s.passed true false x) s)

/-- The slot check of a permitted write to SLOT_POOL (R164). -/
def poolWrite (x : Txn) (s : State) : State :=
  match s.slotStateAt x.addr.toNat with
  | some .armed | some .filling => refuseWrite x s
  | some .free | some .filled | none => forwardWrite x s

/-- A write of a camera receiver into an aperture, or of anyone else (R162). -/
def apertureWrite (c : Camera) (w : Window) (x : Txn) (s : State) : State :=
  if Requester.isCamera x.requester c then redirect c (x.addr.toNat - w.base) x s else refuseWrite x s

/-- A write while READY, classified by its address and requester (R162). -/
def classifyWrite (x : Txn) (s : State) : State :=
  let m := s.transit.map
  let a := x.addr.toNat
  if m.request.holds a then
    if Requester.allowed x.requester m.request.mask then handWrite x (forwardWrite x s)
    else refuseWrite x s
  else if m.reply.holds a || m.status.holds a || m.log.holds a then refuseWrite x s
  else if m.apertureL.holds a then apertureWrite .left m.apertureL x s
  else if m.apertureR.holds a then apertureWrite .right m.apertureR x s
  else if m.slotPool.holds a then
    if Requester.allowed x.requester m.slotPool.mask then poolWrite x s else refuseWrite x s
  else forwardWrite x s

/-- An upstream write arrives: not taken, passed unclassified before READY, or classified (R162, R167,
R172; notes/assumptions/9.md). -/
def upWrite (x : Txn) (s : State) : State :=
  if s.portOpen then
    if s.ready then classifyWrite x s else forwardWrite x s
  else s

/-! ## Reads (R163, R171) -/

/-- The line a wait-list item will write, if it is a write (R171). -/
def WaitItem.writesLine (s : State) (w : WaitItem) : Option Nat :=
  match w.what with
  | .write a _ _ => some a
  | .status k => some (s.statusAddr k)
  | .append => some (s.recordAddr (s.log.appended + 1))
  | .snapshotLine => s.vols.snapshot.bind fun p => p.lines.head?.map Prod.fst
  | .verifyRead | .gainRead _ _ => none

/-- The own writes queued or waiting to a read's line, in order (R171). -/
def State.ownWritesTo (s : State) (a : Nat) : List Nat :=
  ((s.transit.queue.filter fun e => e.content.isSome && sameLine e.addr a).map OwnEntry.id) ++
  ((s.transit.wait.filter fun w => (w.writesLine s).any fun b => sameLine b a).map WaitItem.id)

/-- A read while READY: refused, held, or forwarded (R163, R171, R179). -/
def classifyRead (x : Txn) (s : State) : State :=
  let m := s.transit.map
  let a := x.addr.toNat
  if m.apertureL.holds a || m.apertureR.holds a then respond x .refused s
  else
    let p := s.passed false false x
    match (s.ownWritesTo a).getLast? with
    | some id => bumpSeq { s with transit := { s.transit with holds := s.transit.holds ++ [⟨p, id⟩] } }
    | none => readForwarded x (bumpSeq (forward p s))

/-- An upstream read arrives: not taken, passed unclassified before READY, or classified (R163, R172;
notes/assumptions/9.md). -/
def upRead (x : Txn) (s : State) : State :=
  if s.readOpen then
    if s.ready then classifyRead x s else bumpSeq (forward (s.passed false false x) s)
  else s

/-! ## The downstream arbiter (R170) -/

/-- A transaction is issued downstream for a claimant (R160, R170). -/
def issue (c : Claimant) (i : Issued) (s : State) : State :=
  { s with transit := { s.transit with mark := c, outstanding := s.transit.outstanding ++ [i] } }

/-- The head of the forwarded stream is issued (R167, R170). -/
def issueForwarded (s : State) : State :=
  match s.transit.stream with
  | [] => s
  | p :: rest => issue .forwarded (.forwarded p) { s with transit := { s.transit with stream := rest } }

/-- The newest entry's issued mark (R179). -/
def markIssued (id : Nat) (s : State) : State :=
  if s.req.newestId = some id then { s with req := { s.req with newestIssued := true } } else s

/-- The head of the own-traffic queue is issued; reads held for it are released (R168, R170, R171). -/
def issueOwn (s : State) : State :=
  match s.transit.queue with
  | [] => s
  | e :: rest =>
    releaseHolds e.id (markIssued e.id
      (issue .own (.own e) { s with transit := { s.transit with queue := rest } }))

/-- The port can take a transaction (R170). -/
def grantPort (s : State) : State :=
  if s.transit.stream ≠ [] ∧ (s.transit.queue = [] ∨ s.transit.mark = .own) then issueForwarded s
  else issueOwn s

/-! ## Answers (R159, R160) -/

/-- The response an upstream requester gets from the downstream port's (R159). -/
def passedResponse (p : Passed) (refused : Bool) (data : List Byte) : Response :=
  if refused then .refused else if p.write then .done else .data data

/-- An answer to an own transaction goes to the block that placed it (R121, R157, R160). -/
def ownAnswer (e : OwnEntry) (refused : Bool) (data : List Byte) (s : State) : State :=
  match e.origin with
  | .gainRead c second => gainReturned c second refused data s
  | .verifyRead => verifyReturned refused data s
  | .entry | .snapshotReply | .status _ | .record | .snapshotLine => s

/-- The memory controller answers the oldest transaction issued and not answered (R160); one issued
before the last reset is discarded (R172). -/
def answer (refused : Bool) (data : List Byte) (s : State) : State :=
  if 0 < s.transit.stale then { s with transit := { s.transit with stale := s.transit.stale - 1 } }
  else
    match s.transit.outstanding with
    | [] => s
    | i :: rest =>
      let s := { s with transit := { s.transit with outstanding := rest } }
      match i with
      | .forwarded p => if p.redirected then s else respond p.txn (passedResponse p refused data) s
      | .own e => ownAnswer e refused data s

end Sys2Proof.Machine
end

