-- ==== Sys2Proof/Machine/StartUp.lean ====
section
/-! DEFINITION. Reset, the station profile and becoming READY (spec/10), and the supply monitor (R75,
R76). -/

namespace Sys2Proof.Machine

/-! ## Reset (R172, R182, R183) -/

/-- The upstream transactions taken and not answered: the issued ones, the forwarded stream, the held reads
(R172; the order of their answers: notes/assumptions/51.md). -/
def Transit.unanswered (t : Transit) : List Txn :=
  (t.outstanding.filterMap fun i => match i with
    | .forwarded p => if p.redirected then none else some p.txn
    | .own _ => none) ++
  ((t.stream.filter fun p => !p.redirected).map Passed.txn) ++ t.holds.map fun h => h.read.txn

/-- A reset event: every block at its reset values, memory and inputs as they were; upstream
transactions not answered are answered REFUSED, answers still to come are discarded (R172, R183). -/
def resetEvent (cause : ResetCause) (mark : Bool) (s : State) : State :=
  { State.reset with
    pending := s.pending
    now := s.now
    lines := s.lines
    out := s.out ++ s.transit.unanswered.map fun x => (x, Response.refused)
    start := { State.reset.start with cause := cause, runningMark := mark }
    transit := { State.reset.transit with
      stale := s.transit.stale + s.transit.outstanding.length } }

/-- The levels of the input lines are changed. -/
def setLines (f : Lines → Lines) (s : State) : State := { s with lines := f s.lines }

/-- The start-up state is changed. -/
def updStart (f : Start → Start) (s : State) : State := { s with start := f s.start }

/-- RESET ends once power is established and RESET_IN is inactive (R182). -/
def leaveReset (s : State) : State :=
  if s.start.phase = .reset ∧ s.lines.power ∧ ¬ s.lines.resetIn then
    updStart (fun x => { x with phase := .profileLoad, waiting := .signature }) s
  else s

/-! ## The supply monitor (R75, R76) -/

/-- A fall of the supply (R51, R75, R76). The notice comes before what a SAFE_STOP fall makes the cycle do, an
order no rule states: DESIGN CHOICE (notes/assumptions/58.md). -/
def supplyFall (s : State) : State :=
  let s := updTurner (fun t => { t with supply := .low }) s
  let s := notice .supplyLow
    [(12, u8 s.lines.supplySense), (13, u8 s.turner.g6.supplyLevel),
     (14, u8 s.turner.g6.supplyMode.code)] s
  if s.turner.g6.supplyMode = .safeStop then
    if s.cycle.state.working then safeStopFall s
    else if s.cycle.state = .calibrate then calStop .supplyLow id s
    else s
  else s

/-- A sample of SUPPLY_SENSE is compared (R75). -/
def sampleSupply (s : State) : State :=
  match s.turner.supply with
  | .ok => if s.lines.supplySense < s.turner.g6.supplyLevel then supplyFall s else s
  | .low =>
    if s.turner.g6.supplyLevel + 8 ≤ s.lines.supplySense then
      updTurner (fun t => { t with supply := .ok }) s
    else s

/-! ## Becoming READY (R187) -/

/-- The contents of the READY notice (R191). -/
def readyContents (s : State) : Fields :=
  [(12, u8 s.start.cause.code), (13, yes s.start.runningMark),
   (14, s.start.loadResult.flatMap fun r => u8 (LoadResult.code r))]

/-- The part becomes READY (R187). -/
def becomeReady (s : State) : State :=
  let s := updTurner (fun t => { t with supply := .ok })
    (updStart (fun x => { x with phase := .ready, readyAt := s.now, waiting := .nothing }) s)
  let s := placeStatus 0 s
  let s := notice .ready (readyContents s) s
  let s := placeStatus 3 (placeStatus 2 (placeStatus 1 s))
  if s.lines.supplySense < s.turner.g6.supplyLevel then supplyFall s else s

/-! ## Reading group values (R185, R195) -/

/-- A byte of the flash: what was not read reads as all ones (R184). -/
def flash8 (b : List Byte) (o : Nat) : Nat := (b.getD o 0xFF#8).toNat

/-- A field of `n` flash bytes. -/
def flashLE (b : List Byte) (o : Nat) : Nat → Nat
  | 0 => 0
  | n + 1 => flash8 b o + 256 * flashLE b (o + 1) n

/-- A u16 flash field clamped to a range. -/
def flashIn (b : List Byte) (o lo hi : Nat) : Nat := clampTo lo hi (flashLE b o 2)

/-- A one-byte flash field clamped to a range. -/
def flashByteIn (b : List Byte) (o lo hi : Nat) : Nat := clampTo lo hi (flash8 b o)

/-- The largest power of two at most `n`, among 2^0..2^`k`; 0 when `n` is 0. -/
def floorPow2 (n : Nat) : Nat → Nat
  | 0 => if 1 ≤ n then 1 else 0
  | k + 1 => if 2 ^ (k + 1) ≤ n then 2 ^ (k + 1) else floorPow2 n k

/-- Group G1 (R102, R185, R195). -/
def readGeometry (b : List Byte) : Geometry :=
  ⟨clampTo 1024 8192 (flashLE b 0 2 / 64 * 64), flashIn b 2 512 8192, flashByteIn b 4 2 16,
    flashIn b 6 50 5000, flashIn b 8 1 30000⟩

/-- The base of window `i` in group G0, rounded down to a line boundary (R185, R195). -/
def windowBase (b : List Byte) (i : Nat) : Nat := flashLE b (12 * i) 8 / 64 * 64

/-- The length in lines of window `i` in group G0. -/
def windowLines (b : List Byte) (i : Nat) : Nat := flashLE b (12 * i + 8) 4

/-- Group G0, brought into range (R185, R195). -/
def readMap (g : Geometry) (b : List Byte) : RegionMap :=
  let aperture (i : Nat) : Nat := 64 * clampTo (g.frameBytes / 64) 16777216 (windowLines b i)
  { request := ⟨windowBase b 0, 64 * clampTo 1 64 (windowLines b 0),
      BitVec.ofNat 4 (flash8 b 84) ||| 0b0001#4⟩
    reply := ⟨windowBase b 1, 64 * 64, 0#4⟩
    status := ⟨windowBase b 2, 8 * 64, 0#4⟩
    log := ⟨windowBase b 3, 64 * clampTo 256 65536 (floorPow2 (windowLines b 3) 31), 0#4⟩
    apertureL := ⟨windowBase b 4, aperture 4, 0b0010#4⟩
    apertureR := ⟨windowBase b 5, aperture 5, 0b0100#4⟩
    slotPool := ⟨windowBase b 6, 64 * windowLines b 6, BitVec.ofNat 4 (flash8 b 85)⟩ }

/-- Two windows overlap. -/
def Window.meets (a b : Window) : Bool := a.base < b.base + b.len && b.base < a.base + a.len

/-- No two windows of a list overlap. -/
def apart : List Window → Bool
  | [] => true
  | w :: rest => !(rest.any w.meets) && apart rest

/-- The bytes of pool the slots need (R103, R186). -/
def Geometry.poolBytes (g : Geometry) : Nat := 2 * g.slots * g.slotSize

/-- The check of the whole map (R186). -/
def RegionMap.passes (m : RegionMap) (g : Geometry) : Bool :=
  apart m.windows && m.windows.all (fun w => w.base + w.len ≤ 0x400000000) &&
    g.poolBytes ≤ m.slotPool.len

/-- A side map by its code; one that names no value takes the default (R185, R188). -/
def sideMapOf (dflt : SideMap) (code : Nat) : SideMap :=
  match code with
  | 0 => .left | 1 => .right | 2 => .both | 3 => .none
  | _ => dflt

/-- Group G2 (R82, R185, R195). -/
def readLighting (b : List Byte) (l : Lighting) : Lighting :=
  { l with
    channels := l.channels.mapIdx fun i c =>
      { c with k := flashIn b (2 * i) 0 4095, sideMap := sideMapOf c.sideMap (flash8 b (12 + i)) }
    rampRate := flashIn b 18 1 1023
    warm := flashIn b 20 0 500 }

/-- The entry of class `i` in group G3 (R7, R185, R190, R195; the halt-on-marginal byte:
notes/assumptions/16.md). -/
def readClass (b : List Byte) (i : Nat) (dflt : ClassEntry) : ClassEntry :=
  let o := 24 * i
  { vacuum := flashByteIn b o 1 15
    grip := flash8 b (o + 1)
    hold := flash8 b (o + 2)
    mode := match flash8 b (o + 3) with
      | 0 => .abort
      | 1 => .hold
      | _ => dflt.mode
    holdTimeout := flashIn b (o + 4) 1 10000
    knife := flashIn b (o + 6) 0 1000
    maxRetries := flashByteIn b (o + 8) 0 7
    maxRetakes := flashByteIn b (o + 9) 0 3
    ceiling := flashIn b (o + 10) 0 1023
    doseLimit := max 1 (flashLE b (o + 12) 4)
    exposure := flashIn b (o + 16) 1 2000
    baseLevel := flashIn b (o + 18) 0 1023
    settle := flashIn b (o + 20) 0 5000
    haltMarginal := match flash8 b (o + 22) with
      | 0 => false
      | 1 => true
      | _ => Config.haltMarginalOutOfRange i (b.getD (o + 22) 0xFF#8) }

/-- Group G3 (R7, R195). -/
def readClasses (b : List Byte) : List ClassEntry :=
  ClassEntry.defaults.mapIdx fun i e => readClass b i e

/-- Group G4 (R6, R185, R195). -/
def readMaterial (b : List Byte) : List Nat := (List.range 16).map fun i => min 3 (flash8 b i)

/-- Group G5 (R131, R195). -/
def readRules (b : List Byte) : Rules := ⟨flashIn b 0 0 4095, flashIn b 2 0 2047, flashLE b 4 2⟩

/-- Group G6 (R79, R185, R195). -/
def readTurner (b : List Byte) : TurnerProfile :=
  ⟨flashIn b 0 1 30000, flashIn b 2 1 30000, flashIn b 4 1 30000, flashIn b 6 1 30000,
    flashIn b 8 1 30000, flashByteIn b 10 0 247, if flash8 b 11 = 1 then .safeStop else .notice⟩

/-! ## Settling groups (R184, R186) -/

/-- A group's load result. -/
def setResult (g : Nat) (r : LoadResult) (s : State) : State :=
  updStart (fun x => { x with loadResult := x.loadResult.set g (some r) }) s

/-- The geometry in force, with its slots (R102, R104). -/
def setGeometry (g : Geometry) (s : State) : State :=
  { s with intake := { s.intake with
    geo := g, cams := ⟨CamState.fresh g.slots, CamState.fresh g.slots⟩ } }

/-- The default map is in force: it is checked against G1 (R186). -/
def checkDefaultMap (s : State) : State :=
  if RegionMap.default.slotPool.len < s.intake.geo.poolBytes then
    setResult 1 .rejected (setGeometry Geometry.default s)
  else s

/-- A group is DEFAULTED (R184, R186). -/
def defaultGroup (g : Nat) (s : State) : State :=
  let s := setResult g .defaulted s
  if g = 0 then checkDefaultMap s else s

/-- G0 has been read: LOADED, or REJECTED and discarded whole (R186). -/
def loadMap (b : List Byte) (s : State) : State :=
  let m := readMap s.intake.geo b
  if m.passes s.intake.geo then
    setResult 0 .loaded { s with transit := { s.transit with map := m } }
  else checkDefaultMap (setResult 0 .rejected s)

/-- A group's bytes have been read (R185). -/
def loadGroup (g : Nat) (b : List Byte) (s : State) : State :=
  match g with
  | 0 => loadMap b s
  | 1 => setResult 1 .loaded (setGeometry (readGeometry b) s)
  | 2 => setResult 2 .loaded { s with light := readLighting b s.light }
  | 3 => setResult 3 .loaded { s with vols := { s.vols with classes := readClasses b } }
  | 4 => setResult 4 .loaded { s with vols := { s.vols with material := readMaterial b } }
  | 5 => setResult 5 .loaded (updCycle (fun c => { c with rules := readRules b }) s)
  | _ => setResult 6 .loaded (updTurner (fun t => { t with g6 := readTurner b }) s)

/-- The groups that follow a group in the settling order: G1, G0, G2 to G6 (R184). -/
def groupsAfter : Nat → List Nat
  | 1 => [0, 2, 3, 4, 5, 6]
  | 0 => [2, 3, 4, 5, 6]
  | 2 => [3, 4, 5, 6]
  | 3 => [4, 5, 6]
  | 4 => [5, 6]
  | 5 => [6]
  | _ => []

/-- Whether a group's accept code is 01 (R184, R195). -/
def Start.accepts (x : Start) (g : Nat) : Bool :=
  x.accept.getLsbD (2 * g) && !x.accept.getLsbD (2 * g + 1)

/-- The groups are settled in order up to the next one that is read; after G6 the part is READY (R184,
R187). -/
def settleGroups : List Nat → State → State
  | [], s => becomeReady s
  | g :: rest, s =>
    if s.start.accepts g then updStart (fun x => { x with waiting := .group g }) s
    else settleGroups rest (defaultGroup g s)

/-- The signature "RMKP" (R184, R195). -/
def signatureBytes : List Byte := [0x52#8, 0x4D#8, 0x4B#8, 0x50#8]

/-- The signature and the control word have been read (R184). A signature that does not read "RMKP"
leaves every group DEFAULTED, as a control word of zeros does. -/
def signatureRead (sig : List Byte) (control : BitVec 16) (s : State) : State :=
  if s.start.phase = .profileLoad ∧ s.start.waiting = .signature then
    settleGroups [1, 0, 2, 3, 4, 5, 6]
      (updStart (fun x => { x with accept := if sig = signatureBytes then control else 0#16,
                                   waiting := .nothing }) s)
  else s

/-- A group has been read (R184, R185). -/
def groupRead (bytes : List Byte) (s : State) : State :=
  match s.start.waiting with
  | .group g =>
    if s.start.phase = .profileLoad then
      settleGroups (groupsAfter g)
        (loadGroup g bytes (updStart (fun x => { x with waiting := .nothing }) s))
    else s
  | .nothing => s
  | .signature => s

end Sys2Proof.Machine
end

