-- ==== Sys2Proof/Machine/LightCommands.lean ====
section
/-! DEFINITION. The commands of the cameras, the lamps and the exposure schedule (R37, R49, R90 to R96,
R107, R108, R115). -/

namespace Sys2Proof.Machine

/-- HALT_IN_ACTIVE (R49, R50). -/
def execHaltInActive (m : Moment) (s : State) : Host.Outcome State Fault Refusal :=
  takeCommand m (fun s => stopBy .haltIn id (setLines (fun l => { l with haltIn := true }) s)) s

/-- A wait for cameras rechecked (R37, R124). -/
def recheckCameras (s : State) : State :=
  if s.cycle.sub = .waitCamera then
    match s.cycle.state with
    | .prepare =>
      if s.camerasReady s.cycle.preparedSides then goOn (enterCycle .prepare .none s) else s
    | .calibrate => if s.camerasReady Sides.both then calGo s else s
    | .idle | .expose | .review | .turn | .paused | .halted => s
  else s

/-- CAM_READY_ACTIVE (R37, R124). -/
def execCamReadyActive (m : Moment) (cam : Camera) (s : State) : Host.Outcome State Fault Refusal :=
  takeCommand m (fun s =>
    recheckCameras (setLines (fun l => { l with camReady := l.camReady.set cam true }) s)) s

/-- The sides of an exposure whose camera is not ready (R37). -/
def State.notReady (s : State) : Sides :=
  sidesWhere fun c => s.cycle.preparedSides.has c && !(s.lines.camReady.get c)

/-- The camera-ready timeout expires (R37, R124). -/
def cameraTimeoutExpires (s : State) : State :=
  match s.cycle.camTimer with
  | some x =>
    if x ≤ s.now then
      match s.cycle.state with
      | .prepare => haltCapture .cameraNotReady s.notReady s
      | .calibrate => calFail .cameraNotReady s
      | .idle | .expose | .review | .turn | .paused | .halted => s
    else s
  | none => s

/-- CAMERA_READY_TIMEOUT (R37, R124; notes/assumptions/4.md). -/
def execCameraReadyTimeout (m : Moment) (s : State) : Host.Outcome State Fault Refusal :=
  takeCommand m cameraTimeoutExpires s

/-- A channel's scheduled start, with its lamp test (R90, R96). -/
def rampStart (c : Nat) (s : State) : State :=
  if s.rampDue c then
    let s := beginRamp c s
    if s.lines.lampOk.getD c false then s else lampFault c s
  else s

/-- CHANNEL_RAMP_START (R90, R96). -/
def execChannelRampStart (m : Moment) (channel : Fin 6) (s : State) :
    Host.Outcome State Fault Refusal :=
  takeCommand m (rampStart channel.val) s

/-- LAMP_RAMP_STEP (R90, R91). -/
def execLampRampStep (m : Moment) (s : State) : Host.Outcome State Fault Refusal :=
  takeCommand m rampStep s

/-- Whether WARM is to end now: its triggers not fired, its time reached (R91, R95). -/
def State.warmEnds (s : State) : Bool :=
  let e := s.light.exposure
  (e.phase == .rampUp || e.phase == .warm || e.phase == .ending) && !e.triggered &&
    s.clockAt (e.plan.span + s.light.warm)

/-- WARM_END (R91, R107). -/
def execWarmEnd (m : Moment) (s : State) : Host.Outcome State Fault Refusal :=
  takeCommand m (fun s => if s.warmEnds then fireTriggers s else s) s

/-- The lighting unit hears of the fall of its exposure's triggers; of an aborted exposure's it does not
act on (R91, R94, R95). -/
def lightsAtFall (s : State) : State :=
  if s.light.exposure.triggered ∧ s.fallMoment ≤ s.now then
    match s.light.exposure.phase with
    | .capture =>
      let s := beginRampDown s.fallMoment s
      if s.anyLit then s else exposureEnds s
    | .ending => exposureEnds s
    | .none | .admitted | .rampUp | .warm | .rampDown => s
  else s

/-- The raised triggers fall (R108). -/
def triggersFall (s : State) : State :=
  let f := CamState.triggerFalls s.now s.intake.geo
  lightsAtFall (updCam .right f (updCam .left f s))

/-- TRIGGER_FALL (R91, R108). -/
def execTriggerFall (m : Moment) (s : State) : Host.Outcome State Fault Refusal :=
  takeCommand m triggersFall s

/-- EXPOSURE_COMPLETION: the triggers have fallen and every lit channel is at 0 (R91, R92;
notes/assumptions/31.md). -/
def execExposureCompletion (m : Moment) (s : State) : Host.Outcome State Fault Refusal :=
  takeCommand m (fun s =>
    if s.light.exposure.phase = .rampDown ∧ ¬ s.anyLit then exposureEnds s else s) s

/-- A camera's frame timer expires (R115). -/
def frameTimerExpires (cam : Camera) (s : State) : State :=
  match (s.cam cam).intakeRec.timer with
  | some x =>
    if x ≤ s.now then
      let ends := (s.cam cam).intakeRec.busy
      let s := updCam cam (CamState.expire s.intake.geo) s
      if ends then frameReported s else s
    else s
  | none => s

/-- FRAME_TIMEOUT (R115). -/
def execFrameTimeout (m : Moment) (cam : Camera) (s : State) : Host.Outcome State Fault Refusal :=
  takeCommand m (frameTimerExpires cam) s

/-- The input of a rest loss becomes inactive. -/
def RestInput.drop (i : RestInput) (l : Lines) : Lines :=
  match i with
  | .platenDown => { l with platenDown := false }
  | .armParked => { l with armParked := false }

/-- A rest loss under the lamps (R95). The charge made now is the exposure's, and the one its FRAME records
will carry (R142; notes/assumptions/56.md). -/
def lightsAtRestLoss (s : State) : State :=
  let fallen := s.light.exposure.phase == .rampDown
  let s := cutLit s
  let d := s.chargeNow
  let s := updExposure (fun e => { e with charged := true }) (noteCharge d (makeCharge d s))
  let s := updExposure (fun e => { e with phase := .ending }) (reportLampFault s)
  if fallen then exposureEnds s else s

/-- REST_LOSS (R95; in a turn R58 keeps ARM_DRIVE right). -/
def execRestLoss (m : Moment) (input : RestInput) (s : State) : Host.Outcome State Fault Refusal :=
  takeCommand m (fun s =>
    let s := refreshPark (setLines (RestInput.drop input) s)
    if s.light.exposure.phase.running then lightsAtRestLoss s else s) s

/-- LAMP_OK_INACTIVE (R96). -/
def execLampOkInactive (m : Moment) (channel : Fin 6) (s : State) : Host.Outcome State Fault Refusal :=
  takeCommand m (fun s =>
    let s := setLines (fun l => { l with lampOk := l.lampOk.set channel.val false }) s
    if (s.light.channels[channel.val]?.map Channel.lit).getD false then lampFault channel.val s else s) s

end Sys2Proof.Machine
end

