-- ==== Sys2Proof/Machine/PathCommands.lean ====
section
/-! DEFINITION. The commands of the frame-store path (spec/08): upstream transactions, the downstream
port, the own-traffic wait list, the log's acceptance. -/

namespace Sys2Proof.Machine

/-- UPSTREAM_WRITE (R162 to R167, R172, R173). -/
def execUpstreamWrite (m : Moment) (x : Txn) (s : State) : Host.Outcome State Fault Refusal :=
  takeCommand m (upWrite x) s

/-- UPSTREAM_READ (R163, R171, R172, R179). -/
def execUpstreamRead (m : Moment) (x : Txn) (s : State) : Host.Outcome State Fault Refusal :=
  takeCommand m (upRead x) s

/-- The window of a camera's aperture (R161). -/
def RegionMap.aperture (m : RegionMap) : Camera → Window
  | .left => m.apertureL
  | .right => m.apertureR

/-- The camera receiver of a camera. -/
def cameraRequester : Camera → Requester
  | .left => .camL
  | .right => .camR

/-- A camera receiver's write into its own aperture as an upstream transaction
(notes/assumptions/10.md). -/
def State.apertureTxn (s : State) (cam : Camera) (offset : Nat) (p : Payload) : Txn :=
  ⟨BitVec.ofNat 34 ((s.transit.map.aperture cam).base + offset), p.len, p.enables, cameraRequester cam,
    p.dataError, p.data⟩

/-- APERTURE_WRITE (R109 to R114, R165). -/
def execApertureWrite (m : Moment) (cam : Camera) (offset : BitVec 34) (p : Payload) (s : State) :
    Host.Outcome State Fault Refusal :=
  takeCommand m (fun s => upWrite (s.apertureTxn cam offset.toNat p) s) s

/-- DOWNSTREAM_ISSUE (R160, R167, R168, R170, R171). -/
def execDownstreamIssue (m : Moment) (s : State) : Host.Outcome State Fault Refusal :=
  takeCommand m grantPort s

/-- DOWNSTREAM_RESPONSE (R121, R157, R159, R160, R172). -/
def execDownstreamResponse (m : Moment) (refused : Bool) (data : List Byte) (s : State) :
    Host.Outcome State Fault Refusal :=
  takeCommand m (answer refused data) s

/-- OWN_TRAFFIC_WAIT_ADMIT (R168; notes/assumptions/11.md). -/
def execOwnTrafficWaitAdmit (m : Moment) (s : State) : Host.Outcome State Fault Refusal :=
  takeCommand m (admitOldest fun _ => true) s

/-- LOG_APPEND_ACCEPT (R150; notes/assumptions/12.md). -/
def execLogAppendAccept (m : Moment) (s : State) : Host.Outcome State Fault Refusal :=
  takeCommand m (admitOldest WaitItem.isAppend) s

end Sys2Proof.Machine
end

