-- ==== Sys2Proof/Machine/RequestCommands.lean ====
section
/-! DEFINITION. The request commands (spec/09): one per request kind, as the request unit takes it
(notes/assumptions/8.md). -/

namespace Sys2Proof.Machine

/-- REQUEST_UNKNOWN_KIND (R174). -/
def execRequestUnknownKind (m : Moment) (kind : Byte) (h : Head) (s : State) :
    Host.Outcome State Fault Refusal :=
  takeCommand m (askUnknown kind h) s

/-- REGISTER_VOLUME (R12). -/
def execRegisterVolume (m : Moment) (h : Head) (p : RegisterParams) (s : State) :
    Host.Outcome State Fault Refusal :=
  takeCommand m (ask 0x01#8 0x07#8 h (takeRegister h p)) s

/-- SET_VOLUME (R13). -/
def execSetVolume (m : Moment) (h : Head) (p : SetVolumeParams) (s : State) :
    Host.Outcome State Fault Refusal :=
  takeCommand m (ask 0x02#8 0x7F#8 h (takeSetVolume h p)) s

/-- ACTIVATE (R14). -/
def execActivate (m : Moment) (h : Head) (opening : BitVec 16) (s : State) :
    Host.Outcome State Fault Refusal :=
  takeCommand m (ask 0x03#8 0#8 h (takeActivate opening)) s

/-- SUSPEND (R15). -/
def execSuspend (m : Moment) (h : Head) (s : State) : Host.Outcome State Fault Refusal :=
  takeCommand m (ask 0x04#8 0#8 h takeSuspend) s

/-- SET_OPENING (R16). -/
def execSetOpening (m : Moment) (h : Head) (opening : BitVec 16) (s : State) :
    Host.Outcome State Fault Refusal :=
  takeCommand m (ask 0x05#8 0#8 h (takeSetOpening opening)) s

/-- CLOSE_VOLUME (R22). -/
def execCloseVolume (m : Moment) (h : Head) (claimed complement : BitVec 16) (s : State) :
    Host.Outcome State Fault Refusal :=
  takeCommand m (ask 0x06#8 0#8 h (takeClose claimed complement)) s

/-- RETIRE_VOLUME (R24). -/
def execRetireVolume (m : Moment) (h : Head) (s : State) : Host.Outcome State Fault Refusal :=
  takeCommand m (ask 0x07#8 0#8 h takeRetire) s

/-- SNAPSHOT_VOLUME (R25 to R27). -/
def execSnapshotVolume (m : Moment) (h : Head) (mapAddress : BitVec 64) (s : State) :
    Host.Outcome State Fault Refusal :=
  takeCommand m (ask 0x08#8 0x01#8 h (takeSnapshot h mapAddress)) s

/-- RUN (R30, R31). -/
def execRun (m : Moment) (h : Head) (stopOpening : BitVec 16) (s : State) :
    Host.Outcome State Fault Refusal :=
  takeCommand m (ask 0x09#8 0x01#8 h (takeRun h stopOpening)) s

/-- STEP_TURN (R33). -/
def execStepTurn (m : Moment) (h : Head) (s : State) : Host.Outcome State Fault Refusal :=
  takeCommand m (ask 0x0A#8 0#8 h takeStepTurn) s

/-- PAUSE (R47). -/
def execPause (m : Moment) (h : Head) (s : State) : Host.Outcome State Fault Refusal :=
  takeCommand m (ask 0x0B#8 0#8 h takePause) s

/-- RESUME with CONTINUE (R48). -/
def execResumeContinue (m : Moment) (h : Head) (s : State) : Host.Outcome State Fault Refusal :=
  takeCommand m (ask 0x0C#8 0#8 h takeContinue) s

/-- RESUME with RETRY (R54). -/
def execResumeRetry (m : Moment) (h : Head) (s : State) : Host.Outcome State Fault Refusal :=
  takeCommand m (ask 0x0C#8 0#8 h takeRetry) s

/-- RESUME with SKIP (R55). -/
def execResumeSkip (m : Moment) (h : Head) (s : State) : Host.Outcome State Fault Refusal :=
  takeCommand m (ask 0x0C#8 0#8 h takeSkip) s

/-- RESUME with ABANDON (R56). -/
def execResumeAbandon (m : Moment) (h : Head) (s : State) : Host.Outcome State Fault Refusal :=
  takeCommand m (ask 0x0C#8 0#8 h takeAbandon) s

/-- STOP (R49, R50). -/
def execStop (m : Moment) (h : Head) (s : State) : Host.Outcome State Fault Refusal :=
  takeCommand m (ask 0x0D#8 0#8 h takeStop) s

/-- CLEAR_FAULT (R56). -/
def execClearFault (m : Moment) (h : Head) (s : State) : Host.Outcome State Fault Refusal :=
  takeCommand m (ask 0x0E#8 0#8 h takeClearFault) s

/-- RELEASE_SLOTS (R119). -/
def execReleaseSlots (m : Moment) (h : Head) (cam : Byte) (mask : BitVec 16) (s : State) :
    Host.Outcome State Fault Refusal :=
  takeCommand m (ask 0x0F#8 0#8 h (takeRelease cam mask)) s

/-- LOAD_GAINS (R121). -/
def execLoadGains (m : Moment) (h : Head) (cam : Byte) (lineAddress : BitVec 64) (s : State) :
    Host.Outcome State Fault Refusal :=
  takeCommand m (ask 0x10#8 0#8 h (takeLoadGains cam lineAddress)) s

/-- SET_CORRECTION (R122). -/
def execSetCorrection (m : Moment) (h : Head) (cam setting : Byte) (s : State) :
    Host.Outcome State Fault Refusal :=
  takeCommand m (ask 0x11#8 0#8 h (takeSetCorrection cam setting)) s

/-- CALIBRATE (R123). -/
def execCalibrate (m : Moment) (h : Head) (p : CalibrateParams) (s : State) :
    Host.Outcome State Fault Refusal :=
  takeCommand m (ask 0x12#8 0#8 h (takeCalibrate p)) s

/-- SET_RULES (R132). -/
def execSetRules (m : Moment) (h : Head) (target tolerance clip : BitVec 16) (s : State) :
    Host.Outcome State Fault Refusal :=
  takeCommand m (ask 0x13#8 0#8 h (takeSetRules target tolerance clip)) s

/-- SET_CLASS_ENTRY (R9). -/
def execSetClassEntry (m : Moment) (h : Head) (cls : Byte) (f : ClassFields) (s : State) :
    Host.Outcome State Fault Refusal :=
  takeCommand m (ask 0x14#8 0#8 h (takeSetClass cls f)) s

/-- SET_MATERIAL_MAP (R8). -/
def execSetMaterialMap (m : Moment) (h : Head) (classes : List Byte) (s : State) :
    Host.Outcome State Fault Refusal :=
  takeCommand m (ask 0x15#8 0#8 h (takeSetMaterial classes)) s

/-- LOG_TAKEN (R154). -/
def execLogTaken (m : Moment) (h : Head) (n : BitVec 32) (s : State) :
    Host.Outcome State Fault Refusal :=
  takeCommand m (ask 0x16#8 0#8 h (takeLogTaken n)) s

/-- VERIFY_LOG (R156). -/
def execVerifyLog (m : Moment) (h : Head) (s : State) : Host.Outcome State Fault Refusal :=
  takeCommand m (ask 0x17#8 0#8 h takeVerify) s

end Sys2Proof.Machine
end

