-- ==== Sys2Proof/Machine/StartCommands.lean ====
section
/-! DEFINITION. The start-up commands: power, RESET_IN and the flash reads (spec/10). -/

namespace Sys2Proof.Machine

/-- POWER_ON: power arrives, not yet established (R182, R183). -/
def execPowerOn (m : Moment) (resetIn : Bool) (s : State) : Host.Outcome State Fault Refusal :=
  takeCommand m (fun s =>
    resetEvent .powerOn false (setLines (fun l => { l with power := false, resetIn := resetIn }) s)) s

/-- LINE_RESET: RESET_IN becomes active; in RESET it only lengthens RESET (R182, R183). -/
def execLineReset (m : Moment) (s : State) : Host.Outcome State Fault Refusal :=
  takeCommand m (fun s =>
    let s := setLines (fun l => { l with resetIn := true }) s
    if s.start.phase = .reset then s
    else resetEvent .lineReset (s.cycle.state != .idle) s) s

/-- RESET_END: RESET_IN becomes inactive (R182; notes/assumptions/29.md). -/
def execResetEnd (m : Moment) (s : State) : Host.Outcome State Fault Refusal :=
  takeCommand m (fun s => leaveReset (setLines (fun l => { l with resetIn := false }) s)) s

/-- PROFILE_SIGNATURE_READ (R184). -/
def execProfileSignatureRead (m : Moment) (signature : List Byte) (control : BitVec 16) (s : State) :
    Host.Outcome State Fault Refusal :=
  takeCommand m (signatureRead signature control) s

/-- PROFILE_GROUP_READ (R184 to R187). -/
def execProfileGroupRead (m : Moment) (bytes : List Byte) (s : State) :
    Host.Outcome State Fault Refusal :=
  takeCommand m (groupRead bytes) s

/-- POWER_ESTABLISHED (R182; notes/assumptions/29.md). -/
def execPowerEstablished (m : Moment) (s : State) : Host.Outcome State Fault Refusal :=
  takeCommand m (fun s => leaveReset (setLines (fun l => { l with power := true }) s)) s

end Sys2Proof.Machine
end

