-- ==== Sys2Proof/Machine/TurnerCommands.lean ====
section
/-! DEFINITION. The commands of the leaf turner and its two monitors (spec/03). -/

namespace Sys2Proof.Machine

/-- PLATEN_UP_ACTIVE (R61). -/
def execPlatenUpActive (m : Moment) (s : State) : Host.Outcome State Fault Refusal :=
  takeCommand m (fun s =>
    let s := setLines (fun l => { l with platenUp := true }) s
    if s.turner.runsStage .platenRise then checkRise s else s) s

/-- PLATEN_DOWN_ACTIVE (R67). -/
def execPlatenDownActive (m : Moment) (s : State) : Host.Outcome State Fault Refusal :=
  takeCommand m (fun s =>
    let s := setLines (fun l => { l with platenDown := true }) s
    if s.turner.runsStage .platenLower then enterSettle s else s) s

/-- ARM_PARKED_ACTIVE (R61, R66, R70). -/
def execArmParkedActive (m : Moment) (s : State) : Host.Outcome State Fault Refusal :=
  takeCommand m (fun s =>
    let s := refreshPark (setLines (fun l => { l with armParked := true }) s)
    if s.turner.runsStage .platenRise then checkRise s
    else if s.turner.sub = .retryPause then checkRetryPause s
    else if s.turner.runsStage .returning then enterPlatenLower s
    else s) s

/-- ARM_AT_LEFT_ACTIVE (R65). -/
def execArmAtLeftActive (m : Moment) (s : State) : Host.Outcome State Fault Refusal :=
  takeCommand m (fun s =>
    let s := setLines (fun l => { l with armAtLeft := true }) s
    if s.turner.runsStage .sweep then enterRelease s else s) s

/-- LEAF_SENSE_ACTIVE (R64). -/
def execLeafSenseActive (m : Moment) (s : State) : Host.Outcome State Fault Refusal :=
  takeCommand m (fun s =>
    let s := setLines (fun l => { l with leafSense := true }) s
    if s.turner.runsStage .lift then enterSweep s else s) s

/-- LEAF_SENSE_INACTIVE (R65, R74). -/
def execLeafSenseInactive (m : Moment) (s : State) : Host.Outcome State Fault Refusal :=
  takeCommand m (fun s =>
    let s := setLines (fun l => { l with leafSense := false }) s
    if s.turner.atStage .sweep then endTurn .leafDropped s else s) s

/-- DOUBLE_SENSE_ACTIVE (R64, R74). -/
def execDoubleSenseActive (m : Moment) (s : State) : Host.Outcome State Fault Refusal :=
  takeCommand m (fun s =>
    let s := setLines (fun l => { l with doubleSense := true }) s
    if s.turner.atStage .lift then doubleLeaf s else s) s

/-- WAND_PRESSURE_SAMPLE (R63, R72 to R74). -/
def execWandPressureSample (m : Moment) (pressure : Byte) (s : State) :
    Host.Outcome State Fault Refusal :=
  takeCommand m (fun s =>
    samplePressure (setLines (fun l => { l with wandPressure := pressure.toNat }) s)) s

/-- Whether the hold timer runs and has reached its count (R74). -/
def Turner.holdDue (t : Turner) (now : Nat) : Bool :=
  match t.holdTimer with
  | some x => x ≤ now
  | none => false

/-- HOLD_TIMEOUT (R74). -/
def execHoldTimeout (m : Moment) (s : State) : Host.Outcome State Fault Refusal :=
  takeCommand m (fun s =>
    if s.turner.state = .hold ∧ s.turner.holdDue s.now then endTurn .vacuumLow s else s) s

/-- SUPPLY_SENSE_SAMPLE (R51, R75, R76); before READY the monitor does not watch. -/
def execSupplySenseSample (m : Moment) (sample : Byte) (s : State) : Host.Outcome State Fault Refusal :=
  takeCommand m (fun s =>
    let s := setLines (fun l => { l with supplySense := sample.toNat }) s
    if s.ready then sampleSupply s else s) s

/-- A stage timeout that ends the turn has expired (R60, R71). -/
def stageExpires (st : Stage) (kind : FaultKind) (s : State) : State :=
  if s.turner.runsStage st ∧ s.turner.timerDue s.now then endTurn kind s else s

/-- PLATEN_TIMEOUT (R61, R67). -/
def execPlatenTimeout (m : Moment) (s : State) : Host.Outcome State Fault Refusal :=
  takeCommand m (fun s =>
    if s.turner.runsStage .platenRise then stageExpires .platenRise .platenTimeout s
    else stageExpires .platenLower .platenTimeout s) s

/-- GRIP_TIMEOUT (R63, R69). -/
def execGripTimeout (m : Moment) (s : State) : Host.Outcome State Fault Refusal :=
  takeCommand m (fun s =>
    if s.turner.runsStage .grip ∧ s.turner.timerDue s.now then retryable .gripFail s else s) s

/-- LIFT_TIMEOUT (R64). -/
def execLiftTimeout (m : Moment) (s : State) : Host.Outcome State Fault Refusal :=
  takeCommand m (stageExpires .lift .liftTimeout) s

/-- SWEEP_TIMEOUT (R65). -/
def execSweepTimeout (m : Moment) (s : State) : Host.Outcome State Fault Refusal :=
  takeCommand m (stageExpires .sweep .sweepTimeout) s

/-- RETURN_TIMEOUT, of RETURN or of a retry pause (R66, R70). -/
def execReturnTimeout (m : Moment) (s : State) : Host.Outcome State Fault Refusal :=
  takeCommand m (fun s =>
    if (s.turner.runsStage .returning || s.turner.sub == .retryPause) && s.turner.timerDue s.now then
      endTurn .returnTimeout s
    else s) s

/-- KNIFE_PULSE_ELAPSED (R62). -/
def execKnifePulseElapsed (m : Moment) (s : State) : Host.Outcome State Fault Refusal :=
  takeCommand m (fun s =>
    if s.turner.runsStage .separate ∧ s.turner.timeDue s.now then enterGrip s else s) s

/-- RETRY_PAUSE_ELAPSED (R70). -/
def execRetryPauseElapsed (m : Moment) (s : State) : Host.Outcome State Fault Refusal :=
  takeCommand m (fun s => if s.turner.sub = .retryPause then checkRetryPause s else s) s

/-- RELEASE_ELAPSED (R66). -/
def execReleaseElapsed (m : Moment) (s : State) : Host.Outcome State Fault Refusal :=
  takeCommand m (fun s =>
    if s.turner.runsStage .release ∧ s.turner.timeDue s.now then enterReturn s else s) s

/-- SETTLE_ELAPSED (R67, R68). -/
def execSettleElapsed (m : Moment) (s : State) : Host.Outcome State Fault Refusal :=
  takeCommand m (fun s =>
    if s.turner.runsStage .settle ∧ s.turner.timeDue s.now then completeTurn s else s) s

end Sys2Proof.Machine
end

