-- ==== Sys2Proof/Machine/Dispatch.lean ====
section
/-! DEFINITION. The command dispatch: one arm per row of spec/opcode_table.json. -/

namespace Sys2Proof.Machine

/-- A command's effect on everything but the queue. -/
def exec (i : Instr) (s : State) : Host.Outcome State Fault Refusal :=
  match i with
  | .powerOn m resetIn => Sys2Proof.Machine.execPowerOn m resetIn s
  | .lineReset m => Sys2Proof.Machine.execLineReset m s
  | .resetEnd m => Sys2Proof.Machine.execResetEnd m s
  | .profileSignatureRead m signature control => Sys2Proof.Machine.execProfileSignatureRead m signature control s
  | .profileGroupRead m bytes => Sys2Proof.Machine.execProfileGroupRead m bytes s
  | .upstreamWrite m x => Sys2Proof.Machine.execUpstreamWrite m x s
  | .upstreamRead m x => Sys2Proof.Machine.execUpstreamRead m x s
  | .apertureWrite m cam offset p => Sys2Proof.Machine.execApertureWrite m cam offset p s
  | .requestUnknownKind m kind h => Sys2Proof.Machine.execRequestUnknownKind m kind h s
  | .registerVolume m h p => Sys2Proof.Machine.execRegisterVolume m h p s
  | .setVolume m h p => Sys2Proof.Machine.execSetVolume m h p s
  | .activate m h opening => Sys2Proof.Machine.execActivate m h opening s
  | .suspend m h => Sys2Proof.Machine.execSuspend m h s
  | .setOpening m h opening => Sys2Proof.Machine.execSetOpening m h opening s
  | .closeVolume m h claimed complement => Sys2Proof.Machine.execCloseVolume m h claimed complement s
  | .retireVolume m h => Sys2Proof.Machine.execRetireVolume m h s
  | .snapshotVolume m h mapAddress => Sys2Proof.Machine.execSnapshotVolume m h mapAddress s
  | .run m h stopOpening => Sys2Proof.Machine.execRun m h stopOpening s
  | .stepTurn m h => Sys2Proof.Machine.execStepTurn m h s
  | .pause m h => Sys2Proof.Machine.execPause m h s
  | .resumeContinue m h => Sys2Proof.Machine.execResumeContinue m h s
  | .resumeRetry m h => Sys2Proof.Machine.execResumeRetry m h s
  | .resumeSkip m h => Sys2Proof.Machine.execResumeSkip m h s
  | .resumeAbandon m h => Sys2Proof.Machine.execResumeAbandon m h s
  | .stop m h => Sys2Proof.Machine.execStop m h s
  | .clearFault m h => Sys2Proof.Machine.execClearFault m h s
  | .releaseSlots m h cam mask => Sys2Proof.Machine.execReleaseSlots m h cam mask s
  | .loadGains m h cam lineAddress => Sys2Proof.Machine.execLoadGains m h cam lineAddress s
  | .setCorrection m h cam setting => Sys2Proof.Machine.execSetCorrection m h cam setting s
  | .calibrate m h p => Sys2Proof.Machine.execCalibrate m h p s
  | .setRules m h target tolerance clip => Sys2Proof.Machine.execSetRules m h target tolerance clip s
  | .setClassEntry m h cls f => Sys2Proof.Machine.execSetClassEntry m h cls f s
  | .setMaterialMap m h classes => Sys2Proof.Machine.execSetMaterialMap m h classes s
  | .logTaken m h n => Sys2Proof.Machine.execLogTaken m h n s
  | .verifyLog m h => Sys2Proof.Machine.execVerifyLog m h s
  | .downstreamIssue m => Sys2Proof.Machine.execDownstreamIssue m s
  | .downstreamResponse m refused data => Sys2Proof.Machine.execDownstreamResponse m refused data s
  | .ownTrafficWaitAdmit m => Sys2Proof.Machine.execOwnTrafficWaitAdmit m s
  | .logAppendAccept m => Sys2Proof.Machine.execLogAppendAccept m s
  | .haltInActive m => Sys2Proof.Machine.execHaltInActive m s
  | .camReadyActive m cam => Sys2Proof.Machine.execCamReadyActive m cam s
  | .cameraReadyTimeout m => Sys2Proof.Machine.execCameraReadyTimeout m s
  | .channelRampStart m channel => Sys2Proof.Machine.execChannelRampStart m channel s
  | .lampRampStep m => Sys2Proof.Machine.execLampRampStep m s
  | .warmEnd m => Sys2Proof.Machine.execWarmEnd m s
  | .triggerFall m => Sys2Proof.Machine.execTriggerFall m s
  | .exposureCompletion m => Sys2Proof.Machine.execExposureCompletion m s
  | .frameTimeout m cam => Sys2Proof.Machine.execFrameTimeout m cam s
  | .restLoss m input => Sys2Proof.Machine.execRestLoss m input s
  | .lampOkInactive m channel => Sys2Proof.Machine.execLampOkInactive m channel s
  | .platenUpActive m => Sys2Proof.Machine.execPlatenUpActive m s
  | .platenDownActive m => Sys2Proof.Machine.execPlatenDownActive m s
  | .armParkedActive m => Sys2Proof.Machine.execArmParkedActive m s
  | .armAtLeftActive m => Sys2Proof.Machine.execArmAtLeftActive m s
  | .leafSenseActive m => Sys2Proof.Machine.execLeafSenseActive m s
  | .leafSenseInactive m => Sys2Proof.Machine.execLeafSenseInactive m s
  | .doubleSenseActive m => Sys2Proof.Machine.execDoubleSenseActive m s
  | .wandPressureSample m pressure => Sys2Proof.Machine.execWandPressureSample m pressure s
  | .holdTimeout m => Sys2Proof.Machine.execHoldTimeout m s
  | .supplySenseSample m sample => Sys2Proof.Machine.execSupplySenseSample m sample s
  | .platenTimeout m => Sys2Proof.Machine.execPlatenTimeout m s
  | .gripTimeout m => Sys2Proof.Machine.execGripTimeout m s
  | .liftTimeout m => Sys2Proof.Machine.execLiftTimeout m s
  | .sweepTimeout m => Sys2Proof.Machine.execSweepTimeout m s
  | .returnTimeout m => Sys2Proof.Machine.execReturnTimeout m s
  | .knifePulseElapsed m => Sys2Proof.Machine.execKnifePulseElapsed m s
  | .retryPauseElapsed m => Sys2Proof.Machine.execRetryPauseElapsed m s
  | .releaseElapsed m => Sys2Proof.Machine.execReleaseElapsed m s
  | .settleElapsed m => Sys2Proof.Machine.execSettleElapsed m s
  | .powerEstablished m => Sys2Proof.Machine.execPowerEstablished m s

end Sys2Proof.Machine
end

