-- ==== Sys2Proof/Safety.lean ====
section
/-! DEFINITION. The terms the statements use: a state without its paperwork, the entries written to the
reply list, and the laws the spec states of the volume table and of the queues. -/

namespace Sys2Proof.Machine

/-- The state but for the part's paperwork: the own-traffic queue and wait list with their numbering, and
the request unit but for partial_requests. -/
def State.bare (s : State) : State :=
  { s with
    transit := { s.transit with queue := [], wait := [], nextId := 0 }
    req := { State.reset.req with partialRequests := s.req.partialRequests } }

/-- Whether the own-traffic queue or the wait list holds a reply-list write of this line to this address
(R168, R178). -/
def State.carries (s : State) (addr : Nat) (l : Line) : Prop :=
  (∃ id, ⟨id, addr, some l, .entry⟩ ∈ s.transit.queue) ∨
  (∃ id, ⟨id, .write addr l .entry⟩ ∈ s.transit.wait)

/-- From newest reply number `n` on exactly these entries have been written, in order: each takes the
next number and its line is on its way to the REPLY line of that number (R178). -/
def State.wrote (t : State) : Nat → List Fields → Prop
  | n, [] => t.req.newest = n
  | n, f :: rest =>
    t.carries (t.entryAddr (satSucc n)) (compose ((0, u32 (satSucc n)) :: f)) ∧
      t.wrote (satSucc n) rest

/-- The command answers a next state that is `e` but for the part's paperwork, and from `s` on exactly
these entries of the reply list have been written. -/
def State.completes (s : State) (c : Instr) (e : State) (fs : List Fields) : Prop :=
  ∃ t, exec c s = .next t ∧ t.bare = e.bare ∧ t.wrote s.req.newest fs

/-- The state is `e` but for the part's paperwork, and after reply number `n` exactly these entries of the
reply list have been written. -/
def State.cameTo (t : State) (n : Nat) (e : State) (fs : List Fields) : Prop :=
  t.bare = e.bare ∧ t.wrote n fs

/-- The fields of a DONE reply (R175, R176). -/
def doneReply (t : Ticket) (clamped : Bool) (results : Fields) : Fields :=
  replyFields t .done 0 clamped false results

/-- The fields of a REFUSED reply (R175, R176). -/
def refusal (t : Ticket) (r : Reason) : Fields := replyFields t .refused r.code false false []

/-- The command answers what the operation `g` makes of a state that is `e` but for the part's paperwork,
these entries of the reply list, and no others, written by then; the status lines are brought up to date
after it (R181). -/
def State.leads (s : State) (c : Instr) (g : State → State) (e : State) (fs : List Fields) : Prop :=
  ∃ s1, exec c s = .next (sync (g s1)) ∧ s1.cameTo s.req.newest e fs

/-- The default geometry in force, with its slots FREE (R102, R104). -/
def State.defaultGeometry (s : State) : State :=
  { s with intake := { s.intake with
    geo := ⟨4096, 6144, 4, 1000, 2000⟩, cams := ⟨CamState.fresh 4, CamState.fresh 4⟩ } }

/-- Groups settled DEFAULTED in this order (R184): each keeps what the reset gave it. Where G0 is one of them
the default map is in force, and G1 is REJECTED, its defaults back in force, when that map's pool of 384 MiB
does not hold G1's slots (R186). -/
def State.defaulted (s : State) (groups : List Nat) : State :=
  let results := groups.foldl (fun r g => r.set g (some .defaulted)) s.start.loadResult
  if 0 ∈ groups ∧ 402653184 < 2 * s.intake.geo.slots * s.intake.geo.frameBytes then
    { s.defaultGeometry with start := { s.start with loadResult := results.set 1 (some .rejected) } }
  else { s with start := { s.start with loadResult := results } }

/-- The groups G1 to G6 as their bytes load them, each with its values brought into range and LOADED (R102,
R184, R185). -/
def State.groupLoaded (s : State) (g : Nat) (bytes : List Byte) : State :=
  let e : State := { s with start := { s.start with
    loadResult := s.start.loadResult.set g (some .loaded) } }
  match g with
  | 1 => { e with intake := { s.intake with
      geo := readGeometry bytes
      cams := ⟨CamState.fresh (readGeometry bytes).slots, CamState.fresh (readGeometry bytes).slots⟩ } }
  | 2 => { e with light := readLighting bytes s.light }
  | 3 => { e with vols := { s.vols with classes := readClasses bytes } }
  | 4 => { e with vols := { s.vols with material := readMaterial bytes } }
  | 5 => { e with cycle := { s.cycle with rules := readRules bytes } }
  | _ => { e with turner := { s.turner with g6 := readTurner bytes } }

/-- G0 as its bytes settle it (R185, R186): the map brought into range is in force and G0 LOADED when no two
windows overlap, all lie below 4_0000_0000 and the pool holds every slot; else G0 is REJECTED and the map
stays, and G1 with it, its defaults back in force, when the default pool does not hold its slots. -/
def State.mapSettled (s : State) (bytes : List Byte) : State :=
  let map := readMap s.intake.geo bytes
  let result (r : LoadResult) : Start := { s.start with
    loadResult := s.start.loadResult.set 0 (some r) }
  let pool := 2 * s.intake.geo.slots * s.intake.geo.frameBytes
  if apart map.windows = true ∧ (∀ w ∈ map.windows, w.base + w.len ≤ 0x400000000) ∧
      pool ≤ map.slotPool.len then
    { s with start := result .loaded, transit := { s.transit with map := map } }
  else if 402653184 < pool then
    { s.defaultGeometry with start := { result .rejected with
        loadResult := (result .rejected).loadResult.set 1 (some .rejected) } }
  else { s with start := result .rejected }

/-- The command goes on to the next group that is read (R184): of the groups still to be settled, in their
order, those before the first whose accept code is 01 are DEFAULTED, and that one is read next. -/
def State.readsNext (s : State) (c : Instr) (e : State) (order : List Nat) : Prop :=
  ∀ skipped g rest, order = skipped ++ g :: rest → (∀ x ∈ skipped, e.start.accepts x = false) →
    e.start.accepts g = true →
    let d := e.defaulted skipped
    s.completes c { d with start := { d.start with waiting := .group g } } []

/-- The command makes the part READY (R184, R187), where none of the groups still to be settled is accepted:
they are DEFAULTED, the ms count starts, the supply monitor is OK and the READY notice is written; a sample
below the supply level counts as a fall at once, so SUPPLY_LOW follows. -/
def State.readies (s : State) (c : Instr) (e : State) (order : List Nat) : Prop :=
  (∀ x ∈ order, e.start.accepts x = false) →
    let d := e.defaulted order
    let low : Bool := d.lines.supplySense < d.turner.g6.supplyLevel
    s.completes c
      { d with
        start := { d.start with phase := .ready, readyAt := d.now, waiting := .nothing }
        turner := { d.turner with supply := if low then .low else .ok } }
      (noticeFields .ready [(12, u8 d.start.cause.code), (13, yes d.start.runningMark),
          (14, d.start.loadResult.flatMap fun r => u8 (LoadResult.code r))] ::
        if low then [noticeFields .supplyLow [(12, u8 d.lines.supplySense), (13, u8 d.turner.g6.supplyLevel),
          (14, u8 d.turner.g6.supplyMode.code)]] else [])

/-- The fields of an ACCEPTED reply (R175, R176). -/
def acceptedReply (t : Ticket) (extended : Bool) : Fields := replyFields t .accepted 0 false extended []

/-- The fields of RUN_COMPLETE, of a run of this kind and stop opening (R32, R191). -/
def State.completeNotice (s : State) (kind : RunKind) (stop : Nat) : Fields :=
  noticeFields .runComplete [(12, u8 (orFF s.vols.activeHandle)), (14, u16 stop), (16, u16 s.vols.cursor),
    (18, u8 kind.code)]

/-- The cycle IDLE with nothing of the run left (R32, R49, R56). -/
def Cycle.over (c : Cycle) : Cycle :=
  { c with state := .idle, sub := .none, run := none, opening := none }

/-- The turner TURNING at a stage just entered (R58, R60). -/
def Turner.entered (t : Turner) (st : Stage) (o : TurnerOutputs) (timer : StageTimer)
    (time : Option Nat) : Turner :=
  { t with state := .turning, stage := some st, sub := .none, outputs := o, stageTimer := timer
           stageTime := time, holdTimer := none }

/-- The turner after a turn ended with a fault (R71): every output at rest, no timer running, the report
naming the fault, the stage and whether the wand held a leaf. -/
def Turner.failed (t : Turner) (kind : FaultKind) : Turner :=
  { t with
    state := .faulted, sub := .none, stageTimer := .off, stageTime := none, holdTimer := none
    outputs := ⟨.off, false, 0, .off⟩
    report := some ⟨.fault kind, t.stage, (t.state == .turning || t.state == .hold) &&
      (t.stage == some .lift || t.stage == some .sweep)⟩ }

/-- The request command a full line spells (R174, R190), taken at once. -/
def lineCommand (l : Line) : Instr :=
  let m : Moment := ⟨0, []⟩
  let h := lineHead l
  match (lineByte l 0).toNat with
  | 0x01 => .registerVolume m h (lineRegister l)
  | 0x02 => .setVolume m h (lineSetVolume l)
  | 0x03 => .activate m h (lineWord 16 l 8 2)
  | 0x04 => .suspend m h
  | 0x05 => .setOpening m h (lineWord 16 l 8 2)
  | 0x06 => .closeVolume m h (lineWord 16 l 8 2) (lineWord 16 l 10 2)
  | 0x07 => .retireVolume m h
  | 0x08 => .snapshotVolume m h (lineWord 64 l 16 8)
  | 0x09 => .run m h (lineWord 16 l 8 2)
  | 0x0A => .stepTurn m h
  | 0x0B => .pause m h
  | 0x0C =>
    match (lineByte l 8).toNat with
    | 0 => .resumeContinue m h
    | 1 => .resumeRetry m h
    | 2 => .resumeSkip m h
    | _ => .resumeAbandon m h
  | 0x0D => .stop m h
  | 0x0E => .clearFault m h
  | 0x0F => .releaseSlots m h (lineByte l 8) (lineWord 16 l 10 2)
  | 0x10 => .loadGains m h (lineByte l 8) (lineWord 64 l 16 8)
  | 0x11 => .setCorrection m h (lineByte l 8) (lineByte l 9)
  | 0x12 => .calibrate m h (lineCalibrate l)
  | 0x13 => .setRules m h (lineWord 16 l 8 2) (lineWord 16 l 10 2) (lineWord 16 l 12 2)
  | 0x14 => .setClassEntry m h (lineByte l 8) (lineClass l 9)
  | 0x15 => .setMaterialMap m h ((l.drop 8).take 16)
  | 0x16 => .logTaken m h (lineWord 32 l 8 4)
  | 0x17 => .verifyLog m h
  | _ => .requestUnknownKind m (lineByte l 0) h

/-- A request command of a known kind: its moment, kind code (R188), the flags its kind uses (R190) and
its header. -/
def requestOf : Instr → Option (Moment × Byte × Byte × Head)
  | .registerVolume m h _ => some (m, 0x01#8, 0x07#8, h)
  | .setVolume m h _ => some (m, 0x02#8, 0x7F#8, h)
  | .activate m h _ => some (m, 0x03#8, 0#8, h)
  | .suspend m h => some (m, 0x04#8, 0#8, h)
  | .setOpening m h _ => some (m, 0x05#8, 0#8, h)
  | .closeVolume m h _ _ => some (m, 0x06#8, 0#8, h)
  | .retireVolume m h => some (m, 0x07#8, 0#8, h)
  | .snapshotVolume m h _ => some (m, 0x08#8, 0x01#8, h)
  | .run m h _ => some (m, 0x09#8, 0x01#8, h)
  | .stepTurn m h => some (m, 0x0A#8, 0#8, h)
  | .pause m h => some (m, 0x0B#8, 0#8, h)
  | .resumeContinue m h | .resumeRetry m h | .resumeSkip m h | .resumeAbandon m h =>
    some (m, 0x0C#8, 0#8, h)
  | .stop m h => some (m, 0x0D#8, 0#8, h)
  | .clearFault m h => some (m, 0x0E#8, 0#8, h)
  | .releaseSlots m h _ _ => some (m, 0x0F#8, 0#8, h)
  | .loadGains m h _ _ => some (m, 0x10#8, 0#8, h)
  | .setCorrection m h _ _ => some (m, 0x11#8, 0#8, h)
  | .calibrate m h _ => some (m, 0x12#8, 0#8, h)
  | .setRules m h _ _ _ => some (m, 0x13#8, 0#8, h)
  | .setClassEntry m h _ _ => some (m, 0x14#8, 0#8, h)
  | .setMaterialMap m h _ => some (m, 0x15#8, 0#8, h)
  | .logTaken m h _ => some (m, 0x16#8, 0#8, h)
  | .verifyLog m h => some (m, 0x17#8, 0#8, h)
  | _ => none

/-- A request is taken for its checks: the part is READY and the header passes R174. -/
def State.asked (s : State) (h : Head) (used : Byte) : Prop :=
  s.start.phase = .ready ∧ h.fits used = true

/-- The state with the record at a handle replaced. -/
def State.withVolume (s : State) (k : Nat) (v : Option Volume) : State :=
  { s with vols := { s.vols with table := s.vols.table.set k v } }

/-- A charge handed on (R17, R92, R99): to calibration_dose and the calibration in a calibration exposure,
else to the active record's opening dose and dose used; the sums saturate. -/
def State.paid (s : State) (charge : Nat) : State :=
  if s.light.exposure.kind = .calibration then
    { s with
      light := { s.light with calibrationDose := min (s.light.calibrationDose + charge) max32 }
      cycle := { s.cycle with cal := s.cycle.cal.map fun c => { c with charge := c.charge + charge } } }
  else
    match s.vols.activeHandle with
    | none => s
    | some k =>
      match s.vols.get k with
      | none => s
      | some v => s.withVolume k (some { v with
          openingDose := min (v.openingDose + charge) max32, doseUsed := min (v.doseUsed + charge) max32 })

/-- A record within the bounds of R2, R4 and R20: the cursor in 0..L, one coverage entry per side,
sides_covered the number of sides not ABSENT. -/
def Volume.wf (v : Volume) : Prop :=
  v.cursor ≤ v.leaves ∧ v.coverage.length = 2 * v.leaves + 2 ∧
    v.sidesCovered = v.coverage.countP fun c => c != .absent

/-- The laws of the volume table (R1, R4, R10, R20): 32 places, each record within its bounds, at most
one record ACTIVE. -/
def VolumeTable.lawful (t : VolumeTable) : Prop :=
  t.table.length = 32 ∧ (∀ v : Volume, some v ∈ t.table → v.wf) ∧ t.table.countP isActive ≤ 1

/-- A slot that is ARMED or FILLING (R105). -/
def Slot.flies (x : Slot) : Bool := x.state == .armed || x.state == .filling

/-- Gains within the range of R120. -/
def gainsInRange (l : List Nat) : Prop := ∀ g ∈ l, 512 ≤ g ∧ g ≤ 4095

/-- The laws of a camera: at most one slot ARMED or FILLING (R105), and every gain it holds in 512..4095, in
its tables, its intake record and a load in flight (R120, R121, R138). -/
structure CamState.lawful (c : CamState) : Prop where
  single : c.slots.countP Slot.flies ≤ 1
  pendingGains : gainsInRange c.pendingTable
  activeGains : gainsInRange c.activeTable
  frameGains : gainsInRange c.intakeRec.table
  loadGains : ∀ g h, c.load = some g → g.first = some h ∨ g.second = some h → gainsInRange h.1

/-- The dose of a plan is the one R141 predicts for it, and it fits into what is left of the active record's
budget and of its class's opening dose limit (R88). -/
def State.affords (s : State) (p : Plan) : Prop :=
  p.predicted = predictedDose s.light.rampRate s.light.warm p.time p.levels
      (s.light.channels.map Channel.k) ∧
    ∀ k v, s.vols.active = some (k, v) → v.doseUsed + p.predicted ≤ v.budget ∧
      v.openingDose + p.predicted ≤ (s.vols.entry (s.vols.classOf v)).doseLimit

/-- A volume exposure under way, ENDING included. -/
def Exposure.underway (e : Exposure) : Bool :=
  !(e.kind == .calibration) && (e.phase.running || e.phase == .ending)

/-- A volume exposure whose charge is still to be made (R17, R95). -/
def Exposure.owes (e : Exposure) : Bool :=
  !(e.kind == .calibration) && (e.phase.running || (e.phase == .ending && !e.charged))

/-- The plan of the retake the opening record holds, if it holds one (R28). -/
def Cycle.heldPlan (c : Cycle) : Option Plan := c.opening.bind fun o => o.prepared.retake

/-- The laws of the cycle, the lamps and the cameras that every step keeps. Dose used stays within its budget
and the opening dose within its limit (R17, R88, R144); the other clauses say why: an exposure under way, a
retake that is prepared and one that a waiting review holds are each within both (R40, R88, R89), a channel's
on-time is never above the planned one (R91, R93), and a volume exposure is under way in EXPOSE alone. Outside
IDLE and CALIBRATE the cycle has an ACTIVE record (R10, R29), and before READY there is none. -/
structure State.steady (s : State) : Prop where
  cams : ∀ c, (s.intake.cams.get c).lawful
  early : s.start.phase ≠ .ready → s.vols.activeHandle = none
  active : s.cycle.state ≠ .idle → s.cycle.state ≠ .calibrate → s.vols.activeHandle.isSome = true
  used : ∀ v, some v ∈ s.vols.table → v.doseUsed ≤ v.budget
  opened : ∀ v, some v ∈ s.vols.table → v.state = .active →
    v.openingDose ≤ (s.vols.entry (s.vols.classOf v)).doseLimit
  exposing : s.light.exposure.underway = true → s.cycle.state = .expose
  owing : s.light.exposure.owes = true → s.affords s.light.exposure.plan ∧
    ∀ i c, s.light.channels[i]? = some c → c.onTime ≤ s.plannedFor i
  prepared : s.cycle.state = .prepare ∨ (s.cycle.state = .paused ∧ s.cycle.point = some .prepare) →
    ∀ p, s.cycle.heldPlan = some p → s.affords p
  review : ∀ r, s.cycle.review = some r → s.cycle.state = .review ∧
    ∀ d p, r.after = .retake d p → s.affords p
  cal : s.cycle.cal.isSome = true → s.cycle.state = .calibrate

/-- A write of status line `k` waits for a place in the own-traffic queue (R168, R181). -/
def State.lineWaits (s : State) (k : Nat) : Bool := s.transit.wait.any fun w => w.what == .status k

/-- Status line `k` was last composed as `l`, and a write of it still queued holds that content (R169,
R181). -/
def State.lineHolds (s : State) (k : Nat) (l : Line) : Prop :=
  s.req.shown.getD k none = some l ∧ ∀ e ∈ s.transit.queue, e.origin = .status k → e.content = some l

/-- The laws of status lines 0 to 3 (R169, R181): at most one write of a line is queued or waiting, and it
waits as an item of its own; the dirty mark is set exactly while it waits; and of the lines named, each that
does not wait was composed, a queued write of it holding what was composed last. -/
structure State.filedFor (s : State) (lines : Nat → Prop) : Prop where
  marks : s.req.shown.length = 4 ∧ s.req.dirty.length = 4
  plain : ∀ w ∈ s.transit.wait, ∀ a l k, w.what ≠ .write a l (.status k)
  single : ∀ k < 4, (s.transit.queue.countP fun e => e.origin == .status k) +
    (s.transit.wait.countP fun w => w.what == .status k) ≤ 1
  dirty : ∀ k < 4, s.req.dirty.getD k false = s.lineWaits k
  composed : ∀ k < 4, lines k → s.lineWaits k = false → ∃ l, s.lineHolds k l

/-- The laws of status lines 0 to 3, each of them composed once the part is READY (R169, R181, R187). -/
def State.filed (s : State) : Prop := s.filedFor fun _ => s.start.phase = .ready

/-- Status line `k` shows the values of now, or its write waits and will be composed when it joins (R181). -/
def State.lineCurrent (s : State) (k : Nat) : Prop := s.lineWaits k = true ∨ s.lineHolds k (statusLine k s)

/-- The laws every step keeps: the volume table's (R1, R4, R10, R20); the own-traffic queue holds up to
16 entries (R168) and the hold list up to 16 reads (R171); no two windows of the region map overlap
(R186); the laws of the status lines (R169, R181); and the laws of the cycle, the lamps and the cameras. -/
def State.sound (s : State) : Prop :=
  s.vols.lawful ∧ s.transit.queue.length ≤ 16 ∧ s.transit.holds.length ≤ 16 ∧
    apart s.transit.map.windows = true ∧ s.filed ∧ s.steady

/-- What of an own-traffic entry never changes while it is queued: all of it, but for the content of a
status line (R169). -/
def OwnEntry.fixed (e : OwnEntry) : OwnEntry :=
  match e.origin with
  | .status _ => { e with content := none }
  | .entry | .snapshotReply | .record | .snapshotLine | .gainRead _ _ | .verifyRead => e

end Sys2Proof.Machine
end

