-- ==== Sys2Proof/Certificates/Slice0/Obligations.lean ====
section
/-! DEFINITION. The statements for the provers. In each, `a` is the state at the moment the command is
taken (notes/assumptions/1.md), `State.completes` gives the whole next state but for the part's paperwork
(the own-traffic queue and wait list, status lines) and exactly the reply-list entries written. -/

open Sys2Proof Sys2Proof.Machine

/-! ## The machine as a whole -/

/-- One step at a state whose queue has a command in front is that command on the state with the queue's
rest; with no command waiting a step changes nothing, the model's choice (notes/assumptions/3.md). -/
def Obligations.StepRunsFrontCommand : Prop :=
  (∀ (c : Instr) (rest : List Instr) (s : State), s.pending = c :: rest →
    step s = exec c { s with pending := rest }) ∧
  ∀ s : State, s.pending = [] → step s = .next s

/-- Every step keeps what `State.sound` says: at most one ACTIVE record, each record within its bounds (R4,
R10, R20), 32 places (R1), at most 16 own-traffic entries (R168) and 16 held reads (R171), no two windows
overlapping (R186); of each of status lines 0 to 3 at most one write queued or waiting, its dirty mark set
exactly while it waits, and once READY a composed line whose queued write holds what was composed (R169,
R181); every record's dose used at most its budget and an ACTIVE record's opening dose at most
its class's limit (R17, R88, R144); at most one ARMED or FILLING slot for a camera (R105); every gain in
512..4095 (R120, R121, R138); outside IDLE and CALIBRATE a record ACTIVE (R10, R29), before READY none; and
why the doses hold: a volume exposure is under way in EXPOSE alone, its predicted dose and that of a prepared
or decided retake fit into both, and no on-time is above the planned one (R88, R89, R91). -/
def Obligations.StepKeepsSound : Prop :=
  ∀ s t : State, s.sound → step s = .next t → t.sound

/-- The state right after POWER_ON is sound. -/
def Obligations.ResetIsSound : Prop := State.reset.sound

/-- Every command answers a next state and leaves the commands that wait in their order; own traffic
already queued keeps its places, its addresses and, but for status lines, its contents until the port
takes it or a reset discards it (R168, R169). -/
def Obligations.EveryCommandAnswersAndKeepsQueues : Prop :=
  ∀ (c : Instr) (s : State), s.sound →
    ∃ t, exec c s = .next t ∧ t.pending = s.pending ∧
      ((∃ m, c = .downstreamIssue m ∨ c = .lineReset m ∨ ∃ b, c = .powerOn m b) ∨
        s.transit.queue.map OwnEntry.fixed <+: t.transit.queue.map OwnEntry.fixed)

/-- Status lines 0 to 3 (R169, R180, R181). After every command in READY each line either was last composed from
the values of now, a write of it still queued holding that content, or its write waits and is composed when it
joins. Bringing a line up to date replaces its queued write in place, its place and its address kept; sets the
dirty mark where the write waits; else places a new write, or makes it wait. The lines are brought up to date in
the order 0 to 3, each whose values have changed since it was composed (the order: notes/assumptions/14.md). An
entry of the reply list is placed once every changed line of what came before it has been brought up to date: its
write goes to the end of the queue so left, or of the wait list, and the lines it changes follow. -/
def Obligations.StatusLinesShowTheState : Prop :=
  (∀ (c : Instr) (s t : State), s.sound → exec c s = .next t → t.start.phase = .ready →
    ∀ k < 4, t.lineCurrent k) ∧
  (∀ (k : Nat) (s : State), k < 4 → s.filed →
    let l := statusLine k s
    let shown := s.req.shown.set k (some l)
    let new : OwnEntry := ⟨s.transit.nextId, s.statusAddr k, some l, .status k⟩
    (∀ (i : Nat) (e : OwnEntry), s.transit.queue[i]? = some e → e.origin = .status k →
      placeStatus k s = { s with
        transit := { s.transit with queue := s.transit.queue.set i { e with content := some l } }
        req := { s.req with shown := shown } }) ∧
    (s.lineWaits k = true →
      placeStatus k s = { s with req := { s.req with dirty := s.req.dirty.set k true } }) ∧
    ((∀ e ∈ s.transit.queue, e.origin ≠ .status k) → s.lineWaits k = false →
      placeStatus k s = if s.transit.wait = [] ∧ s.transit.queue.length < 16 then
          { s with
            transit := { s.transit with
              queue := s.transit.queue ++ [new], nextId := s.transit.nextId + 1 }
            req := { s.req with shown := shown } }
        else
          { s with
            transit := { s.transit with
              wait := s.transit.wait ++ [⟨s.transit.nextId, .status k⟩], nextId := s.transit.nextId + 1 }
            req := { s.req with dirty := s.req.dirty.set k true } })) ∧
  ∀ s : State,
    let line (r : State) (k : Nat) : State := match r.req.shown.getD k none with
      | none => r
      | some l => if l = statusLine k r then r else placeStatus k r
    let current (r : State) : State := [0, 1, 2, 3].foldl line r
    let u := current s
    sync s = u ∧ u.bare = s.bare ∧ u.req.newest = s.req.newest ∧
    s.transit.queue.map OwnEntry.fixed <+: u.transit.queue.map OwnEntry.fixed ∧
    s.transit.wait <+: u.transit.wait ∧
    (s.filed → s.start.phase = .ready → ∀ k < 4, u.lineCurrent k) ∧
    ∀ fs : Fields,
      let n := satSucc s.req.newest
      let l := compose ((0, u32 n) :: fs)
      let addr := s.entryAddr n
      let id := u.transit.nextId
      let entry : OwnEntry := ⟨id, addr, some l, .entry⟩
      let numbered (tr : Transit) : State := { u with
        transit := { tr with nextId := id + 1 }
        req := { u.req with
          newest := n, noticeOut := true, newestIssued := false, newestId := some id
          newestLine := some addr } }
      let w := writeEntry fs .entry s
      w = current (if u.transit.wait = [] ∧ u.transit.queue.length < 16
        then numbered { u.transit with queue := u.transit.queue ++ [entry] }
        else numbered { u.transit with wait := u.transit.wait ++ [⟨id, .write addr l .entry⟩] }) ∧
      (s.filed → s.start.phase = .ready → s.transit.wait = [] → s.transit.queue.length ≤ 11 →
        (∀ k < 4, u.lineHolds k (statusLine k u)) ∧
        (u.transit.queue ++ [entry]).map OwnEntry.fixed <+: w.transit.queue.map OwnEntry.fixed)

/-! ## Start-up (spec/10) -/

/-- A reset event (R172, R182, R183): POWER_ON always, LINE_RESET in PROFILE_LOAD or READY, put every block
at its reset values with their cause and, for LINE_RESET, the running mark of a cycle outside IDLE; power is
not yet established after POWER_ON; every unanswered upstream transaction is answered REFUSED (in which order:
notes/assumptions/51.md), the answers still to come are to be discarded; the timebase and the other input
levels run on. In RESET a LINE_RESET changes nothing but the line. The reset values the spec does not give are
notes/assumptions/17.md. -/
def Obligations.ResetEventsResetEveryBlock : Prop :=
  (∀ (m : Moment) (resetIn : Bool) (s : State),
    let a := arrive m s
    exec (.powerOn m resetIn) s = .next { State.reset with
      pending := s.pending
      now := a.now
      lines := { a.lines with power := false, resetIn := resetIn }
      out := a.transit.unanswered.map fun x => (x, Response.refused)
      start := { State.reset.start with cause := .powerOn, runningMark := false }
      transit := { State.reset.transit with
        stale := a.transit.stale + a.transit.outstanding.length } }) ∧
  ∀ (m : Moment) (s : State),
    let a := arrive m s
    if a.start.phase = .reset then
      s.completes (.lineReset m) { a with lines := { a.lines with resetIn := true } } []
    else
      exec (.lineReset m) s = .next { State.reset with
        pending := s.pending
        now := a.now
        lines := { a.lines with resetIn := true }
        out := a.transit.unanswered.map fun x => (x, Response.refused)
        start := { State.reset.start with
          cause := .lineReset, runningMark := a.cycle.state != .idle }
        transit := { State.reset.transit with
          stale := a.transit.stale + a.transit.outstanding.length } }

/-- RESET ends, and PROFILE_LOAD begins with the signature, when power is established and RESET_IN is
inactive, whichever comes last; otherwise only the line changes (R182; how the two events are told apart
is notes/assumptions/29.md). -/
def Obligations.ResetEndsIntoProfileLoad : Prop :=
  ∀ (m : Moment) (s : State),
    let a := arrive m s
    let loading (x : Start) : Start := { x with phase := .profileLoad, waiting := .signature }
    s.completes (.resetEnd m)
      { a with lines := { a.lines with resetIn := false }
               start := if a.start.phase = .reset ∧ a.lines.power then loading a.start else a.start } [] ∧
    s.completes (.powerEstablished m)
      { a with lines := { a.lines with power := true }
               start := if a.start.phase = .reset ∧ ¬ a.lines.resetIn then loading a.start
                 else a.start } []

/-- The signature (R184): a group is accepted by the control word's code 01, and by none where the four bytes
are not "RMKP"; the groups are settled in the order G1, G0, G2 to G6. Those before the first accepted one, of
code 00, 10 or 11, are DEFAULTED, with the default map's check at G0 (R186), and that one is read next. With
none accepted every group is DEFAULTED: LastGroupMakesReady. -/
def Obligations.SignatureDecidesTheLoad : Prop :=
  ∀ (m : Moment) (sig : List Byte) (control : BitVec 16) (s : State),
    let a := arrive m s
    let good : Prop := sig = [0x52#8, 0x4D#8, 0x4B#8, 0x50#8]
    let e : State := { a with start := { a.start with accept := if good then control else 0#16 } }
    a.start.phase = .profileLoad → a.start.waiting = .signature →
    (∀ g, e.start.accepts g = true ↔
      good ∧ control.getLsbD (2 * g) = true ∧ control.getLsbD (2 * g + 1) = false) ∧
    s.readsNext (.profileSignatureRead m sig control) e [1, 0, 2, 3, 4, 5, 6]

/-- A group read (R184, R185): G1 to G6 are loaded with their values brought into range and LOADED; the groups
after it in the settling order are DEFAULTED up to the next whose accept code is 01, with the default map's
check at G0 (R186), and that one is read next. -/
def Obligations.GroupReadLoadsItsValues : Prop :=
  ∀ (m : Moment) (bytes : List Byte) (g : Nat) (s : State),
    let a := arrive m s
    a.start.phase = .profileLoad → a.start.waiting = .group g → 1 ≤ g → g ≤ 6 →
    s.readsNext (.profileGroupRead m bytes) (a.groupLoaded g bytes)
      (if g = 1 then [0, 2, 3, 4, 5, 6] else [2, 3, 4, 5, 6].filter fun x => g < x)

/-- G0 (R185, R186): the map brought into range is in force and G0 LOADED when no two windows overlap, all
lie below 4_0000_0000 and the pool holds every slot; else G0 is REJECTED and the map stays, and G1 with it
when the default pool does not hold its slots. Then the groups from G2 on are DEFAULTED up to the next whose
accept code is 01, which is read (R184). -/
def Obligations.MapIsLoadedOrRejected : Prop :=
  ∀ (m : Moment) (bytes : List Byte) (s : State),
    let a := arrive m s
    let map := readMap a.intake.geo bytes
    let pool := 2 * a.intake.geo.slots * a.intake.geo.frameBytes
    let e := a.mapSettled bytes
    a.start.phase = .profileLoad → a.start.waiting = .group 0 →
    s.readsNext (.profileGroupRead m bytes) e [2, 3, 4, 5, 6] ∧
    (apart map.windows = true → (∀ w ∈ map.windows, w.base + w.len ≤ 0x400000000) →
      pool ≤ map.slotPool.len → e.transit.map = map ∧ e.intake = a.intake ∧
        e.start.loadResult = a.start.loadResult.set 0 (some .loaded)) ∧
    ((apart map.windows = false ∨ (∃ w ∈ map.windows, 0x400000000 < w.base + w.len) ∨
        map.slotPool.len < pool) →
      e.transit.map = a.transit.map ∧
      (pool ≤ 402653184 → e.intake = a.intake ∧
        e.start.loadResult = a.start.loadResult.set 0 (some .rejected)) ∧
      (402653184 < pool → e.intake.geo = ⟨4096, 6144, 4, 1000, 2000⟩ ∧
        e.start.loadResult = (a.start.loadResult.set 0 (some .rejected)).set 1 (some .rejected)))

/-- The last group settled makes the part READY (R184, R187): after the signature with no group accepted, or
with the read of the last accepted one, be it G1 to G6 or G0; the groups not accepted are DEFAULTED, the ms
count starts, the supply monitor is OK, the READY notice carries the load results; a sample below the supply
level counts as a fall at once, so SUPPLY_LOW follows, in the default level of a DEFAULTED G6 too (R75; with
the cycle IDLE, as it is before READY, nothing stops). -/
def Obligations.LastGroupMakesReady : Prop :=
  ∀ (m : Moment) (s : State),
    let a := arrive m s
    a.start.phase = .profileLoad → a.cycle.state = .idle →
    (∀ (sig : List Byte) (control : BitVec 16), a.start.waiting = .signature →
      s.readies (.profileSignatureRead m sig control)
        { a with start := { a.start with
          accept := if sig = [0x52#8, 0x4D#8, 0x4B#8, 0x50#8] then control else 0#16 } }
        [1, 0, 2, 3, 4, 5, 6]) ∧
    ∀ (bytes : List Byte) (g : Nat), a.start.waiting = .group g → g ≤ 6 →
      s.readies (.profileGroupRead m bytes) (if g = 0 then a.mapSettled bytes else a.groupLoaded g bytes)
        (if g = 1 then [0, 2, 3, 4, 5, 6] else [2, 3, 4, 5, 6].filter fun x => g < x)

/-- The loaded values are those of the image's bytes (R195), brought into range (R185; that a byte the list does
not hold reads as FFh is the model's choice, notes/assumptions/32.md): of G1 W, rounded down to a multiple of 64,
H, S and the timeouts; of G2 each channel's K and side map, the ramp rate and the warm time; of G3 every class
field (a halt-on-marginal byte above 1: notes/assumptions/16.md); of G4 the materials' classes; of G5 the rules; of
G6 the timeouts, the supply level and mode; of G0 each window's base on a line boundary and its length: REQUEST in
1..64 lines and with the STATION among its writers, LOG rounded down to a power of two in 256..65536 lines, each
aperture from a whole frame up to 2^24 lines, the pool as given. -/
def Obligations.LoadedValuesAreTheBytesInRange : Prop :=
  ∀ b : List Byte,
    let byte (o : Nat) : Nat := (b.getD o 0xFF#8).toNat
    let half (o : Nat) : Nat := byte o + 256 * byte (o + 1)
    let word (o : Nat) : Nat := half o + 65536 * half (o + 2)
    let within (lo hi v : Nat) : Nat := min hi (max lo v)
    readGeometry b = ⟨within 1024 8192 (half 0 - half 0 % 64), within 512 8192 (half 2), within 2 16 (byte 4),
      within 50 5000 (half 6), within 1 30000 (half 8)⟩ ∧
    (∀ l : Lighting,
      let r := readLighting b l
      r = { l with channels := r.channels, rampRate := within 1 1023 (half 18), warm := min 500 (half 20) } ∧
      r.channels.length = l.channels.length ∧
      ∀ i c, l.channels[i]? = some c →
        let side : SideMap := match byte (12 + i) with
          | 0 => .left
          | 1 => .right
          | 2 => .both
          | 3 => .none
          | _ => c.sideMap
        r.channels[i]? = some { c with k := min 4095 (half (2 * i)), sideMap := side }) ∧
    ((readClasses b).length = 4 ∧
      ∀ i e d, (readClasses b)[i]? = some e → ClassEntry.defaults[i]? = some d →
        let o := 24 * i
        e = { vacuum := within 1 15 (byte o), grip := byte (o + 1), hold := byte (o + 2)
              mode := match byte (o + 3) with
                | 0 => .abort
                | 1 => .hold
                | _ => d.mode
              holdTimeout := within 1 10000 (half (o + 4)), knife := min 1000 (half (o + 6))
              maxRetries := min 7 (byte (o + 8)), maxRetakes := min 3 (byte (o + 9))
              ceiling := min 1023 (half (o + 10)), doseLimit := max 1 (word (o + 12))
              exposure := within 1 2000 (half (o + 16)), baseLevel := min 1023 (half (o + 18))
              settle := min 5000 (half (o + 20)), haltMarginal := e.haltMarginal } ∧
          (byte (o + 22) = 0 → e.haltMarginal = false) ∧ (byte (o + 22) = 1 → e.haltMarginal = true)) ∧
    readMaterial b = (List.range 16).map (fun i => min 3 (byte i)) ∧
    readRules b = ⟨min 4095 (half 0), min 2047 (half 2), half 4⟩ ∧
    (let time (o : Nat) : Nat := within 1 30000 (half o)
     readTurner b = ⟨time 0, time 2, time 4, time 6, time 8, min 247 (byte 10),
       if byte 11 = 1 then .safeStop else .notice⟩) ∧
    ∀ g : Geometry,
      let m := readMap g b
      let at0 (i : Nat) : Nat := word (12 * i) + 4294967296 * word (12 * i + 4)
      let base (i : Nat) : Nat := at0 i - at0 i % 64
      let lines (i : Nat) : Nat := word (12 * i + 8)
      let aperture (i : Nat) : Nat := 64 * within (g.frameBytes / 64) 16777216 (lines i)
      m.request = ⟨base 0, 64 * within 1 64 (lines 0), m.request.mask⟩ ∧
      (∀ r : Requester, Requester.allowed r m.request.mask =
        (r == .station || Requester.allowed r (BitVec.ofNat 4 (byte 84)))) ∧
      m.reply = ⟨base 1, 4096, 0#4⟩ ∧ m.status = ⟨base 2, 512, 0#4⟩ ∧
      (∃ k, 8 ≤ k ∧ k ≤ 16 ∧ m.log = ⟨base 3, 64 * 2 ^ k, 0#4⟩ ∧
        (2 ^ k ≤ lines 3 ∨ k = 8) ∧ (lines 3 < 2 ^ (k + 1) ∨ k = 16)) ∧
      m.apertureL = ⟨base 4, aperture 4, 0b0010#4⟩ ∧ m.apertureR = ⟨base 5, aperture 5, 0b0100#4⟩ ∧
      m.slotPool = ⟨base 6, 64 * lines 6, BitVec.ofNat 4 (byte 85)⟩ ∧
      ∀ b' : List Byte, g = readGeometry b' →
        g.width % 64 = 0 ∧ g.frameBytes ≤ m.apertureL.len ∧ g.frameBytes ≤ m.apertureR.len

/-! ## The frame-store path (spec/08, 09) -/

/-- An upstream write (R162, R164, R166, R167, R172). It is forwarded unclassified in PROFILE_LOAD, and in
READY when its address is outside every window, or in the slot pool at a line whose slot is neither ARMED nor
FILLING from a requester the pool's mask allows: it joins the end of the forwarded stream and changes nothing
else. One that R162 or R164 does not permit is answered REFUSED and counted in refused_writes, and changes
nothing else: into REPLY, STATUS or LOG from anyone; into REQUEST or the slot pool from a requester the
window's mask lacks; into an aperture from anyone but its own camera receiver; into a slot that is ARMED or
FILLING. One the port does not take, in RESET or with 32 transactions in the stream, changes nothing
(notes/assumptions/9.md). -/
def Obligations.WriteIsForwardedOrRefused : Prop :=
  (∀ (m : Moment) (x : Txn) (s : State),
    let a := arrive m s
    let map := a.transit.map
    (a.start.phase ≠ .reset → a.transit.stream.length < 32 →
      (a.start.phase = .profileLoad ∨
        (a.start.phase = .ready ∧ ∀ w ∈ map.windows, w.holds x.addr.toNat = false) ∨
        (a.start.phase = .ready ∧ apart map.windows = true ∧ map.slotPool.holds x.addr.toNat = true ∧
          Requester.allowed x.requester map.slotPool.mask = true ∧
          a.slotStateAt x.addr.toNat ≠ some .armed ∧ a.slotStateAt x.addr.toNat ≠ some .filling)) →
      s.completes (.upstreamWrite m x)
        { a with transit := { a.transit with
            stream := a.transit.stream ++ [⟨a.transit.nextSeq, true, false, x⟩]
            nextSeq := a.transit.nextSeq + 1 } } []) ∧
    (a.start.phase = .reset ∨ 32 ≤ a.transit.stream.length → s.completes (.upstreamWrite m x) a [])) ∧
  ∀ (m : Moment) (x : Txn) (s : State),
    let a := arrive m s
    let map := a.transit.map
    let at' := x.addr.toNat
    a.start.phase = .ready → a.transit.stream.length < 32 → apart map.windows = true →
    (map.reply.holds at' = true ∨ map.status.holds at' = true ∨ map.log.holds at' = true ∨
      (map.request.holds at' = true ∧ Requester.allowed x.requester map.request.mask = false) ∨
      (map.apertureL.holds at' = true ∧ x.requester ≠ .camL) ∨
      (map.apertureR.holds at' = true ∧ x.requester ≠ .camR) ∨
      (map.slotPool.holds at' = true ∧ (Requester.allowed x.requester map.slotPool.mask = false ∨
        a.slotStateAt at' = some .armed ∨ a.slotStateAt at' = some .filling))) →
    s.completes (.upstreamWrite m x)
      { a with
        out := [(x, .refused)]
        transit := { a.transit with refusedWrites := satSucc a.transit.refusedWrites } } []

/-- A permitted write into REQUEST (R173, R174): it is forwarded; 64 bytes with every enable on are the
request the line's bytes spell (R190), taken at once, and anything less counts in partial_requests and has
no other effect. A RESUME line with a resolution above 3 is refused with BAD_FIELD (R53), in every state of
the cycle (notes/assumptions/40.md). -/
def Obligations.RequestLineIsItsRequest : Prop :=
  ∀ (m : Moment) (x : Txn) (s : State),
    let a := arrive m s
    let forwarded : State := { a with transit := { a.transit with
      stream := a.transit.stream ++ [⟨a.transit.nextSeq, true, false, x⟩]
      nextSeq := a.transit.nextSeq + 1 } }
    a.start.phase = .ready → a.transit.stream.length < 32 →
    a.transit.map.request.holds x.addr.toNat = true →
    Requester.allowed x.requester a.transit.map.request.mask = true →
    if x.len = 64 ∧ x.enables.all id = true then
      if lineByte x.data 0 = 0x0C#8 ∧ 3 < (lineByte x.data 8).toNat then
        s.completes (.upstreamWrite m x) forwarded [refusal ((lineHead x.data).ticket 0x0C#8) .badField]
      else exec (.upstreamWrite m x) s = exec (lineCommand x.data) forwarded
    else
      s.completes (.upstreamWrite m x)
        { forwarded with req := { forwarded.req with
            partialRequests := satSucc a.req.partialRequests } } []

/-- A read the port takes (R163, R171, R172): in PROFILE_LOAD it is forwarded; in READY a read of an
aperture is answered REFUSED; one of a line that an own write queued or waiting will write is held against
the newest such write; any other is forwarded. A read the port does not take changes nothing
(notes/assumptions/9.md). -/
def Obligations.ReadIsForwardedHeldOrRefused : Prop :=
  ∀ (m : Moment) (x : Txn) (s : State),
    let a := arrive m s
    let map := a.transit.map
    let p : Passed := ⟨a.transit.nextSeq, false, false, x⟩
    s.completes (.upstreamRead m x)
      (if a.start.phase = .reset ∨ 32 ≤ a.transit.stream.length ∨ 16 ≤ a.transit.holds.length then a
      else if a.start.phase = .ready ∧
          (map.apertureL.holds x.addr.toNat = true ∨ map.apertureR.holds x.addr.toNat = true) then
        { a with out := [(x, .refused)] }
      else match (if a.start.phase = .ready then (a.ownWritesTo x.addr.toNat).getLast? else none) with
        | some id => { a with transit := { a.transit with
            holds := a.transit.holds ++ [⟨p, id⟩], nextSeq := a.transit.nextSeq + 1 } }
        | none => { a with transit := { a.transit with
            stream := a.transit.stream ++ [p], nextSeq := a.transit.nextSeq + 1 } }) []

/-- NOTICE_OUT (R179): every entry written raises it, whatever it is written for, a snapshot's reply among
them, and its write has then not been issued; a STATION read of the newest entry's line that is
forwarded after the entry's write has been issued lowers it, whether it is forwarded as it arrives or, held
against an own write (R171), when that write is issued; no other read, and no other issue, changes it. The
issue of the newest entry's own write is noted. -/
def Obligations.NoticeOutFollowsTheNewestEntry : Prop :=
  (∀ (fs : Fields) (origin : Origin) (s : State), (writeEntry fs origin s).req.noticeOut = true ∧
    (writeEntry fs origin s).req.newestIssued = false) ∧
  (∀ (m : Moment) (x : Txn) (s : State),
    let a := arrive m s
    let read : Bool := a.start.phase == .ready && a.transit.stream.length < 32 &&
      a.transit.holds.length < 16 && !(a.transit.map.apertureL.holds x.addr.toNat) &&
      !(a.transit.map.apertureR.holds x.addr.toNat) && (a.ownWritesTo x.addr.toNat).isEmpty
    ∃ t, exec (.upstreamRead m x) s = .next t ∧
      t.req.noticeOut = (s.req.noticeOut && !(read && x.requester == .station && s.req.newestIssued &&
        (match s.req.newestLine with
          | some l => l / 64 == x.addr.toNat / 64
          | none => false)))) ∧
  ∀ (m : Moment) (s : State),
    let a := arrive m s
    let c : Instr := .downstreamIssue m
    let own : Prop := a.transit.stream = [] ∨ a.transit.mark = .forwarded
    (∀ e rest, a.transit.queue = e :: rest → own →
      let issued : Bool := s.req.newestIssued || s.req.newestId == some e.id
      let read : Bool := a.start.phase == .ready && a.transit.holds.any fun h =>
        h.waitsFor == e.id && h.read.txn.requester == .station &&
          (match s.req.newestLine with
            | some l => l / 64 == h.read.txn.addr.toNat / 64
            | none => false)
      ∃ t, exec c s = .next t ∧ t.req.newestIssued = issued ∧
        t.req.noticeOut = (s.req.noticeOut && !(issued && read))) ∧
    (a.transit.queue = [] ∨ ¬ own →
      ∃ t, exec c s = .next t ∧ t.req.newestIssued = s.req.newestIssued ∧
        t.req.noticeOut = s.req.noticeOut)

/-- An aperture write of the camera receiver that ends no frame (R109, R110, R112, R114, R126 to R129): it is
answered DONE. A full line at the offset its frame expects, not the last of the frame: its corrected pixels
are on their way to the same offset of the armed slot (with the write's requester and data-error attribute,
notes/assumptions/47.md), the statistics and the expected offset advance by the line, and an ARMED slot becomes
FILLING with the first line. A line no frame takes is discarded: with no frame awaited or received it counts as
a drop, and past the frame's bytes as excess. -/
def Obligations.ApertureLineIsWrittenOrDropped : Prop :=
  (∀ (m : Moment) (cam : Camera) (offset : BitVec 34) (p : Payload) (k : Nat) (s : State),
    let a := arrive m s
    let window := a.transit.map.aperture cam
    let c := a.intake.cams.get cam
    let r := c.intakeRec
    let px := correctLine a.intake.geo.width offset.toNat r.table r.corrected p.data
    let x := a.apertureTxn cam offset.toNat p
    let slot := a.transit.map.slotPool.base +
      (cameraCode cam * a.intake.geo.slots + k) * a.intake.geo.frameBytes
    let after : CamState := { c with
      slots := if r.state = .waitFirst ∧ c.slots[k]?.map Slot.state = some .armed then
          c.slots.set k ⟨.filling, (c.slots.getD k Slot.empty).frame⟩ else c.slots
      intakeRec := { r with
        state := .receiving
        expected := r.expected + 64
        remaining := r.remaining - 64
        dataError := r.dataError || p.dataError
        sum := r.sum + pixelSum px
        clip := r.clip + pixelClips px
        bands := addBands r.bands px } }
    a.start.phase = .ready → a.transit.stream.length < 32 → apart a.transit.map.windows = true →
    offset.toNat < window.len → window.base + window.len ≤ 2 ^ 34 →
    (r.state = .waitFirst ∨ r.state = .receiving) → r.armed = some k →
    p.len = 64 → p.enables.all id = true →
    offset.toNat = r.expected → offset.toNat < a.intake.geo.frameBytes → 64 < r.remaining →
    s.completes (.apertureWrite m cam offset p)
      { a with
        out := [(x, .done)]
        transit := { a.transit with
          stream := a.transit.stream ++ [⟨a.transit.nextSeq, true, true,
            { x with addr := BitVec.ofNat 34 (slot + offset.toNat), data := pixelBytes px }⟩]
          nextSeq := a.transit.nextSeq + 1 }
        intake := { a.intake with cams := a.intake.cams.set cam after } } []) ∧
  ∀ (m : Moment) (cam : Camera) (offset : BitVec 34) (p : Payload) (s : State),
    let a := arrive m s
    let window := a.transit.map.aperture cam
    let r := (a.intake.cams.get cam).intakeRec
    a.start.phase = .ready → a.transit.stream.length < 32 → apart a.transit.map.windows = true →
    offset.toNat < window.len → window.base + window.len ≤ 2 ^ 34 →
    let e : State := { a with
      out := [(a.apertureTxn cam offset.toNat p, .done)]
      transit := { a.transit with nextSeq := a.transit.nextSeq + 1 } }
    (r.state ≠ .waitFirst ∧ r.state ≠ .receiving →
      s.completes (.apertureWrite m cam offset p)
        { e with intake := { a.intake with drops := satSucc a.intake.drops } } []) ∧
    (r.state = .waitFirst ∨ r.state = .receiving → a.intake.geo.frameBytes ≤ offset.toNat →
      s.completes (.apertureWrite m cam offset p)
        { e with intake := { a.intake with excess := satSucc a.intake.excess } } [])

/-- A frame ends with its last line, COMPLETE, or breaks, DAMAGED, at a line that is not full or not the
one expected (R109, R111, R113, R129, R130): the line is answered DONE, the frame record holds the end, the
reason and the statistics so far, the last line's among them, the intake is IDLE with its timer stopped, or
DRAINING, the rest of what the camera's intake holds is as before, and the end is reported to whoever armed the
slot (R118). The last line's write carries what the camera's did (notes/assumptions/47.md). -/
def Obligations.FrameEndsOrBreaks : Prop :=
  ∀ (m : Moment) (cam : Camera) (offset : BitVec 34) (p : Payload) (k : Nat) (st : SlotState) (f : Frame)
    (s : State),
    let a := arrive m s
    let window := a.transit.map.aperture cam
    let g := a.intake.geo
    let c := a.intake.cams.get cam
    let r := c.intakeRec
    let px := correctLine g.width offset.toNat r.table r.corrected p.data
    let x := a.apertureTxn cam offset.toNat p
    let slot := a.transit.map.slotPool.base + (cameraCode cam * g.slots + k) * g.frameBytes
    let full : Bool := p.len == 64 && p.enables.all id
    let after (stream : List Passed) (c' : CamState) : State := { a with
      out := [(x, .done)]
      transit := { a.transit with stream := stream, nextSeq := a.transit.nextSeq + 1 }
      intake := { a.intake with cams := a.intake.cams.set cam c' } }
    a.start.phase = .ready → a.transit.stream.length < 32 → apart a.transit.map.windows = true →
    offset.toNat < window.len → window.base + window.len ≤ 2 ^ 34 →
    (r.state = .waitFirst ∨ r.state = .receiving) → r.armed = some k → offset.toNat < g.frameBytes →
    c.slots[k]? = some ⟨st, some f⟩ →
    (full = true → offset.toNat = r.expected → r.remaining = 64 →
      let bad := r.dataError || p.dataError
      let sum := r.sum + pixelSum px
      exec (.apertureWrite m cam offset p) s = .next (sync (frameReported (after
        (a.transit.stream ++ [⟨a.transit.nextSeq, true, true,
          { x with addr := BitVec.ofNat 34 (slot + offset.toNat), data := pixelBytes px }⟩])
        { c with
          slots := c.slots.set k ⟨if r.state = .waitFirst ∧ st = .armed then .filling else st, some { f with
            ending := if r.lamp || bad then .damaged else .complete
            reason := if r.lamp then .lamp else if bad then .dataError else .none
            sum := sum, clip := r.clip + pixelClips px, mean := sum / (g.width * g.height) }⟩
          intakeRec := { r with
            state := .idle, armed := none, timer := none
            expected := r.expected + 64, remaining := 0, dataError := bad
            sum := sum, clip := r.clip + pixelClips px, bands := addBands r.bands px } })))) ∧
    (¬ (full = true ∧ offset.toNat = r.expected) →
      exec (.apertureWrite m cam offset p) s = .next (sync (frameReported (after a.transit.stream
        { c with
          slots := c.slots.set k ⟨st, some { f with
            ending := .damaged
            reason := if r.lamp then .lamp else if full = true then .sequence else .partialLine
            sum := r.sum, clip := r.clip, mean := r.sum / (g.width * g.height) }⟩
          intakeRec := { r with state := .draining, armed := none } }))))

/-- The downstream port takes a transaction (R167, R168, R170, R171): the stream's head when own traffic
is empty or had the last grant, else the queue's head; a read held against an own write that is issued
enters the stream; with nothing to issue nothing changes. -/
def Obligations.PortIsGrantedInTurn : Prop :=
  ∀ (m : Moment) (s : State),
    let a := arrive m s
    (∀ p rest, a.transit.stream = p :: rest → a.transit.queue = [] ∨ a.transit.mark = .own →
      s.completes (.downstreamIssue m) { a with transit := { a.transit with
        stream := rest, mark := .forwarded, outstanding := a.transit.outstanding ++ [.forwarded p] } } []) ∧
    (∀ e rest, a.transit.queue = e :: rest → a.transit.stream = [] ∨ a.transit.mark = .forwarded →
      ∃ t, exec (.downstreamIssue m) s = .next t ∧
        t.bare = State.bare { a with transit := { a.transit with
          mark := .own
          outstanding := a.transit.outstanding ++ [.own e]
          holds := a.transit.holds.filter fun h => h.waitsFor != e.id
          stream := ((a.transit.holds.filter fun h => h.waitsFor == e.id).map Hold.read).foldr
            insertReleased a.transit.stream } } ∧
        rest.map OwnEntry.fixed <+: t.transit.queue.map OwnEntry.fixed ∧
        (s.req.newestId = some e.id → t.req.newestIssued = true)) ∧
    (a.transit.stream = [] → a.transit.queue = [] → s.completes (.downstreamIssue m) a [])

/-- An answer of the memory controller (R159, R160, R165, R172): answers to transactions of before the
reset are discarded; else the oldest unanswered one is answered: a forwarded transaction's answer goes to
its requester, a redirected aperture line's goes nowhere, an own write's needs no more. With nothing
outstanding an answer has no effect, the model's reading (notes/assumptions/30.md). -/
def Obligations.AnswerGoesToItsRequester : Prop :=
  ∀ (m : Moment) (refused : Bool) (data : List Byte) (s : State),
    let a := arrive m s
    (0 < a.transit.stale → s.completes (.downstreamResponse m refused data)
      { a with transit := { a.transit with stale := a.transit.stale - 1 } } []) ∧
    (a.transit.stale = 0 → a.transit.outstanding = [] →
      s.completes (.downstreamResponse m refused data) a []) ∧
    (∀ p rest, a.transit.stale = 0 → a.transit.outstanding = .forwarded p :: rest →
      s.completes (.downstreamResponse m refused data)
        { a with
          transit := { a.transit with outstanding := rest }
          out := if p.redirected then [] else
            [(p.txn, if refused then .refused else if p.write then .done else .data data)] } []) ∧
    (∀ e rest, a.transit.stale = 0 → a.transit.outstanding = .own e :: rest → e.content.isSome →
      (∀ c b, e.origin ≠ .gainRead c b) → e.origin ≠ .verifyRead →
      s.completes (.downstreamResponse m refused data)
        { a with transit := { a.transit with outstanding := rest } } [])

/-- The oldest item of the wait list joins the own-traffic queue at its end when the queue has a place
(R168): a composed write as it was composed; a status line composed as it joins (R181); an append as
LOG_APPEND_ACCEPT accepts it; a snapshot's line and a gain read, after which their block produces its next
item (the next line or the reply, the second read), which waits behind what still waits and is queued where
nothing does; a verify read as the read of the next record still held then, or the verification's end
(notes/assumptions/48.md). With the queue full or nothing waiting nothing changes, and LOG_APPEND_ACCEPT
takes no other item (notes/assumptions/12.md). -/
def Obligations.OldestWaitingItemJoins : Prop :=
  ∀ (m : Moment) (s : State),
    let a := arrive m s
    let c : Instr := .ownTrafficWaitAdmit m
    let queued (e : OwnEntry) (rest : List WaitItem) (t : State) : Prop :=
      rest <+: t.transit.wait ∧
        a.transit.queue.map OwnEntry.fixed ++ [e] <+: t.transit.queue.map OwnEntry.fixed
    (∀ id addr line origin rest, a.transit.wait = ⟨id, .write addr line origin⟩ :: rest →
      (∀ k, origin ≠ .status k) → a.transit.queue.length < 16 →
      ∃ t, exec c s = .next t ∧
        t.bare = State.bare (if origin = .snapshotReply then
          { a with vols := { a.vols with snapshot := none } } else a) ∧
        t.req.newest = s.req.newest ∧ queued ⟨id, addr, some line, origin⟩ rest t) ∧
    (∀ id k rest, a.transit.wait = ⟨id, .status k⟩ :: rest → a.transit.queue.length < 16 →
      ∃ t, exec c s = .next t ∧ t.bare = a.bare ∧ rest <+: t.transit.wait ∧
        ⟨id, a.transit.map.status.base + k * 64, some (statusLine k a), .status k⟩ ∈ t.transit.queue) ∧
    (∀ id rest, a.transit.wait = ⟨id, .append⟩ :: rest → exec c s = exec (.logAppendAccept m) s) ∧
    (∀ id p b l more rest, a.transit.wait = ⟨id, .snapshotLine⟩ :: rest → a.transit.queue.length < 16 →
      a.vols.snapshot = some p → p.lines = (b, l) :: more →
      let e : OwnEntry := ⟨id, b, some l, .snapshotLine⟩
      ∃ t, exec c s = .next t ∧ queued e rest t ∧
        t = sync (snapshotPlace more { a with transit := { a.transit with
          wait := rest, queue := a.transit.queue ++ [e] } }) ∧
        (more ≠ [] → rest ≠ [] → t.req.newest = s.req.newest ∧
          t.bare = State.bare { a with vols := { a.vols with snapshot := some { p with lines := more } } } ∧
          ∃ j, ⟨j, .snapshotLine⟩ ∈ t.transit.wait) ∧
        (∀ b' l' r, more = (b', l') :: r → rest = [] → a.transit.queue.length ≤ 10 →
          ∃ j, ⟨j, b', some l', .snapshotLine⟩ ∈ t.transit.queue) ∧
        (more = [] →
          let n := satSucc s.req.newest
          let line := compose ((0, u32 n) :: doneReply p.ticket false [(12, u8 p.mapLines)])
          t.req.newest = n ∧
          ((∃ j, ⟨j, t.entryAddr n, some line, .snapshotReply⟩ ∈ t.transit.queue) ∨
            ∃ j, ⟨j, .write (t.entryAddr n) line .snapshotReply⟩ ∈ t.transit.wait))) ∧
    (∀ id v rest, a.transit.wait = ⟨id, .verifyRead⟩ :: rest → a.transit.queue.length < 16 →
      a.log.verify = some v → v.next ≤ v.last →
      let n := max v.next (a.log.appended - a.cap + 1)
      (v.last < n → s.completes c { a with log := { a.log with verify := none } }
        [doneReply v.ticket false [(12, u32 v.checked), (16, u32 v.other), (20, u32 v.bad),
          (24, u32 (v.notHeld + (v.last + 1 - v.next))), (28, u32 v.firstBad)]]) ∧
      (n ≤ v.last → ∃ t, exec c s = .next t ∧ t.req.newest = s.req.newest ∧
        t.bare = State.bare { a with log := { a.log with
          verify := some { v with next := n, notHeld := v.notHeld + (n - v.next) } } } ∧
        queued ⟨id, a.transit.map.log.base + (n - 1) % a.cap * 64, none, .verifyRead⟩ rest t)) ∧
    (∀ id w second g rest, a.transit.wait = ⟨id, .gainRead w second⟩ :: rest →
      a.transit.queue.length < 16 → (a.intake.cams.get w).load = some g →
      ∃ t, exec c s = .next t ∧ t.bare = a.bare ∧ t.req.newest = s.req.newest ∧
        queued ⟨id, g.addr + (if second then 64 else 0), none, .gainRead w second⟩ rest t ∧
        (second = false → rest ≠ [] → ∃ j, ⟨j, .gainRead w true⟩ ∈ t.transit.wait) ∧
        (second = false → rest = [] → a.transit.queue.length ≤ 10 →
          ∃ j, ⟨j, g.addr + 64, none, .gainRead w true⟩ ∈ t.transit.queue)) ∧
    (a.transit.wait = [] ∨ 16 ≤ a.transit.queue.length → s.completes c a []) ∧
    ((∀ id rest, a.transit.wait ≠ ⟨id, .append⟩ :: rest) ∨ 16 ≤ a.transit.queue.length →
      s.completes (.logAppendAccept m) a [])

/-- The waiting head append is accepted when its write has a place (R146, R150, R21): the next record
number, its line at its place in the LOG window, the record's handle and the list's next append noted;
then the block that asked hears of it, after LOG_LOW's test (notes/assumptions/50.md). That the next append
joins the end of the wait list is notes/assumptions/13.md; a handle registered again meanwhile takes the
number (notes/assumptions/45.md). -/
def Obligations.WaitingAppendIsAccepted : Prop :=
  ∀ (m : Moment) (s : State) (id : Nat) (rest : List WaitItem) (x : Append) (more : List Append),
    let a := arrive m s
    let n := a.log.appended + 1
    a.transit.wait = ⟨id, .append⟩ :: rest → a.transit.queue.length < 16 → a.log.appends = x :: more →
    let logged : State := { a with log := { a.log with appended := n, appends := more } }
    let noted : State := match x.handle with
      | some h => updVol h (touchRecords n) logged
      | none => logged
    let low : Bool := a.log.lowMark == .armed && noted.freeRoom ≤ a.cap / 8
    ∃ s1, exec (.logAppendAccept m) s = .next (sync (afterAccepted x s1)) ∧
      s1.cameTo s.req.newest
        (if low then { noted with log := { noted.log with lowMark := .spent } } else noted)
        (if low then [noticeFields .logLow [(12, u32 n), (16, u32 a.log.taken),
          (20, u32 noted.freeRoom)]] else []) ∧
      a.transit.queue.map OwnEntry.fixed ++ [⟨id,
          a.transit.map.log.base + a.log.appended % (a.transit.map.log.len / 64) * 64,
          some (recordLine x n a.sinceReady), .record⟩] <+: s1.transit.queue.map OwnEntry.fixed ∧
      (more ≠ [] → n < max32 → ∃ j, ⟨j, .append⟩ ∈ s1.transit.wait)

/-! ## Requests of the volume table (spec/01) -/

/-- A request's header (R174): a line of no known kind is refused with UNKNOWN_KIND; bytes 5 to 7 not zero,
or a flag the kind does not use, refuse any other with BAD_FIELD; nothing else changes. Before READY
nothing is taken (R173, R187). -/
def Obligations.RequestHeaderIsChecked : Prop :=
  (∀ (m : Moment) (kind : Byte) (h : Head) (s : State),
    let a := arrive m s
    s.completes (.requestUnknownKind m kind h) a
      (if a.start.phase = .ready then [refusal ⟨kind, h.tag, h.handle⟩ .unknownKind] else [])) ∧
  ∀ (c : Instr) (m : Moment) (code used : Byte) (h : Head) (s : State),
    requestOf c = some (m, code, used, h) →
    let a := arrive m s
    (a.start.phase ≠ .ready → s.completes c a []) ∧
    (a.start.phase = .ready →
      ¬ (h.zero5 = 0#8 ∧ h.zero6 = 0#8 ∧ h.zero7 = 0#8 ∧ h.flags &&& ~~~used = 0#8) →
      s.completes c a [refusal ⟨code, h.tag, h.handle⟩ .badField])

/-- REGISTER_VOLUME (R1, R2, R3, R12): BAD_FIELD, TABLE_FULL, DUPLICATE in this order; else a record at
the lowest free handle, its values brought into range with CLAMPED, and DONE with the handle. -/
def Obligations.RegisterVolumeMakesARecord : Prop :=
  ∀ (m : Moment) (h : Head) (p : RegisterParams) (s : State),
    let a := arrive m s
    let t := h.ticket 0x01#8
    let c : Instr := .registerVolume m h p
    let mark := padMark p.mark
    let override : Option Nat := if h.flag 0 then some p.override.toNat else none
    let cls := override.getD (a.vols.material.getD p.material.toNat 0)
    let ceiling := (a.vols.entry cls).ceiling
    let levels := sixLevels p.levels
    let exposure := p.exposure.toNat
    let leaves := p.leaves.toNat
    let clamped : Bool := p.budget.toNat == 0 || (h.flag 1 && levels.any fun v => ceiling < v) ||
      (h.flag 2 && (exposure == 0 || 2000 < exposure))
    let v : Volume :=
      { mark := mark, state := .registered, material := p.material.toNat, override := override
        leaves := leaves, budget := max 1 p.budget.toNat, doseUsed := 0, openingDose := 0
        baseLevels := if h.flag 1 then some (levels.map (min ceiling)) else none
        exposureTime := if h.flag 2 then some (min 2000 (max 1 exposure)) else none
        cursor := 0, coverage := List.replicate (2 * leaves + 2) .absent, sidesCovered := 0
        framesAccepted := 0, framesMarginal := 0, framesRejected := 0, framesDamaged := 0, retakes := 0
        repeatFrames := 0, turnsDone := 0, turnFaults := 0, doubleLeafEvents := 0
        firstRecord := 0, lastRecord := 0 }
    a.asked h 0x07#8 →
    if validMark mark = false ∨ 15 < p.material.toNat ∨ (h.flag 0 = true ∧ 3 < p.override.toNat) ∨
        leaves = 0 ∨ 4095 < leaves then s.completes c a [refusal t .badField]
    else match a.vols.table.findIdx? Option.isNone with
      | none => s.completes c a [refusal t .tableFull]
      | some k =>
        if (a.vols.table.any fun o => o.map Volume.mark == some mark) = true then
          s.completes c a [refusal t .duplicate]
        else s.completes c (a.withVolume k (some v)) [doneReply t clamped [(12, [BitVec.ofNat 8 k])]]

/-- SET_VOLUME (R11, R13): its checks in order; then override, levels clamped to the ceiling of the class
reached, exposure time in 1..2000 and a budget of at least dose used and at least 1, each only if it is to
change; DONE, with CLAMPED when a value was brought into range. -/
def Obligations.SetVolumeChangesItsSettings : Prop :=
  ∀ (m : Moment) (h : Head) (p : SetVolumeParams) (s : State),
    let a := arrive m s
    let t := h.ticket 0x02#8
    let c : Instr := .setVolume m h p
    let k := h.handle.toNat
    let alone : Bool := (h.flag 4 && !h.flag 1) || (h.flag 5 && !h.flag 2) || (h.flag 6 && !h.flag 3)
    a.asked h 0x7F#8 →
    if alone = true ∨ (h.flag 3 = true ∧ h.flag 6 = false ∧ 3 < p.override.toNat) ∨ 31 < k then
      s.completes c a [refusal t .badField]
    else if a.cycle.state ≠ .idle then s.completes c a [refusal t .state]
    else match a.vols.get k with
      | none => s.completes c a [refusal t .noVolume]
      | some v =>
        if v.state = .closed then s.completes c a [refusal t .closed]
        else if h.flag 3 = true ∧ v.state = .active then s.completes c a [refusal t .state]
        else
          let override : Option Nat :=
            if h.flag 3 then (if h.flag 6 then none else some p.override.toNat) else v.override
          let ceiling := (a.vols.entry (override.getD (a.vols.material.getD v.material 0))).ceiling
          let levels := sixLevels p.levels
          let exposure := min 2000 (max 1 p.exposure.toNat)
          let budget := max 1 (max p.budget.toNat v.doseUsed)
          let clamped : Bool :=
            (h.flag 1 && !h.flag 4 && levels.any fun x => ceiling < x) ||
            (h.flag 2 && !h.flag 5 && exposure != p.exposure.toNat) ||
            (h.flag 0 && budget != p.budget.toNat)
          let w : Volume := { v with
            override := override
            baseLevels := if h.flag 1 then
                (if h.flag 4 then none else some (levels.map (min ceiling))) else v.baseLevels
            exposureTime := if h.flag 2 then (if h.flag 5 then none else some exposure)
              else v.exposureTime
            budget := if h.flag 0 then budget else v.budget }
          s.completes c (a.withVolume k (some w)) [doneReply t clamped []]

/-- ACTIVATE, SUSPEND and CLOSE_VOLUME (R11, R14, R15, R22): the checks in order; then the record's state
(and for ACTIVATE its cursor, at most L, and its opening dose), and its VOLUME record is asked for, the
reply coming with the acceptance (R175). -/
def Obligations.VolumeEventsAreLogged : Prop :=
  ∀ (m : Moment) (h : Head) (s : State),
    let a := arrive m s
    let k := h.handle.toNat
    let busy : Bool := a.cycle.state != .idle || a.turner.sub == .completing
    let logged (c : Instr) (w : Volume) (b : VolumeBody) : Prop :=
      exec c s = .next (sync (appendForReply (.volume b) (a.withVolume k (some w))))
    a.asked h 0#8 →
    (∀ opening : BitVec 16,
      let t := h.ticket 0x03#8
      let c : Instr := .activate m h opening
      if 31 < k then s.completes c a [refusal t .badField]
      else if a.cycle.state ≠ .idle then s.completes c a [refusal t .state]
      else match a.vols.get k with
        | none => s.completes c a [refusal t .noVolume]
        | some v =>
          if v.state = .closed then s.completes c a [refusal t .closed]
          else if v.state = .active then s.completes c a [refusal t .state]
          else if (a.vols.activeHandle.any fun j => j != k) = true then
            s.completes c a [refusal t .activeExists]
          else if a.freeRoom = 0 then s.completes c a [refusal t .logFull]
          else
            let cursor := min opening.toNat v.leaves
            logged c { v with state := .active, cursor := cursor, openingDose := 0 }
              ⟨k, .activate, cursor, v.doseUsed, v.sidesCovered, v.mark, t,
                decide (v.leaves < opening.toNat)⟩) ∧
    (let t := h.ticket 0x04#8
     let c : Instr := .suspend m h
     if 31 < k then s.completes c a [refusal t .badField]
     else if busy = true then s.completes c a [refusal t .state]
     else match a.vols.get k with
      | none => s.completes c a [refusal t .noVolume]
      | some v =>
        if v.state = .closed then s.completes c a [refusal t .closed]
        else if v.state ≠ .active then s.completes c a [refusal t .state]
        else if a.freeRoom = 0 then s.completes c a [refusal t .logFull]
        else logged c { v with state := .suspended }
          ⟨k, .suspend, v.cursor, v.doseUsed, v.sidesCovered, v.mark, t, false⟩) ∧
    (∀ claimed complement : BitVec 16,
      let t := h.ticket 0x06#8
      let c : Instr := .closeVolume m h claimed complement
      if 31 < k then s.completes c a [refusal t .badField]
      else if busy = true then s.completes c a [refusal t .state]
      else match a.vols.get k with
        | none => s.completes c a [refusal t .noVolume]
        | some v =>
          if v.state = .closed then s.completes c a [refusal t .closed]
          else if v.state = .registered then s.completes c a [refusal t .state]
          else if complement.toNat ≠ 65535 - claimed.toNat ∨ v.sidesCovered ≠ claimed.toNat then
            s.completes c a [refusal t .mismatch]
          else if a.freeRoom = 0 then s.completes c a [refusal t .logFull]
          else logged c { v with state := .closed }
            ⟨k, .close, v.cursor, v.doseUsed, v.sidesCovered, v.mark, t, false⟩)

/-- SET_OPENING (R11, R16): its checks in order; else the ACTIVE record's cursor is the opening, at most L
with CLAMPED, its opening dose is 0, and the reply is DONE; nothing else changes. -/
def Obligations.SetOpeningMovesTheCursor : Prop :=
  ∀ (m : Moment) (h : Head) (opening : BitVec 16) (s : State),
    let a := arrive m s
    let k := h.handle.toNat
    let t := h.ticket 0x05#8
    let c : Instr := .setOpening m h opening
    a.asked h 0#8 →
    if 31 < k then s.completes c a [refusal t .badField]
    else if a.cycle.state ≠ .idle ∨ a.turner.sub = .completing then s.completes c a [refusal t .state]
    else match a.vols.get k with
      | none => s.completes c a [refusal t .noVolume]
      | some v =>
        if v.state = .closed then s.completes c a [refusal t .closed]
        else if v.state ≠ .active then s.completes c a [refusal t .state]
        else
          s.completes c
            (a.withVolume k (some { v with cursor := min opening.toNat v.leaves, openingDose := 0 }))
            [doneReply t (decide (v.leaves < opening.toNat)) []]

/-- RETIRE_VOLUME (R11, R24): refused for an ACTIVE or SUSPENDED record and while a FILLED slot holds one
of its frames; else the handle becomes free. -/
def Obligations.RetireVolumeFreesTheHandle : Prop :=
  ∀ (m : Moment) (h : Head) (s : State),
    let a := arrive m s
    let k := h.handle.toNat
    let t := h.ticket 0x07#8
    let c : Instr := .retireVolume m h
    let held (cam : CamState) : Prop :=
      ∃ x ∈ cam.slots, x.state = .filled ∧ ∃ f : Frame, x.frame = some f ∧ f.handle = some k
    a.asked h 0#8 →
    if 31 < k then s.completes c a [refusal t .badField]
    else match a.vols.get k with
      | none => s.completes c a [refusal t .noVolume]
      | some v =>
        (v.state = .active ∨ v.state = .suspended → s.completes c a [refusal t .state]) ∧
        (v.state = .registered ∨ v.state = .closed →
          (held a.intake.cams.left ∨ held a.intake.cams.right →
            s.completes c a [refusal t .slotsHeld]) ∧
          (¬ (held a.intake.cams.left ∨ held a.intake.cams.right) →
            s.completes c (a.withVolume k none) [doneReply t false []]))

/-- SNAPSHOT_VOLUME (R25, R26, R27): its checks in order; then, where the own-traffic queue has room for
all of it, its lines are queued in the order of R26 with the record's values as they are now, the reply's
entry is queued after the last of them and the snapshot is over; with less room the lines are placed as they
find places. Two values in the lines are the model's choices: line 5 has 0 in bytes 20 to 31 for a record
without base levels (notes/assumptions/52.md), and line 7 names address 0 where no map address is given
(notes/assumptions/54.md). -/
def Obligations.SnapshotQueuesItsLines : Prop :=
  ∀ (m : Moment) (h : Head) (mapAddress : BitVec 64) (s : State),
    let a := arrive m s
    let k := h.handle.toNat
    let t := h.ticket 0x08#8
    let c : Instr := .snapshotVolume m h mapAddress
    let snaps (q : List OwnEntry) : List (Nat × Option Line) :=
      (q.filter fun e => e.origin == .snapshotLine).map fun e => (e.addr, e.content)
    a.asked h 0x01#8 →
    if 31 < k ∨ (h.flag 0 = true ∧ 2 ^ 34 ≤ mapAddress.toNat) then s.completes c a [refusal t .badField]
    else if a.vols.snapshot.isSome then s.completes c a [refusal t .busy]
    else match a.vols.get k with
      | none => s.completes c a [refusal t .noVolume]
      | some v =>
        let n := if h.flag 0 then mapLineCount v else 0
        let at0 := if h.flag 0 then mapAddress.toNat else 0
        let base := a.transit.map.status.base
        let cls := a.vols.classOf v
        let lines : List (Nat × Line) :=
          [(base + 256, snapshotLine4 false k cls t v), (base + 320, snapshotLine5 v),
           (base + 384, snapshotLine6 v), (base + 448, snapshotLine7 v at0 n)] ++
          (List.range n).map (fun j => (at0 + 64 * j, coverageLine v.coverage j)) ++
          [(base + 256, snapshotLine4 true k cls t v)]
        if h.flag 0 = true ∧ a.transit.map.forbids mapAddress.toNat n = true then
          s.completes c a [refusal t .badField]
        else if a.transit.wait = [] ∧ a.transit.queue.length + lines.length + 5 ≤ 16 then
          ∃ r, exec c s = .next r ∧ r.bare = a.bare ∧ r.req.newest = satSucc s.req.newest ∧
            ∃ id before after, r.transit.queue = before ++ ⟨id, r.entryAddr (satSucc s.req.newest),
                some (compose ((0, u32 (satSucc s.req.newest)) ::
                  doneReply t false [(12, u8 n)])), .snapshotReply⟩ :: after ∧
              snaps before = snaps a.transit.queue ++ lines.map (fun q => (q.1, some q.2)) ∧
              snaps after = []
        else exec c s = .next (sync (snapshotPlace lines
          { a with vols := { a.vols with snapshot := some ⟨t, [], n, false⟩ } }))

/-- SET_MATERIAL_MAP (R8): a class above 3 refuses it with BAD_FIELD, before a record ACTIVE refuses it
with STATE; else the 16 classes are the whole map and the reply is DONE; no record changes. SET_CLASS_ENTRY
(R7, R9): a class above 3 or a field out of range refuses it with BAD_FIELD, before a record ACTIVE refuses it
with STATE; else the entry is replaced whole; no record changes. -/
def Obligations.ClassTableIsReplaced : Prop :=
  (∀ (m : Moment) (h : Head) (classes : List Byte) (s : State),
     let a := arrive m s
     let t := h.ticket 0x15#8
     let c : Instr := .setMaterialMap m h classes
     a.asked h 0#8 → classes.length = 16 →
     if ∃ b ∈ classes, 3 < b.toNat then s.completes c a [refusal t .badField]
     else if (a.vols.table.any fun o => o.map Volume.state == some .active) = true then
       s.completes c a [refusal t .state]
     else
       s.completes c { a with vols := { a.vols with material := classes.map BitVec.toNat } }
         [doneReply t false []]) ∧
  ∀ (m : Moment) (h : Head) (cls : Byte) (f : ClassFields) (s : State),
    let a := arrive m s
    let t := h.ticket 0x14#8
    let c : Instr := .setClassEntry m h cls f
    let good : Prop := cls.toNat ≤ 3 ∧ 1 ≤ f.vacuum.toNat ∧ f.vacuum.toNat ≤ 15 ∧ f.mode.toNat ≤ 1 ∧
      1 ≤ f.holdTimeout.toNat ∧ f.holdTimeout.toNat ≤ 10000 ∧ f.knife.toNat ≤ 1000 ∧
      f.maxRetries.toNat ≤ 7 ∧ f.maxRetakes.toNat ≤ 3 ∧ f.ceiling.toNat ≤ 1023 ∧
      1 ≤ f.doseLimit.toNat ∧ 1 ≤ f.exposure.toNat ∧ f.exposure.toNat ≤ 2000 ∧
      f.baseLevel.toNat ≤ 1023 ∧ f.settle.toNat ≤ 5000 ∧ f.haltMarginal.toNat ≤ 1
    let e : ClassEntry :=
      { vacuum := f.vacuum.toNat, grip := f.grip.toNat, hold := f.hold.toNat
        mode := if f.mode = 0#8 then .abort else .hold, holdTimeout := f.holdTimeout.toNat
        knife := f.knife.toNat, maxRetries := f.maxRetries.toNat, maxRetakes := f.maxRetakes.toNat
        ceiling := f.ceiling.toNat, doseLimit := f.doseLimit.toNat, exposure := f.exposure.toNat
        baseLevel := f.baseLevel.toNat, settle := f.settle.toNat, haltMarginal := f.haltMarginal == 1#8 }
    a.asked h 0#8 →
    (¬ good → s.completes c a [refusal t .badField]) ∧
    (good → if (a.vols.table.any fun o => o.map Volume.state == some .active) = true then
        s.completes c a [refusal t .state]
      else
        s.completes c { a with vols := { a.vols with classes := a.vols.classes.set cls.toNat e } }
          [doneReply t false []])

/-! ## Requests of the cycle (spec/02) -/

/-- RUN (R30, R31): from IDLE its checks in order, then a run record and ACCEPTED, and the cursor opening begins;
during a run of kind RUN the stop opening is replaced, ACCEPTED and EXTENDED when it rises, and naming the opening
in progress writes STOP_OPENING_REACHED at once (from PAUSED before an opening: notes/assumptions/22.md) and
completes a run that waits in TURN (the turner's counts stay: notes/assumptions/55.md); refused in HALTED and
CALIBRATE. -/
def Obligations.RunBeginsOrMovesItsStop : Prop :=
  ∀ (m : Moment) (h : Head) (stopOpening : BitVec 16) (s : State),
    let a := arrive m s
    let t := h.ticket 0x09#8
    let c : Instr := .run m h stopOpening
    let n := stopOpening.toNat
    let cur := a.vols.cursor
    let leaves := match a.vols.active with
      | some p => p.2.leaves
      | none => 0
    let with' (cy : Cycle) : State := { a with cycle := cy }
    let turning : Prop := a.cycle.state = .turn ∧ a.cycle.sub ≠ .waitLog
    a.asked h 0x01#8 →
    (a.cycle.state = .idle →
      if a.vols.activeHandle = none then s.completes c a [refusal t .noVolume]
      else if a.lines.haltIn = true then s.completes c a [refusal t .haltActive]
      else if a.supplyShort = true then s.completes c a [refusal t .supplyLow]
      else if n < cur ∨ leaves < n then s.completes c a [refusal t .range]
      else if a.turner.sub = .completing then s.completes c a [refusal t .state]
      else s.leads c beginOpening
        (with' { a.cycle with run := some ⟨.run, n, h.flag 0, false, false, none⟩ })
        [acceptedReply t false]) ∧
    (a.cycle.state = .halted ∨ a.cycle.state = .calibrate → s.completes c a [refusal t .state]) ∧
    (∀ r, a.cycle.state.working = true → a.cycle.run = some r →
      (r.kind ≠ .run → s.completes c a [refusal t .state]) ∧
      ∀ opening : Nat, (turning → opening = cur + 1) → (¬ turning → opening = cur) → r.kind = .run →
        (n < opening ∨ leaves < n → s.completes c a [refusal t .range]) ∧
        (opening ≤ n → n ≤ leaves →
          let reply := acceptedReply t (decide (r.stop < n))
          let reached := noticeFields .stopOpeningReached
            [(12, u8 (orFF a.vols.activeHandle)), (14, u16 n), (16, u16 cur)]
          (n ≠ opening ∨ turning →
            s.completes c (with' { a.cycle with run := some { r with stop := n, stopReached := false } })
              [reply]) ∧
          (n = opening → ¬ turning → a.cycle.state ≠ .turn →
            s.completes c (with' { a.cycle with run := some { r with stop := n, stopReached := true } })
              [reply, reached]) ∧
          (n = opening → ¬ turning → a.cycle.state = .turn →
            s.completes c (with' { a.cycle.over with camTimer := none })
              [reply, reached, a.completeNotice .run n])))

/-- STEP_TURN (R33, R45): from IDLE its checks in order, then a run record of kind STEP, DONE, and the
turn: it waits for the log room of 5, or the turner at REST takes it; refused in any other state. -/
def Obligations.StepTurnAsksOneTurn : Prop :=
  ∀ (m : Moment) (h : Head) (s : State),
    let a := arrive m s
    let t := h.ticket 0x0A#8
    let c : Instr := .stepTurn m h
    let cur := a.vols.cursor
    let run : RunRecord := ⟨.step, cur + 1, false, false, false, none⟩
    a.asked h 0#8 →
    (a.cycle.state ≠ .idle → s.completes c a [refusal t .state]) ∧
    (a.cycle.state = .idle →
      match a.vols.active with
      | none => a.vols.activeHandle = none → s.completes c a [refusal t .noVolume]
      | some (_, v) =>
        if a.lines.haltIn = true then s.completes c a [refusal t .haltActive]
        else if a.supplyShort = true then s.completes c a [refusal t .supplyLow]
        else if cur = v.leaves then s.completes c a [refusal t .endOfVolume]
        else if a.turner.sub = .completing then s.completes c a [refusal t .state]
        else cur < v.leaves →
          if a.freeRoom < 5 then
            s.completes c
              { a with cycle := { a.cycle with state := .turn, sub := .waitLog, run := some run } }
              [doneReply t false []]
          else a.turner.state = .rest →
            s.leads c takeTurn
              { a with cycle := { a.cycle with state := .turn, sub := .none, run := some run } }
              [doneReply t false []])

/-- PAUSE (R47): at once in PREPARE and in TURN showing WAIT_LOG, with DONE and CYCLE_PAUSED, the
camera-ready timeout cancelled and the lighting unit's held retake dropped (R89); marked pending in EXPOSE,
REVIEW and a turn in flight; DONE without effect in PAUSED, and in PREPARE with a pause already pending
(notes/assumptions/39.md); refused with STATE elsewhere. RESUME with CONTINUE (R48, R53): refused but in
PAUSED, under HALT_IN and by a short supply; else DONE, and the cycle carries on from the resume point: the
cursor opening begins, PREPARE is entered again (a retake held again by the lighting unit), or the run
completes at its stop (the turner as it was, its retry and double-leaf counts kept: the model's choice,
notes/assumptions/55.md), else starts a turn; of these only PREPARE and the held retake come before the reply
(notes/assumptions/15.md). -/
def Obligations.PauseHoldsAndContinueCarriesOn : Prop :=
  (∀ (m : Moment) (h : Head) (s : State),
    let a := arrive m s
    let t := h.ticket 0x0B#8
    let c : Instr := .pause m h
    let x := a.light.exposure
    let paused (p : ResumePoint) : Prop :=
      s.completes c
        { a with
          cycle := { a.cycle with
            state := .paused, sub := .none, camTimer := none
            run := a.cycle.run.map fun r => { r with resume := some p, pausePending := false } }
          light := { a.light with
            exposure := if x.phase = .admitted then { x with phase := .none } else x } }
        [doneReply t false [],
         noticeFields .cyclePaused [(12, u8 (orFF a.vols.activeHandle)), (14, u16 a.vols.cursor),
           (16, u16 ((a.cycle.run.map RunRecord.stop).getD 0)), (18, u8 p.code)]]
    let pended : Prop :=
      s.completes c
        { a with cycle := { a.cycle with
            run := a.cycle.run.map fun r => { r with pausePending := true } } }
        [doneReply t false []]
    a.asked h 0#8 →
    match a.cycle.state with
    | .idle => s.completes c a [refusal t .state]
    | .halted => s.completes c a [refusal t .state]
    | .calibrate => s.completes c a [refusal t .state]
    | .paused => s.completes c a [doneReply t false []]
    | .prepare => if a.cycle.pausePending = true then s.completes c a [doneReply t false []]
      else paused .prepare
    | .turn => if a.cycle.sub = .waitLog then paused .turn else pended
    | .expose => pended
    | .review => pended) ∧
  ∀ (m : Moment) (h : Head) (s : State),
    let a := arrive m s
    let t := h.ticket 0x0C#8
    let c : Instr := .resumeContinue m h
    a.asked h 0#8 →
    if a.cycle.state ≠ .paused then s.completes c a [refusal t .state]
    else if a.lines.haltIn = true then s.completes c a [refusal t .haltActive]
    else if a.supplyShort = true then s.completes c a [refusal t .supplyLow]
    else ∀ r : RunRecord, a.cycle.run = some r →
      let e : State := { a with cycle := { a.cycle with run := some { r with resume := none } } }
      (r.resume = some .beginOpening → s.leads c beginOpening e [doneReply t false []]) ∧
      (∀ o, r.resume = some .prepare → a.cycle.opening = some o →
        let e1 : State := { e with cycle := { e.cycle with state := .prepare, sub := .none } }
        s.leads c enterPrepare
          (match o.prepared.retake with
          | some p => { e1 with light := { a.light with exposure :=
              ⟨.admitted, .retake, o.prepared.sides, p, a.vols.activeHandle, false, 0, false, false⟩ } }
          | none => e1)
          [doneReply t false []]) ∧
      (r.resume = some .turn →
        if a.vols.cursor = r.stop then
          s.completes c { a with cycle := { a.cycle.over with camTimer := none } }
            [doneReply t false [], a.completeNotice r.kind r.stop]
        else s.leads c startTurn e [doneReply t false []])

/-- RESUME with RETRY, SKIP or ABANDON (R53 to R56): refused but in HALTED, under HALT_IN, and RETRY and SKIP by a
short supply or a turn COMPLETING; else DONE, and the failed step is repeated, counted as done, or the run given
up: what of it happens at that moment comes before the reply, the step it leads to after it
(notes/assumptions/15.md). The current fault record is kept. A turn counted as done raises the cursor by one, never
past L, and its record names the cursor reached (notes/assumptions/36.md); a turner already at REST:
notes/assumptions/41.md; a capture fault with no opening record: notes/assumptions/21.md; a side exposed whose
frame was aborted before any record: notes/assumptions/57.md. -/
def Obligations.HaltedIsResolved : Prop :=
  ∀ (m : Moment) (h : Head) (s : State),
    let a := arrive m s
    let t := h.ticket 0x0C#8
    let done := doneReply t false []
    let rest : Turner := { a.turner with
      state := .rest, stage := none, sub := .none, stageTimer := .off, stageTime := none
      holdTimer := none, outputs := ⟨.off, false, 0, .off⟩ }
    let clear : Turner := { rest with retry := 0, doubles := 0 }
    let repeated : Turner := if a.turner.state = .faulted then rest else a.turner
    let cleared : Turner :=
      if a.turner.state = .faulted then clear else { a.turner with retry := 0, doubles := 0 }
    let ofTurn : Prop := ∃ f, a.cycle.fault = some f ∧ f.cls = .turn
    a.asked h 0#8 →
    (∀ c : Instr, c = .resumeRetry m h ∨ c = .resumeSkip m h ∨ c = .resumeAbandon m h →
      (a.cycle.state ≠ .halted → s.completes c a [refusal t .state]) ∧
      (a.cycle.state = .halted → a.lines.haltIn = true → s.completes c a [refusal t .haltActive]) ∧
      (a.cycle.state = .halted → a.lines.haltIn = false → c ≠ .resumeAbandon m h →
        (a.supplyShort = true → s.completes c a [refusal t .supplyLow]) ∧
        (a.supplyShort = false → a.turner.sub = .completing → s.completes c a [refusal t .state]))) ∧
    (a.cycle.state = .halted → a.lines.haltIn = false →
      s.completes (.resumeAbandon m h) { a with
        turner := if ofTurn then cleared else a.turner, cycle := a.cycle.over } [done] ∧
      ∀ f : FaultRecord, a.supplyShort = false → a.turner.sub ≠ .completing → a.cycle.fault = some f →
        (f.cls = .turn →
          s.leads (.resumeRetry m h) startTurn { a with turner := repeated } [done] ∧
          ∀ k v, a.vols.activeHandle = some k → a.vols.get k = some v →
            let w : Volume := { v with
              cursor := min (v.cursor + 1) v.leaves, openingDose := 0, turnsDone := satSucc v.turnsDone }
            let e := appendOrCount (.turn ⟨k, w.cursor, a.turner.retry, a.turner.doubles, true⟩)
              ((sync { a with turner := cleared }).withVolume k (some w))
            ∃ s1, exec (.resumeSkip m h) s = .next (sync (afterTurn s1)) ∧ s1.cameTo e.req.newest e [done]) ∧
        (∀ o : OpeningRecord, f.cls = .capture → a.cycle.opening = some o →
          (let again (r : SideRecord) (marginal : Bool) : SideRecord :=
            if r.status = .wanted ∨ r.status = .pending ∨ (f.kind = .marginalHalt ∧ marginal = true) then
              { r with status := .wanted } else r
           let l := again o.sides.left f.sides.left
           let r := again o.sides.right f.sides.right
           let cycle : Cycle := { a.cycle with opening := some { o with
             sides := ⟨l, r⟩
             prepared := ⟨⟨l.status == .wanted, r.status == .wanted⟩, none⟩ } }
           if l.status = .wanted ∨ r.status = .wanted then
            s.leads (.resumeRetry m h) enterPrepare
              { a with cycle := { cycle with state := .prepare, sub := .none } } [done]
           else s.leads (.resumeRetry m h) finishOpening { a with cycle := cycle } [done]) ∧
          (let passed (r : SideRecord) : SideRecord :=
            if r.status = .wanted ∨ r.status = .pending then { r with status := .passed } else r
           let l := passed o.sides.left
           let r := passed o.sides.right
           s.leads (.resumeSkip m h) finish
            { a with cycle := { a.cycle with opening := some { o with sides := ⟨l, r⟩ } } }
            [done, noticeFields .openingCaptured
              ([(12, u8 (orFF a.vols.activeHandle)), (14, u16 o.number)] ++ sideFields 16 l ++
                sideFields 20 r)])) ∧
        (f.cls = .capture → a.cycle.opening = none →
          s.leads (.resumeRetry m h) beginOpening a [done] ∧
          let passed : SideRecord := ⟨.passed, none⟩
          let opened : OpeningRecord :=
            { number := a.vols.cursor, sides := ⟨passed, passed⟩, retakes := 0
              prepared := ⟨⟨false, false⟩, none⟩, lampFault := false, exposed := false, charge := 0 }
          s.leads (.resumeSkip m h) finish { a with cycle := { a.cycle with opening := some opened } }
            [done, noticeFields .openingCaptured
              ([(12, u8 (orFF a.vols.activeHandle)), (14, u16 a.vols.cursor)] ++ sideFields 16 passed ++
                sideFields 20 passed)]))

/-- STOP and HALT_IN becoming active (R49, R50): in IDLE and HALTED nothing but the reply or the line; in a
cycle at work everything is aborted, CYCLE_STOPPED is written, and the cycle halts with TURN_ABORTED where
the wand held a leaf, else it is IDLE and the turner's counts are 0 (notes/assumptions/41.md); a calibration
is aborted and ends with the cause (CalibrationEnds), its record's camera fields those of before the abort
(notes/assumptions/38.md); one whose record already waits has ended (notes/assumptions/23.md). That the reply to
a STOP is written while the calibration still shows its WAIT_CAMERA is the model's choice
(notes/assumptions/59.md). What the abort leaves, the charge of a cut exposure among it, is
AbortLeavesNothingInFlight. -/
def Obligations.StopEndsTheCycle : Prop :=
  ∀ (m : Moment) (h : Head) (s : State),
    let a := arrive m s
    let stops (c : Instr) (cause : StopCause) (b : State) (reply : List Fields) : Prop :=
      (a.cycle.state = .idle ∨ a.cycle.state = .halted → s.completes c b reply) ∧
      (a.cycle.state.working = true →
        let q := abortWork cause b
        let fs := reply ++ [noticeFields .cycleStopped
          [(12, u8 cause.code), (13, u8 (orFF a.vols.activeHandle)), (14, u16 a.vols.cursor),
           (16, u8 a.cycle.state.code)]]
        if q.2.held = true then s.leads c (haltTurn .turnAborted q.2.stage) q.1 fs
        else s.completes c { q.1 with
            cycle := q.1.cycle.over
            turner := if q.1.turner.state = .faulted then
                { q.1.turner with
                  retry := 0, doubles := 0, state := .rest, stage := none, sub := .none
                  stageTimer := .off, stageTime := none, holdTimer := none
                  outputs := ⟨.off, false, 0, .off⟩ }
              else { q.1.turner with retry := 0, doubles := 0 } } fs) ∧
      (∀ cal : Calibration, a.cycle.state = .calibrate → a.cycle.cal = some cal →
        (cal.recorded = true → s.completes c b reply) ∧
        (cal.recorded = false →
          let e := abortFrames (abortExposure b)
          s.leads c (calEnd false (match cause with
              | .stop => .stop
              | .haltIn => .haltIn
              | .supplyLow => .supplyLow) none
            ⟨calCamera (b.cam .left) 0 0, calCamera (b.cam .right) 0 0⟩ (some cause)) e reply))
    (a.asked h 0#8 → stops (.stop m h) .stop a [doneReply (h.ticket 0x0D#8) false []]) ∧
    stops (.haltInActive m) .haltIn { a with lines := { a.lines with haltIn := true } } []

/-- What an abort leaves. The lighting unit (R94): an exposure running is cut, each lit channel put out with its
on-time up to now, never above the planned one (R93, notes/assumptions/7.md); the dose of every channel lit in it
over its on-time is charged (R17, R143; a calibration's to calibration_dose, R99); an ENDING one is charged no
more; the channels are cleared and the record is NONE; a held retake is dropped. The whole abort (R49, R77, R117,
R151): that; each camera's slot in flight FREE and its intake DRAINING if it awaited or received the frame, with
the trigger lowered and the frame timer started, so that no slot is ARMED or FILLING where each camera had at most
one; the FRAME append withdrawn, with no log entry, the others in their order, and LOG_LOW re-armed if that frees
room above a quarter; no review, no camera timeout; a turn in flight FAULTED with its outputs at rest and reported,
a turner already FAULTED answering with its report (R77). Where the withdrawn append headed the list the reads held
for it are released into the forwarded stream: that is the model's reading (notes/assumptions/13.md), R171
releasing a read at its write's issue. The records of the volumes, but for the charge, FILLED slots, gain tables,
counters and all the rest of the state but for paperwork are as before. -/
def Obligations.AbortLeavesNothingInFlight : Prop :=
  (∀ s : State,
    let x := s.light.exposure
    let planned (i : Nat) : Nat :=
      plannedOnTime s.light.rampRate s.light.warm x.plan.time (x.plan.levels.getD i 0)
    let lit (c : Channel) : Bool := c.state == .rampUp || c.state == .on || c.state == .rampDown
    let cut := s.light.channels.mapIdx fun i c => if lit c then { c with
        state := .off, level := 0, litAt := none
        onTime := match c.litAt with
          | some t => min (planned i) (ceilMs (s.now - t))
          | none => c.onTime } else c
    let charge := ((cut.zip x.plan.levels).map fun q =>
      if q.1.wasLit then dose q.2 q.1.k q.1.onTime else 0).sum
    let dark (c : Channel) : Channel := { c with
      target := 0, onTime := 0, litAt := none, wasLit := false, level := 0
      state := if c.state = .failed then .failed else .off }
    let ended (e : State) (chans : List Channel) : State := { e with light := { e.light with
      exposure := { x with phase := .none }, channels := chans } }
    abortExposure s =
      match x.phase with
      | .none => s
      | .admitted => ended s s.light.channels
      | .ending => ended s (s.light.channels.map dark)
      | .rampUp => ended (s.paid charge) (cut.map dark)
      | .warm => ended (s.paid charge) (cut.map dark)
      | .capture => ended (s.paid charge) (cut.map dark)
      | .rampDown => ended (s.paid charge) (cut.map dark)) ∧
  ∀ (cause : StopCause) (s : State),
    let t := (abortWork cause s).1
    let answer := (abortWork cause s).2
    let e := abortExposure s
    let flies (x : Slot) : Bool := x.state == .armed || x.state == .filling
    let turning : Prop := (s.turner.state = .turning ∨ s.turner.state = .hold) ∧
      s.turner.sub ≠ .completing
    let kept := s.log.appends.filter fun x => match x with
      | .frame _ => false
      | _ => true
    let freed : State := { e with log := { s.log with appends := kept } }
    let aborted (y : CamState) : CamState :=
      let r := y.intakeRec
      match y.slots.findIdx? flies with
      | none => y
      | some k => { y with
          slots := y.slots.set k ⟨.free, none⟩
          intakeRec := if r.state = .waitFirst ∨ r.state = .receiving then { r with
              state := .draining, armed := none, trigger := none
              timer := if r.trigger.isSome then some (s.now + ms s.intake.geo.frameTimeout) else r.timer }
            else { r with armed := none } }
    let released : List Nat := match s.log.appends with
      | .frame _ :: _ => (s.transit.wait.filter fun w => w.what == .append).map WaitItem.id
      | _ => []
    let reads := released.foldl (fun (q : List Hold × List Passed) id =>
      (q.1.filter fun h => h.waitsFor != id,
       ((q.1.filter fun h => h.waitsFor == id).map Hold.read).foldr insertReleased q.2))
      (s.transit.holds, s.transit.stream)
    (∀ cam, ((s.intake.cams.get cam).slots.countP flies ≤ 1) →
      ∀ x ∈ (t.intake.cams.get cam).slots, flies x = false) ∧
    (turning → t.turner = { s.turner with
        state := .faulted, sub := .none, stageTimer := .off, stageTime := none, holdTimer := none
        outputs := ⟨.off, false, 0, .off⟩, report := some ⟨.aborted cause, s.turner.stage, answer.held⟩ } ∧
      answer.aborted = true ∧ answer.stage = s.turner.stage ∧
      (answer.held = true ↔ s.turner.stage = some .lift ∨ s.turner.stage = some .sweep)) ∧
    (¬ turning → t.turner = s.turner ∧
      answer = if s.turner.state = .faulted then
          ⟨true, s.turner.report.bind TurnReport.stage, (s.turner.report.map TurnReport.held).getD false⟩
        else ⟨false, none, false⟩) ∧
    t.req.newest = s.req.newest ∧
    (let intake := { s.intake with cams := ⟨aborted s.intake.cams.left, aborted s.intake.cams.right⟩ }
     abortFrames s = { s with intake := intake } ∧
     t.bare = State.bare { e with
      cycle := { e.cycle with camTimer := none, review := none }
      intake := intake
      turner := t.turner
      transit := { s.transit with holds := reads.1, stream := reads.2 }
      log := { s.log with
        appends := kept
        lowMark := if kept ≠ s.log.appends ∧ s.cap / 4 < freed.freeRoom then .armed else s.log.lowMark }
    })

/-- SET_RULES (R132): refused with BAD_FIELD when the target is above 4095 or the tolerance above 2047,
then with STATE when the cycle is not IDLE; else the rules are replaced and the reply is DONE. -/
def Obligations.SetRulesReplacesTheRules : Prop :=
  ∀ (m : Moment) (h : Head) (target tolerance clip : BitVec 16) (s : State),
    let a := arrive m s
    let t := h.ticket 0x13#8
    let c : Instr := .setRules m h target tolerance clip
    a.asked h 0#8 →
    if 4095 < target.toNat ∨ 2047 < tolerance.toNat then s.completes c a [refusal t .badField]
    else if a.cycle.state ≠ .idle then s.completes c a [refusal t .state]
    else s.completes c
      { a with cycle := { a.cycle with rules := ⟨target.toNat, tolerance.toNat, clip.toNat⟩ } }
      [doneReply t false []]

/-- CLEAR_FAULT (R56, R97): in IDLE the fault record is emptied and every FAILED channel returns to OFF,
the rest of each channel unchanged, with DONE; in any other state it is refused with STATE. -/
def Obligations.ClearFaultRestoresLamps : Prop :=
  ∀ (m : Moment) (h : Head) (s : State),
    let a := arrive m s
    let t := h.ticket 0x0E#8
    let c : Instr := .clearFault m h
    a.asked h 0#8 →
    if a.cycle.state ≠ .idle then s.completes c a [refusal t .state]
    else s.completes c
      { a with
        cycle := { a.cycle with fault := none }
        light := { a.light with channels := a.light.channels.map fun x =>
          if x.state = .failed then { x with state := .off } else x } }
      [doneReply t false []]

/-! ## Requests of the frame intake and the log (spec/05, spec/07) -/

/-- RELEASE_SLOTS (R119): BAD_FIELD for a camera above 1 or a bit at or above S; else every named FILLED
slot becomes FREE, the reply names the released slots and the ignored ones, and a PREPARE showing WAIT_SLOT
looks again (R36). SET_CORRECTION (R122): a camera or setting above 1 refuses it with BAD_FIELD, CALIBRATE
with BUSY (the order of the two is the model's, notes/assumptions/40.md); else the setting is set and pending,
and the reply is DONE: frames already triggered are unchanged. -/
def Obligations.ReleaseAndCorrectionActOnOneCamera : Prop :=
  (∀ (m : Moment) (h : Head) (cam : Byte) (mask : BitVec 16) (s : State),
    let a := arrive m s
    let t := h.ticket 0x0F#8
    let c : Instr := .releaseSlots m h cam mask
    a.asked h 0#8 →
    (1 < cam.toNat ∨ 2 ^ a.intake.geo.slots ≤ mask.toNat → s.completes c a [refusal t .badField]) ∧
    (∀ w : Camera, cam.toNat = cameraCode w → mask.toNat < 2 ^ a.intake.geo.slots →
      let x := a.intake.cams.get w
      let e : State := { a with intake := { a.intake with cams := a.intake.cams.set w { x with
        slots := x.slots.mapIdx fun k y =>
          if mask.toNat.testBit k = true ∧ y.state = .filled then ⟨.free, none⟩ else y } } }
      ∃ freed : Nat,
        (∀ k, freed.testBit k =
          (mask.toNat.testBit k && (x.slots[k]?.map Slot.state == some .filled))) ∧
        if a.cycle.state = .prepare ∧ a.cycle.sub = .waitSlot then
          s.leads c prepareWaits e [doneReply t false [(12, u16 freed), (14, u16 (mask.toNat - freed))]]
        else s.completes c e [doneReply t false [(12, u16 freed), (14, u16 (mask.toNat - freed))]])) ∧
  ∀ (m : Moment) (h : Head) (cam setting : Byte) (s : State),
    let a := arrive m s
    let t := h.ticket 0x11#8
    let c : Instr := .setCorrection m h cam setting
    a.asked h 0#8 →
    (1 < cam.toNat ∨ 1 < setting.toNat → s.completes c a [refusal t .badField]) ∧
    (∀ w : Camera, cam.toNat = cameraCode w → setting.toNat ≤ 1 →
      if a.cycle.state = .calibrate then s.completes c a [refusal t .busy]
      else s.completes c
        { a with intake := { a.intake with cams := a.intake.cams.set w { a.intake.cams.get w with
            pendingCorrection := setting == 1#8, pendingCorrectionFlag := true } } }
        [doneReply t false []])

/-- LOAD_GAINS (R121): BAD_FIELD for a camera above 1 or lines that may not be read, BUSY while a load of the
camera or a calibration is in flight; else, where the own-traffic queue has room, its two lines are being read.
Each read's answer is kept with its values clamped to 512..4095; the second of them ends the load: BAD_FIELD if
either read was refused, with whatever data (what a refused answer of fewer bytes leaves as its half, which no
table takes, is notes/assumptions/32.md), else the 64 gains are the pending table, and DONE tells how many values
were clamped, with CLAMPED set if any was (notes/assumptions/42.md). -/
def Obligations.GainLoadReadsTwoLines : Prop :=
  (∀ (m : Moment) (h : Head) (cam : Byte) (lineAddress : BitVec 64) (s : State),
    let a := arrive m s
    let t := h.ticket 0x10#8
    let c : Instr := .loadGains m h cam lineAddress
    let at0 := lineAddress.toNat
    a.asked h 0#8 →
    (1 < cam.toNat ∨ 2 ^ 34 ≤ at0 ∨ a.transit.map.forbids at0 2 = true →
      s.completes c a [refusal t .badField]) ∧
    (∀ w : Camera, cam.toNat = cameraCode w → at0 < 2 ^ 34 → a.transit.map.forbids at0 2 = false →
      let x := a.intake.cams.get w
      if x.load.isSome ∨ a.cycle.cal.isSome then s.completes c a [refusal t .busy]
      else
        ∃ r, exec c s = .next r ∧ r.req.newest = s.req.newest ∧
          r.bare = State.bare { a with intake := { a.intake with
            cams := a.intake.cams.set w { x with load := some ⟨t, at0, none, none, false⟩ } } } ∧
          (a.transit.wait = [] → a.transit.queue.length ≤ 10 →
            ∃ i j, ⟨i, at0, none, .gainRead w false⟩ ∈ r.transit.queue ∧
              ⟨j, at0 + 64, none, .gainRead w true⟩ ∈ r.transit.queue))) ∧
  ∀ (m : Moment) (refused second : Bool) (data : List Byte) (w : Camera) (e : OwnEntry) (g : GainLoad)
    (rest : List Issued) (s : State),
    let a := arrive m s
    let c : Instr := .downstreamResponse m refused data
    let x := a.intake.cams.get w
    let raw := (List.range 32).map fun i => lineWord 16 data (2 * i) 2
    let vals := raw.map fun v => min 4095 (max 512 v.toNat)
    let half := (vals, raw.countP fun v => v.toNat < 512 || 4095 < v.toNat)
    let got : GainLoad := if second then { g with second := some half, refused := g.refused || refused }
      else { g with first := some half, refused := g.refused || refused }
    let became (y : CamState) : State := { a with
      transit := { a.transit with outstanding := rest }
      intake := { a.intake with cams := a.intake.cams.set w y } }
    a.transit.stale = 0 → a.transit.outstanding = .own e :: rest → e.content = none →
    e.origin = .gainRead w second → x.load = some g → (refused = true ∨ data.length = 64) →
    (∀ p q, got.first = some p → got.second = some q →
      s.completes c
        (became (if got.refused = true then { x with load := none }
          else { x with load := none, pendingTable := p.1 ++ q.1, pendingTableFlag := true }))
        [if got.refused = true then refusal g.ticket .badField
          else doneReply g.ticket (decide (0 < p.2 + q.2)) [(12, u8 (p.2 + q.2))]]) ∧
    (got.first = none ∨ got.second = none → s.completes c (became { x with load := some got }) [])

/-- CALIBRATE (R123, R124): its checks in order; else a calibration with the levels and exposure time
brought into range is in flight, and the cameras are looked at: both ready, it goes on; else it shows
WAIT_CAMERA with the camera-ready timeout running. Going on (R98, R124): a needed channel FAILED ends it with
REFUSED_LAMP, a cradle not at rest with NOT_AT_REST; else the calibration exposure is started, of both sides,
with its levels on the channels not mapped NONE, and the lowest FREE slot of each camera is ARMED with a frame
of no volume; an exposure of span 0 with warm time 0 fires its triggers at once (notes/assumptions/26.md). -/
def Obligations.CalibrateStarts : Prop :=
  (∀ (m : Moment) (h : Head) (p : CalibrateParams) (s : State),
    let a := arrive m s
    let t := h.ticket 0x12#8
    let c : Instr := .calibrate m h p
    let free (w : Camera) : Bool := (a.intake.cams.get w).slots.any fun x => x.state == .free
    let levels := sixLevels p.levels
    let cal : Calibration :=
      { ticket := t, target := p.target.toNat, levels := levels.map (min 1023)
        exposure := min 2000 (max 1 p.exposure.toNat)
        clamped := levels.any (fun v => 1023 < v) || p.exposure.toNat == 0 || 2000 < p.exposure.toNat
        exposureDone := false, charge := 0, recorded := false }
    a.asked h 0#8 →
    if p.target.toNat < 256 ∨ 4095 < p.target.toNat then s.completes c a [refusal t .badField]
    else if a.cycle.state ≠ .idle then s.completes c a [refusal t .state]
    else if a.vols.activeHandle.isSome then s.completes c a [refusal t .activeExists]
    else if a.lines.haltIn = true then s.completes c a [refusal t .haltActive]
    else if a.supplyShort = true then s.completes c a [refusal t .supplyLow]
    else if (a.intake.cams.get .left).load.isSome ∨ (a.intake.cams.get .right).load.isSome then
      s.completes c a [refusal t .busy]
    else if free .left = false ∨ free .right = false then s.completes c a [refusal t .slotsHeld]
    else if a.freeRoom < 5 then s.completes c a [refusal t .logFull]
    else if a.lines.camReady.left = true ∧ a.lines.camReady.right = true then
      s.leads c calGo { a with cycle := { a.cycle with
        state := .calibrate, sub := .none, cal := some cal } } []
    else s.completes c { a with cycle := { a.cycle with
        state := .calibrate, sub := .waitCamera, cal := some cal
        camTimer := some (a.now + ms a.intake.geo.camReadyTimeout) } } []) ∧
  ∀ (s : State) (cal : Calibration), s.cycle.cal = some cal →
    let ready : State := { s with cycle := { s.cycle with
      state := .calibrate, sub := .none, camTimer := none } }
    let levels := s.light.channels.mapIdx fun i x => if x.sideMap = .none then 0 else cal.levels.getD i 0
    let p := s.planOf levels cal.exposure
    let lampOut : Prop := ∃ i x, s.light.channels[i]? = some x ∧ x.state = .failed ∧ levels.getD i 0 ≠ 0
    let atRest : Prop := s.lines.platenDown = true ∧ s.lines.armParked = true ∧ s.turner.state = .rest
    let fresh : Frame :=
      { number := 0, handle := none, opening := 0, side := none, retake := 0, ending := .inFlight
        reason := .none, verdict := none, mean := 0, clip := 0, sum := 0, corrected := false }
    (lampOut → calGo s = calFail .refusedLamp ready) ∧
    (¬ lampOut → ¬ atRest → calGo s = calFail .notAtRest ready) ∧
    (¬ lampOut → atRest → ∃ slots : PerCam CamState,
      let started : State := { ready with
        light := { s.light with
          channels := s.light.channels.map fun c => { c with wasLit := false, onTime := 0, target := 0 }
          exposure := ⟨if p.span = 0 then .warm else .rampUp, .calibration, ⟨true, true⟩, p, none, false,
            s.now, false, false⟩ }
        intake := { s.intake with cams := slots } }
      calGo s = (if p.span = 0 ∧ s.light.warm = 0 then fireTriggers started else started) ∧
      ∀ (c : Camera) (j : Nat),
        (∀ x ∈ (s.intake.cams.get c).slots, x.state ≠ .armed ∧ x.state ≠ .filling) →
        ((s.intake.cams.get c).slots.findIdx? fun x => x.state == .free) = some j →
        slots.get c = { s.intake.cams.get c with
          slots := (s.intake.cams.get c).slots.set j ⟨.armed, some fresh⟩ })

/-- The calibration's end (R125, R137, R50). Nothing happens until its exposure has completed and both frames
have ended. Both COMPLETE: each camera's pending table is the 64 gains of its band sums, the outcome DONE.
Else FAILED with LOST where either frame was lost, with DAMAGED otherwise, and the camera concerned is the left
one if its frame ended so; no table changes. In every ending both slots in flight are FREE and one CALIBRATION
record is asked for, each camera's number and mean in it, and 0 bands after a failure; with its acceptance come
the reply, after a stop CYCLE_STOPPED, and IDLE. A stop aborts exposure and frames first, its record's camera
fields those of before (notes/assumptions/38.md); one whose record waits has ended (notes/assumptions/23.md).
Two more clauses rest on the model's choices: that CYCLE_STOPPED gives cursor 0 with no volume active, as in a
calibration (notes/assumptions/53.md), and that a WAIT_CAMERA still shown ends, with its timeout, after a STOP's
reply and before the record is asked for (notes/assumptions/59.md). -/
def Obligations.CalibrationEnds : Prop :=
  ∀ (s : State) (cal : Calibration), s.cycle.cal = some cal →
    let width := s.intake.geo.width / 64 * s.intake.geo.height
    let l := s.intake.cams.left
    let r := s.intake.cams.right
    let flies (x : Slot) : Bool := x.state == .armed || x.state == .filling
    let flying (y : CamState) (f : Frame) : Prop :=
      ∃ k, y.slots.findIdx? flies = some k ∧ (y.slots[k]?.bind Slot.frame) = some f
    let freed (y : CamState) : CamState := match y.slots.findIdx? flies with
      | some k => { y with slots := y.slots.set k ⟨.free, none⟩ }
      | none => y
    (cal.exposureDone = false ∨ cal.recorded = true ∨
        (∃ f, (flying l f ∨ flying r f) ∧ f.ending = .inFlight) → calCheck s = s) ∧
    (∀ f g : Frame, flying l f → flying r g → f.ending ≠ .inFlight → g.ending ≠ .inFlight →
      cal.exposureDone = true → cal.recorded = false →
      (f.ending = .complete → g.ending = .complete →
        let mean (sum : Nat) : Nat := sum / width
        let raw (sum : Nat) : Nat := (1024 * cal.target + mean sum / 2) / mean sum
        let gain (sum : Nat) : Nat := if mean sum < 64 then 4095 else min 4095 (max 512 (raw sum))
        let clamped (b : List Nat) : Nat :=
          b.countP fun sum => 64 ≤ mean sum && (raw sum < 512 || 4095 < raw sum)
        let dark (b : List Nat) : Nat := b.countP fun sum => mean sum < 64
        let filled (y : CamState) : CamState :=
          { y with pendingTable := y.intakeRec.bands.map gain, pendingTableFlag := true }
        let of (y : CamState) (x : Frame) : CalCamera :=
          ⟨x.number, x.mean, clamped y.intakeRec.bands, dark y.intakeRec.bands⟩
        calCheck s = calEnd true .none none ⟨of l f, of r g⟩ none
          { s with intake := { s.intake with cams := ⟨filled l, filled r⟩ } }) ∧
      (¬ (f.ending = .complete ∧ g.ending = .complete) →
        let lost : Prop := f.ending = .lost ∨ g.ending = .lost
        let ended : FrameEnd := if lost then .lost else .damaged
        calCheck s = calEnd false (if lost then .lost else .damaged)
          (some (if f.ending = ended then .left else .right))
          ⟨⟨f.number, f.mean, 0, 0⟩, ⟨g.number, g.mean, 0, 0⟩⟩ none s)) ∧
    (∀ done cause concerned cams stopped,
      let b : CalBody := ⟨done, cause, concerned, cal.target, cal.levels, cal.exposure, cal.charge, cams,
        cal.ticket, cal.clamped, stopped⟩
      let q := requestAppend (.calibration b) { s with
        cycle := { s.cycle with
          state := .calibrate, sub := .none, camTimer := none, cal := some { cal with recorded := true } }
        intake := { s.intake with cams := ⟨freed l, freed r⟩ } }
      calEnd done cause concerned cams stopped s = if q.2 then calFinish b q.1 else q.1) ∧
    (∀ cause, calFail cause s =
      calEnd false cause none ⟨calCamera l 0 0, calCamera r 0 0⟩ none s) ∧
    (∀ cause reply, calStop cause reply s =
      if cal.recorded = true then reply s
      else calEnd false (match cause with
          | .stop => .stop
          | .haltIn => .haltIn
          | .supplyLow => .supplyLow) none
        ⟨calCamera l 0 0, calCamera r 0 0⟩ (some cause) (reply (abortFrames (abortExposure s)))) ∧
    ∀ (b : CalBody) (u : State),
      (calFinish b u).cameTo u.req.newest
        { u with cycle := { u.cycle with state := .idle, sub := .none, cal := none, camTimer := none } }
        (replyFields b.ticket (if b.done then .done else .failed) 0 b.clamped false
            [(12, u8 b.cause.code), (13, u8 (orFF (b.concerned.map cameraCode))),
             (14, u8 b.cams.left.clamped), (15, u8 b.cams.left.dark), (16, u8 b.cams.right.clamped),
             (17, u8 b.cams.right.dark)] ::
          match b.stopped with
          | some cause => [noticeFields .cycleStopped
              [(12, u8 cause.code), (13, u8 (orFF u.vols.activeHandle)), (14, u16 u.vols.cursor),
               (16, u8 CycleState.calibrate.code)]]
          | none => [])

/-- LOG_TAKEN (R154, R152): taken rises to the number, never above appended (CLAMPED) and never down; the
reply carries taken and the free room; a rise lets a PREPARE or TURN showing WAIT_LOG look again, and then
re-arms the LOG_LOW mark when free room is above a quarter (R155; the order: notes/assumptions/49.md). -/
def Obligations.LogTakenFreesRoom : Prop :=
  ∀ (m : Moment) (h : Head) (n : BitVec 32) (s : State),
    let a := arrive m s
    let t := h.ticket 0x16#8
    let c : Instr := .logTaken m h n
    let taken := max a.log.taken (min n.toNat a.log.appended)
    let e : State := { a with log := { a.log with taken := taken } }
    let done := doneReply t (decide (a.log.appended < n.toNat)) [(12, u32 taken), (16, u32 e.freeRoom)]
    let rearmed (x : State) : State := if x.cap / 4 < x.freeRoom then
      { x with log := { x.log with lowMark := .armed } } else x
    a.asked h 0#8 →
    if a.log.taken < taken then
      (a.cycle.sub ≠ .waitLog → s.completes c (rearmed e) [done]) ∧
      (a.cycle.sub = .waitLog → a.cycle.state = .prepare →
        s.leads c (fun x => rearmed (prepareWaits x)) e [done]) ∧
      (a.cycle.sub = .waitLog → a.cycle.state = .turn →
        s.leads c (fun x => rearmed (startTurn x)) e [done])
    else s.completes c e [done]

/-- VERIFY_LOG (R156 to R158): BAD_FIELD, BUSY, NO_VOLUME in this order; a record with no log records answers zeros
at once; else its range is walked: records no longer held are counted, and each of the others is read, where the
queue has room at once. A read's answer counts the record as checked, of another volume, or bad, a refused one with
or without data among the bad, and the walk comes to the next record still held, whose line is read, or ends with
its DONE (records whose lines were reused meanwhile count as not held; a waiting read of one:
notes/assumptions/48.md). -/
def Obligations.VerifyWalksTheRange : Prop :=
  (∀ (m : Moment) (h : Head) (s : State),
    let a := arrive m s
    let k := h.handle.toNat
    let t := h.ticket 0x17#8
    let c : Instr := .verifyLog m h
    let results (checked other bad notHeld firstBad : Nat) : Fields :=
      [(12, u32 checked), (16, u32 other), (20, u32 bad), (24, u32 notHeld), (28, u32 firstBad)]
    a.asked h 0#8 →
    if 31 < k then s.completes c a [refusal t .badField]
    else if a.log.verify.isSome then s.completes c a [refusal t .busy]
    else match a.vols.get k with
      | none => s.completes c a [refusal t .noVolume]
      | some v =>
        let first := v.firstRecord
        let last := v.lastRecord
        let held := max first (a.log.appended - a.cap + 1)
        if first = 0 then s.completes c a [doneReply t false (results 0 0 0 0 0)]
        else first ≤ last →
          if last < held then
            s.completes c a [doneReply t false (results 0 0 0 (last + 1 - first) 0)]
          else
            let w : Verify := ⟨t, k, last, held, 0, 0, 0, held - first, 0⟩
            ∃ r, exec c s = .next r ∧ r.req.newest = s.req.newest ∧
              r.bare = State.bare { a with log := { a.log with verify := some w } } ∧
              (a.transit.wait = [] → a.transit.queue.length ≤ 11 →
                ∃ i, ⟨i, a.transit.map.log.base + (held - 1) % a.cap * 64, none, .verifyRead⟩ ∈
                  r.transit.queue)) ∧
  (∀ (s : State) (v : Verify), s.log.verify = some v →
    let held := max v.next (s.log.appended - s.cap + 1)
    let t := verifyAdvance none s
    (v.last < held → t.cameTo s.req.newest { s with log := { s.log with verify := none } }
      [doneReply v.ticket false [(12, u32 v.checked), (16, u32 v.other), (20, u32 v.bad),
        (24, u32 (v.notHeld + (v.last + 1 - v.next))), (28, u32 v.firstBad)]]) ∧
    (held ≤ v.last →
      t.cameTo s.req.newest { s with log := { s.log with
        verify := some { v with next := held, notHeld := v.notHeld + (held - v.next) } } } [] ∧
      (s.transit.wait = [] → s.transit.queue.length ≤ 11 →
        ∃ i, ⟨i, s.transit.map.log.base + (held - 1) % s.cap * 64, none, .verifyRead⟩ ∈
          t.transit.queue))) ∧
  ∀ (m : Moment) (refused : Bool) (data : List Byte) (e : OwnEntry) (v : Verify) (rest : List Issued)
    (s : State),
    let a := arrive m s
    let good : Prop := refused = false ∧ goodRecord data = true ∧
      (lineWord 32 data 4 4).toNat = v.next
    a.transit.stale = 0 → a.transit.outstanding = .own e :: rest → e.content = none →
    e.origin = .verifyRead → a.log.verify = some v → (refused = true ∨ data.length = 64) →
    let on (w : Verify) : Prop := s.leads (.downstreamResponse m refused data) (verifyAdvance none)
      { a with
        transit := { a.transit with outstanding := rest }
        log := { a.log with verify := some { w with next := v.next + 1 } } } []
    (¬ good → on { v with bad := v.bad + 1, firstBad := if v.firstBad = 0 then v.next else v.firstBad }) ∧
    (good → (lineByte data 1).toNat ≠ v.handle → on { v with other := v.other + 1 }) ∧
    (good → (lineByte data 1).toNat = v.handle → on { v with checked := v.checked + 1 })

/-- An append is requested (R150, R152, R155): the status lines are made current and it joins the list; LOG_LOW is
written once when the request leaves no more than an eighth of the log. Behind others it stays listed, and where
the record numbers are used up too (notes/assumptions/13.md). Alone, and where its write finds a place, it is
accepted at once with the next number, its line on its way to its place in the LOG window and the record's first
and last numbers noted; the last number of all, 4,294,967,295, leaves free room 0, so the test made at its
acceptance (R150) writes LOG_LOW where the mark is still ARMED (notes/assumptions/50.md). Alone without a place
(R168: 16 entries queued, or an item waiting) it is the waiting head: nothing is numbered, and its item goes to the
end of the wait list, behind the status lines of what came before it (notes/assumptions/14.md). A FAULT or hand
TURN record without free room only counts as unlogged (R153). -/
def Obligations.AppendIsAcceptedOrListed : Prop :=
  ∀ (x : Append) (s : State),
    let q := requestAppend x s
    let n := s.log.appended + 1
    let listed : State := { s with log := { s.log with appends := s.log.appends ++ [x] } }
    let low : Bool := s.log.lowMark == .armed && listed.freeRoom ≤ s.cap / 8
    let mark := if low then LowMark.spent else s.log.lowMark
    let logLow := noticeFields .logLow [(12, u32 s.log.appended), (16, u32 s.log.taken),
        (20, u32 listed.freeRoom)]
    let notices := if low then [logLow] else []
    let after : State := { listed with log := { listed.log with lowMark := mark } }
    let asked : State := { sync s with log := after.log }
    let w := if low then writeEntry logLow .entry asked else asked
    let place : Prop := w.transit.wait = [] ∧ w.transit.queue.length < 16
    w.cameTo s.req.newest after notices ∧
    (s.transit.wait = [] → s.transit.queue.length ≤ 10 → place) ∧
    (s.transit.wait ≠ [] ∨ 16 ≤ s.transit.queue.length → ¬ place) ∧
    (s.log.appends ≠ [] ∨ s.log.appended = max32 → q = (w, false)) ∧
    (s.log.appends = [] → s.log.appended < max32 → ¬ place →
      let v := sync w
      q = ({ v with transit := { v.transit with
        wait := v.transit.wait ++ [⟨v.transit.nextId, .append⟩], nextId := v.transit.nextId + 1 } }, false) ∧
      q.1.cameTo s.req.newest after notices) ∧
    (s.log.appends = [] → place → n ≤ max32 → s.log.taken ≤ s.log.appended ∨ n = max32 →
      let last : Bool := n == max32 && mark == .armed
      let logged : State := { s with log := { s.log with
        appended := n, lowMark := if last then .spent else mark } }
      q.2 = true ∧
      q.1.cameTo s.req.newest
        (match x.handle with
          | none => logged
          | some k => match s.vols.get k with
            | none => logged
            | some v => logged.withVolume k (some { v with
                firstRecord := if v.firstRecord = 0 then n else v.firstRecord, lastRecord := n }))
        (notices ++ if last then
          [noticeFields .logLow [(12, u32 n), (16, u32 s.log.taken), (20, u32 0)]] else []) ∧
      ∃ id, ⟨id, s.transit.map.log.base + s.log.appended % s.cap * 64,
        some (recordLine x n s.sinceReady), .record⟩ ∈ q.1.transit.queue) ∧
    appendOrCount x s =
      (if s.freeRoom = 0 then
        { sync s with log := { s.log with unloggedFaults := satSucc s.log.unloggedFaults } }
      else q.1)

/-- The block that asked for an append hears of its acceptance (R42, R68, R125, R150): of a FRAME record the
review that waits settles the frame and records the next; of a TURN record, but one of a turn completed by
hand, the turn is counted, the turner returns to REST with its counts cleared, a cycle in TURN goes on (R46)
and a held turn request is taken (R59); of a VOLUME record its DONE is written; of a FAULT record nothing
more; of a CALIBRATION record, in CALIBRATE, the calibration ends (CalibrationEnds). A turn counted never
raises the cursor past L (R4, R18; notes/assumptions/36.md). A cycle that hears TURN_DONE completes a STEP's
run, pauses, or begins the next opening, the cursor above the run's stop too (notes/assumptions/46.md). -/
def Obligations.AcceptedAppendIsHeard : Prop :=
  ∀ s : State,
    (∀ (b : FrameBody) (j : Judged) (rest : List Judged) (next : AfterReview),
      s.cycle.review = some ⟨j :: rest, next⟩ →
      afterAccepted (.frame b) s =
        recordAll next rest (frameRecorded j b { s with cycle := { s.cycle with review := none } })) ∧
    (∀ b : FrameBody, s.cycle.review = none → afterAccepted (.frame b) s = s) ∧
    (∀ b : TurnBody, afterAccepted (.turn b) s = if b.byHand = true then s else turnDone s) ∧
    (∀ b : VolumeBody, (afterAccepted (.volume b) s).cameTo s.req.newest s
      [doneReply b.ticket b.clamped []]) ∧
    (∀ f : FaultRecord, afterAccepted (.fault f) s = s) ∧
    (∀ b : CalBody, afterAccepted (.calibration b) s =
      if s.cycle.state = .calibrate then calFinish b s else s) ∧
    (∀ w, s.vols.get s.turner.handle = some w →
      let e : State := { s.withVolume s.turner.handle (some { w with
          cursor := min (w.cursor + 1) w.leaves, openingDose := 0, turnsDone := satSucc w.turnsDone }) with
        turner := { s.turner with
          state := .rest, stage := none, sub := .none, retry := 0, doubles := 0, stageTimer := .off
          stageTime := none, holdTimer := none, outputs := ⟨.off, false, 0, .off⟩ } }
      let t := if s.cycle.state = .turn then afterTurn e else e
      turnDone s = if t.turner.pendingTurn = true ∧ t.turner.state = .rest then
          takeTurn { t with turner := { t.turner with pendingTurn := false } } else t) ∧
    ∀ r : RunRecord, s.cycle.run = some r →
      (r.kind = .step → (afterTurn s).cameTo s.req.newest
        { s with cycle := { s.cycle.over with camTimer := none } } [s.completeNotice .step r.stop]) ∧
      (r.kind ≠ .step → r.pausePending = true →
        (afterTurn s).cameTo s.req.newest (pausedState .beginOpening s)
          [noticeFields .cyclePaused [(12, u8 (orFF s.vols.activeHandle)), (14, u16 s.vols.cursor),
            (16, u16 r.stop), (18, u8 ResumePoint.beginOpening.code)]]) ∧
      (r.kind ≠ .step → r.pausePending = false → afterTurn s = beginOpening s)

/-! ## The opening cycle (spec/02) -/

/-- An opening begins (R32, R34): STOP_OPENING_REACHED at the stop opening, once; a fresh opening record
with each side PASSED where the run skips covered sides and it is TAKEN, else WANTED; with a side WANTED
the cycle enters PREPARE, with none the opening is finished. Finishing (R44) discards the record and
completes the run at its stop, pauses it where a pause is pending, or starts a turn. -/
def Obligations.OpeningBeginsAndIsFinished : Prop :=
  ∀ (s : State) (r : RunRecord), s.cycle.run = some r →
    (∀ k v, s.vols.active = some (k, v) →
      let reached : Bool := v.cursor == r.stop && !r.stopReached
      let side (number : Nat) : SideRecord :=
        ⟨if r.skipCovered = true ∧ v.coverage.getD number .absent = .taken then .passed else .wanted, none⟩
      let left := side (2 * v.cursor)
      let right := side (2 * v.cursor + 1)
      let o : OpeningRecord :=
        { number := v.cursor, sides := ⟨left, right⟩, retakes := 0
          prepared := ⟨⟨left.status == .wanted, right.status == .wanted⟩, none⟩
          lampFault := false, exposed := false, charge := 0 }
      ∃ s1, s1.cameTo s.req.newest
          { s with cycle := { s.cycle with
            opening := some o
            run := some { r with stopReached := r.stopReached || v.cursor == r.stop } } }
          (if reached then [noticeFields .stopOpeningReached
            [(12, u8 (orFF s.vols.activeHandle)), (14, u16 r.stop), (16, u16 v.cursor)]] else []) ∧
        beginOpening s =
          if left.status = .passed ∧ right.status = .passed then finishOpening s1 else enterPrepare s1) ∧
    (let e : State := { s with cycle := { s.cycle with opening := none } }
     (s.vols.cursor = r.stop →
      (finish s).cameTo s.req.newest { s with cycle := { s.cycle.over with camTimer := none } }
        [s.completeNotice r.kind r.stop]) ∧
     (s.vols.cursor ≠ r.stop → r.pausePending = true →
      (finish s).cameTo s.req.newest (pausedState .turn e)
        [noticeFields .cyclePaused [(12, u8 (orFF s.vols.activeHandle)), (14, u16 s.vols.cursor),
          (16, u16 r.stop), (18, u8 ResumePoint.turn.code)]]) ∧
     (s.vols.cursor ≠ r.stop → r.pausePending = false → finish s = startTurn e))

/-- A turn is started (R45): with fewer than 5 records of free room the cycle is in TURN showing WAIT_LOG;
else it is in TURN and the turner is asked, which takes the turn at REST and holds the request while it is
COMPLETING (R59). At opening L no turn is started and the run completes: the model's reading
(notes/assumptions/36.md). -/
def Obligations.TurnIsStarted : Prop :=
  ∀ (s : State) (r : RunRecord) (k : Nat) (v : Volume),
    s.cycle.run = some r → s.vols.active = some (k, v) →
    let turning (sub : SubCondition) : State :=
      { s with cycle := { s.cycle with state := .turn, sub := sub } }
    let asked := turning .none
    (v.leaves ≤ v.cursor → (startTurn s).cameTo s.req.newest
      { s with cycle := { s.cycle.over with camTimer := none } } [s.completeNotice r.kind r.stop]) ∧
    (v.cursor < v.leaves →
      (s.freeRoom < 5 → startTurn s = turning .waitLog) ∧
      (5 ≤ s.freeRoom →
        (s.turner.state = .rest → startTurn s = takeTurn asked) ∧
        (s.turner.state ≠ .rest → s.turner.sub = .completing →
          startTurn s = { asked with turner := { s.turner with pendingTurn := true } })))

/-- PREPARE (R35 to R37, R84, R88, R89, R90, R105): the rest check, the waits for slots, log room and cameras
in this order, those again wherever a wait is looked at again (prepareWaits); then for a FIRST exposure the
lamp test and the dose test on the predicted dose, for a retake no second admission; then the exposure is
started: the exposure's clock running on the plan (the admitted one of a retake), the lowest FREE slot of each of
its cameras ARMED with a fresh frame record, then the cycle in EXPOSE (the slots' status line brought up to date
before it, R181, notes/assumptions/14.md), nothing else changed; with span 0 and warm time 0 its triggers fire at
once (notes/assumptions/26.md). The sides affected of a refusal at admission
are the whole side set (notes/assumptions/37.md). -/
def Obligations.PrepareChecksAndExposes : Prop :=
  ∀ (s : State) (o : OpeningRecord), s.cycle.opening = some o →
    let sides := o.prepared.sides
    let cams : List Camera := (if sides.left then [.left] else []) ++ (if sides.right then [.right] else [])
    let prepare (sub : SubCondition) : State :=
      { s with cycle := { s.cycle with state := .prepare, sub := sub } }
    let ready : State := { s with cycle := { s.cycle with camTimer := none } }
    (¬ (s.lines.platenDown = true ∧ s.lines.armParked = true ∧ s.turner.state = .rest) →
      enterPrepare s = haltCapture .notAtRest sides (prepare .none)) ∧
    (s.lines.platenDown = true → s.lines.armParked = true → s.turner.state = .rest →
      enterPrepare s = prepareWaits (prepare .none)) ∧
    (prepareWaits s =
        if (cams.all fun c => (s.intake.cams.get c).slots.any fun x => x.state == .free) = false then
          prepare .waitSlot
        else if s.freeRoom < 4 + cams.length then prepare .waitLog
        else if (cams.all fun c => s.lines.camReady.get c) = false then
          { s with cycle := { s.cycle with
            state := .prepare, sub := .waitCamera
            camTimer := some (s.now + ms s.intake.geo.camReadyTimeout) } }
        else goOn (prepare .none)) ∧
    ∀ (k : Nat) (v : Volume) (e : ClassEntry), s.vols.active = some (k, v) → s.activeClass = some e →
      (¬ (s.lines.platenDown = true ∧ s.lines.armParked = true) →
        goOn s = haltCapture .notAtRest sides ready) ∧
      (s.lines.platenDown = true → s.lines.armParked = true → s.turner.state = .rest →
      let begun (kind : ExposureKind) (p : Plan) : Prop := ∃ slots : PerCam CamState,
        let armed : State := { ready with
          light := { s.light with
            channels := s.light.channels.map fun c =>
              { c with wasLit := false, onTime := 0, target := 0 }
            exposure := ⟨if p.span = 0 then .warm else .rampUp, kind, sides, p, some k, false, s.now,
              false, false⟩ }
          intake := { s.intake with cams := slots } }
        let started : State := { sync armed with cycle := { s.cycle with
          state := .expose, sub := .none, camTimer := none
          opening := some { o with exposed := true, lampFault := false } } }
        goOn s = (if p.span = 0 ∧ s.light.warm = 0 then fireTriggers started else started) ∧
        ∀ c : Camera,
          (c ∉ cams → slots.get c = s.intake.cams.get c) ∧
          ∀ j, c ∈ cams →
            let fresh : Frame :=
              { number := 0, handle := some k, opening := o.number
                side := some (2 * o.number + cameraCode c), retake := o.retakes, ending := .inFlight
                reason := .none, verdict := none, mean := 0, clip := 0, sum := 0, corrected := false }
            (∀ x ∈ (s.intake.cams.get c).slots, x.state ≠ .armed ∧ x.state ≠ .filling) →
            ((s.intake.cams.get c).slots.findIdx? fun x => x.state == .free) = some j →
            slots.get c = { s.intake.cams.get c with
              slots := (s.intake.cams.get c).slots.set j ⟨.armed, some fresh⟩ }
      (∀ p, o.prepared.retake = some p → begun .retake p) ∧
      (o.prepared.retake = none → s.light.exposure.phase = .none →
        let levels := s.light.channels.mapIdx fun i x =>
          if x.sideMap = .both ∨ (x.sideMap = .left ∧ sides.left = true) ∨
              (x.sideMap = .right ∧ sides.right = true) then
            min e.ceiling (match v.baseLevels with
              | some l => l.getD i 0
              | none => e.baseLevel)
          else 0
        let p := s.planOf levels (v.exposureTime.getD e.exposure)
        let lampOut : Prop := ∃ i x, s.light.channels[i]? = some x ∧ x.state = .failed ∧
          levels.getD i 0 ≠ 0
        let dosed : Prop :=
          v.openingDose + p.predicted ≤ e.doseLimit ∧ v.doseUsed + p.predicted ≤ v.budget
        (lampOut → goOn s = haltCapture .lampFault sides ready) ∧
        (¬ lampOut → ¬ dosed → goOn s = haltCapture .doseLimit sides ready) ∧
        (¬ lampOut → dosed → begun .first p)))

/-- A halt (R52): the fault record is filled, its FAULT record asked for or, without free room, counted as
unlogged; then the cycle is HALTED with the run record kept, the opening record kept for a capture fault, no
timeout, no pause pending; and CYCLE_HALTED carries the fault record. A held retake is dropped (R89). A
capture fault has no stage, a turn fault no sides. The record's time is the microseconds since READY cut to
whole ms, 32 bits that wrap (R147; notes/assumptions/35.md). -/
def Obligations.HaltRecordsTheFault : Prop :=
  (∀ (kind : FaultKind) (sides : Sides) (s : State),
    haltCapture kind sides s = halt kind .capture none sides s) ∧
  (∀ (kind : FaultKind) (stage : Option Stage) (s : State),
    haltTurn kind stage s = halt kind .turn stage ⟨false, false⟩ s) ∧
  ∀ (kind : FaultKind) (cls : FaultClass) (stage : Option Stage) (sides : Sides) (s : State),
    let f : FaultRecord := ⟨kind, cls, orFF s.vols.activeHandle, stage, sides, s.vols.cursor,
      ((s.now - s.start.readyAt) / 1000) % 2 ^ 32⟩
    let x := s.light.exposure
    let noted : State := { s with
      cycle := { s.cycle with fault := some f }
      light := { s.light with
        exposure := if x.phase = .admitted then { x with phase := .none } else x } }
    let halted (c : Cycle) : Cycle := { c with
      state := .halted, sub := .none, camTimer := none, review := none
      run := c.run.map fun r => { r with pausePending := false, resume := none }
      opening := if cls = .turn then none else c.opening }
    let told := noticeFields .cycleHalted
      [(12, u8 kind.code), (13, u8 cls.code), (14, u8 f.handle), (15, u8 (Stage.code stage)),
       (16, u8 sides.code), (18, u16 f.opening), (20, u32 f.time)]
    (s.freeRoom = 0 →
      (halt kind cls stage sides s).cameTo s.req.newest
        { noted with
          cycle := halted noted.cycle
          log := { s.log with unloggedFaults := satSucc s.log.unloggedFaults } } [told]) ∧
    (s.freeRoom ≠ 0 → ∀ s1, s1 = (requestAppend (.fault f) noted).1 →
      s1.cycle = noted.cycle ∧
      halt kind cls stage sides s = writeEntry told .entry { s1 with cycle := halted s1.cycle })

/-- The verdict of the exposure rules on a COMPLETE frame (R133), by the tests in their order, the sums
signed and exact. -/
def Obligations.RulesJudgeAFrame : Prop :=
  ∀ (r : Rules) (g : Geometry) (f : Frame), f.ending = .complete →
    let N : Int := g.width * g.height
    judgeFrame r g false f =
      if (f.clip : Int) * 65536 > (r.clip : Int) * N then (.rejected, .clipped)
      else if (f.mean : Int) < (r.target : Int) - (r.tolerance : Int) then (.rejected, .low)
      else if (f.mean : Int) > (r.target : Int) + (r.tolerance : Int) then (.rejected, .high)
      else (.accepted, .none)

/-- The review (R39 to R41, R85, R88, R89, R118, R133 to R136). A frame's end is reported to the calibration
in CALIBRATE, else to the review, which waits until every frame of the exposure has ended and then judges each
side, left first. A lamp fault halts, then a lost frame; with nothing pending the opening is finished; else,
while retakes are left, a retake of the pending sides is planned with its trims and, where the lamp and dose
tests pass, admitted and held by the lighting unit; without one the REJECTED frames are MARGINAL, and a DAMAGED
side halts, then a MARGINAL one in a class that halts on them. What is recorded of each frame, and what
follows the records, is ReviewRecordsAndEnds. -/
def Obligations.ReviewJudgesAndDecides : Prop :=
  (∀ s : State, frameReported s = if s.cycle.state = .calibrate then calCheck s else reviewCheck s) ∧
  ∀ (s : State) (o : OpeningRecord), s.cycle.opening = some o →
    let sides := o.prepared.sides
    let flying (c : Camera) (k : Nat) (f : Frame) : Prop :=
      ((s.intake.cams.get c).slots.findIdx? fun x => x.state == .armed || x.state == .filling) = some k ∧
        ((s.intake.cams.get c).slots[k]?.bind Slot.frame) = some f
    (s.cycle.state ≠ .review ∨ s.cycle.review.isSome = true ∨
        (∃ c k f, sides.has c = true ∧ flying c k f ∧ f.ending = .inFlight) → reviewCheck s = s) ∧
    ∀ (k : Nat) (v : Volume) (e : ClassEntry) (slot : Camera → Nat) (frame : Camera → Frame),
      s.vols.active = some (k, v) → s.activeClass = some e →
      s.cycle.state = .review → s.cycle.review = none →
      (∀ c, sides.has c = true → flying c (slot c) (frame c) ∧
        ((frame c).ending = .complete ∨ (frame c).ending = .damaged ∨ (frame c).ending = .lost)) →
      let cams : List Camera := (if sides.left then [.left] else []) ++ (if sides.right then [.right] else [])
      let judged (c : Camera) : Verdict × FrameReason :=
        if (frame c).ending = .lost then (.lost, .timeout)
        else if o.lampFault = true then (.damaged, .lamp)
        else if (frame c).ending = .damaged then (.damaged, (frame c).reason)
        else judgeFrame s.cycle.rules s.intake.geo false (frame c)
      let kept (status : Verdict → SideStatus) (as : Verdict → Verdict) : List Judged :=
        cams.map fun c => ⟨c, slot c, as (judged c).1, (judged c).2, status (judged c).1⟩
      let asJudged := kept (fun x => if x = .accepted then .settled else .pending) id
      let those (p : Verdict → Bool) : Sides :=
        ⟨sides.left && p (judged .left).1, sides.right && p (judged .right).1⟩
      let lost := those fun x => x == .lost
      let pending := those fun x => x != .accepted
      let damaged := those fun x => x == .damaged
      let marginal := those fun x => x == .rejected
      let none' (x : Sides) : Prop := x.left = false ∧ x.right = false
      let trim (c : Camera) : Option Nat :=
        if pending.has c = true ∧ (judged c).1 = .rejected then
          some (if (judged c).2 = .clipped then 896 else min 4096 (max 256
            ((1024 * s.cycle.rules.target + (frame c).mean / 2) / max (frame c).mean 1)))
        else none
      let levels := s.light.channels.mapIdx fun i x =>
        let before := s.light.exposure.plan.levels.getD i 0
        let trimmed (f : Nat) : Nat :=
          if before = 0 then 0 else min e.ceiling (max 1 ((before * f + 512) / 1024))
        match x.sideMap with
        | .none => 0
        | .left => if pending.left = true then ((trim .left).map trimmed).getD (min e.ceiling before) else 0
        | .right => if pending.right = true then ((trim .right).map trimmed).getD (min e.ceiling before) else 0
        | .both => match trim .left, trim .right with
          | some f, some g => trimmed (min f g)
          | some f, none => trimmed f
          | none, some g => trimmed g
          | none, none => min e.ceiling before
      let p := s.planOf levels (v.exposureTime.getD e.exposure)
      let granted : Prop := o.retakes < e.maxRetakes ∧ s.light.exposure.phase = .none ∧
        (∀ i x, s.light.channels[i]? = some x → x.state = .failed → levels.getD i 0 = 0) ∧
        v.openingDose + p.predicted ≤ e.doseLimit ∧ v.doseUsed + p.predicted ≤ v.budget
      (o.lampFault = true →
        reviewCheck s = recordAll (.halt .lampFault sides) (kept (fun _ => .pending) id) s) ∧
      (o.lampFault = false →
        (¬ none' lost → reviewCheck s = recordAll (.halt .cameraTimeout lost) asJudged s) ∧
        (none' lost → none' pending → reviewCheck s = recordAll .finish asJudged s) ∧
        (none' lost → ¬ none' pending → granted →
          reviewCheck s = recordAll (.retake pending p) asJudged { s with light := { s.light with
            exposure := ⟨.admitted, .retake, pending, p, some k, false, 0, false, false⟩ } }) ∧
        (none' lost → ¬ none' pending → ¬ granted →
          reviewCheck s = recordAll
            (if none' damaged then
              (if ¬ none' marginal ∧ e.haltMarginal = true then .halt .marginalHalt marginal else .finish)
            else .halt .captureFault damaged)
            (kept (fun x => if x = .damaged then .pending else .settled)
              (fun x => if x = .rejected then .marginal else x)) s))

/-- The records of a review and its end (R18 to R20, R40 to R44, R118). The frames are recorded one by one,
left first: for each but a LOST one a FRAME record is asked for, with the REPEAT flag read before; where its
acceptance waits the cycle waits with it in REVIEW. Once accepted, the verdict is applied to the side's
coverage and the counters, the slot is FILLED for ACCEPTED or MARGINAL and FREE for any other, and the side
holds its last result; a LOST frame's slot is FREE and its side set without a record. After the last one the
status lines are brought up to date (R104, R181; notes/assumptions/14.md), then the opening is finished, the
retake counted and prepared with its admitted plan, or, after OPENING_CAPTURED, the cycle halts. -/
def Obligations.ReviewRecordsAndEnds : Prop :=
  ∀ (s : State) (o : OpeningRecord) (k : Nat) (v : Volume),
    s.cycle.opening = some o → s.vols.active = some (k, v) →
    let captured := noticeFields .openingCaptured
      ([(12, u8 (orFF s.vols.activeHandle)), (14, u16 o.number)] ++ sideFields 16 o.sides.left ++
        sideFields 20 o.sides.right)
    let settled (j : Judged) (x : Slot) (last : Option Nat) (u : State) : State := { u with
      cycle := { u.cycle with opening := u.cycle.opening.map fun q =>
        { q with sides := q.sides.set j.cam ⟨j.status, some ⟨j.verdict, j.reason, last⟩⟩ } }
      intake := { u.intake with cams := u.intake.cams.set j.cam { u.intake.cams.get j.cam with
        slots := (u.intake.cams.get j.cam).slots.set j.slot x } } }
    (let e : State := sync { s with cycle := { s.cycle with review := none } }
     recordAll .finish [] s = finishOpening e ∧
     (o.exposed = false → finishOpening e = finish e) ∧
     (o.exposed = true → ∃ s1, s1.cameTo s.req.newest e [captured] ∧ finishOpening e = finish s1) ∧
     (∀ kind sides, ∃ s1, s1.cameTo s.req.newest e [captured] ∧
      recordAll (.halt kind sides) [] s = haltCapture kind sides s1) ∧
     ∀ sides p, recordAll (.retake sides p) [] s = enterPrepare
      { e.withVolume k (some { v with retakes := satSucc v.retakes }) with
        cycle := { s.cycle with
          review := none
          opening := some { o with retakes := o.retakes + 1, prepared := ⟨sides, some p⟩ } } }) ∧
    ∀ (j : Judged) (rest : List Judged) (next : AfterReview),
      (j.verdict = .lost → recordAll next (j :: rest) s =
        recordAll next rest (settled j ⟨.free, none⟩ none s)) ∧
      (∀ f : Frame, j.verdict ≠ .lost →
        ((s.intake.cams.get j.cam).slots[j.slot]?.bind Slot.frame) = some f →
        let side := 2 * o.number + cameraCode j.cam
        let before := v.coverage.getD side .absent
        let b : FrameBody :=
          { handle := k, opening := o.number, side := side, cam := j.cam, slot := j.slot
            number := f.number, verdict := j.verdict, reason := j.reason, mean := f.mean, clip := f.clip
            retake := f.retake, corrected := f.corrected, charge := o.charge
            repeated := (j.verdict == .accepted && before == .taken) ||
              (j.verdict == .marginal && before != .absent) }
        let q := requestAppend (.frame b) s
        recordAll next (j :: rest) s =
          if q.2 then recordAll next rest (frameRecorded j b q.1)
          else { q.1 with cycle := { q.1.cycle with review := some ⟨j :: rest, next⟩ } }) ∧
      ∀ (b : FrameBody) (w : Volume) (f : Frame), s.vols.get b.handle = some w →
        ((s.intake.cams.get j.cam).slots[j.slot]?.bind Slot.frame) = some f →
        let before := w.coverage.getD b.side .absent
        let after : Coverage := if b.verdict = .accepted then .taken
          else if b.verdict = .marginal ∧ before = .absent then .marginal else before
        let counted (x : Nat) (p : Bool) : Nat := if p then satSucc x else x
        let kept : Prop := j.verdict = .accepted ∨ j.verdict = .marginal
        frameRecorded j b s = settled j
          (if kept then ⟨.filled, some { f with verdict := some (j.verdict, j.reason) }⟩ else ⟨.free, none⟩)
          (if kept then some j.slot else none)
          (s.withVolume b.handle (some { w with
            coverage := w.coverage.set b.side after
            sidesCovered := if before = .absent ∧ after ≠ .absent ∧ b.side < w.coverage.length then
              w.sidesCovered + 1 else w.sidesCovered
            framesAccepted := counted w.framesAccepted (b.verdict == .accepted)
            framesMarginal := counted w.framesMarginal (b.verdict == .marginal)
            framesRejected := counted w.framesRejected (b.verdict == .rejected)
            framesDamaged := counted w.framesDamaged (b.verdict == .damaged)
            repeatFrames := counted w.repeatFrames b.repeated }))

/-! ## Cameras, lamps and the exposure schedule (spec/04, spec/05) -/

/-- CAM_READY becoming active and the camera-ready timeout (R37, R124): a wait for cameras goes on once
every camera it waits for is ready; its timeout halts with CAMERA_NOT_READY and the sides not ready, or
ends the calibration; not due or not waiting, nothing but the line changes (notes/assumptions/4.md). -/
def Obligations.CamerasEndTheirWait : Prop :=
  ∀ (m : Moment) (s : State),
    let a := arrive m s
    let sides := match a.cycle.opening with
      | some o => o.prepared.sides
      | none => ⟨false, false⟩
    (∀ cam : Camera,
      let c : Instr := .camReadyActive m cam
      let e : State := { a with lines := { a.lines with camReady := a.lines.camReady.set cam true } }
      let l := e.lines.camReady.left
      let r := e.lines.camReady.right
      (a.cycle.sub = .waitCamera → a.cycle.state = .prepare →
        if (sides.left = true → l = true) ∧ (sides.right = true → r = true) then
          s.leads c goOn { e with cycle := { a.cycle with sub := .none } } []
        else s.completes c e []) ∧
      (a.cycle.sub = .waitCamera → a.cycle.state = .calibrate →
        if l = true ∧ r = true then s.leads c calGo e [] else s.completes c e []) ∧
      (a.cycle.sub ≠ .waitCamera ∨ (a.cycle.state ≠ .prepare ∧ a.cycle.state ≠ .calibrate) →
        s.completes c e [])) ∧
    (let c : Instr := .cameraReadyTimeout m
     ((∀ x, a.cycle.camTimer = some x → a.now < x) → s.completes c a []) ∧
     ∀ x, a.cycle.camTimer = some x → x ≤ a.now →
      (a.cycle.state = .prepare →
        s.leads c (haltCapture .cameraNotReady ⟨sides.left && !a.lines.camReady.left,
          sides.right && !a.lines.camReady.right⟩) a []) ∧
      (a.cycle.state = .calibrate → s.leads c (calFail .cameraNotReady) a []) ∧
      (a.cycle.state ≠ .prepare → a.cycle.state ≠ .calibrate → s.completes c a []))

/-- The lamp channels (R90, R91, R96, R116): a needed channel leaves OFF for RAMP_UP at its scheduled start,
and fails at once without LAMP_OK; LAMP_OK becoming inactive fails a lit channel: it goes to level 0, its
on-time stops, the exposure, the opening record and the frames are marked (a frame still received at the
intake, one that has ended DAMAGED with reason LAMP, R116); a ramp step moves every channel
whose step is due by the ramp rate, up to its target or down to OFF, where its on-time stops, and begins WARM
at the ramp span, whose triggers fire at once where the warm time is 0 (R91; notes/assumptions/26.md).
Steps counted on the exposure's clock, an on-time never above the planned one, and a start not due that has no
effect are the model's choice (notes/assumptions/6.md, 7.md, 4.md). -/
def Obligations.LampsRampAndFail : Prop :=
  ∀ (m : Moment) (s : State),
    let a := arrive m s
    let x := a.light.exposure
    let rate := a.light.rampRate
    let lit (c : Channel) : Bool := c.state == .rampUp || c.state == .on || c.state == .rampDown
    let planned (i : Nat) : Nat :=
      plannedOnTime rate a.light.warm x.plan.time (x.plan.levels.getD i 0)
    let marked (y : CamState) : CamState :=
      match y.slots.findIdx? fun z => z.state == .armed || z.state == .filling with
      | none => y
      | some k =>
        if (y.intakeRec.state = .waitFirst ∨ y.intakeRec.state = .receiving) ∧
            y.intakeRec.armed = some k then
          { y with intakeRec := { y.intakeRec with lamp := true } }
        else { y with slots := y.slots.modify k fun z => { z with frame := z.frame.map fun f =>
          if f.ending = .complete ∨ f.ending = .damaged then { f with ending := .damaged, reason := .lamp }
          else f } }
    let failed (e : State) (i : Nat) (ch : Channel) : State := { e with
      light := { e.light with
        exposure := { x with lampFault := true }
        channels := e.light.channels.set i { ch with
          state := .failed, level := 0, litAt := none
          onTime := match ch.litAt with
            | some t => min (planned i) (ceilMs (a.now - t))
            | none => ch.onTime } }
      cycle := { a.cycle with opening := if x.kind = .calibration then a.cycle.opening
        else a.cycle.opening.map fun o => { o with lampFault := true } }
      intake := { a.intake with cams := ⟨marked a.intake.cams.left, marked a.intake.cams.right⟩ } }
    (∀ y : CamState, y.markLamp = marked y) ∧
    (∀ (i : Fin 6) (ch : Channel), a.light.channels[i.val]? = some ch →
      let c : Instr := .channelRampStart m i
      let v := x.plan.levels.getD i.val 0
      let start := x.startedAt + ms (x.plan.span - rampTime rate v)
      let due : Prop := x.phase = .rampUp ∧ ch.state = .off ∧ ch.wasLit = false ∧ v ≠ 0 ∧ start ≤ a.now
      let risen : Channel := { ch with
        state := .rampUp, target := v, wasLit := true, litAt := some start, nextStep := start + ms 1 }
      let e : State := { a with light := { a.light with channels := a.light.channels.set i.val risen } }
      (¬ due → s.completes c a []) ∧
      (due → s.completes c (if a.lines.lampOk.getD i.val false = true then e else failed e i.val risen) [])) ∧
    (∀ (i : Fin 6) (ch : Channel), a.light.channels[i.val]? = some ch →
      let c : Instr := .lampOkInactive m i
      let e : State := { a with lines := { a.lines with lampOk := a.lines.lampOk.set i.val false } }
      s.completes c (if lit ch = true then failed e i.val ch else e) []) ∧
    (let e : State := { a with light := { a.light with channels := a.light.channels.mapIdx fun i c =>
       if a.now < c.nextStep then c
       else if c.state = .rampUp then { c with
         level := min c.target (c.level + rate)
         state := if c.target ≤ c.level + rate then .on else .rampUp
         nextStep := c.nextStep + ms 1 }
       else if c.state = .rampDown then
         if c.level ≤ rate then { c with
           state := .off, level := 0, litAt := none
           onTime := match c.litAt with
             | some t => min (planned i) (ceilMs (c.nextStep - t))
             | none => c.onTime }
         else { c with level := c.level - rate, nextStep := c.nextStep + ms 1 }
       else c } }
     let warm : State := { e with light := { e.light with exposure := { x with phase := .warm } } }
     s.completes (.lampRampStep m)
       (if x.phase = .rampUp ∧ x.startedAt + ms x.plan.span ≤ a.now then
         (if a.light.warm = 0 then fireTriggers warm else warm) else e) [])

/-- The end of WARM, the trigger fall and the completion event (R38, R91, R92, R95, R107, R108, R17): the armed
cameras of the exposure are triggered, each with its next frame number, its pending table and setting made active,
its intake waiting for a first line; a frame its intake still awaited or received has ended DAMAGED with reason
SEQUENCE before that (R107); at the fall, the exposure time later, each CAM_TRIG is low, the frame timer starts and
every lit channel ramps down; once all are dark (an event of its own, notes/assumptions/31.md) the exposure ends:
its charge goes to the active record and is noted for the FRAME records, unless a rest loss made it and it has been
noted then (notes/assumptions/56.md), the channels are cleared, and the cycle reviews, or the calibration goes on.
Not due, each has no effect (notes/assumptions/4.md). The lamp mark of a frame triggered after the fault is
notes/assumptions/24.md, the ramp-down steps' clock notes/assumptions/6.md. -/
def Obligations.TriggersRiseFallAndComplete : Prop :=
  (∀ (m : Moment) (s : State),
    let a := arrive m s
    let x := a.light.exposure
    let lit (c : Channel) : Bool := c.state == .rampUp || c.state == .on || c.state == .rampDown
    (let c : Instr := .warmEnd m
     let due : Prop := (x.phase = .rampUp ∨ x.phase = .warm ∨ x.phase = .ending) ∧ x.triggered = false ∧
       x.startedAt + ms (x.plan.span + a.light.warm) ≤ a.now
     (¬ due → s.completes c a []) ∧ (due → s.completes c (fireTriggers a) [])) ∧
    (let c : Instr := .triggerFall m
     let fallen (y : CamState) : CamState :=
       if (∃ t, y.intakeRec.trigger = some t ∧ t ≤ a.now) then
        { y with intakeRec := { y.intakeRec with
          trigger := none
          timer := if y.intakeRec.state = .idle then y.intakeRec.timer
            else some (a.now + ms a.intake.geo.frameTimeout) } } else y
     let e : State := { a with intake := { a.intake with
       cams := ⟨fallen a.intake.cams.left, fallen a.intake.cams.right⟩ } }
     let t := x.startedAt + ms (x.plan.span + a.light.warm + x.plan.time)
     (x.triggered = false ∨ a.now < t → s.completes c e []) ∧
     (x.triggered = true → t ≤ a.now →
      (x.phase = .capture →
        let e1 : State := { e with light := { a.light with
          exposure := { x with phase := .rampDown }
          channels := a.light.channels.map fun y =>
            if lit y then { y with state := .rampDown, nextStep := t + ms 1 } else y } }
        if a.light.channels.any lit = true then s.completes c e1 [] else s.leads c exposureEnds e1 []) ∧
      (x.phase = .ending → s.leads c exposureEnds e []) ∧
      (x.phase ≠ .capture → x.phase ≠ .ending → s.completes c e []))) ∧
    (let c : Instr := .exposureCompletion m
     (x.phase ≠ .rampDown ∨ a.light.channels.any lit = true → s.completes c a []) ∧
     (x.phase = .rampDown → a.light.channels.any lit = false → s.leads c exposureEnds a []))) ∧
  ∀ u : State,
    let x := u.light.exposure
    (let awaits (z : Slot) : Bool := z.state == .armed &&
       (match z.frame with
         | some f => f.ending == .inFlight && f.number == 0
         | none => false)
     let changed (l : List Slot) (k : Nat) (f : Frame → Frame) : List Slot :=
       l.modify k fun z => { z with frame := z.frame.map f }
     let fired (y : CamState) : CamState := match y.slots.findIdx? awaits with
       | none => y
       | some k =>
         let r := y.intakeRec
         let n := if y.counter = max32 then 1 else y.counter + 1
         let table := if y.pendingTableFlag then y.pendingTable else y.activeTable
         let setting := if y.pendingCorrectionFlag then y.pendingCorrection else y.activeCorrection
         let used := setting && !(x.kind == .calibration)
         let broken : List Slot := if r.state = .waitFirst ∨ r.state = .receiving then
             (match r.armed with
               | some j => changed y.slots j fun f => { f with
                   ending := .damaged, reason := .sequence, sum := r.sum, clip := r.clip
                   mean := r.sum / (u.intake.geo.width * u.intake.geo.height) }
               | none => y.slots)
           else y.slots
         { y with
           counter := n
           activeTable := table, pendingTableFlag := false
           activeCorrection := setting, pendingCorrectionFlag := false
           slots := changed broken k fun f => { f with number := n, corrected := used }
           intakeRec :=
             { state := .waitFirst, armed := some k, expected := 0
               remaining := u.intake.geo.width * u.intake.geo.height * 2, dataError := false
               lamp := x.lampFault, table := table, corrected := used, sum := 0, clip := 0
               bands := List.replicate 64 0
               trigger := some (x.startedAt + ms (x.plan.span + u.light.warm + x.plan.time))
               timer := none } }
     fireTriggers u = { u with
       light := { u.light with exposure := { x with
         triggered := true, phase := if x.phase = .ending then .ending else .capture } }
       intake := { u.intake with cams :=
         ⟨if x.sides.left = true then fired u.intake.cams.left else u.intake.cams.left,
          if x.sides.right = true then fired u.intake.cams.right else u.intake.cams.right⟩ } }) ∧
    (let dark (y : Channel) : Channel := { y with
       target := 0, onTime := 0, litAt := none, wasLit := false, level := 0
       state := if y.state = .failed then .failed else .off }
     let charge := if x.charged then 0 else ((u.light.channels.zip x.plan.levels).map fun q =>
       if q.1.wasLit then dose q.2 q.1.k q.1.onTime else 0).sum
     let paid := if x.charged then u else u.paid charge
     let e : State := { paid with light := { paid.light with
       exposure := { x with phase := .none }, channels := u.light.channels.map dark } }
     exposureEnds u =
      if x.kind = .calibration then
        calCheck { e with cycle := { e.cycle with
          cal := e.cycle.cal.map fun y => { y with exposureDone := true } } }
      else if u.cycle.state = .expose then
        reviewCheck { sync e with cycle := { u.cycle with
          state := .review, sub := .none
          opening := if x.charged then u.cycle.opening
            else u.cycle.opening.map fun o => { o with charge := charge } } }
      else e)

/-- The frame timer and a rest loss (R95, R115): an expired timer ends a frame still in flight LOST with reason
TIMEOUT, the intake IDLE, and reports it, and ends draining; not due it has no effect (notes/assumptions/4.md). A
rest loss under the lamps puts every lit channel out with its on-time up to now, never above the planned one (R93,
notes/assumptions/7.md), charges the dose of every channel lit in the exposure over its on-time (R143), which is
the charge its FRAME records will carry (R142; notes/assumptions/56.md), marks the exposure faulted and charged,
and the exposure is ENDING, ended at once where the triggers had fallen (notes/assumptions/27.md); with no lamps
running only the line changes (notes/assumptions/2.md), but for ARM_DRIVE, kept right in PLATEN_RISE and a retry
pause (R58). -/
def Obligations.FrameTimeoutAndRestLoss : Prop :=
  (∀ (m : Moment) (cam : Camera) (s : State),
    let a := arrive m s
    let c : Instr := .frameTimeout m cam
    let y := a.intake.cams.get cam
    let r := y.intakeRec
    let with' (z : CamState) : State := { a with intake := { a.intake with
      cams := a.intake.cams.set cam z } }
    ((∀ t, r.timer = some t → a.now < t) → s.completes c a []) ∧
    ∀ t, r.timer = some t → t ≤ a.now →
      (r.state ≠ .waitFirst → r.state ≠ .receiving →
        s.completes c (with' { y with intakeRec := { r with state := .idle, timer := none } }) []) ∧
      (∀ k st f, r.state = .waitFirst ∨ r.state = .receiving → r.armed = some k →
        y.slots[k]? = some ⟨st, some f⟩ →
        s.leads c frameReported (with' { y with
            slots := y.slots.set k ⟨st, some { f with
              ending := .lost, reason := .timeout, sum := r.sum, clip := r.clip
              mean := r.sum / (a.intake.geo.width * a.intake.geo.height) }⟩
            intakeRec := { r with state := .idle, armed := none, timer := none } }) [])) ∧
  ∀ (m : Moment) (input : RestInput) (s : State),
    let a := arrive m s
    let c : Instr := .restLoss m input
    let x := a.light.exposure
    let t := a.turner
    let lines : Lines := match input with
      | .platenDown => { a.lines with platenDown := false }
      | .armParked => { a.lines with armParked := false }
    let e : State := { a with
      lines := lines
      turner := if t.state = .turning ∧ (t.stage = some .platenRise ∨ t.sub = .retryPause) then { t with
          outputs := { t.outputs with arm := if lines.armParked then .off else .toPark } } else t }
    let planned (i : Nat) : Nat :=
      plannedOnTime a.light.rampRate a.light.warm x.plan.time (x.plan.levels.getD i 0)
    let lit (c : Channel) : Bool := c.state == .rampUp || c.state == .on || c.state == .rampDown
    let running : Prop := x.phase = .rampUp ∨ x.phase = .warm ∨ x.phase = .capture ∨ x.phase = .rampDown
    (¬ running → s.completes c e []) ∧
    (running →
        let chans := a.light.channels.mapIdx fun i y => if lit y then { y with
            state := .off, level := 0, litAt := none
            onTime := match y.litAt with
              | some t => min (planned i) (ceilMs (a.now - t))
              | none => y.onTime } else y
        let charge := ((chans.zip x.plan.levels).map fun q =>
          if q.1.wasLit then dose q.2 q.1.k q.1.onTime else 0).sum
        let paid := e.paid charge
        let t : State := { paid with
          light := { paid.light with
            channels := chans, exposure := { x with phase := .ending, lampFault := true, charged := true } }
          cycle := { paid.cycle with
            opening := if x.kind = .calibration then a.cycle.opening
              else a.cycle.opening.map fun o => { o with lampFault := true, charge := charge } }
          intake := { a.intake with
            cams := ⟨a.intake.cams.left.markLamp, a.intake.cams.right.markLamp⟩ } }
        if x.phase = .rampDown then s.leads c exposureEnds t [] else s.completes c t [])

/-! ## The leaf turner and its monitors (spec/03) -/

/-- The turn's stages (R58 to R67, R70): each ending event, in its stage, enters the next stage with that
stage's outputs, timer and time, and a stage whose ending condition holds on entry ends at once, wherever it
is entered from; in any other stage, or not due, only the line changes. The turn requested enters PLATEN_RISE
with the class values copied (R59). Entering LIFT looks at DOUBLE_SENSE and the monitor first
(notes/assumptions/19.md). A time elapsed that is not due has no effect (notes/assumptions/4.md); a turn done
never raises the cursor past L (notes/assumptions/36.md). -/
def Obligations.TurnAdvancesByStages : Prop :=
  ∀ (m : Moment) (s : State),
    let a := arrive m s
    let t := a.turner
    let v := t.vals
    let rest : TurnerOutputs := ⟨.off, false, 0, .off⟩
    let carry : TurnerOutputs := ⟨.off, false, v.vacuum, .toLeft⟩
    let runs (st : Stage) : Prop := t.state = .turning ∧ t.stage = some st ∧ t.sub = .none
    let pausing : Prop := t.state = .turning ∧ t.stage = some .separate ∧ t.sub = .retryPause
    let due : Prop := ∃ x, t.stageTime = some x ∧ x ≤ a.now
    let on (e : State) (x : Turner) : State := { e with turner := x }
    let pulse (c : Instr) (e : State) : Prop :=
      if v.knife = 0 then s.leads c enterGrip e []
      else s.completes c (on e (e.turner.entered .separate { rest with knife := true } .off
        (some (a.now + ms v.knife)))) []
    (let c : Instr := .platenUpActive m
     let e : State := { a with lines := { a.lines with platenUp := true } }
     let e1 := on e { t with outputs := { t.outputs with
       platen := .off, arm := if a.lines.armParked then .off else .toPark } }
     (¬ runs .platenRise → s.completes c e []) ∧
     (runs .platenRise → if a.lines.armParked = true then pulse c e1 else s.completes c e1 [])) ∧
    (let c : Instr := .armParkedActive m
     let e : State := { a with lines := { a.lines with armParked := true } }
     let e1 := on e { t with outputs := { t.outputs with
       platen := if a.lines.platenUp then .off else t.outputs.platen, arm := .off } }
     let e2 := on e { t with outputs := { t.outputs with arm := .off } }
     let e3 := on e (t.entered .platenLower { rest with platen := .down } (.running a.now t.g6.platen) none)
     (runs .platenRise → if a.lines.platenUp = true then pulse c e1 else s.completes c e1 []) ∧
     (pausing → (due → pulse c e2) ∧ (¬ due → s.completes c e2 [])) ∧
     (runs .returning → if a.lines.platenDown = true then s.leads c enterSettle e3 []
       else s.completes c e3 []) ∧
     (¬ (t.state = .turning ∧ t.stage = some .platenRise) → ¬ runs .returning → t.sub ≠ .retryPause →
      s.completes c e [])) ∧
    (let c : Instr := .knifePulseElapsed m
     let e1 := on a (t.entered .grip ⟨.off, false, v.vacuum, .off⟩ (.running a.now t.g6.grip) none)
     (runs .separate → due → if v.grip ≤ a.lines.wandPressure then s.leads c enterLift e1 []
       else s.completes c e1 []) ∧
     (¬ (runs .separate ∧ due) → s.completes c a [])) ∧
    (let c : Instr := .retryPauseElapsed m
     (t.sub = .retryPause → due → a.lines.armParked = true → pulse c a) ∧
     (¬ (t.sub = .retryPause ∧ due ∧ a.lines.armParked = true) → s.completes c a [])) ∧
    (∀ pressure : Byte,
      let c : Instr := .wandPressureSample m pressure
      let e : State := { a with lines := { a.lines with wandPressure := pressure.toNat } }
      let e1 := on e (t.entered .lift carry (.running a.now t.g6.lift) none)
      runs .grip →
        if pressure.toNat < v.grip then s.completes c e []
        else if a.lines.doubleSense = true then s.leads c doubleLeaf e1 []
        else if pressure.toNat < v.hold then s.leads c gripLoss e1 []
        else if a.lines.leafSense = true then s.leads c enterSweep e1 []
        else s.completes c e1 []) ∧
    (let c : Instr := .leafSenseActive m
     let e : State := { a with lines := { a.lines with leafSense := true } }
     let e1 := on e (t.entered .sweep carry (.running a.now t.g6.sweep) none)
     (¬ runs .lift → s.completes c e []) ∧
     (runs .lift →
        if a.lines.wandPressure < v.hold then s.leads c gripLoss e1 []
        else if a.lines.armAtLeft = true then s.leads c enterRelease e1 []
        else s.completes c e1 [])) ∧
    (let c : Instr := .armAtLeftActive m
     let e : State := { a with lines := { a.lines with armAtLeft := true } }
     (¬ runs .sweep → s.completes c e []) ∧
     (runs .sweep → s.completes c (on e (t.entered .release rest .off (some (a.now + ms 200)))) [])) ∧
    (let c : Instr := .releaseElapsed m
     let e1 := on a (t.entered .returning { rest with arm := .toPark } (.running a.now t.g6.goBack) none)
     (runs .release → due → if a.lines.armParked = true then s.leads c enterPlatenLower e1 []
       else s.completes c e1 []) ∧
     (¬ (runs .release ∧ due) → s.completes c a [])) ∧
    (let c : Instr := .platenDownActive m
     let e : State := { a with lines := { a.lines with platenDown := true } }
     (¬ runs .platenLower → s.completes c e []) ∧
     (runs .platenLower → if v.settle = 0 then s.leads c completeTurn e []
       else s.completes c (on e (t.entered .settle rest .off (some (a.now + ms v.settle)))) [])) ∧
    (let c : Instr := .settleElapsed m
     (¬ (runs .settle ∧ due) → s.completes c a []) ∧
     (runs .settle → due →
      s.leads c (fun e =>
          let q := requestAppend (.turn ⟨t.handle,
            ((a.vols.get t.handle).map Volume.cursor).getD 0 + 1, t.retry, t.doubles, false⟩) e
          if q.2 then turnDone q.1 else q.1)
        (on a { t.entered .settle rest .off none with sub := .completing }) [])) ∧
    (∀ k w e, a.vols.active = some (k, w) → a.activeClass = some e → t.state = .rest →
      let taken : State := on a { t with
        handle := k
        vals := ⟨e.vacuum, e.grip, e.hold, e.mode, e.holdTimeout, e.knife, e.maxRetries, e.settle⟩
        state := .turning, stage := some .platenRise, sub := .none, stageTime := none, holdTimer := none
        stageTimer := .running a.now t.g6.platen
        outputs := ⟨if a.lines.platenUp then .off else .up, false, 0,
          if a.lines.armParked then .off else .toPark⟩ }
      takeTurn a =
        if a.lines.platenUp = true ∧ a.lines.armParked = true then enterPulse taken else taken) ∧
    (∀ w, a.vols.get t.handle = some w → a.cycle.state ≠ .turn → t.pendingTurn = false →
      turnDone a = on (a.withVolume t.handle (some { w with
          cursor := min (w.cursor + 1) w.leaves, openingDose := 0, turnsDone := satSucc w.turnsDone }))
        { t with
          state := .rest, stage := none, sub := .none, retry := 0, doubles := 0, stageTimer := .off
          stageTime := none, holdTimer := none, outputs := rest }) ∧
    ∀ u : State,
      let t := u.turner
      let v := t.vals
      let carry : TurnerOutputs := ⟨.off, false, v.vacuum, .toLeft⟩
      let grip := on u (t.entered .grip ⟨.off, false, v.vacuum, .off⟩ (.running u.now t.g6.grip) none)
      let lift := on u (t.entered .lift carry (.running u.now t.g6.lift) none)
      let sweep := on u (t.entered .sweep carry (.running u.now t.g6.sweep) none)
      let lower := on u (t.entered .platenLower { rest with platen := .down } (.running u.now t.g6.platen) none)
      let lost : Prop := u.lines.wandPressure < v.hold
      (enterPulse u = if v.knife = 0 then enterGrip u
        else on u (t.entered .separate { rest with knife := true } .off (some (u.now + ms v.knife)))) ∧
      (enterGrip u = if v.grip ≤ u.lines.wandPressure then enterLift grip else grip) ∧
      (enterLift u = if u.lines.doubleSense = true then doubleLeaf lift
        else if lost then gripLoss lift
        else if u.lines.leafSense = true then enterSweep lift
        else lift) ∧
      (enterSweep u = if lost then gripLoss sweep
        else if u.lines.armAtLeft = true then enterRelease sweep
        else sweep) ∧
      enterRelease u = on u (t.entered .release rest .off (some (u.now + ms 200))) ∧
      (enterPlatenLower u = if u.lines.platenDown = true then enterSettle lower else lower) ∧
      (enterSettle u = if v.settle = 0 then completeTurn u
        else on u (t.entered .settle rest .off (some (u.now + ms v.settle)))) ∧
      completeTurn u =
        (let q := requestAppend (.turn ⟨t.handle, ((u.vols.get t.handle).map Volume.cursor).getD 0 + 1,
          t.retry, t.doubles, false⟩) (on u { t.entered .settle rest .off none with sub := .completing })
         if q.2 then turnDone q.1 else q.1)

/-- What ends a turn or sends it back (R63 to R74): a stage timeout, the leaf dropped and a hold timeout end
it with their fault; a grip timeout and a double leaf retry it while the class allows, with a pause of
200 ms; a pressure below the hold level in LIFT or SWEEP ends it in mode ABORT and enters HOLD in mode HOLD,
the stage timer suspended, until the pressure is 8 above the level; then the turn goes on, its stage's ending
condition looked at at once (R74). A turn's end leaves the turner FAULTED
with its report and halts a cycle in TURN, the record's turn fault counted (R18, R46). A timeout not due has no
effect (notes/assumptions/4.md); what is left of the suspended stage timer is counted in whole ms
(notes/assumptions/35.md). -/
def Obligations.TurnFaultsRetriesAndHolds : Prop :=
  ∀ (m : Moment) (s : State),
    let a := arrive m s
    let t := a.turner
    let v := t.vals
    let runs (st : Stage) : Prop := t.state = .turning ∧ t.stage = some st ∧ t.sub = .none
    let at' (st : Stage) : Prop := (t.state = .turning ∨ t.state = .hold) ∧ t.stage = some st
    let expired : Prop := ∃ since left, t.stageTimer = .running since left ∧ since + ms left ≤ a.now
    let on (e : State) (x : Turner) : State := { e with turner := x }
    let counted (f : Volume → Volume) (e : State) : State :=
      match e.vols.activeHandle with
      | none => e
      | some k => match e.vols.get k with
        | none => e
        | some w => e.withVolume k (some (f w))
    let ends (c : Instr) (kind : FaultKind) (e : State) : Prop :=
      let e1 := on e (e.turner.failed kind)
      if a.cycle.state = .turn then
        s.leads c (haltTurn kind t.stage)
          (counted (fun w => { w with turnFaults := satSucc w.turnFaults }) e1) []
      else s.completes c e1 []
    let retries (c : Instr) (kind : FaultKind) (e : State) : Prop :=
      if t.retry < v.maxRetries then
        s.completes c (on e { e.turner.entered .separate
            ⟨.off, false, 0, if a.lines.armParked then .off else .toPark⟩
            (.running a.now t.g6.goBack) (some (a.now + ms 200)) with
          sub := .retryPause, retry := t.retry + 1 }) []
      else ends c kind e
    let timeout (c : Instr) (st : Stage) (kind : FaultKind) : Prop :=
      (runs st → expired → ends c kind a) ∧ (¬ (runs st ∧ expired) → s.completes c a [])
    timeout (.liftTimeout m) .lift .liftTimeout ∧ timeout (.sweepTimeout m) .sweep .sweepTimeout ∧
    (let c : Instr := .platenTimeout m
     (runs .platenRise ∨ runs .platenLower → expired → ends c .platenTimeout a) ∧
     (¬ ((runs .platenRise ∨ runs .platenLower) ∧ expired) → s.completes c a [])) ∧
    (let c : Instr := .returnTimeout m
     (runs .returning ∨ t.sub = .retryPause → expired → ends c .returnTimeout a) ∧
     (¬ ((runs .returning ∨ t.sub = .retryPause) ∧ expired) → s.completes c a [])) ∧
    (let c : Instr := .gripTimeout m
     (runs .grip → expired → retries c .gripFail a) ∧ (¬ (runs .grip ∧ expired) → s.completes c a [])) ∧
    (let c : Instr := .holdTimeout m
     let due : Prop := t.state = .hold ∧ ∃ x, t.holdTimer = some x ∧ x ≤ a.now
     (due → ends c .vacuumLow a) ∧ (¬ due → s.completes c a [])) ∧
    (let c : Instr := .leafSenseInactive m
     let e : State := { a with lines := { a.lines with leafSense := false } }
     (at' .sweep → ends c .leafDropped e) ∧ (¬ at' .sweep → s.completes c e [])) ∧
    (let c : Instr := .doubleSenseActive m
     let e : State := { a with lines := { a.lines with doubleSense := true } }
     (at' .lift → retries c .doubleLeaf (counted
        (fun w => { w with doubleLeafEvents := satSucc w.doubleLeafEvents })
        (on e { t with doubles := min (t.doubles + 1) 255 }))) ∧
     (¬ at' .lift → s.completes c e [])) ∧
    ∀ pressure : Byte,
      let c : Instr := .wandPressureSample m pressure
      let p := pressure.toNat
      let e : State := { a with lines := { a.lines with wandPressure := p } }
      (runs .lift ∨ runs .sweep →
        (v.hold ≤ p → s.completes c e []) ∧
        (p < v.hold → v.mode = .abort → ends c .vacuumLow e) ∧
        (p < v.hold → v.mode = .hold → s.completes c (on e { t with
          state := .hold
          outputs := { t.outputs with arm := .off }
          stageTimer := match t.stageTimer with
            | .running since left => .suspended (left - (a.now - since) / 1000)
            | .off => .off
            | .suspended left => .suspended left
          holdTimer := some (a.now + ms v.holdTimeout) }) [])) ∧
      (t.state = .hold →
        if p < v.hold + 8 then s.completes c e []
        else
          let back : State := on e { t with
            state := .turning
            outputs := { t.outputs with arm := .toLeft }
            stageTimer := match t.stageTimer with
              | .suspended left => .running a.now left
              | .off => .off
              | .running since left => .running since left
            holdTimer := none }
          if t.stage = some .lift ∧ t.sub = .none ∧ a.lines.leafSense = true then
            s.leads c enterSweep back []
          else if t.stage = some .sweep ∧ t.sub = .none ∧ a.lines.armAtLeft = true then
            s.leads c enterRelease back []
          else s.completes c back []) ∧
      (t.state ≠ .hold → ¬ runs .lift → ¬ runs .sweep → ¬ runs .grip → s.completes c e []) ∧
      ∀ u : State,
        let w := u.turner
        let ended (kind : FaultKind) (e : State) : State :=
          let e1 := on e (e.turner.failed kind)
          if u.cycle.state = .turn then
            haltTurn kind w.stage (counted (fun y => { y with turnFaults := satSucc y.turnFaults }) e1)
          else e1
        let double := counted (fun y => { y with doubleLeafEvents := satSucc y.doubleLeafEvents })
          (on u { w with doubles := min (w.doubles + 1) 255 })
        (gripLoss u = match w.vals.mode with
          | .abort => ended .vacuumLow u
          | .hold => on u { w with
              state := .hold
              outputs := { w.outputs with arm := .off }
              stageTimer := match w.stageTimer with
                | .running since left => .suspended (left - (u.now - since) / 1000)
                | .off => .off
                | .suspended left => .suspended left
              holdTimer := some (u.now + ms w.vals.holdTimeout) }) ∧
        doubleLeaf u = if w.retry < w.vals.maxRetries then
            on (sync double) { double.turner.entered .separate
                ⟨.off, false, 0, if u.lines.armParked then .off else .toPark⟩
                (.running u.now w.g6.goBack) (some (u.now + ms 200)) with
              sub := .retryPause, retry := w.retry + 1 }
          else ended .doubleLeaf double

/-- The supply monitor (R75, R76, R51): a sample below the level while OK is one fall: LOW, and the notice
SUPPLY_LOW; at or above the level plus 8 it is OK again; any other sample changes nothing more. In mode
SAFE_STOP a fall aborts and halts a cycle at work with SUPPLY_LOW (while COMPLETING a turn:
notes/assumptions/20.md), a capture fault of the opening's owed sides, none of them where no opening has begun,
as in PAUSED before one; and it ends a calibration. That the notice comes before what the fall makes the cycle
write is the model's choice (notes/assumptions/58.md). -/
def Obligations.SupplyMonitorWatches : Prop :=
  ∀ (m : Moment) (sample : Byte) (s : State),
    let a := arrive m s
    let c : Instr := .supplySenseSample m sample
    let level := a.turner.g6.supplyLevel
    let e : State := { a with lines := { a.lines with supplySense := sample.toNat } }
    let fell : State := { e with turner := { a.turner with supply := .low } }
    let told := noticeFields .supplyLow [(12, u8 sample.toNat), (13, u8 level),
      (14, u8 a.turner.g6.supplyMode.code)]
    let fall : Prop := a.start.phase = .ready ∧ a.turner.supply = .ok ∧ sample.toNat < level
    let back : Prop := a.start.phase = .ready ∧ a.turner.supply = .low ∧ level + 8 ≤ sample.toNat
    (back → s.completes c { e with turner := { a.turner with supply := .ok } } []) ∧
    (¬ fall → ¬ back → s.completes c e []) ∧
    (fall → a.turner.g6.supplyMode = .notice ∨ a.cycle.state = .idle ∨ a.cycle.state = .halted →
      s.completes c fell [told]) ∧
    (fall → a.turner.g6.supplyMode = .safeStop → a.cycle.state.working = true →
      s.leads c safeStopFall fell [told]) ∧
    (fall → a.turner.g6.supplyMode = .safeStop → a.cycle.state = .calibrate →
      s.leads c (calStop .supplyLow id) fell [told]) ∧
    (let turning : Prop := s.cycle.state = .turn ∨
       (s.cycle.state = .paused ∧ (s.cycle.run.bind RunRecord.resume) = some .turn)
     let q := abortWork .supplyLow s
     let owed (x : SideStatus) : Bool := x == .wanted || x == .pending
     (turning ∨ q.2.aborted = true →
       safeStopFall s = haltTurn .supplyLow s.turner.stage q.1) ∧
     (¬ turning → q.2.aborted = false → ∀ o, s.cycle.opening = some o →
       safeStopFall s = haltCapture .supplyLow
         ⟨owed o.sides.left.status, owed o.sides.right.status⟩ q.1) ∧
     (¬ turning → q.2.aborted = false → s.cycle.opening = none →
       safeStopFall s = haltCapture .supplyLow ⟨false, false⟩ q.1))
end

