-- ==== Sys2Proof/Laws/Commands.lean ====
section
/-! SUPPORT. Each command as `takeCommand` on its operation: the one place a proof unfolds `exec`. -/

namespace Sys2Proof.Machine

set_option Elab.async false

theorem exec_powerOn (m : Moment) (resetIn : Bool) (s : State) :
    exec (.powerOn m resetIn) s =
      takeCommand m (fun s =>
        resetEvent .powerOn false (setLines (fun l => { l with power := false, resetIn := resetIn }) s)) s := rfl

theorem exec_lineReset (m : Moment) (s : State) :
    exec (.lineReset m) s =
      takeCommand m (fun s =>
        let s := setLines (fun l => { l with resetIn := true }) s
        if s.start.phase = .reset then s
        else resetEvent .lineReset (s.cycle.state != .idle) s) s := rfl

theorem exec_resetEnd (m : Moment) (s : State) :
    exec (.resetEnd m) s =
      takeCommand m (fun s => leaveReset (setLines (fun l => { l with resetIn := false }) s)) s := rfl

theorem exec_profileSignatureRead (m : Moment) (signature : List Byte) (control : BitVec 16) (s : State) :
    exec (.profileSignatureRead m signature control) s =
      takeCommand m (signatureRead signature control) s := rfl

theorem exec_profileGroupRead (m : Moment) (bytes : List Byte) (s : State) :
    exec (.profileGroupRead m bytes) s =
      takeCommand m (groupRead bytes) s := rfl

theorem exec_powerEstablished (m : Moment) (s : State) :
    exec (.powerEstablished m) s =
      takeCommand m (fun s => leaveReset (setLines (fun l => { l with power := true }) s)) s := rfl

theorem exec_upstreamWrite (m : Moment) (x : Txn) (s : State) :
    exec (.upstreamWrite m x) s =
      takeCommand m (upWrite x) s := rfl

theorem exec_upstreamRead (m : Moment) (x : Txn) (s : State) :
    exec (.upstreamRead m x) s =
      takeCommand m (upRead x) s := rfl

theorem exec_apertureWrite (m : Moment) (cam : Camera) (offset : BitVec 34) (p : Payload) (s : State) :
    exec (.apertureWrite m cam offset p) s =
      takeCommand m (fun s => upWrite (s.apertureTxn cam offset.toNat p) s) s := rfl

theorem exec_downstreamIssue (m : Moment) (s : State) :
    exec (.downstreamIssue m) s =
      takeCommand m grantPort s := rfl

theorem exec_downstreamResponse (m : Moment) (refused : Bool) (data : List Byte) (s : State) :
    exec (.downstreamResponse m refused data) s =
      takeCommand m (answer refused data) s := rfl

theorem exec_ownTrafficWaitAdmit (m : Moment) (s : State) :
    exec (.ownTrafficWaitAdmit m) s =
      takeCommand m (admitOldest fun _ => true) s := rfl

theorem exec_logAppendAccept (m : Moment) (s : State) :
    exec (.logAppendAccept m) s =
      takeCommand m (admitOldest WaitItem.isAppend) s := rfl

theorem exec_requestUnknownKind (m : Moment) (kind : Byte) (h : Head) (s : State) :
    exec (.requestUnknownKind m kind h) s =
      takeCommand m (askUnknown kind h) s := rfl

theorem exec_registerVolume (m : Moment) (h : Head) (p : RegisterParams) (s : State) :
    exec (.registerVolume m h p) s =
      takeCommand m (ask 0x01#8 0x07#8 h (takeRegister h p)) s := rfl

theorem exec_setVolume (m : Moment) (h : Head) (p : SetVolumeParams) (s : State) :
    exec (.setVolume m h p) s =
      takeCommand m (ask 0x02#8 0x7F#8 h (takeSetVolume h p)) s := rfl

theorem exec_activate (m : Moment) (h : Head) (opening : BitVec 16) (s : State) :
    exec (.activate m h opening) s =
      takeCommand m (ask 0x03#8 0#8 h (takeActivate opening)) s := rfl

theorem exec_suspend (m : Moment) (h : Head) (s : State) :
    exec (.suspend m h) s =
      takeCommand m (ask 0x04#8 0#8 h takeSuspend) s := rfl

theorem exec_setOpening (m : Moment) (h : Head) (opening : BitVec 16) (s : State) :
    exec (.setOpening m h opening) s =
      takeCommand m (ask 0x05#8 0#8 h (takeSetOpening opening)) s := rfl

theorem exec_closeVolume (m : Moment) (h : Head) (claimed complement : BitVec 16) (s : State) :
    exec (.closeVolume m h claimed complement) s =
      takeCommand m (ask 0x06#8 0#8 h (takeClose claimed complement)) s := rfl

theorem exec_retireVolume (m : Moment) (h : Head) (s : State) :
    exec (.retireVolume m h) s =
      takeCommand m (ask 0x07#8 0#8 h takeRetire) s := rfl

theorem exec_snapshotVolume (m : Moment) (h : Head) (mapAddress : BitVec 64) (s : State) :
    exec (.snapshotVolume m h mapAddress) s =
      takeCommand m (ask 0x08#8 0x01#8 h (takeSnapshot h mapAddress)) s := rfl

theorem exec_run (m : Moment) (h : Head) (stopOpening : BitVec 16) (s : State) :
    exec (.run m h stopOpening) s =
      takeCommand m (ask 0x09#8 0x01#8 h (takeRun h stopOpening)) s := rfl

theorem exec_stepTurn (m : Moment) (h : Head) (s : State) :
    exec (.stepTurn m h) s =
      takeCommand m (ask 0x0A#8 0#8 h takeStepTurn) s := rfl

theorem exec_pause (m : Moment) (h : Head) (s : State) :
    exec (.pause m h) s =
      takeCommand m (ask 0x0B#8 0#8 h takePause) s := rfl

theorem exec_resumeContinue (m : Moment) (h : Head) (s : State) :
    exec (.resumeContinue m h) s =
      takeCommand m (ask 0x0C#8 0#8 h takeContinue) s := rfl

theorem exec_resumeRetry (m : Moment) (h : Head) (s : State) :
    exec (.resumeRetry m h) s =
      takeCommand m (ask 0x0C#8 0#8 h takeRetry) s := rfl

theorem exec_resumeSkip (m : Moment) (h : Head) (s : State) :
    exec (.resumeSkip m h) s =
      takeCommand m (ask 0x0C#8 0#8 h takeSkip) s := rfl

theorem exec_resumeAbandon (m : Moment) (h : Head) (s : State) :
    exec (.resumeAbandon m h) s =
      takeCommand m (ask 0x0C#8 0#8 h takeAbandon) s := rfl

theorem exec_stop (m : Moment) (h : Head) (s : State) :
    exec (.stop m h) s =
      takeCommand m (ask 0x0D#8 0#8 h takeStop) s := rfl

theorem exec_clearFault (m : Moment) (h : Head) (s : State) :
    exec (.clearFault m h) s =
      takeCommand m (ask 0x0E#8 0#8 h takeClearFault) s := rfl

theorem exec_releaseSlots (m : Moment) (h : Head) (cam : Byte) (mask : BitVec 16) (s : State) :
    exec (.releaseSlots m h cam mask) s =
      takeCommand m (ask 0x0F#8 0#8 h (takeRelease cam mask)) s := rfl

theorem exec_loadGains (m : Moment) (h : Head) (cam : Byte) (lineAddress : BitVec 64) (s : State) :
    exec (.loadGains m h cam lineAddress) s =
      takeCommand m (ask 0x10#8 0#8 h (takeLoadGains cam lineAddress)) s := rfl

theorem exec_setCorrection (m : Moment) (h : Head) (cam setting : Byte) (s : State) :
    exec (.setCorrection m h cam setting) s =
      takeCommand m (ask 0x11#8 0#8 h (takeSetCorrection cam setting)) s := rfl

theorem exec_calibrate (m : Moment) (h : Head) (p : CalibrateParams) (s : State) :
    exec (.calibrate m h p) s =
      takeCommand m (ask 0x12#8 0#8 h (takeCalibrate p)) s := rfl

theorem exec_setRules (m : Moment) (h : Head) (target tolerance clip : BitVec 16) (s : State) :
    exec (.setRules m h target tolerance clip) s =
      takeCommand m (ask 0x13#8 0#8 h (takeSetRules target tolerance clip)) s := rfl

theorem exec_setClassEntry (m : Moment) (h : Head) (cls : Byte) (f : ClassFields) (s : State) :
    exec (.setClassEntry m h cls f) s =
      takeCommand m (ask 0x14#8 0#8 h (takeSetClass cls f)) s := rfl

theorem exec_setMaterialMap (m : Moment) (h : Head) (classes : List Byte) (s : State) :
    exec (.setMaterialMap m h classes) s =
      takeCommand m (ask 0x15#8 0#8 h (takeSetMaterial classes)) s := rfl

theorem exec_logTaken (m : Moment) (h : Head) (n : BitVec 32) (s : State) :
    exec (.logTaken m h n) s =
      takeCommand m (ask 0x16#8 0#8 h (takeLogTaken n)) s := rfl

theorem exec_verifyLog (m : Moment) (h : Head) (s : State) :
    exec (.verifyLog m h) s =
      takeCommand m (ask 0x17#8 0#8 h takeVerify) s := rfl

theorem exec_haltInActive (m : Moment) (s : State) :
    exec (.haltInActive m) s =
      takeCommand m (fun s => stopBy .haltIn id (setLines (fun l => { l with haltIn := true }) s)) s := rfl

theorem exec_camReadyActive (m : Moment) (cam : Camera) (s : State) :
    exec (.camReadyActive m cam) s =
      takeCommand m (fun s =>
        recheckCameras (setLines (fun l => { l with camReady := l.camReady.set cam true }) s)) s := rfl

theorem exec_cameraReadyTimeout (m : Moment) (s : State) :
    exec (.cameraReadyTimeout m) s =
      takeCommand m cameraTimeoutExpires s := rfl

theorem exec_channelRampStart (m : Moment) (channel : Fin 6) (s : State) :
    exec (.channelRampStart m channel) s =
      takeCommand m (rampStart channel.val) s := rfl

theorem exec_lampRampStep (m : Moment) (s : State) :
    exec (.lampRampStep m) s =
      takeCommand m rampStep s := rfl

theorem exec_warmEnd (m : Moment) (s : State) :
    exec (.warmEnd m) s =
      takeCommand m (fun s => if s.warmEnds then fireTriggers s else s) s := rfl

theorem exec_triggerFall (m : Moment) (s : State) :
    exec (.triggerFall m) s =
      takeCommand m triggersFall s := rfl

theorem exec_exposureCompletion (m : Moment) (s : State) :
    exec (.exposureCompletion m) s =
      takeCommand m (fun s =>
        if s.light.exposure.phase = .rampDown ∧ ¬ s.anyLit then exposureEnds s else s) s := rfl

theorem exec_frameTimeout (m : Moment) (cam : Camera) (s : State) :
    exec (.frameTimeout m cam) s =
      takeCommand m (frameTimerExpires cam) s := rfl

theorem exec_restLoss (m : Moment) (input : RestInput) (s : State) :
    exec (.restLoss m input) s =
      takeCommand m (fun s =>
        let s := refreshPark (setLines (RestInput.drop input) s)
        if s.light.exposure.phase.running then lightsAtRestLoss s else s) s := rfl

theorem exec_lampOkInactive (m : Moment) (channel : Fin 6) (s : State) :
    exec (.lampOkInactive m channel) s =
      takeCommand m (fun s =>
        let s := setLines (fun l => { l with lampOk := l.lampOk.set channel.val false }) s
        if (s.light.channels[channel.val]?.map Channel.lit).getD false then lampFault channel.val s else s) s := rfl

theorem exec_platenUpActive (m : Moment) (s : State) :
    exec (.platenUpActive m) s =
      takeCommand m (fun s =>
        let s := setLines (fun l => { l with platenUp := true }) s
        if s.turner.runsStage .platenRise then checkRise s else s) s := rfl

theorem exec_platenDownActive (m : Moment) (s : State) :
    exec (.platenDownActive m) s =
      takeCommand m (fun s =>
        let s := setLines (fun l => { l with platenDown := true }) s
        if s.turner.runsStage .platenLower then enterSettle s else s) s := rfl

theorem exec_armParkedActive (m : Moment) (s : State) :
    exec (.armParkedActive m) s =
      takeCommand m (fun s =>
        let s := refreshPark (setLines (fun l => { l with armParked := true }) s)
        if s.turner.runsStage .platenRise then checkRise s
        else if s.turner.sub = .retryPause then checkRetryPause s
        else if s.turner.runsStage .returning then enterPlatenLower s
        else s) s := rfl

theorem exec_armAtLeftActive (m : Moment) (s : State) :
    exec (.armAtLeftActive m) s =
      takeCommand m (fun s =>
        let s := setLines (fun l => { l with armAtLeft := true }) s
        if s.turner.runsStage .sweep then enterRelease s else s) s := rfl

theorem exec_leafSenseActive (m : Moment) (s : State) :
    exec (.leafSenseActive m) s =
      takeCommand m (fun s =>
        let s := setLines (fun l => { l with leafSense := true }) s
        if s.turner.runsStage .lift then enterSweep s else s) s := rfl

theorem exec_leafSenseInactive (m : Moment) (s : State) :
    exec (.leafSenseInactive m) s =
      takeCommand m (fun s =>
        let s := setLines (fun l => { l with leafSense := false }) s
        if s.turner.atStage .sweep then endTurn .leafDropped s else s) s := rfl

theorem exec_doubleSenseActive (m : Moment) (s : State) :
    exec (.doubleSenseActive m) s =
      takeCommand m (fun s =>
        let s := setLines (fun l => { l with doubleSense := true }) s
        if s.turner.atStage .lift then doubleLeaf s else s) s := rfl

theorem exec_wandPressureSample (m : Moment) (pressure : Byte) (s : State) :
    exec (.wandPressureSample m pressure) s =
      takeCommand m (fun s =>
        samplePressure (setLines (fun l => { l with wandPressure := pressure.toNat }) s)) s := rfl

theorem exec_holdTimeout (m : Moment) (s : State) :
    exec (.holdTimeout m) s =
      takeCommand m (fun s =>
        if s.turner.state = .hold ∧ s.turner.holdDue s.now then endTurn .vacuumLow s else s) s := rfl

theorem exec_supplySenseSample (m : Moment) (sample : Byte) (s : State) :
    exec (.supplySenseSample m sample) s =
      takeCommand m (fun s =>
        let s := setLines (fun l => { l with supplySense := sample.toNat }) s
        if s.ready then sampleSupply s else s) s := rfl

theorem exec_platenTimeout (m : Moment) (s : State) :
    exec (.platenTimeout m) s =
      takeCommand m (fun s =>
        if s.turner.runsStage .platenRise then stageExpires .platenRise .platenTimeout s
        else stageExpires .platenLower .platenTimeout s) s := rfl

theorem exec_gripTimeout (m : Moment) (s : State) :
    exec (.gripTimeout m) s =
      takeCommand m (fun s =>
        if s.turner.runsStage .grip ∧ s.turner.timerDue s.now then retryable .gripFail s else s) s := rfl

theorem exec_liftTimeout (m : Moment) (s : State) :
    exec (.liftTimeout m) s =
      takeCommand m (stageExpires .lift .liftTimeout) s := rfl

theorem exec_sweepTimeout (m : Moment) (s : State) :
    exec (.sweepTimeout m) s =
      takeCommand m (stageExpires .sweep .sweepTimeout) s := rfl

theorem exec_returnTimeout (m : Moment) (s : State) :
    exec (.returnTimeout m) s =
      takeCommand m (fun s =>
        if (s.turner.runsStage .returning || s.turner.sub == .retryPause) && s.turner.timerDue s.now then
          endTurn .returnTimeout s
        else s) s := rfl

theorem exec_knifePulseElapsed (m : Moment) (s : State) :
    exec (.knifePulseElapsed m) s =
      takeCommand m (fun s =>
        if s.turner.runsStage .separate ∧ s.turner.timeDue s.now then enterGrip s else s) s := rfl

theorem exec_retryPauseElapsed (m : Moment) (s : State) :
    exec (.retryPauseElapsed m) s =
      takeCommand m (fun s => if s.turner.sub = .retryPause then checkRetryPause s else s) s := rfl

theorem exec_releaseElapsed (m : Moment) (s : State) :
    exec (.releaseElapsed m) s =
      takeCommand m (fun s =>
        if s.turner.runsStage .release ∧ s.turner.timeDue s.now then enterReturn s else s) s := rfl

theorem exec_settleElapsed (m : Moment) (s : State) :
    exec (.settleElapsed m) s =
      takeCommand m (fun s =>
        if s.turner.runsStage .settle ∧ s.turner.timeDue s.now then completeTurn s else s) s := rfl

end Sys2Proof.Machine
end

