-- ==== Sys2Proof/Laws/State.lean ====
section
/-! SUPPORT. One lemma per field of State per update, true by unfolding. -/

namespace Sys2Proof.Machine

set_option Elab.async false

section
variable (f : Cycle → Cycle) (s : State)

@[simp] theorem updCycle_pending : (updCycle f s).pending = s.pending := rfl
@[simp] theorem updCycle_now : (updCycle f s).now = s.now := rfl
@[simp] theorem updCycle_out : (updCycle f s).out = s.out := rfl
@[simp] theorem updCycle_lines : (updCycle f s).lines = s.lines := rfl
@[simp] theorem updCycle_start : (updCycle f s).start = s.start := rfl
@[simp] theorem updCycle_transit : (updCycle f s).transit = s.transit := rfl
@[simp] theorem updCycle_req : (updCycle f s).req = s.req := rfl
@[simp] theorem updCycle_vols : (updCycle f s).vols = s.vols := rfl
@[simp] theorem updCycle_log : (updCycle f s).log = s.log := rfl
@[simp] theorem updCycle_cycle : (updCycle f s).cycle = f s.cycle := rfl
@[simp] theorem updCycle_turner : (updCycle f s).turner = s.turner := rfl
@[simp] theorem updCycle_light : (updCycle f s).light = s.light := rfl
@[simp] theorem updCycle_intake : (updCycle f s).intake = s.intake := rfl

end

section
variable (f : RunRecord → RunRecord) (s : State)

@[simp] theorem updRun_pending : (updRun f s).pending = s.pending := rfl
@[simp] theorem updRun_now : (updRun f s).now = s.now := rfl
@[simp] theorem updRun_out : (updRun f s).out = s.out := rfl
@[simp] theorem updRun_lines : (updRun f s).lines = s.lines := rfl
@[simp] theorem updRun_start : (updRun f s).start = s.start := rfl
@[simp] theorem updRun_transit : (updRun f s).transit = s.transit := rfl
@[simp] theorem updRun_req : (updRun f s).req = s.req := rfl
@[simp] theorem updRun_vols : (updRun f s).vols = s.vols := rfl
@[simp] theorem updRun_log : (updRun f s).log = s.log := rfl
@[simp] theorem updRun_cycle : (updRun f s).cycle = { s.cycle with run := s.cycle.run.map f } := rfl
@[simp] theorem updRun_turner : (updRun f s).turner = s.turner := rfl
@[simp] theorem updRun_light : (updRun f s).light = s.light := rfl
@[simp] theorem updRun_intake : (updRun f s).intake = s.intake := rfl

end

section
variable (f : OpeningRecord → OpeningRecord) (s : State)

@[simp] theorem updOpening_pending : (updOpening f s).pending = s.pending := rfl
@[simp] theorem updOpening_now : (updOpening f s).now = s.now := rfl
@[simp] theorem updOpening_out : (updOpening f s).out = s.out := rfl
@[simp] theorem updOpening_lines : (updOpening f s).lines = s.lines := rfl
@[simp] theorem updOpening_start : (updOpening f s).start = s.start := rfl
@[simp] theorem updOpening_transit : (updOpening f s).transit = s.transit := rfl
@[simp] theorem updOpening_req : (updOpening f s).req = s.req := rfl
@[simp] theorem updOpening_vols : (updOpening f s).vols = s.vols := rfl
@[simp] theorem updOpening_log : (updOpening f s).log = s.log := rfl
@[simp] theorem updOpening_cycle : (updOpening f s).cycle = { s.cycle with opening := s.cycle.opening.map f } := rfl
@[simp] theorem updOpening_turner : (updOpening f s).turner = s.turner := rfl
@[simp] theorem updOpening_light : (updOpening f s).light = s.light := rfl
@[simp] theorem updOpening_intake : (updOpening f s).intake = s.intake := rfl

end

section
variable (st : CycleState) (sub : SubCondition) (s : State)

@[simp] theorem enterCycle_pending : (enterCycle st sub s).pending = s.pending := rfl
@[simp] theorem enterCycle_now : (enterCycle st sub s).now = s.now := rfl
@[simp] theorem enterCycle_out : (enterCycle st sub s).out = s.out := rfl
@[simp] theorem enterCycle_lines : (enterCycle st sub s).lines = s.lines := rfl
@[simp] theorem enterCycle_start : (enterCycle st sub s).start = s.start := rfl
@[simp] theorem enterCycle_transit : (enterCycle st sub s).transit = s.transit := rfl
@[simp] theorem enterCycle_req : (enterCycle st sub s).req = s.req := rfl
@[simp] theorem enterCycle_vols : (enterCycle st sub s).vols = s.vols := rfl
@[simp] theorem enterCycle_log : (enterCycle st sub s).log = s.log := rfl
@[simp] theorem enterCycle_cycle : (enterCycle st sub s).cycle = { s.cycle with state := st, sub := sub } := rfl
@[simp] theorem enterCycle_turner : (enterCycle st sub s).turner = s.turner := rfl
@[simp] theorem enterCycle_light : (enterCycle st sub s).light = s.light := rfl
@[simp] theorem enterCycle_intake : (enterCycle st sub s).intake = s.intake := rfl

end

section
variable (f : Calibration → Calibration) (s : State)

@[simp] theorem updCal_pending : (updCal f s).pending = s.pending := rfl
@[simp] theorem updCal_now : (updCal f s).now = s.now := rfl
@[simp] theorem updCal_out : (updCal f s).out = s.out := rfl
@[simp] theorem updCal_lines : (updCal f s).lines = s.lines := rfl
@[simp] theorem updCal_start : (updCal f s).start = s.start := rfl
@[simp] theorem updCal_transit : (updCal f s).transit = s.transit := rfl
@[simp] theorem updCal_req : (updCal f s).req = s.req := rfl
@[simp] theorem updCal_vols : (updCal f s).vols = s.vols := rfl
@[simp] theorem updCal_log : (updCal f s).log = s.log := rfl
@[simp] theorem updCal_cycle : (updCal f s).cycle = { s.cycle with cal := s.cycle.cal.map f } := rfl
@[simp] theorem updCal_turner : (updCal f s).turner = s.turner := rfl
@[simp] theorem updCal_light : (updCal f s).light = s.light := rfl
@[simp] theorem updCal_intake : (updCal f s).intake = s.intake := rfl

end

section
variable (f : Turner → Turner) (s : State)

@[simp] theorem updTurner_pending : (updTurner f s).pending = s.pending := rfl
@[simp] theorem updTurner_now : (updTurner f s).now = s.now := rfl
@[simp] theorem updTurner_out : (updTurner f s).out = s.out := rfl
@[simp] theorem updTurner_lines : (updTurner f s).lines = s.lines := rfl
@[simp] theorem updTurner_start : (updTurner f s).start = s.start := rfl
@[simp] theorem updTurner_transit : (updTurner f s).transit = s.transit := rfl
@[simp] theorem updTurner_req : (updTurner f s).req = s.req := rfl
@[simp] theorem updTurner_vols : (updTurner f s).vols = s.vols := rfl
@[simp] theorem updTurner_log : (updTurner f s).log = s.log := rfl
@[simp] theorem updTurner_cycle : (updTurner f s).cycle = s.cycle := rfl
@[simp] theorem updTurner_turner : (updTurner f s).turner = f s.turner := rfl
@[simp] theorem updTurner_light : (updTurner f s).light = s.light := rfl
@[simp] theorem updTurner_intake : (updTurner f s).intake = s.intake := rfl

end

section
variable (f : Exposure → Exposure) (s : State)

@[simp] theorem updExposure_pending : (updExposure f s).pending = s.pending := rfl
@[simp] theorem updExposure_now : (updExposure f s).now = s.now := rfl
@[simp] theorem updExposure_out : (updExposure f s).out = s.out := rfl
@[simp] theorem updExposure_lines : (updExposure f s).lines = s.lines := rfl
@[simp] theorem updExposure_start : (updExposure f s).start = s.start := rfl
@[simp] theorem updExposure_transit : (updExposure f s).transit = s.transit := rfl
@[simp] theorem updExposure_req : (updExposure f s).req = s.req := rfl
@[simp] theorem updExposure_vols : (updExposure f s).vols = s.vols := rfl
@[simp] theorem updExposure_log : (updExposure f s).log = s.log := rfl
@[simp] theorem updExposure_cycle : (updExposure f s).cycle = s.cycle := rfl
@[simp] theorem updExposure_turner : (updExposure f s).turner = s.turner := rfl
@[simp] theorem updExposure_light : (updExposure f s).light = { s.light with exposure := f s.light.exposure } := rfl
@[simp] theorem updExposure_intake : (updExposure f s).intake = s.intake := rfl

end

section
variable (f : Nat → Channel → Channel) (s : State)

@[simp] theorem mapChannels_pending : (mapChannels f s).pending = s.pending := rfl
@[simp] theorem mapChannels_now : (mapChannels f s).now = s.now := rfl
@[simp] theorem mapChannels_out : (mapChannels f s).out = s.out := rfl
@[simp] theorem mapChannels_lines : (mapChannels f s).lines = s.lines := rfl
@[simp] theorem mapChannels_start : (mapChannels f s).start = s.start := rfl
@[simp] theorem mapChannels_transit : (mapChannels f s).transit = s.transit := rfl
@[simp] theorem mapChannels_req : (mapChannels f s).req = s.req := rfl
@[simp] theorem mapChannels_vols : (mapChannels f s).vols = s.vols := rfl
@[simp] theorem mapChannels_log : (mapChannels f s).log = s.log := rfl
@[simp] theorem mapChannels_cycle : (mapChannels f s).cycle = s.cycle := rfl
@[simp] theorem mapChannels_turner : (mapChannels f s).turner = s.turner := rfl
@[simp] theorem mapChannels_light : (mapChannels f s).light = { s.light with channels := s.light.channels.mapIdx f } := rfl
@[simp] theorem mapChannels_intake : (mapChannels f s).intake = s.intake := rfl

end

section
variable (c : Camera) (f : CamState → CamState) (s : State)

@[simp] theorem updCam_pending : (updCam c f s).pending = s.pending := rfl
@[simp] theorem updCam_now : (updCam c f s).now = s.now := rfl
@[simp] theorem updCam_out : (updCam c f s).out = s.out := rfl
@[simp] theorem updCam_lines : (updCam c f s).lines = s.lines := rfl
@[simp] theorem updCam_start : (updCam c f s).start = s.start := rfl
@[simp] theorem updCam_transit : (updCam c f s).transit = s.transit := rfl
@[simp] theorem updCam_req : (updCam c f s).req = s.req := rfl
@[simp] theorem updCam_vols : (updCam c f s).vols = s.vols := rfl
@[simp] theorem updCam_log : (updCam c f s).log = s.log := rfl
@[simp] theorem updCam_cycle : (updCam c f s).cycle = s.cycle := rfl
@[simp] theorem updCam_turner : (updCam c f s).turner = s.turner := rfl
@[simp] theorem updCam_light : (updCam c f s).light = s.light := rfl
@[simp] theorem updCam_intake : (updCam c f s).intake = { s.intake with cams := s.intake.cams.set c (f (s.intake.cams.get c)) } := rfl

end

section
variable (f : Lines → Lines) (s : State)

@[simp] theorem setLines_pending : (setLines f s).pending = s.pending := rfl
@[simp] theorem setLines_now : (setLines f s).now = s.now := rfl
@[simp] theorem setLines_out : (setLines f s).out = s.out := rfl
@[simp] theorem setLines_lines : (setLines f s).lines = f s.lines := rfl
@[simp] theorem setLines_start : (setLines f s).start = s.start := rfl
@[simp] theorem setLines_transit : (setLines f s).transit = s.transit := rfl
@[simp] theorem setLines_req : (setLines f s).req = s.req := rfl
@[simp] theorem setLines_vols : (setLines f s).vols = s.vols := rfl
@[simp] theorem setLines_log : (setLines f s).log = s.log := rfl
@[simp] theorem setLines_cycle : (setLines f s).cycle = s.cycle := rfl
@[simp] theorem setLines_turner : (setLines f s).turner = s.turner := rfl
@[simp] theorem setLines_light : (setLines f s).light = s.light := rfl
@[simp] theorem setLines_intake : (setLines f s).intake = s.intake := rfl

end

section
variable (f : Start → Start) (s : State)

@[simp] theorem updStart_pending : (updStart f s).pending = s.pending := rfl
@[simp] theorem updStart_now : (updStart f s).now = s.now := rfl
@[simp] theorem updStart_out : (updStart f s).out = s.out := rfl
@[simp] theorem updStart_lines : (updStart f s).lines = s.lines := rfl
@[simp] theorem updStart_start : (updStart f s).start = f s.start := rfl
@[simp] theorem updStart_transit : (updStart f s).transit = s.transit := rfl
@[simp] theorem updStart_req : (updStart f s).req = s.req := rfl
@[simp] theorem updStart_vols : (updStart f s).vols = s.vols := rfl
@[simp] theorem updStart_log : (updStart f s).log = s.log := rfl
@[simp] theorem updStart_cycle : (updStart f s).cycle = s.cycle := rfl
@[simp] theorem updStart_turner : (updStart f s).turner = s.turner := rfl
@[simp] theorem updStart_light : (updStart f s).light = s.light := rfl
@[simp] theorem updStart_intake : (updStart f s).intake = s.intake := rfl

end

section
variable (p : Option Snapshot) (s : State)

@[simp] theorem setSnapshot_pending : (setSnapshot p s).pending = s.pending := rfl
@[simp] theorem setSnapshot_now : (setSnapshot p s).now = s.now := rfl
@[simp] theorem setSnapshot_out : (setSnapshot p s).out = s.out := rfl
@[simp] theorem setSnapshot_lines : (setSnapshot p s).lines = s.lines := rfl
@[simp] theorem setSnapshot_start : (setSnapshot p s).start = s.start := rfl
@[simp] theorem setSnapshot_transit : (setSnapshot p s).transit = s.transit := rfl
@[simp] theorem setSnapshot_req : (setSnapshot p s).req = s.req := rfl
@[simp] theorem setSnapshot_vols : (setSnapshot p s).vols = { s.vols with snapshot := p } := rfl
@[simp] theorem setSnapshot_log : (setSnapshot p s).log = s.log := rfl
@[simp] theorem setSnapshot_cycle : (setSnapshot p s).cycle = s.cycle := rfl
@[simp] theorem setSnapshot_turner : (setSnapshot p s).turner = s.turner := rfl
@[simp] theorem setSnapshot_light : (setSnapshot p s).light = s.light := rfl
@[simp] theorem setSnapshot_intake : (setSnapshot p s).intake = s.intake := rfl

end

section
variable (x : Txn) (r : Response) (s : State)

@[simp] theorem respond_pending : (respond x r s).pending = s.pending := rfl
@[simp] theorem respond_now : (respond x r s).now = s.now := rfl
@[simp] theorem respond_out : (respond x r s).out = s.out ++ [(x, r)] := rfl
@[simp] theorem respond_lines : (respond x r s).lines = s.lines := rfl
@[simp] theorem respond_start : (respond x r s).start = s.start := rfl
@[simp] theorem respond_transit : (respond x r s).transit = s.transit := rfl
@[simp] theorem respond_req : (respond x r s).req = s.req := rfl
@[simp] theorem respond_vols : (respond x r s).vols = s.vols := rfl
@[simp] theorem respond_log : (respond x r s).log = s.log := rfl
@[simp] theorem respond_cycle : (respond x r s).cycle = s.cycle := rfl
@[simp] theorem respond_turner : (respond x r s).turner = s.turner := rfl
@[simp] theorem respond_light : (respond x r s).light = s.light := rfl
@[simp] theorem respond_intake : (respond x r s).intake = s.intake := rfl

end

section
variable (addr : Nat) (content : Option Line) (origin : Origin) (id : Nat) (s : State)

@[simp] theorem enqueue_pending : (enqueue addr content origin id s).pending = s.pending := rfl
@[simp] theorem enqueue_now : (enqueue addr content origin id s).now = s.now := rfl
@[simp] theorem enqueue_out : (enqueue addr content origin id s).out = s.out := rfl
@[simp] theorem enqueue_lines : (enqueue addr content origin id s).lines = s.lines := rfl
@[simp] theorem enqueue_start : (enqueue addr content origin id s).start = s.start := rfl
@[simp] theorem enqueue_transit : (enqueue addr content origin id s).transit = { s.transit with queue := s.transit.queue ++ [⟨id, addr, content, origin⟩] } := rfl
@[simp] theorem enqueue_req : (enqueue addr content origin id s).req = s.req := rfl
@[simp] theorem enqueue_vols : (enqueue addr content origin id s).vols = s.vols := rfl
@[simp] theorem enqueue_log : (enqueue addr content origin id s).log = s.log := rfl
@[simp] theorem enqueue_cycle : (enqueue addr content origin id s).cycle = s.cycle := rfl
@[simp] theorem enqueue_turner : (enqueue addr content origin id s).turner = s.turner := rfl
@[simp] theorem enqueue_light : (enqueue addr content origin id s).light = s.light := rfl
@[simp] theorem enqueue_intake : (enqueue addr content origin id s).intake = s.intake := rfl

end

section
variable (w : Waiting) (id : Nat) (s : State)

@[simp] theorem waitFor_pending : (waitFor w id s).pending = s.pending := rfl
@[simp] theorem waitFor_now : (waitFor w id s).now = s.now := rfl
@[simp] theorem waitFor_out : (waitFor w id s).out = s.out := rfl
@[simp] theorem waitFor_lines : (waitFor w id s).lines = s.lines := rfl
@[simp] theorem waitFor_start : (waitFor w id s).start = s.start := rfl
@[simp] theorem waitFor_transit : (waitFor w id s).transit = { s.transit with wait := s.transit.wait ++ [⟨id, w⟩] } := rfl
@[simp] theorem waitFor_req : (waitFor w id s).req = s.req := rfl
@[simp] theorem waitFor_vols : (waitFor w id s).vols = s.vols := rfl
@[simp] theorem waitFor_log : (waitFor w id s).log = s.log := rfl
@[simp] theorem waitFor_cycle : (waitFor w id s).cycle = s.cycle := rfl
@[simp] theorem waitFor_turner : (waitFor w id s).turner = s.turner := rfl
@[simp] theorem waitFor_light : (waitFor w id s).light = s.light := rfl
@[simp] theorem waitFor_intake : (waitFor w id s).intake = s.intake := rfl

end

section
variable (s : State)

@[simp] theorem bumpId_pending : (bumpId s).pending = s.pending := rfl
@[simp] theorem bumpId_now : (bumpId s).now = s.now := rfl
@[simp] theorem bumpId_out : (bumpId s).out = s.out := rfl
@[simp] theorem bumpId_lines : (bumpId s).lines = s.lines := rfl
@[simp] theorem bumpId_start : (bumpId s).start = s.start := rfl
@[simp] theorem bumpId_transit : (bumpId s).transit = { s.transit with nextId := s.transit.nextId + 1 } := rfl
@[simp] theorem bumpId_req : (bumpId s).req = s.req := rfl
@[simp] theorem bumpId_vols : (bumpId s).vols = s.vols := rfl
@[simp] theorem bumpId_log : (bumpId s).log = s.log := rfl
@[simp] theorem bumpId_cycle : (bumpId s).cycle = s.cycle := rfl
@[simp] theorem bumpId_turner : (bumpId s).turner = s.turner := rfl
@[simp] theorem bumpId_light : (bumpId s).light = s.light := rfl
@[simp] theorem bumpId_intake : (bumpId s).intake = s.intake := rfl

end

section
variable (s : State)

@[simp] theorem bumpSeq_pending : (bumpSeq s).pending = s.pending := rfl
@[simp] theorem bumpSeq_now : (bumpSeq s).now = s.now := rfl
@[simp] theorem bumpSeq_out : (bumpSeq s).out = s.out := rfl
@[simp] theorem bumpSeq_lines : (bumpSeq s).lines = s.lines := rfl
@[simp] theorem bumpSeq_start : (bumpSeq s).start = s.start := rfl
@[simp] theorem bumpSeq_transit : (bumpSeq s).transit = { s.transit with nextSeq := s.transit.nextSeq + 1 } := rfl
@[simp] theorem bumpSeq_req : (bumpSeq s).req = s.req := rfl
@[simp] theorem bumpSeq_vols : (bumpSeq s).vols = s.vols := rfl
@[simp] theorem bumpSeq_log : (bumpSeq s).log = s.log := rfl
@[simp] theorem bumpSeq_cycle : (bumpSeq s).cycle = s.cycle := rfl
@[simp] theorem bumpSeq_turner : (bumpSeq s).turner = s.turner := rfl
@[simp] theorem bumpSeq_light : (bumpSeq s).light = s.light := rfl
@[simp] theorem bumpSeq_intake : (bumpSeq s).intake = s.intake := rfl

end

section
variable (p : Passed) (s : State)

@[simp] theorem forward_pending : (forward p s).pending = s.pending := rfl
@[simp] theorem forward_now : (forward p s).now = s.now := rfl
@[simp] theorem forward_out : (forward p s).out = s.out := rfl
@[simp] theorem forward_lines : (forward p s).lines = s.lines := rfl
@[simp] theorem forward_start : (forward p s).start = s.start := rfl
@[simp] theorem forward_transit : (forward p s).transit = { s.transit with stream := s.transit.stream ++ [p] } := rfl
@[simp] theorem forward_req : (forward p s).req = s.req := rfl
@[simp] theorem forward_vols : (forward p s).vols = s.vols := rfl
@[simp] theorem forward_log : (forward p s).log = s.log := rfl
@[simp] theorem forward_cycle : (forward p s).cycle = s.cycle := rfl
@[simp] theorem forward_turner : (forward p s).turner = s.turner := rfl
@[simp] theorem forward_light : (forward p s).light = s.light := rfl
@[simp] theorem forward_intake : (forward p s).intake = s.intake := rfl

end

section
variable (c : Claimant) (i : Issued) (s : State)

@[simp] theorem issue_pending : (issue c i s).pending = s.pending := rfl
@[simp] theorem issue_now : (issue c i s).now = s.now := rfl
@[simp] theorem issue_out : (issue c i s).out = s.out := rfl
@[simp] theorem issue_lines : (issue c i s).lines = s.lines := rfl
@[simp] theorem issue_start : (issue c i s).start = s.start := rfl
@[simp] theorem issue_transit : (issue c i s).transit = { s.transit with mark := c, outstanding := s.transit.outstanding ++ [i] } := rfl
@[simp] theorem issue_req : (issue c i s).req = s.req := rfl
@[simp] theorem issue_vols : (issue c i s).vols = s.vols := rfl
@[simp] theorem issue_log : (issue c i s).log = s.log := rfl
@[simp] theorem issue_cycle : (issue c i s).cycle = s.cycle := rfl
@[simp] theorem issue_turner : (issue c i s).turner = s.turner := rfl
@[simp] theorem issue_light : (issue c i s).light = s.light := rfl
@[simp] theorem issue_intake : (issue c i s).intake = s.intake := rfl

end

section
variable (k : Nat) (l : Line) (s : State)

@[simp] theorem setShown_pending : (setShown k l s).pending = s.pending := rfl
@[simp] theorem setShown_now : (setShown k l s).now = s.now := rfl
@[simp] theorem setShown_out : (setShown k l s).out = s.out := rfl
@[simp] theorem setShown_lines : (setShown k l s).lines = s.lines := rfl
@[simp] theorem setShown_start : (setShown k l s).start = s.start := rfl
@[simp] theorem setShown_transit : (setShown k l s).transit = s.transit := rfl
@[simp] theorem setShown_req : (setShown k l s).req = { s.req with shown := s.req.shown.set k (some l) } := rfl
@[simp] theorem setShown_vols : (setShown k l s).vols = s.vols := rfl
@[simp] theorem setShown_log : (setShown k l s).log = s.log := rfl
@[simp] theorem setShown_cycle : (setShown k l s).cycle = s.cycle := rfl
@[simp] theorem setShown_turner : (setShown k l s).turner = s.turner := rfl
@[simp] theorem setShown_light : (setShown k l s).light = s.light := rfl
@[simp] theorem setShown_intake : (setShown k l s).intake = s.intake := rfl

end

section
variable (k : Nat) (b : Bool) (s : State)

@[simp] theorem setDirty_pending : (setDirty k b s).pending = s.pending := rfl
@[simp] theorem setDirty_now : (setDirty k b s).now = s.now := rfl
@[simp] theorem setDirty_out : (setDirty k b s).out = s.out := rfl
@[simp] theorem setDirty_lines : (setDirty k b s).lines = s.lines := rfl
@[simp] theorem setDirty_start : (setDirty k b s).start = s.start := rfl
@[simp] theorem setDirty_transit : (setDirty k b s).transit = s.transit := rfl
@[simp] theorem setDirty_req : (setDirty k b s).req = { s.req with dirty := s.req.dirty.set k b } := rfl
@[simp] theorem setDirty_vols : (setDirty k b s).vols = s.vols := rfl
@[simp] theorem setDirty_log : (setDirty k b s).log = s.log := rfl
@[simp] theorem setDirty_cycle : (setDirty k b s).cycle = s.cycle := rfl
@[simp] theorem setDirty_turner : (setDirty k b s).turner = s.turner := rfl
@[simp] theorem setDirty_light : (setDirty k b s).light = s.light := rfl
@[simp] theorem setDirty_intake : (setDirty k b s).intake = s.intake := rfl

end

end Sys2Proof.Machine
end

