-- ==== Sys2Proof/Laws/Ops.lean ====
section
/-! SUPPORT. What the shared operations of Machine/Ops.lean can do, said once: paperwork changes nothing
but paperwork (`bare`), and the entries it leaves on their way (`wrote`). -/

namespace Sys2Proof.Machine

set_option Elab.async false

/-! ## `bare` -/

@[simp] theorem bare_bare (s : State) : s.bare.bare = s.bare := rfl

@[simp] theorem setShown_bare (k : Nat) (l : Line) (s : State) : (setShown k l s).bare = s.bare := rfl
@[simp] theorem setDirty_bare (k : Nat) (b : Bool) (s : State) : (setDirty k b s).bare = s.bare := rfl
@[simp] theorem enqueue_bare (a : Nat) (c : Option Line) (o : Origin) (i : Nat) (s : State) :
    (enqueue a c o i s).bare = s.bare := rfl
@[simp] theorem waitFor_bare (w : Waiting) (i : Nat) (s : State) : (waitFor w i s).bare = s.bare := rfl
@[simp] theorem bumpId_bare (s : State) : (bumpId s).bare = s.bare := rfl

@[simp] theorem placeWrite_bare (a : Nat) (l : Line) (o : Origin) (s : State) :
    (placeWrite a l o s).bare = s.bare := by
  unfold placeWrite; split <;> rfl

@[simp] theorem placeStatus_bare (k : Nat) (s : State) : (placeStatus k s).bare = s.bare := by
  unfold placeStatus; dsimp only; split
  · rfl
  · split
    · rfl
    · split <;> rfl

@[simp] theorem syncLine_bare (k : Nat) (s : State) : (syncLine k s).bare = s.bare := by
  unfold syncLine; split
  · rfl
  · split
    · rfl
    · simp

@[simp] theorem sync_bare (s : State) : (sync s).bare = s.bare := by simp [sync]

@[simp] theorem markNextAppend_bare (s : State) : (markNextAppend s).bare = s.bare := by
  unfold markNextAppend; split
  · rfl
  · dsimp only; rw [waitFor_bare, bumpId_bare, sync_bare]

@[simp] theorem placeEntry_bare (fs : Fields) (o : Origin) (s : State) :
    (placeEntry fs o s).bare = s.bare := by
  simp only [placeEntry, placeWrite_bare]; rfl

@[simp] theorem writeEntry_bare (fs : Fields) (o : Origin) (s : State) :
    (writeEntry fs o s).bare = s.bare := by simp [writeEntry]

@[simp] theorem notice_bare (k : NoticeKind) (c : Fields) (s : State) :
    (notice k c s).bare = s.bare := by simp [notice]
@[simp] theorem refuse_bare (t : Ticket) (r : Reason) (s : State) :
    (refuse t r s).bare = s.bare := by simp [refuse]
@[simp] theorem replyDone_bare (t : Ticket) (c : Bool) (fs : Fields) (s : State) :
    (replyDone t c fs s).bare = s.bare := by simp [replyDone]

/-! ## What paperwork leaves of the fields -/

section
variable {s t : State} (h : t.bare = s.bare)
include h
theorem bare_pending : t.pending = s.pending := by
  have e := congrArg State.pending h; exact e
theorem bare_now : t.now = s.now := by
  have e := congrArg State.now h; exact e
theorem bare_out : t.out = s.out := by
  have e := congrArg State.out h; exact e
theorem bare_lines : t.lines = s.lines := by
  have e := congrArg State.lines h; exact e
theorem bare_start : t.start = s.start := by
  have e := congrArg State.start h; exact e
theorem bare_vols : t.vols = s.vols := by
  have e := congrArg State.vols h; exact e
theorem bare_log : t.log = s.log := by
  have e := congrArg State.log h; exact e
theorem bare_cycle : t.cycle = s.cycle := by
  have e := congrArg State.cycle h; exact e
theorem bare_turner : t.turner = s.turner := by
  have e := congrArg State.turner h; exact e
theorem bare_light : t.light = s.light := by
  have e := congrArg State.light h; exact e
theorem bare_intake : t.intake = s.intake := by
  have e := congrArg State.intake h; exact e
theorem bare_map : t.transit.map = s.transit.map := by
  have e := congrArg (fun x => x.transit.map) h; exact e
theorem bare_stream : t.transit.stream = s.transit.stream := by
  have e := congrArg (fun x => x.transit.stream) h; exact e
theorem bare_holds : t.transit.holds = s.transit.holds := by
  have e := congrArg (fun x => x.transit.holds) h; exact e
theorem bare_outstanding : t.transit.outstanding = s.transit.outstanding := by
  have e := congrArg (fun x => x.transit.outstanding) h; exact e
end

section
variable (s : State)

@[simp] theorem sync_pending : (sync s).pending = s.pending := bare_pending (sync_bare s)
@[simp] theorem sync_now : (sync s).now = s.now := bare_now (sync_bare s)
@[simp] theorem sync_out : (sync s).out = s.out := bare_out (sync_bare s)
@[simp] theorem sync_lines : (sync s).lines = s.lines := bare_lines (sync_bare s)
@[simp] theorem sync_start : (sync s).start = s.start := bare_start (sync_bare s)
@[simp] theorem sync_vols : (sync s).vols = s.vols := bare_vols (sync_bare s)
@[simp] theorem sync_log : (sync s).log = s.log := bare_log (sync_bare s)
@[simp] theorem sync_cycle : (sync s).cycle = s.cycle := bare_cycle (sync_bare s)
@[simp] theorem sync_turner : (sync s).turner = s.turner := bare_turner (sync_bare s)
@[simp] theorem sync_light : (sync s).light = s.light := bare_light (sync_bare s)
@[simp] theorem sync_intake : (sync s).intake = s.intake := bare_intake (sync_bare s)
@[simp] theorem writeEntry_pending (fs : Fields) (o : Origin) : (writeEntry fs o s).pending = s.pending :=
  bare_pending (writeEntry_bare fs o s)
@[simp] theorem writeEntry_now (fs : Fields) (o : Origin) : (writeEntry fs o s).now = s.now :=
  bare_now (writeEntry_bare fs o s)
@[simp] theorem writeEntry_out (fs : Fields) (o : Origin) : (writeEntry fs o s).out = s.out :=
  bare_out (writeEntry_bare fs o s)
@[simp] theorem writeEntry_lines (fs : Fields) (o : Origin) : (writeEntry fs o s).lines = s.lines :=
  bare_lines (writeEntry_bare fs o s)
@[simp] theorem writeEntry_start (fs : Fields) (o : Origin) : (writeEntry fs o s).start = s.start :=
  bare_start (writeEntry_bare fs o s)
@[simp] theorem writeEntry_vols (fs : Fields) (o : Origin) : (writeEntry fs o s).vols = s.vols :=
  bare_vols (writeEntry_bare fs o s)
@[simp] theorem writeEntry_log (fs : Fields) (o : Origin) : (writeEntry fs o s).log = s.log :=
  bare_log (writeEntry_bare fs o s)
@[simp] theorem writeEntry_cycle (fs : Fields) (o : Origin) : (writeEntry fs o s).cycle = s.cycle :=
  bare_cycle (writeEntry_bare fs o s)
@[simp] theorem writeEntry_turner (fs : Fields) (o : Origin) : (writeEntry fs o s).turner = s.turner :=
  bare_turner (writeEntry_bare fs o s)
@[simp] theorem writeEntry_light (fs : Fields) (o : Origin) : (writeEntry fs o s).light = s.light :=
  bare_light (writeEntry_bare fs o s)
@[simp] theorem writeEntry_intake (fs : Fields) (o : Origin) : (writeEntry fs o s).intake = s.intake :=
  bare_intake (writeEntry_bare fs o s)
@[simp] theorem writeEntry_map (fs : Fields) (o : Origin) : (writeEntry fs o s).transit.map = s.transit.map :=
  bare_map (writeEntry_bare fs o s)
@[simp] theorem notice_pending (k : NoticeKind) (c : Fields) : (notice k c s).pending = s.pending :=
  bare_pending (notice_bare k c s)
@[simp] theorem notice_now (k : NoticeKind) (c : Fields) : (notice k c s).now = s.now :=
  bare_now (notice_bare k c s)
@[simp] theorem notice_out (k : NoticeKind) (c : Fields) : (notice k c s).out = s.out :=
  bare_out (notice_bare k c s)
@[simp] theorem notice_lines (k : NoticeKind) (c : Fields) : (notice k c s).lines = s.lines :=
  bare_lines (notice_bare k c s)
@[simp] theorem notice_start (k : NoticeKind) (c : Fields) : (notice k c s).start = s.start :=
  bare_start (notice_bare k c s)
@[simp] theorem notice_vols (k : NoticeKind) (c : Fields) : (notice k c s).vols = s.vols :=
  bare_vols (notice_bare k c s)
@[simp] theorem notice_log (k : NoticeKind) (c : Fields) : (notice k c s).log = s.log :=
  bare_log (notice_bare k c s)
@[simp] theorem notice_cycle (k : NoticeKind) (c : Fields) : (notice k c s).cycle = s.cycle :=
  bare_cycle (notice_bare k c s)
@[simp] theorem notice_turner (k : NoticeKind) (c : Fields) : (notice k c s).turner = s.turner :=
  bare_turner (notice_bare k c s)
@[simp] theorem notice_light (k : NoticeKind) (c : Fields) : (notice k c s).light = s.light :=
  bare_light (notice_bare k c s)
@[simp] theorem notice_intake (k : NoticeKind) (c : Fields) : (notice k c s).intake = s.intake :=
  bare_intake (notice_bare k c s)
@[simp] theorem notice_map (k : NoticeKind) (c : Fields) : (notice k c s).transit.map = s.transit.map :=
  bare_map (notice_bare k c s)
@[simp] theorem refuse_pending (t : Ticket) (r : Reason) : (refuse t r s).pending = s.pending :=
  bare_pending (refuse_bare t r s)
@[simp] theorem refuse_now (t : Ticket) (r : Reason) : (refuse t r s).now = s.now :=
  bare_now (refuse_bare t r s)
@[simp] theorem refuse_out (t : Ticket) (r : Reason) : (refuse t r s).out = s.out :=
  bare_out (refuse_bare t r s)
@[simp] theorem refuse_lines (t : Ticket) (r : Reason) : (refuse t r s).lines = s.lines :=
  bare_lines (refuse_bare t r s)
@[simp] theorem refuse_start (t : Ticket) (r : Reason) : (refuse t r s).start = s.start :=
  bare_start (refuse_bare t r s)
@[simp] theorem refuse_vols (t : Ticket) (r : Reason) : (refuse t r s).vols = s.vols :=
  bare_vols (refuse_bare t r s)
@[simp] theorem refuse_log (t : Ticket) (r : Reason) : (refuse t r s).log = s.log :=
  bare_log (refuse_bare t r s)
@[simp] theorem refuse_cycle (t : Ticket) (r : Reason) : (refuse t r s).cycle = s.cycle :=
  bare_cycle (refuse_bare t r s)
@[simp] theorem refuse_turner (t : Ticket) (r : Reason) : (refuse t r s).turner = s.turner :=
  bare_turner (refuse_bare t r s)
@[simp] theorem refuse_light (t : Ticket) (r : Reason) : (refuse t r s).light = s.light :=
  bare_light (refuse_bare t r s)
@[simp] theorem refuse_intake (t : Ticket) (r : Reason) : (refuse t r s).intake = s.intake :=
  bare_intake (refuse_bare t r s)
@[simp] theorem refuse_map (t : Ticket) (r : Reason) : (refuse t r s).transit.map = s.transit.map :=
  bare_map (refuse_bare t r s)
@[simp] theorem replyDone_pending (t : Ticket) (c : Bool)
    (fs : Fields) : (replyDone t c fs s).pending = s.pending :=
  bare_pending (replyDone_bare t c fs s)
@[simp] theorem replyDone_now (t : Ticket) (c : Bool) (fs : Fields) : (replyDone t c fs s).now = s.now :=
  bare_now (replyDone_bare t c fs s)
@[simp] theorem replyDone_out (t : Ticket) (c : Bool) (fs : Fields) : (replyDone t c fs s).out = s.out :=
  bare_out (replyDone_bare t c fs s)
@[simp] theorem replyDone_lines (t : Ticket) (c : Bool) (fs : Fields) : (replyDone t c fs s).lines = s.lines :=
  bare_lines (replyDone_bare t c fs s)
@[simp] theorem replyDone_start (t : Ticket) (c : Bool) (fs : Fields) : (replyDone t c fs s).start = s.start :=
  bare_start (replyDone_bare t c fs s)
@[simp] theorem replyDone_vols (t : Ticket) (c : Bool) (fs : Fields) : (replyDone t c fs s).vols = s.vols :=
  bare_vols (replyDone_bare t c fs s)
@[simp] theorem replyDone_log (t : Ticket) (c : Bool) (fs : Fields) : (replyDone t c fs s).log = s.log :=
  bare_log (replyDone_bare t c fs s)
@[simp] theorem replyDone_cycle (t : Ticket) (c : Bool) (fs : Fields) : (replyDone t c fs s).cycle = s.cycle :=
  bare_cycle (replyDone_bare t c fs s)
@[simp] theorem replyDone_turner (t : Ticket) (c : Bool) (fs : Fields) : (replyDone t c fs s).turner = s.turner :=
  bare_turner (replyDone_bare t c fs s)
@[simp] theorem replyDone_light (t : Ticket) (c : Bool) (fs : Fields) : (replyDone t c fs s).light = s.light :=
  bare_light (replyDone_bare t c fs s)
@[simp] theorem replyDone_intake (t : Ticket) (c : Bool) (fs : Fields) : (replyDone t c fs s).intake = s.intake :=
  bare_intake (replyDone_bare t c fs s)
@[simp] theorem replyDone_map (t : Ticket) (c : Bool)
    (fs : Fields) : (replyDone t c fs s).transit.map = s.transit.map :=
  bare_map (replyDone_bare t c fs s)
@[simp] theorem placeStatus_pending (k : Nat) : (placeStatus k s).pending = s.pending :=
  bare_pending (placeStatus_bare k s)
@[simp] theorem placeStatus_now (k : Nat) : (placeStatus k s).now = s.now :=
  bare_now (placeStatus_bare k s)
@[simp] theorem placeStatus_out (k : Nat) : (placeStatus k s).out = s.out :=
  bare_out (placeStatus_bare k s)
@[simp] theorem placeStatus_lines (k : Nat) : (placeStatus k s).lines = s.lines :=
  bare_lines (placeStatus_bare k s)
@[simp] theorem placeStatus_start (k : Nat) : (placeStatus k s).start = s.start :=
  bare_start (placeStatus_bare k s)
@[simp] theorem placeStatus_vols (k : Nat) : (placeStatus k s).vols = s.vols :=
  bare_vols (placeStatus_bare k s)
@[simp] theorem placeStatus_log (k : Nat) : (placeStatus k s).log = s.log :=
  bare_log (placeStatus_bare k s)
@[simp] theorem placeStatus_cycle (k : Nat) : (placeStatus k s).cycle = s.cycle :=
  bare_cycle (placeStatus_bare k s)
@[simp] theorem placeStatus_turner (k : Nat) : (placeStatus k s).turner = s.turner :=
  bare_turner (placeStatus_bare k s)
@[simp] theorem placeStatus_light (k : Nat) : (placeStatus k s).light = s.light :=
  bare_light (placeStatus_bare k s)
@[simp] theorem placeStatus_intake (k : Nat) : (placeStatus k s).intake = s.intake :=
  bare_intake (placeStatus_bare k s)
@[simp] theorem placeStatus_map (k : Nat) : (placeStatus k s).transit.map = s.transit.map :=
  bare_map (placeStatus_bare k s)
@[simp] theorem placeWrite_pending (a : Nat) (l : Line) (o : Origin) : (placeWrite a l o s).pending = s.pending :=
  bare_pending (placeWrite_bare a l o s)
@[simp] theorem placeWrite_now (a : Nat) (l : Line) (o : Origin) : (placeWrite a l o s).now = s.now :=
  bare_now (placeWrite_bare a l o s)
@[simp] theorem placeWrite_out (a : Nat) (l : Line) (o : Origin) : (placeWrite a l o s).out = s.out :=
  bare_out (placeWrite_bare a l o s)
@[simp] theorem placeWrite_lines (a : Nat) (l : Line) (o : Origin) : (placeWrite a l o s).lines = s.lines :=
  bare_lines (placeWrite_bare a l o s)
@[simp] theorem placeWrite_start (a : Nat) (l : Line) (o : Origin) : (placeWrite a l o s).start = s.start :=
  bare_start (placeWrite_bare a l o s)
@[simp] theorem placeWrite_vols (a : Nat) (l : Line) (o : Origin) : (placeWrite a l o s).vols = s.vols :=
  bare_vols (placeWrite_bare a l o s)
@[simp] theorem placeWrite_log (a : Nat) (l : Line) (o : Origin) : (placeWrite a l o s).log = s.log :=
  bare_log (placeWrite_bare a l o s)
@[simp] theorem placeWrite_cycle (a : Nat) (l : Line) (o : Origin) : (placeWrite a l o s).cycle = s.cycle :=
  bare_cycle (placeWrite_bare a l o s)
@[simp] theorem placeWrite_turner (a : Nat) (l : Line) (o : Origin) : (placeWrite a l o s).turner = s.turner :=
  bare_turner (placeWrite_bare a l o s)
@[simp] theorem placeWrite_light (a : Nat) (l : Line) (o : Origin) : (placeWrite a l o s).light = s.light :=
  bare_light (placeWrite_bare a l o s)
@[simp] theorem placeWrite_intake (a : Nat) (l : Line) (o : Origin) : (placeWrite a l o s).intake = s.intake :=
  bare_intake (placeWrite_bare a l o s)
@[simp] theorem placeWrite_map (a : Nat) (l : Line)
    (o : Origin) : (placeWrite a l o s).transit.map = s.transit.map :=
  bare_map (placeWrite_bare a l o s)
@[simp] theorem sync_map : (sync s).transit.map = s.transit.map := bare_map (sync_bare s)

end

/-! ## Entries on their way -/

/-- What `carries` and `wrote` read of a state. -/
theorem wrote_congr {s t : State} (hq : t.transit.queue = s.transit.queue)
    (hw : t.transit.wait = s.transit.wait) (hm : t.transit.map = s.transit.map)
    (hn : t.req.newest = s.req.newest) : ∀ (fs : List Fields) (n : Nat), s.wrote n fs → t.wrote n fs
  | [], _, h => hn.trans h
  | _ :: fs, _, ⟨hc, hr⟩ => by
    refine ⟨?_, wrote_congr hq hw hm hn fs _ hr⟩
    simpa only [State.carries, State.entryAddr, hq, hw, hm] using hc

/-- Own items are only added, and the newest number stays: what was written stays written. -/
theorem wrote_mono {s t : State} (hc : ∀ a l, s.carries a l → t.carries a l)
    (hm : t.transit.map = s.transit.map) (hn : t.req.newest = s.req.newest) :
    ∀ (fs : List Fields) (n : Nat), s.wrote n fs → t.wrote n fs
  | [], _, h => hn.trans h
  | _ :: fs, _, ⟨h, hr⟩ => by
    refine ⟨?_, wrote_mono hc hm hn fs _ hr⟩
    have := hc _ _ h
    simpa only [State.entryAddr, hm] using this

theorem enqueue_carries (a : Nat) (c : Option Line) (o : Origin) (i : Nat) (s : State) {b : Nat}
    {l : Line} (h : s.carries b l) : (enqueue a c o i s).carries b l := by
  obtain ⟨k, hk⟩ | ⟨k, hk⟩ := h
  · exact .inl ⟨k, by simp [hk]⟩
  · exact .inr ⟨k, by simpa using hk⟩

theorem waitFor_carries (w : Waiting) (i : Nat) (s : State) {b : Nat} {l : Line} (h : s.carries b l) :
    (waitFor w i s).carries b l := by
  obtain ⟨k, hk⟩ | ⟨k, hk⟩ := h
  · exact .inl ⟨k, by simpa using hk⟩
  · exact .inr ⟨k, by simp [hk]⟩

/-- A state with the same own items carries the same. -/
theorem carries_congr {s t : State} (hq : t.transit.queue = s.transit.queue)
    (hw : t.transit.wait = s.transit.wait) {b : Nat} {l : Line} (h : s.carries b l) : t.carries b l := by
  simpa only [State.carries, hq, hw] using h

theorem bumpId_carries (s : State) {b : Nat} {l : Line} (h : s.carries b l) : (bumpId s).carries b l :=
  carries_congr rfl rfl h

theorem placeWrite_keeps (a : Nat) (c : Line) (o : Origin) (s : State) {b : Nat} {l : Line}
    (h : s.carries b l) : (placeWrite a c o s).carries b l := by
  unfold placeWrite; split
  · exact enqueue_carries _ _ _ _ _ (bumpId_carries s h)
  · exact waitFor_carries _ _ _ (bumpId_carries s h)

theorem placeWrite_carries (a : Nat) (l : Line) (s : State) : (placeWrite a l .entry s).carries a l := by
  unfold placeWrite; split
  · exact .inl ⟨s.transit.nextId, by simp⟩
  · exact .inr ⟨s.transit.nextId, by simp⟩

@[simp] theorem placeWrite_req (a : Nat) (l : Line) (o : Origin) (s : State) :
    (placeWrite a l o s).req = s.req := by
  unfold placeWrite; split <;> rfl

theorem coalesce_entry (k : Nat) (l : Line) (i a : Nat) (c : Option Line) :
    coalesce k l ⟨i, a, c, .entry⟩ = ⟨i, a, c, .entry⟩ := by simp [coalesce]

theorem placeStatus_carries (k : Nat) (s : State) {b : Nat} {l : Line} (h : s.carries b l) :
    (placeStatus k s).carries b l := by
  unfold placeStatus; dsimp only; split
  · obtain ⟨j, hj⟩ | ⟨j, hj⟩ := h
    · exact .inl ⟨j, by simpa [coalesce_entry] using List.mem_map_of_mem (f := coalesce k (statusLine k s)) hj⟩
    · exact .inr ⟨j, by simpa using hj⟩
  · split
    · exact carries_congr rfl rfl h
    · split
      · exact carries_congr rfl rfl (enqueue_carries _ _ _ _ _ (bumpId_carries s h))
      · exact carries_congr rfl rfl (waitFor_carries _ _ _ h)

@[simp] theorem placeStatus_newest (k : Nat) (s : State) :
    (placeStatus k s).req.newest = s.req.newest := by
  unfold placeStatus; dsimp only; split
  · rfl
  · split
    · rfl
    · split <;> rfl

theorem syncLine_carries (k : Nat) (s : State) {b : Nat} {l : Line} (h : s.carries b l) :
    (syncLine k s).carries b l := by
  unfold syncLine; split
  · exact h
  · split
    · exact h
    · exact placeStatus_carries k s h

@[simp] theorem syncLine_newest (k : Nat) (s : State) : (syncLine k s).req.newest = s.req.newest := by
  unfold syncLine; split
  · rfl
  · split
    · rfl
    · simp

theorem sync_carries (s : State) {b : Nat} {l : Line} (h : s.carries b l) : (sync s).carries b l :=
  syncLine_carries _ _ (syncLine_carries _ _ (syncLine_carries _ _ (syncLine_carries _ _ h)))

@[simp] theorem sync_newest (s : State) : (sync s).req.newest = s.req.newest := by simp [sync]

theorem sync_wrote (s : State) {n : Nat} {fs : List Fields} (h : s.wrote n fs) : (sync s).wrote n fs :=
  wrote_mono (fun _ _ => sync_carries s) (sync_map s) (sync_newest s) fs n h

/-- Nothing written is the newest number as it stands. -/
theorem wrote_nil (s : State) : s.wrote s.req.newest [] := rfl

/-- An entry placed is the next of those written. -/
theorem placeEntry_wrote (f : Fields) (s : State) :
    ∀ (fs : List Fields) (n : Nat), s.wrote n fs → (placeEntry f .entry s).wrote n (fs ++ [f])
  | [], n, h => by
    have hn : s.req.newest = n := h
    refine ⟨?_, ?_⟩
    · simp only [placeEntry, hn]
      have := placeWrite_carries (s.entryAddr (satSucc n)) (compose ((0, u32 (satSucc n)) :: f))
      simpa [State.entryAddr] using this _
    · simp [placeEntry, State.wrote, hn]
  | g :: fs, n, ⟨hc, hr⟩ => by
    refine ⟨?_, placeEntry_wrote f s fs _ hr⟩
    have hm : (placeEntry f .entry s).transit.map = s.transit.map := bare_map (placeEntry_bare f .entry s)
    rw [State.entryAddr, hm]
    exact placeWrite_keeps _ _ _ _ (carries_congr rfl rfl hc)

/-- An entry written is the next of those written. -/
theorem writeEntry_wrote (f : Fields) (s : State) (fs : List Fields) (n : Nat) (h : s.wrote n fs) :
    (writeEntry f .entry s).wrote n (fs ++ [f]) :=
  sync_wrote _ (placeEntry_wrote f _ fs n (sync_wrote s h))

theorem replyDone_wrote (t : Ticket) (c : Bool) (r : Fields) (s : State) {fs : List Fields} {n : Nat}
    (h : s.wrote n fs) : (replyDone t c r s).wrote n (fs ++ [replyFields t .done 0 c false r]) :=
  writeEntry_wrote _ s fs n h

theorem refuse_wrote (t : Ticket) (r : Reason) (s : State) {fs : List Fields} {n : Nat}
    (h : s.wrote n fs) : (refuse t r s).wrote n (fs ++ [replyFields t .refused r.code false false []]) :=
  writeEntry_wrote _ s fs n h

theorem notice_wrote (k : NoticeKind) (c : Fields) (s : State) {fs : List Fields} {n : Nat}
    (h : s.wrote n fs) : (notice k c s).wrote n (fs ++ [noticeFields k c]) :=
  writeEntry_wrote _ s fs n h

end Sys2Proof.Machine
end

