-- ==== Sys2Proof/Laws/Clean.lean ====
section
/-! SUPPORT. Operations that do no paperwork (`Clean`), and what a state came to (`cameTo`) through them and
through the entries written between them. -/

namespace Sys2Proof.Machine

set_option Elab.async false

/-- An operation that reads and changes nothing of the part's paperwork. -/
structure Clean (f : State → State) : Prop where
  bare : ∀ s, (f s).bare = (f s.bare).bare
  queue : ∀ s, (f s).transit.queue = s.transit.queue
  wait : ∀ s, (f s).transit.wait = s.transit.wait
  map : ∀ s, (f s).transit.map = s.transit.map
  newest : ∀ s, (f s).req.newest = s.req.newest

theorem Clean.comp {f g : State → State} (hf : Clean f) (hg : Clean g) : Clean fun s => f (g s) :=
  ⟨fun s => by rw [hf.bare, hg.bare, ← hf.bare], fun s => (hf.queue _).trans (hg.queue s),
   fun s => (hf.wait _).trans (hg.wait s), fun s => (hf.map _).trans (hg.map s),
   fun s => (hf.newest _).trans (hg.newest s)⟩

theorem clean_id : Clean fun s => s := ⟨fun _ => rfl, fun _ => rfl, fun _ => rfl, fun _ => rfl, fun _ => rfl⟩

/-- A choice by a reading that sees no paperwork. -/
theorem clean_ite (c : State → Prop) [∀ s, Decidable (c s)] (hc : ∀ s, c s ↔ c s.bare)
    {f g : State → State} (hf : Clean f) (hg : Clean g) : Clean fun s => if c s then f s else g s := by
  refine ⟨fun s => ?_, fun s => ?_, fun s => ?_, fun s => ?_, fun s => ?_⟩
  · by_cases h : c s
    · rw [if_pos h, if_pos ((hc s).1 h)]; exact hf.bare s
    · rw [if_neg h, if_neg (fun k => h ((hc s).2 k))]; exact hg.bare s
  · split
    · exact hf.queue s
    · exact hg.queue s
  · split
    · exact hf.wait s
    · exact hg.wait s
  · split
    · exact hf.map s
    · exact hg.map s
  · split
    · exact hf.newest s
    · exact hg.newest s

theorem clean_setLines (f : Lines → Lines) : Clean (setLines f) :=
  ⟨fun _ => rfl, fun _ => rfl, fun _ => rfl, fun _ => rfl, fun _ => rfl⟩
theorem clean_updStart (f : Start → Start) : Clean (updStart f) :=
  ⟨fun _ => rfl, fun _ => rfl, fun _ => rfl, fun _ => rfl, fun _ => rfl⟩
theorem clean_updTurner (f : Turner → Turner) : Clean (updTurner f) :=
  ⟨fun _ => rfl, fun _ => rfl, fun _ => rfl, fun _ => rfl, fun _ => rfl⟩
theorem clean_updCycle (f : Cycle → Cycle) : Clean (updCycle f) :=
  ⟨fun _ => rfl, fun _ => rfl, fun _ => rfl, fun _ => rfl, fun _ => rfl⟩
theorem clean_updRun (f : RunRecord → RunRecord) : Clean (updRun f) :=
  ⟨fun _ => rfl, fun _ => rfl, fun _ => rfl, fun _ => rfl, fun _ => rfl⟩
theorem clean_updOpening (f : OpeningRecord → OpeningRecord) : Clean (updOpening f) :=
  ⟨fun _ => rfl, fun _ => rfl, fun _ => rfl, fun _ => rfl, fun _ => rfl⟩
theorem clean_enterCycle (a : CycleState) (b : SubCondition) : Clean (enterCycle a b) :=
  ⟨fun _ => rfl, fun _ => rfl, fun _ => rfl, fun _ => rfl, fun _ => rfl⟩
theorem clean_updCam (c : Camera) (f : CamState → CamState) : Clean (updCam c f) :=
  ⟨fun _ => rfl, fun _ => rfl, fun _ => rfl, fun _ => rfl, fun _ => rfl⟩
theorem clean_updExposure (f : Exposure → Exposure) : Clean (updExposure f) :=
  ⟨fun _ => rfl, fun _ => rfl, fun _ => rfl, fun _ => rfl, fun _ => rfl⟩
theorem clean_mapChannels (f : Nat → Channel → Channel) : Clean (mapChannels f) :=
  ⟨fun _ => rfl, fun _ => rfl, fun _ => rfl, fun _ => rfl, fun _ => rfl⟩
theorem clean_updCal (f : Calibration → Calibration) : Clean (updCal f) :=
  ⟨fun _ => rfl, fun _ => rfl, fun _ => rfl, fun _ => rfl, fun _ => rfl⟩
theorem clean_setSnapshot (q : Option Snapshot) : Clean (setSnapshot q) :=
  ⟨fun _ => rfl, fun _ => rfl, fun _ => rfl, fun _ => rfl, fun _ => rfl⟩
theorem clean_respond (x : Txn) (r : Response) : Clean (respond x r) :=
  ⟨fun _ => rfl, fun _ => rfl, fun _ => rfl, fun _ => rfl, fun _ => rfl⟩

theorem updVol_some {h : Nat} {v : Volume} {s : State} (f : Volume → Volume)
    (e : s.vols.get h = some v) :
    updVol h f s = { s with vols := { s.vols with table := s.vols.table.set h (some (f v)) } } := by
  unfold updVol; rw [e]
theorem updVol_none {h : Nat} {s : State} (f : Volume → Volume) (e : s.vols.get h = none) :
    updVol h f s = s := by
  unfold updVol; rw [e]

theorem clean_updVol (h : Nat) (f : Volume → Volume) : Clean (updVol h f) := by
  refine ⟨fun s => ?_, fun s => ?_, fun s => ?_, fun s => ?_, fun s => ?_⟩
  · cases e : s.vols.get h with
    | none => rw [updVol_none f e, updVol_none (s := s.bare) f e, bare_bare]
    | some v => rw [updVol_some f e, updVol_some (s := s.bare) f e]; rfl
  all_goals unfold updVol; split <;> rfl

theorem updActive_some {h : Nat} {s : State} (f : Volume → Volume) (e : s.vols.activeHandle = some h) :
    updActive f s = updVol h f s := by
  unfold updActive; rw [e]
theorem updActive_none {s : State} (f : Volume → Volume) (e : s.vols.activeHandle = none) :
    updActive f s = s := by
  unfold updActive; rw [e]

theorem clean_updActive (f : Volume → Volume) : Clean (updActive f) := by
  refine ⟨fun s => ?_, fun s => ?_, fun s => ?_, fun s => ?_, fun s => ?_⟩
  · cases e : s.vols.activeHandle with
    | none => rw [updActive_none f e, updActive_none (s := s.bare) f e, bare_bare]
    | some h =>
      rw [updActive_some f e, updActive_some (s := s.bare) f e]; exact (clean_updVol _ _).bare s
  all_goals unfold updActive; split
  · exact (clean_updVol _ _).queue s
  · rfl
  · exact (clean_updVol _ _).wait s
  · rfl
  · exact (clean_updVol _ _).map s
  · rfl
  · exact (clean_updVol _ _).newest s
  · rfl

theorem clean_dropAdmitted : Clean dropAdmitted :=
  clean_ite (fun s => s.light.exposure.phase = .admitted) (fun _ => Iff.rfl) (clean_updExposure _) clean_id

theorem clean_setStage (a : Stage) (b : TurnerSub) (c : TurnerOutputs) (d : StageTimer) (e : Option Nat) :
    Clean (setStage a b c d e) :=
  ⟨fun _ => rfl, fun _ => rfl, fun _ => rfl, fun _ => rfl, fun _ => rfl⟩

theorem clean_resolveRepeat : Clean resolveRepeat :=
  clean_ite (fun s => s.turner.state = .faulted) (fun _ => Iff.rfl) (clean_updTurner _) clean_id
theorem clean_resolveClear : Clean resolveClear := by
  unfold resolveClear; exact clean_updTurner _

theorem clean_pausedState (q : ResumePoint) : Clean (pausedState q) :=
  clean_dropAdmitted.comp ((clean_enterCycle _ _).comp ((clean_updRun _).comp (clean_updCycle _)))

/-! ## What bringing the status lines up to date leaves of the queues -/

theorem coalesce_fixed (k : Nat) (l : Line) (e : OwnEntry) : (coalesce k l e).fixed = e.fixed := by
  unfold coalesce; split
  · rename_i h; simp [OwnEntry.fixed, h]
  · rfl

theorem fixed_coalesce (k : Nat) (l : Line) : OwnEntry.fixed ∘ coalesce k l = OwnEntry.fixed :=
  funext fun e => coalesce_fixed k l e

theorem placeStatus_fifo (k : Nat) (s : State) :
    s.transit.queue.map OwnEntry.fixed <+: (placeStatus k s).transit.queue.map OwnEntry.fixed ∧
      s.transit.wait <+: (placeStatus k s).transit.wait := by
  unfold placeStatus; dsimp only; split
  · exact ⟨by simp [fixed_coalesce], List.prefix_rfl⟩
  · split
    · exact ⟨List.prefix_rfl, List.prefix_rfl⟩
    · split
      · exact ⟨by simp [enqueue, setShown, bumpId], List.prefix_rfl⟩
      · exact ⟨List.prefix_rfl, by simp [waitFor, setDirty, bumpId]⟩

theorem syncLine_fifo (k : Nat) (s : State) :
    s.transit.queue.map OwnEntry.fixed <+: (syncLine k s).transit.queue.map OwnEntry.fixed ∧
      s.transit.wait <+: (syncLine k s).transit.wait := by
  unfold syncLine; split
  · exact ⟨List.prefix_rfl, List.prefix_rfl⟩
  · split
    · exact ⟨List.prefix_rfl, List.prefix_rfl⟩
    · exact placeStatus_fifo k s

theorem sync_fifo (s : State) :
    s.transit.queue.map OwnEntry.fixed <+: (sync s).transit.queue.map OwnEntry.fixed ∧
      s.transit.wait <+: (sync s).transit.wait := by
  have h0 := syncLine_fifo 0 s
  have h1 := syncLine_fifo 1 (syncLine 0 s)
  have h2 := syncLine_fifo 2 (syncLine 1 (syncLine 0 s))
  have h3 := syncLine_fifo 3 (syncLine 2 (syncLine 1 (syncLine 0 s)))
  exact ⟨((h0.1.trans h1.1).trans h2.1).trans h3.1, ((h0.2.trans h1.2).trans h2.2).trans h3.2⟩

theorem placeWrite_fifo (a : Nat) (l : Line) (o : Origin) (s : State) :
    s.transit.queue.map OwnEntry.fixed <+: (placeWrite a l o s).transit.queue.map OwnEntry.fixed ∧
      s.transit.wait <+: (placeWrite a l o s).transit.wait := by
  unfold placeWrite; dsimp only; split
  · exact ⟨by simp [enqueue, bumpId], List.prefix_rfl⟩
  · exact ⟨List.prefix_rfl, by simp [waitFor, bumpId]⟩

theorem placeEntry_fifo (f : Fields) (o : Origin) (s : State) :
    s.transit.queue.map OwnEntry.fixed <+: (placeEntry f o s).transit.queue.map OwnEntry.fixed ∧
      s.transit.wait <+: (placeEntry f o s).transit.wait := by
  obtain ⟨a, l, r, e⟩ : ∃ a l r, placeEntry f o s = placeWrite a l o { s with req := r } := ⟨_, _, _, rfl⟩
  rw [e]; exact placeWrite_fifo a l o { s with req := r }

theorem writeEntry_fifo (f : Fields) (o : Origin) (s : State) :
    s.transit.queue.map OwnEntry.fixed <+: (writeEntry f o s).transit.queue.map OwnEntry.fixed ∧
      s.transit.wait <+: (writeEntry f o s).transit.wait := by
  unfold writeEntry
  have h0 := sync_fifo s
  have h2 := placeEntry_fifo f o (sync s)
  have h3 := sync_fifo (placeEntry f o (sync s))
  generalize sync (placeEntry f o (sync s)) = z at *
  generalize placeEntry f o (sync s) = y at *
  exact ⟨(h0.1.trans h2.1).trans h3.1, (h0.2.trans h2.2).trans h3.2⟩

theorem notice_fifo (k : NoticeKind) (c : Fields) (s : State) :
    s.transit.queue.map OwnEntry.fixed <+: (notice k c s).transit.queue.map OwnEntry.fixed ∧
      s.transit.wait <+: (notice k c s).transit.wait := by
  unfold notice; exact writeEntry_fifo _ _ s

theorem syncLine_req (k : Nat) (s : State) : (syncLine k s).req.noticeOut = s.req.noticeOut ∧
    (syncLine k s).req.newestIssued = s.req.newestIssued ∧ (syncLine k s).req.newestId = s.req.newestId ∧
    (syncLine k s).req.newestLine = s.req.newestLine := by
  unfold syncLine; split
  · exact ⟨rfl, rfl, rfl, rfl⟩
  · split
    · exact ⟨rfl, rfl, rfl, rfl⟩
    · unfold placeStatus; dsimp only; split
      · exact ⟨rfl, rfl, rfl, rfl⟩
      · split
        · exact ⟨rfl, rfl, rfl, rfl⟩
        · split <;> exact ⟨rfl, rfl, rfl, rfl⟩

/-- Bringing the status lines up to date leaves NOTICE_OUT and the newest entry's marks alone. -/
theorem sync_req (s : State) : (sync s).req.noticeOut = s.req.noticeOut ∧
    (sync s).req.newestIssued = s.req.newestIssued ∧ (sync s).req.newestId = s.req.newestId ∧
    (sync s).req.newestLine = s.req.newestLine := by
  simp [sync, syncLine_req]

/-! ## `cameTo` -/

variable {s t e : State} {n : Nat} {fs : List Fields}

theorem came_self (s : State) : s.cameTo s.req.newest s [] := ⟨rfl, rfl⟩

/-- Where a state came to may be named otherwise. -/
theorem State.cameTo.cast (h : t.cameTo n s fs) (hb : s.bare = e.bare) : t.cameTo n e fs :=
  ⟨h.1.trans hb, h.2⟩

theorem State.cameTo.clean {f : State → State} (hf : Clean f) (h : s.cameTo n e fs) :
    (f s).cameTo n (f e) fs :=
  ⟨by rw [hf.bare s, hf.bare e, h.1],
   wrote_congr (hf.queue s) (hf.wait s) (hf.map s) (hf.newest s) fs n h.2⟩

theorem State.cameTo.sync (h : s.cameTo n e fs) : (Sys2Proof.Machine.sync s).cameTo n e fs :=
  ⟨(sync_bare s).trans h.1, sync_wrote s h.2⟩

theorem State.cameTo.entry (f : Fields) (h : s.cameTo n e fs) :
    (writeEntry f .entry s).cameTo n e (fs ++ [f]) :=
  ⟨(writeEntry_bare _ _ _).trans h.1, writeEntry_wrote f s fs n h.2⟩

theorem State.cameTo.notice (k : NoticeKind) (c : Fields) (h : s.cameTo n e fs) :
    (Sys2Proof.Machine.notice k c s).cameTo n e (fs ++ [noticeFields k c]) := h.entry _

theorem State.cameTo.refuse (x : Ticket) (r : Reason) (h : s.cameTo n e fs) :
    (Sys2Proof.Machine.refuse x r s).cameTo n e (fs ++ [refusal x r]) := h.entry _

theorem State.cameTo.replyDone (x : Ticket) (c : Bool) (r : Fields) (h : s.cameTo n e fs) :
    (Sys2Proof.Machine.replyDone x c r s).cameTo n e (fs ++ [doneReply x c r]) := h.entry _

theorem State.cameTo.placeStatus (k : Nat) (h : s.cameTo n e fs) :
    (Sys2Proof.Machine.placeStatus k s).cameTo n e fs :=
  ⟨(placeStatus_bare k s).trans h.1,
   wrote_mono (fun _ _ => placeStatus_carries k s) (placeStatus_map s k) (placeStatus_newest k s)
    fs n h.2⟩

@[simp] theorem arrive_newest (m : Moment) (s : State) : (arrive m s).req.newest = s.req.newest := rfl
@[simp] theorem arrive_pending (m : Moment) (s : State) : (arrive m s).pending = s.pending := rfl
@[simp] theorem arrive_out (m : Moment) (s : State) : (arrive m s).out = [] := rfl

/-- A command completes as its operation on the arrival comes out. -/
theorem completes_of {c : Instr} {m : Moment} {f : State → State}
    (hx : exec c s = takeCommand m f s) (h : (f (arrive m s)).cameTo s.req.newest e fs) :
    s.completes c e fs :=
  ⟨_, hx, h.sync.1, h.sync.2⟩

end Sys2Proof.Machine
end

