-- ==== Sys2Proof/Laws/Filed.lean ====
section
/-! SUPPORT. The laws of the status lines (R169, R181) through what moves own traffic: an entry placed or
waiting, a line brought up to date, an item that joins the queue or leaves it. -/

namespace Sys2Proof.Machine

set_option Elab.async false

variable {lines : Nat → Prop} {s t : State}

/-- The laws of the status lines read the own traffic and the request unit's marks alone. -/
theorem State.filedFor.congr (h : s.filedFor lines) (hq : t.transit.queue = s.transit.queue)
    (hw : t.transit.wait = s.transit.wait) (hs : t.req.shown = s.req.shown)
    (hd : t.req.dirty = s.req.dirty) : t.filedFor lines := by
  obtain ⟨h1, h2, h3, h4, h5⟩ := h
  constructor <;> simp only [State.lineWaits, State.lineHolds, hq, hw, hs, hd] at * <;> assumption

/-- Fewer lines named ask for less. -/
theorem State.filedFor.mono {less : Nat → Prop} (h : s.filedFor lines) (hl : ∀ k, less k → lines k) :
    s.filedFor less := { h with composed := fun k hk hp hw => h.composed k hk (hl k hp) hw }

/-- An item that is no status line's waits. -/
theorem State.filedFor.waitFor (h : s.filedFor lines) (w : Waiting) (i : Nat)
    (hw : ∀ a l k, w ≠ .write a l (.status k)) (hs : ∀ k, w ≠ .status k) :
    (Sys2Proof.Machine.waitFor w i s).filedFor lines := by
  have e : ∀ k, (Sys2Proof.Machine.waitFor w i s).lineWaits k = s.lineWaits k := fun k => by
    simp [State.lineWaits, Sys2Proof.Machine.waitFor, hs k]
  refine ⟨h.marks, ?_, fun k hk => ?_, fun k hk => (h.dirty k hk).trans (e k).symm, fun k hk hp hn => ?_⟩
  · intro x hx
    simp only [Sys2Proof.Machine.waitFor, List.mem_append, List.mem_singleton] at hx
    rcases hx with hx | rfl
    · exact h.plain x hx
    · exact hw
  · have := h.single k hk
    simpa [Sys2Proof.Machine.waitFor, List.countP_append, hs k] using this
  · exact h.composed k hk hp ((e k).symm.trans hn)

/-- An entry that is no status line's joins the queue. -/
theorem State.filedFor.enqueue (h : s.filedFor lines) (a : Nat) (c : Option Line) (o : Origin) (i : Nat)
    (ho : ∀ k, o ≠ .status k) : (Sys2Proof.Machine.enqueue a c o i s).filedFor lines := by
  refine ⟨h.marks, h.plain, fun k hk => ?_, h.dirty, fun k hk hp hn => ?_⟩
  · have := h.single k hk
    simpa [Sys2Proof.Machine.enqueue, List.countP_append, ho k] using this
  · obtain ⟨l, h1, h2⟩ := h.composed k hk hp hn
    refine ⟨l, h1, fun e he => ?_⟩
    simp only [Sys2Proof.Machine.enqueue, List.mem_append, List.mem_singleton] at he
    rcases he with he | rfl
    · exact h2 e he
    · exact fun x => absurd x (ho k)

/-- The head of the queue leaves it. -/
theorem State.filedFor.issued (h : s.filedFor lines) {e : OwnEntry} (hq : s.transit.queue = e :: t.transit.queue)
    (hw : t.transit.wait = s.transit.wait) (hs : t.req.shown = s.req.shown)
    (hd : t.req.dirty = s.req.dirty) : t.filedFor lines := by
  obtain ⟨h1, h2, h3, h4, h5⟩ := h
  constructor <;> simp only [State.lineWaits, State.lineHolds, hw, hs, hd] at * <;> try assumption
  · intro k hk
    have := h3 k hk
    rw [hq, List.countP_cons] at this
    omega
  · intro k hk hp hn
    obtain ⟨l, g1, g2⟩ := h5 k hk hp hn
    exact ⟨l, g1, fun x hx => g2 x (by rw [hq]; exact List.mem_cons_of_mem _ hx)⟩

/-- Items that are no status line's leave the wait list. -/
theorem State.filedFor.kept (h : s.filedFor lines) (p : WaitItem → Bool)
    (hp : ∀ w, p w = false → ∀ k, w.what ≠ .status k) (hq : t.transit.queue = s.transit.queue)
    (hw : t.transit.wait = s.transit.wait.filter p) (hs : t.req.shown = s.req.shown)
    (hd : t.req.dirty = s.req.dirty) : t.filedFor lines := by
  have e : ∀ k, t.lineWaits k = s.lineWaits k := fun k => by
    simp only [State.lineWaits, hw, List.any_filter]
    congr 1; funext w
    cases hpw : p w
    · simp [hp w hpw k]
    · simp
  refine ⟨hs ▸ hd ▸ h.marks, ?_, fun k hk => ?_, fun k hk => ?_, fun k hk hl hn => ?_⟩
  · intro w hx; rw [hw] at hx; exact h.plain w (List.mem_of_mem_filter hx)
  · rw [hq, hw]
    exact le_trans (Nat.add_le_add_left (List.Sublist.countP_le List.filter_sublist) _) (h.single k hk)
  · rw [hd, e k]; exact h.dirty k hk
  · obtain ⟨l, h1, h2⟩ := h.composed k hk hl ((e k).symm.trans hn)
    exact ⟨l, by rw [hs]; exact h1, by rw [hq]; exact h2⟩

/-- The head of the wait list, no status line's, leaves it. -/
theorem State.filedFor.popped (h : s.filedFor lines) {w : WaitItem} {rest : List WaitItem}
    (hw : s.transit.wait = w :: rest) (hn : ∀ k, w.what ≠ .status k) :
    ({ s with transit := { s.transit with wait := rest } } : State).filedFor lines := by
  obtain ⟨h1, h2, h3, h4, h5⟩ := h
  constructor <;> simp only [State.lineWaits, State.lineHolds, hw, List.any_cons, List.countP_cons,
    List.forall_mem_cons] at *
  · exact h1
  · exact h2.2
  · intro k hk; have := h3 k hk; omega
  · intro k hk; have := h4 k hk; rwa [beq_eq_false_iff_ne.2 (hn k), Bool.false_or] at this
  · intro k hk hl hr; exact h5 k hk hl (by rw [beq_eq_false_iff_ne.2 (hn k), Bool.false_or]; exact hr)

theorem getD_set {α : Type} {l : List α} {i j : Nat} {a d : α} :
    (l.set i a).getD j d = if i = j ∧ j < l.length then a else l.getD j d := by
  simp only [List.getD_eq_getElem?_getD, List.getElem?_set]
  by_cases h : i = j
  · subst h
    by_cases h2 : i < l.length
    · simp [h2]
    · simp [h2]
  · simp [h]

/-- A waiting status line joins the queue, composed as it does (R181). -/
theorem State.filedFor.joined (h : s.filedFor lines) {w : WaitItem} {rest : List WaitItem} {k : Nat}
    (hw : s.transit.wait = w :: rest) (hk : w.what = .status k) (a i : Nat) (l : Line) :
    (setDirty k false (setShown k l (Sys2Proof.Machine.enqueue a (some l) (.status k) i
      { s with transit := { s.transit with wait := rest } }))).filedFor lines := by
  obtain ⟨h1, h2, h3, h4, h5⟩ := h
  have hz : k < 4 → (s.transit.queue.countP fun e => e.origin == .status k) = 0 ∧
      (rest.countP fun w => w.what == .status k) = 0 := fun hk4 => by
    have := h3 k hk4
    simp only [hw, List.countP_cons, hk, beq_self_eq_true, if_true] at this
    omega
  have hr : ∀ j, k ≠ j → s.lineWaits j = rest.any fun w => w.what == .status j := fun j e => by
    simp [State.lineWaits, hw, hk, e]
  refine ⟨⟨by simpa [setDirty, setShown, Sys2Proof.Machine.enqueue] using h1.1,
    by simpa [setDirty, setShown, Sys2Proof.Machine.enqueue] using h1.2⟩, ?_, fun j hj => ?_, fun j hj => ?_,
    fun j hj hl hn => ?_⟩
  · exact fun x hx => h2 x (by rw [hw]; exact List.mem_cons_of_mem _ hx)
  · have := h3 j hj
    simp only [hw, List.countP_cons, hk, beq_iff_eq, Waiting.status.injEq] at this
    simp only [setDirty, setShown, Sys2Proof.Machine.enqueue, List.countP_append, List.countP_singleton,
      beq_iff_eq, Origin.status.injEq]
    omega
  · by_cases e : k = j
    · subst e
      have : (rest.any fun w => w.what == .status k) = false := by
        have := List.countP_eq_zero.1 (hz hj).2
        simpa using this
      simp only [State.lineWaits, setDirty, setShown, Sys2Proof.Machine.enqueue, this]
      simp [h1.2, hj]
    · have := h4 j hj
      rw [hr j e] at this
      simpa [State.lineWaits, setDirty, setShown, Sys2Proof.Machine.enqueue, getD_set, e] using this
  · by_cases e : k = j
    · subst e
      refine ⟨l, by simp [setDirty, setShown, Sys2Proof.Machine.enqueue, h1.1, hj], fun x hx hxo => ?_⟩
      simp only [setDirty, setShown, Sys2Proof.Machine.enqueue, List.mem_append, List.mem_singleton] at hx
      rcases hx with hx | rfl
      · exact absurd hxo (by simpa using List.countP_eq_zero.1 (hz hj).1 x hx)
      · rfl
    · obtain ⟨l', g1, g2⟩ := h5 j hj hl ((hr j e).trans hn)
      refine ⟨l', by simpa [setDirty, setShown, Sys2Proof.Machine.enqueue, getD_set, e] using g1,
        fun x hx hxo => ?_⟩
      simp only [setDirty, setShown, Sys2Proof.Machine.enqueue, List.mem_append, List.mem_singleton] at hx
      rcases hx with hx | rfl
      · exact g2 x hx hxo
      · simp only [Origin.status.injEq] at hxo; exact absurd hxo e

/-- What a line shows does not depend on the own traffic. -/
theorem statusLine_placeStatus (k j : Nat) (s : State) :
    statusLine j (Sys2Proof.Machine.placeStatus k s) = statusLine j s := by
  unfold Sys2Proof.Machine.placeStatus; dsimp only
  split
  · rfl
  · split
    · rfl
    · split <;> rfl

/-- A status line brought up to date shows the values of now, or waits (R181). -/
theorem placed (k : Nat) (hk : k < 4) (hm : s.req.shown.length = 4) :
    (Sys2Proof.Machine.placeStatus k s).lineCurrent k := by
  unfold State.lineCurrent; rw [statusLine_placeStatus]
  unfold Sys2Proof.Machine.placeStatus; dsimp only; split
  · refine .inr ⟨by simp [setShown, hm, hk], ?_⟩
    simp only [setShown, List.mem_map, forall_exists_index, and_imp]
    rintro _ x _ rfl; unfold coalesce; split
    · exact fun _ => rfl
    · exact fun x => absurd x ‹_›
  · rename_i hq
    split
    · exact .inl ‹_›
    · split
      · refine .inr ⟨by simp [setShown, Sys2Proof.Machine.enqueue, bumpId, hm, hk], fun x hx hxo => ?_⟩
        simp only [setShown, Sys2Proof.Machine.enqueue, bumpId, List.mem_append, List.mem_singleton] at hx
        rcases hx with hx | rfl
        · simp only [List.any_eq_true, not_exists, not_and] at hq
          exact absurd (by simp [hxo]) (hq x hx)
        · rfl
      · exact .inl (by simp [State.lineWaits, setDirty, Sys2Proof.Machine.waitFor, bumpId])

/-- Of the other lines it leaves the waiting and what they hold as they are. -/
theorem placeStatus_other (k j : Nat) (hj : k ≠ j) (s : State) :
    (Sys2Proof.Machine.placeStatus k s).lineWaits j = s.lineWaits j ∧
    (∀ l, s.lineHolds j l → (Sys2Proof.Machine.placeStatus k s).lineHolds j l) := by
  unfold Sys2Proof.Machine.placeStatus; dsimp only
  split
  · refine ⟨rfl, fun l h => ⟨by simpa [setShown, getD_set, hj] using h.1, ?_⟩⟩
    simp only [setShown, List.mem_map, forall_exists_index, and_imp]
    rintro _ x hx rfl; unfold coalesce; split
    · intro h2
      rename_i hk2
      simp only [hk2, Origin.status.injEq] at h2
      exact absurd h2 hj
    · exact h.2 x hx
  · split
    · exact ⟨rfl, fun l h => h⟩
    · split
      · refine ⟨rfl, fun l h => ⟨by simpa [setShown, enqueue, bumpId, getD_set, hj] using h.1, ?_⟩⟩
        intro x hx hxo
        simp only [setShown, enqueue, bumpId, List.mem_append, List.mem_singleton] at hx
        rcases hx with hx | rfl
        · exact h.2 x hx hxo
        · simp only [Origin.status.injEq] at hxo; exact absurd hxo hj
      · exact ⟨by simp [State.lineWaits, setDirty, waitFor, bumpId, hj], fun l h => h⟩

/-- A status line brought up to date is composed, unless its write waits (R181). -/
theorem State.filedFor.placeStatus (h : s.filedFor lines) (k : Nat) :
    (Sys2Proof.Machine.placeStatus k s).filedFor fun j => j = k ∨ lines j := by
  suffices hs : (Sys2Proof.Machine.placeStatus k s).filedFor fun _ => False by
    refine { hs with composed := fun j hj hp hn => ?_ }
    by_cases e : k = j
    · subst e
      exact ⟨_, (placed k hj h.marks.1).resolve_left (by simp [hn])⟩
    · obtain ⟨h1, h2⟩ := placeStatus_other k j e s
      obtain ⟨l, h3⟩ := h.composed j hj (hp.resolve_left (Ne.symm e)) (h1 ▸ hn)
      exact ⟨l, h2 l h3⟩
  unfold Sys2Proof.Machine.placeStatus; dsimp only; split
  · have hc : ∀ j, (s.transit.queue.map (coalesce k (statusLine k s))).countP
        (fun e => e.origin == .status j) = s.transit.queue.countP fun e => e.origin == .status j := fun j => by
      rw [List.countP_map]; congr 1; funext e; simp only [Function.comp, coalesce]; split <;> rfl
    exact ⟨⟨by simpa [setShown] using h.marks.1, h.marks.2⟩, h.plain,
      fun j hj => by simpa only [setShown, hc] using h.single j hj, h.dirty, by simp⟩
  · rename_i hq
    have hq0 : (s.transit.queue.countP fun e => e.origin == .status k) = 0 := by
      simp only [List.any_eq_true, not_exists, not_and] at hq
      exact List.countP_eq_zero.2 fun a ha => hq a ha
    split
    · rename_i hw
      refine ⟨⟨h.marks.1, by simpa [setDirty] using h.marks.2⟩, h.plain, h.single, fun j hj => ?_, by simp⟩
      have hx : (setDirty k true s).lineWaits j = s.lineWaits j := rfl
      rw [hx]
      by_cases e : k = j
      · subst e; simpa [setDirty, h.marks.2, hj, State.lineWaits] using hw
      · simpa [setDirty, getD_set, e] using h.dirty j hj
    · rename_i hw
      have hw0 : (s.transit.wait.countP fun w => w.what == .status k) = 0 := by
        simp only [List.any_eq_true, not_exists, not_and] at hw
        exact List.countP_eq_zero.2 fun a ha => hw a ha
      have hcount : ∀ j < 4, (if k = j then 1 else 0) +
          ((s.transit.queue.countP fun e => e.origin == .status j) +
            (s.transit.wait.countP fun w => w.what == .status j)) ≤ 1 := fun j hj => by
        by_cases e : k = j
        · subst e; simp [hq0, hw0]
        · simpa [e] using h.single j hj
      split
      · refine ⟨⟨by simpa [setShown, Sys2Proof.Machine.enqueue, bumpId] using h.marks.1, h.marks.2⟩, h.plain,
          fun j hj => ?_, h.dirty, by simp⟩
        have := hcount j hj
        simp only [setShown, Sys2Proof.Machine.enqueue, bumpId, List.countP_append, List.countP_singleton,
          beq_iff_eq, Origin.status.injEq]
        omega
      · have ew : ∀ j, (setDirty k true (Sys2Proof.Machine.waitFor (.status k) s.transit.nextId
            (bumpId s))).lineWaits j = (s.lineWaits j || decide (k = j)) := fun j => by
          simp [State.lineWaits, setDirty, Sys2Proof.Machine.waitFor, bumpId, Bool.beq_eq_decide_eq]
        refine ⟨⟨h.marks.1, by simpa [setDirty, Sys2Proof.Machine.waitFor, bumpId] using h.marks.2⟩, ?_,
          fun j hj => ?_, fun j hj => ?_, by simp⟩
        · intro w hx
          simp only [setDirty, Sys2Proof.Machine.waitFor, bumpId, List.mem_append, List.mem_singleton] at hx
          rcases hx with hx | rfl
          · exact h.plain w hx
          · simp
        · have := hcount j hj
          simp only [setDirty, Sys2Proof.Machine.waitFor, bumpId, List.countP_append, List.countP_singleton,
            beq_iff_eq, Waiting.status.injEq]
          omega
        · rw [ew j]
          by_cases e : k = j
          · subst e; simp [setDirty, Sys2Proof.Machine.waitFor, bumpId, h.marks.2, hj]
          · simpa [setDirty, Sys2Proof.Machine.waitFor, bumpId, getD_set, e] using h.dirty j hj

theorem State.filedFor.syncLine (h : s.filedFor lines) (k : Nat) :
    (Sys2Proof.Machine.syncLine k s).filedFor lines := by
  unfold Sys2Proof.Machine.syncLine; split
  · exact h
  · split
    · exact h
    · exact (h.placeStatus k).mono fun _ => .inr

theorem State.filedFor.sync (h : s.filedFor lines) : (Sys2Proof.Machine.sync s).filedFor lines :=
  ((((h.syncLine 0).syncLine 1).syncLine 2).syncLine 3)

theorem State.filedFor.placeWrite (h : s.filedFor lines) (a : Nat) (l : Line) (o : Origin)
    (ho : ∀ k, o ≠ .status k) : (Sys2Proof.Machine.placeWrite a l o s).filedFor lines := by
  have h1 : (bumpId s).filedFor lines := h.congr rfl rfl rfl rfl
  unfold Sys2Proof.Machine.placeWrite; dsimp only; split
  · exact h1.enqueue _ _ _ _ ho
  · exact h1.waitFor _ _ (fun _ _ k e => ho k (by simp only [Waiting.write.injEq] at e; exact e.2.2)) (by simp)

/-! ## Bringing the lines up to date makes them current -/

/-- A line brought up to date stays current while another one is (R181). -/
theorem State.lineCurrent.syncLine {j : Nat} (h : s.lineCurrent j) (k : Nat) (hj : k ≠ j) :
    (Sys2Proof.Machine.syncLine k s).lineCurrent j := by
  unfold Sys2Proof.Machine.syncLine; split
  · exact h
  · split
    · exact h
    · obtain ⟨h1, h2⟩ := placeStatus_other k j hj s
      unfold State.lineCurrent; rw [h1, statusLine_placeStatus]
      exact h.imp id (h2 _)

/-- A composed line is current once it has been brought up to date (R181). -/
theorem State.filedFor.syncLine_current (h : s.filedFor lines) {k : Nat} (hk : k < 4) (hl : lines k) :
    (Sys2Proof.Machine.syncLine k s).lineCurrent k := by
  unfold Sys2Proof.Machine.syncLine; split
  · rename_i hn
    by_cases hw : s.lineWaits k = true
    · exact .inl hw
    · obtain ⟨l, h1, _⟩ := h.composed k hk hl (by simpa using hw)
      rw [hn] at h1; cases h1
  · split
    · rename_i hn e
      by_cases hw : s.lineWaits k = true
      · exact .inl hw
      · obtain ⟨l, h1, h2⟩ := h.composed k hk hl (by simpa using hw)
        rw [hn] at h1; cases h1
        exact .inr (e ▸ ⟨hn, h2⟩)
    · exact placed k hk h.marks.1

/-- After the status lines have been brought up to date, each that was composed is current (R181). -/
theorem State.filedFor.current (h : s.filedFor lines) {k : Nat} (hk : k < 4) (hl : lines k) :
    (Sys2Proof.Machine.sync s).lineCurrent k := by
  unfold Sys2Proof.Machine.sync
  have h0 := h.syncLine 0
  have h1 := h0.syncLine 1
  have h2 := h1.syncLine 2
  rcases k with _ | _ | _ | _ | k
  · exact (((h.syncLine_current hk hl).syncLine 1 (by simp)).syncLine 2 (by simp)).syncLine 3 (by simp)
  · exact ((h0.syncLine_current hk hl).syncLine 2 (by simp)).syncLine 3 (by simp)
  · exact (h1.syncLine_current hk hl).syncLine 3 (by simp)
  · exact h2.syncLine_current hk hl
  · omega

end Sys2Proof.Machine
end

