-- ==== Sys2Proof/Laws/Kept.lean ====
section
/-! SUPPORT. The laws every operation keeps: the queue of commands, the volume table's laws (R1, R4, R10,
R20), the bounds of the own-traffic queue and of the read-hold list (R168, R171). -/

namespace Sys2Proof.Machine

set_option Elab.async false

/-- The laws an operation keeps, and the queued entries it leaves in their places; of the status lines, those
of `late` need not have been composed yet (R187). -/
structure Kept (late : Nat → Prop) (p : List Instr) (ids : List OwnEntry) (s : State) : Prop where
  pending : s.pending = p
  table : s.vols.lawful
  queue : s.transit.queue.length ≤ 16
  holds : s.transit.holds.length ≤ 16
  map : apart s.transit.map.windows = true
  fifo : ids <+: s.transit.queue.map OwnEntry.fixed
  filed : s.filedFor fun k => s.start.phase = .ready ∧ ¬ late k

variable {late : Nat → Prop} {p : List Instr} {ids : List OwnEntry} {s t : State}

/-- An operation that leaves the four alone keeps the laws. -/
theorem Kept.congr (h : Kept late p ids s) (hp : t.pending = s.pending) (hv : t.vols.table = s.vols.table)
    (hq : t.transit.queue = s.transit.queue) (hh : t.transit.holds = s.transit.holds)
    (hm : t.transit.map = s.transit.map) (hw : t.transit.wait = s.transit.wait := by rfl)
    (hs : t.req.shown = s.req.shown := by rfl) (hd : t.req.dirty = s.req.dirty := by rfl)
    (hst : t.start.phase = s.start.phase := by rfl) : Kept late p ids t :=
  ⟨hp.trans h.pending, by simpa [VolumeTable.lawful, hv] using h.table, hq ▸ h.queue, hh ▸ h.holds,
    hm ▸ h.map, hq ▸ h.fifo, by rw [hst]; exact h.filed.congr hq hw hs hd⟩

/-- Paperwork that stays within the queue's bound keeps the laws. -/
theorem Kept.paper (h : Kept late p ids s) (hb : t.bare = s.bare) (hq : t.transit.queue.length ≤ 16)
    (hf : s.transit.queue.map OwnEntry.fixed <+: t.transit.queue.map OwnEntry.fixed)
    (hl : t.filedFor fun k => s.start.phase = .ready ∧ ¬ late k) : Kept late p ids t :=
  ⟨(bare_pending hb).trans h.pending, bare_vols hb ▸ h.table, hq, bare_holds hb ▸ h.holds,
    bare_map hb ▸ h.map, h.fifo.trans hf, by rw [bare_start hb]; exact hl⟩

/-! ## Machine/Ops.lean -/

theorem kept_refreshPark (h : Kept late p ids s) : Kept late p ids (refreshPark s) := by
  unfold refreshPark; split
  · exact h.congr rfl rfl rfl rfl rfl
  · exact h

theorem kept_arrive (m : Moment) (h : Kept late p ids s) : Kept late p ids (arrive m s) :=
  h.congr rfl rfl rfl rfl rfl

theorem kept_respond (x : Txn) (r : Response) (h : Kept late p ids s) : Kept late p ids (respond x r s) :=
  h.congr rfl rfl rfl rfl rfl

theorem kept_bumpId (h : Kept late p ids s) : Kept late p ids (bumpId s) := h.congr rfl rfl rfl rfl rfl

theorem kept_waitFor (w : Waiting) (i : Nat) (h : Kept late p ids s)
    (hw : ∀ a l k, w ≠ .write a l (.status k) := by simp) (hs : ∀ k, w ≠ .status k := by simp) :
    Kept late p ids (waitFor w i s) :=
  ⟨h.pending, h.table, h.queue, h.holds, h.map, h.fifo, h.filed.waitFor w i hw hs⟩

theorem kept_enqueue (a : Nat) (c : Option Line) (o : Origin) (i : Nat) (h : Kept late p ids s)
    (hq : s.transit.queue.length < 16) (ho : ∀ k, o ≠ .status k := by simp) :
    Kept late p ids (enqueue a c o i s) :=
  h.paper (enqueue_bare a c o i s) (by simp; omega) (by simp [enqueue]) (h.filed.enqueue a c o i ho)

theorem hasPlace_lt (h : s.transit.hasPlace = true) : s.transit.queue.length < 16 := by
  simp [Transit.hasPlace] at h; exact h.1

theorem kept_placeWrite (a : Nat) (l : Line) (o : Origin) (h : Kept late p ids s)
    (ho : ∀ k, o ≠ .status k := by simp) : Kept late p ids (placeWrite a l o s) := by
  unfold placeWrite; split
  · exact kept_enqueue _ _ _ _ (kept_bumpId h) (hasPlace_lt ‹_›) ho
  · exact kept_waitFor _ _ (kept_bumpId h)
      (fun _ _ k e => ho k (by simp only [Waiting.write.injEq] at e; exact e.2.2))

theorem placeStatus_length (k : Nat) (hq : s.transit.queue.length ≤ 16) :
    (placeStatus k s).transit.queue.length ≤ 16 := by
  unfold placeStatus; dsimp only; split
  · simpa [setShown] using hq
  · split
    · exact hq
    · split
      · have := hasPlace_lt ‹_›
        simp [setShown, enqueue, bumpId]; omega
      · exact hq

/-- A status line brought up to date; it is no longer one of those still to be composed. -/
theorem kept_placeStatus (k : Nat) (h : Kept late p ids s) :
    Kept (fun j => late j ∧ j ≠ k) p ids (placeStatus k s) :=
  have hb := placeStatus_bare k s
  ⟨(bare_pending hb).trans h.pending, bare_vols hb ▸ h.table, placeStatus_length k h.queue,
    bare_holds hb ▸ h.holds, bare_map hb ▸ h.map, h.fifo.trans (placeStatus_fifo k s).1, by
      rw [bare_start hb]
      exact (h.filed.placeStatus k).mono fun j hj => by
        by_cases e : j = k
        · exact .inl e
        · exact .inr ⟨hj.1, fun hx => hj.2 ⟨hx, e⟩⟩⟩

theorem kept_syncLine (k : Nat) (h : Kept late p ids s) : Kept late p ids (syncLine k s) := by
  unfold syncLine; split
  · exact h
  · split
    · exact h
    · exact h.paper (placeStatus_bare k s) (placeStatus_length k h.queue) (placeStatus_fifo k s).1
        ((h.filed.placeStatus k).mono fun _ => .inr)

theorem kept_sync (h : Kept late p ids s) : Kept late p ids (sync s) :=
  kept_syncLine 3 (kept_syncLine 2 (kept_syncLine 1 (kept_syncLine 0 h)))

theorem kept_writeEntry (f : Fields) (o : Origin) (h : Kept late p ids s) (ho : ∀ k, o ≠ .status k := by simp) :
    Kept late p ids (writeEntry f o s) :=
  kept_sync (kept_placeWrite _ _ _ ((kept_sync h).congr rfl rfl rfl rfl rfl) ho)

theorem kept_notice (k : NoticeKind) (c : Fields) (h : Kept late p ids s) : Kept late p ids (notice k c s) :=
  kept_writeEntry _ _ h
theorem kept_refuse (t : Ticket) (r : Reason) (h : Kept late p ids s) : Kept late p ids (refuse t r s) :=
  kept_writeEntry _ _ h
theorem kept_replyDone (t : Ticket) (c : Bool) (f : Fields) (h : Kept late p ids s) :
    Kept late p ids (replyDone t c f s) := kept_writeEntry _ _ h

/-! ## Machine/Log.lean -/

theorem kept_readForwarded (x : Txn) (h : Kept late p ids s) : Kept late p ids (readForwarded x s) := by
  unfold readForwarded; split
  · split
    · exact h.congr rfl rfl rfl rfl rfl
    · exact h
  · exact h

theorem kept_foldl {α : Type} (f : State → α → State) (hf : ∀ s a, Kept late p ids s → Kept late p ids (f s a)) :
    ∀ (l : List α) (s : State), Kept late p ids s → Kept late p ids (l.foldl f s)
  | [], _, h => h
  | a :: l, _, h => kept_foldl f hf l _ (hf _ a h)

theorem kept_releaseHolds (i : Nat) (h : Kept late p ids s) : Kept late p ids (releaseHolds i s) := by
  unfold releaseHolds
  refine kept_foldl _ (fun s r hs => kept_readForwarded r.txn hs) _ _ ?_
  refine ⟨h.pending, h.table, h.queue, ?_, h.map, h.fifo, h.filed.congr rfl rfl rfl rfl⟩
  exact le_trans (List.length_filter_le _ _) h.holds

/-- A change of a record that keeps it within its bounds and does not make it ACTIVE. -/
structure Tame (f : Volume → Volume) : Prop where
  wf : ∀ v : Volume, v.wf → (f v).wf
  active : ∀ v : Volume, (f v).state = .active → v.state = .active

theorem tame_id : Tame id := ⟨fun _ h => h, fun _ h => h⟩

/-- A change that touches none of the bounded fields is tame. -/
theorem tame_of (f : Volume → Volume)
    (h : ∀ v, (f v).cursor = v.cursor ∧ (f v).leaves = v.leaves ∧ (f v).coverage = v.coverage ∧
      (f v).sidesCovered = v.sidesCovered ∧ (f v).state = v.state) : Tame f :=
  ⟨fun v hv => by
    obtain ⟨h1, h2, h3, h4, _⟩ := h v
    simpa [Volume.wf, h1, h2, h3, h4] using hv,
   fun v hv => (h v).2.2.2.2 ▸ hv⟩

theorem get_mem {t : VolumeTable} {h : Nat} {v : Volume} (e : t.get h = some v) :
    ∃ hl : h < t.table.length, t.table[h] = some v := by
  unfold VolumeTable.get at e
  by_cases hl : h < t.table.length
  · refine ⟨hl, ?_⟩
    rw [List.getD_eq_getElem?_getD, List.getElem?_eq_getElem hl] at e
    simpa using e
  · rw [List.getD_eq_getElem?_getD, List.getElem?_eq_none (by omega)] at e
    simp at e

/-- A place of a lawful table given a record within its bounds, ACTIVE only if the place was or no
record is. -/
theorem lawful_set {t : VolumeTable} (ht : t.lawful) {h : Nat} {o : Option Volume}
    (hw : ∀ v, o = some v → v.wf)
    (ha : isActive o = true → (∃ hl : h < t.table.length, isActive t.table[h] = true) ∨
      t.table.countP isActive = 0) :
    ({ t with table := t.table.set h o } : VolumeTable).lawful := by
  obtain ⟨hl, hv, hc⟩ := ht
  refine ⟨by simpa using hl, ?_, ?_⟩
  · intro v hm
    rcases List.mem_or_eq_of_mem_set hm with h1 | h1
    · exact hv v h1
    · exact hw v h1.symm
  · by_cases hlt : h < t.table.length
    · show (t.table.set h o).countP isActive ≤ 1
      rw [List.countP_set hlt]
      by_cases hb : isActive o = true
      · rcases ha hb with ⟨_, h2⟩ | h2
        · simp only [hb, h2, if_true]; omega
        · simp only [hb, h2, if_true]; omega
      · simp only [hb]; simp; omega
    · simpa [List.set_eq_of_length_le (Nat.le_of_not_lt hlt)] using hc

theorem kept_table {o : Option Volume} {h : Nat} (hk : Kept late p ids s) (hw : ∀ v, o = some v → v.wf)
    (ha : isActive o = true → (∃ hl : h < s.vols.table.length, isActive s.vols.table[h] = true) ∨
      s.vols.table.countP isActive = 0) :
    Kept late p ids { s with vols := { s.vols with table := s.vols.table.set h o } } :=
  ⟨hk.pending, lawful_set hk.table hw ha, hk.queue, hk.holds, hk.map, hk.fifo,
    hk.filed.congr rfl rfl rfl rfl⟩

theorem kept_updVol (h : Nat) {f : Volume → Volume} (hf : Tame f) (hk : Kept late p ids s) :
    Kept late p ids (updVol h f s) := by
  unfold updVol; split
  · rename_i v hv
    obtain ⟨hl, he⟩ := get_mem hv
    refine kept_table hk ?_ ?_
    · rintro w rfl'; cases rfl'
      exact hf.wf v (hk.table.2.1 v (he ▸ List.getElem_mem hl))
    · intro ha
      refine .inl ⟨hl, ?_⟩
      rw [he]
      simp only [isActive, beq_iff_eq] at ha ⊢
      exact hf.active v ha
  · exact hk

theorem kept_updActive {f : Volume → Volume} (hf : Tame f) (hk : Kept late p ids s) :
    Kept late p ids (updActive f s) := by
  unfold updActive; split
  · exact kept_updVol _ hf hk
  · exact hk

theorem tame_touchRecords (n : Nat) : Tame (touchRecords n) := tame_of _ fun _ => by simp [touchRecords]

theorem kept_lowTest (h : Kept late p ids s) : Kept late p ids (lowTest s) := by
  unfold lowTest; split
  · exact kept_notice _ _ (h.congr rfl rfl rfl rfl rfl)
  · exact h

theorem kept_rearm (h : Kept late p ids s) : Kept late p ids (rearm s) := by
  unfold rearm; split
  · exact h.congr rfl rfl rfl rfl rfl
  · exact h

theorem kept_markNextAppend (h : Kept late p ids s) : Kept late p ids (markNextAppend s) := by
  unfold markNextAppend; split
  · exact h
  · exact kept_waitFor _ _ (kept_bumpId (kept_sync h))

theorem kept_acceptHead (i : Nat) (h : Kept late p ids s) (hq : s.transit.queue.length < 16) :
    Kept late p ids (acceptHead i s) := by
  unfold acceptHead; split
  · exact h
  · dsimp only
    refine kept_lowTest (kept_markNextAppend ?_)
    have h1 : Kept late p ids { s with log := { s.log with appended := s.log.appended + 1, appends := ‹_› } } :=
      h.congr rfl rfl rfl rfl rfl
    have h2 := fun a c => kept_enqueue a c .record i h1 hq
    split
    · exact kept_updVol _ (tame_touchRecords _) (h2 _ _)
    · exact h2 _ _

theorem kept_requestAppend (a : Append) (h : Kept late p ids s) : Kept late p ids (requestAppend a s).1 := by
  unfold requestAppend; dsimp only
  have h1 : Kept late p ids (lowTest { sync s with
      log := { (sync s).log with appends := (sync s).log.appends ++ [a] } }) :=
    kept_lowTest ((kept_sync h).congr rfl rfl rfl rfl rfl)
  generalize lowTest _ = u at h1 ⊢
  split
  · split
    · rename_i hp
      exact kept_acceptHead _ (kept_bumpId h1) (hasPlace_lt hp.1)
    · exact kept_markNextAppend h1
  · exact h1

theorem kept_appendOrCount (a : Append) (h : Kept late p ids s) : Kept late p ids (appendOrCount a s) := by
  unfold appendOrCount; split
  · exact (kept_sync h).congr rfl rfl rfl rfl rfl
  · exact kept_requestAppend a h

theorem kept_withdrawFrame (h : Kept late p ids s) : Kept late p ids (withdrawFrame s) := by
  unfold withdrawFrame; split
  · dsimp only
    refine kept_rearm ?_
    split
    · refine kept_markNextAppend (kept_foldl _ (fun s i hs => kept_releaseHolds i hs) _ _ ?_)
      refine ⟨h.pending, h.table, h.queue, h.holds, h.map, h.fifo, h.filed.kept _ ?_ rfl rfl rfl rfl⟩
      intro w hw k e
      simp [WaitItem.isAppend, e] at hw
    · exact h.congr rfl rfl rfl rfl rfl
  · exact h

theorem kept_verifyAdvance (g : Option Nat) (h : Kept late p ids s)
    (hg : g.isSome = true → s.transit.queue.length < 16) : Kept late p ids (verifyAdvance g s) := by
  unfold verifyAdvance; split
  · exact h
  · dsimp only; split
    · exact kept_replyDone _ _ _ (h.congr rfl rfl rfl rfl rfl)
    · split
      · exact kept_enqueue _ _ _ _ (h.congr rfl rfl rfl rfl rfl) (hg rfl)
      · rename_i v _ _
        have h1 := fun v => kept_sync (s := { s with log := { s.log with verify := some v } })
          (h.congr rfl rfl rfl rfl rfl)
        split
        · exact kept_enqueue _ _ _ _ (kept_bumpId (h1 _)) (hasPlace_lt ‹_›)
        · exact kept_waitFor _ _ (kept_bumpId (h1 _))

theorem kept_verifyReturned (r : Bool) (l : Line) (h : Kept late p ids s) :
    Kept late p ids (verifyReturned r l s) := by
  unfold verifyReturned; split
  · exact h
  · exact kept_verifyAdvance none (h.congr rfl rfl rfl rfl rfl) (by simp)

/-! ## Machine/IntakeOps.lean -/

theorem kept_updCam (c : Camera) (f : CamState → CamState) (h : Kept late p ids s) :
    Kept late p ids (updCam c f s) :=
  h.congr rfl rfl rfl rfl rfl

theorem kept_takeLine (c : Camera) (o : Nat) (x : Txn) (h : Kept late p ids s) :
    Kept late p ids (takeLine c o x s).1 := by
  unfold takeLine; dsimp only
  split
  · exact h.congr rfl rfl rfl rfl rfl
  · split
    · exact h.congr rfl rfl rfl rfl rfl
    · split
      · exact h.congr rfl rfl rfl rfl rfl
      · split
        · exact h.congr rfl rfl rfl rfl rfl
        · exact h.congr rfl rfl rfl rfl rfl

theorem kept_markLamps (h : Kept late p ids s) :
    Kept late p ids (markLamps s) := kept_updCam _ _ (kept_updCam _ _ h)

theorem kept_abortFrames (h : Kept late p ids s) : Kept late p ids (abortFrames s) := by
  unfold abortFrames; exact kept_updCam _ _ (kept_updCam _ _ h)

theorem kept_placeGainRead (c : Camera) (b : Bool) (g : Option Nat) (h : Kept late p ids s)
    (hg : g.isSome = true → s.transit.queue.length < 16) : Kept late p ids (placeGainRead c b g s).1 := by
  unfold placeGainRead; split
  · exact h
  · dsimp only; split
    · exact kept_enqueue _ _ _ _ h (hg rfl)
    · split
      · exact kept_enqueue _ _ _ _ (kept_bumpId (kept_sync h)) (hasPlace_lt ‹_›)
      · exact kept_waitFor _ _ (kept_bumpId (kept_sync h))

theorem kept_placeGainReads (c : Camera) (b : Bool) (g : Option Nat) (h : Kept late p ids s)
    (hg : g.isSome = true → s.transit.queue.length < 16) : Kept late p ids (placeGainReads c b g s) := by
  unfold placeGainReads; dsimp only; split
  · exact kept_placeGainRead _ _ none (kept_placeGainRead c b g h hg) (by simp)
  · exact kept_placeGainRead c b g h hg

theorem kept_endLoad (c : Camera) (h : Kept late p ids s) : Kept late p ids (endLoad c s) := by
  unfold endLoad; split
  · exact h
  · split
    · dsimp only; split
      · exact kept_refuse _ _ (kept_updCam _ _ h)
      · exact kept_replyDone _ _ _ (kept_updCam _ _ (kept_updCam _ _ h))
    · exact h

theorem kept_gainReturned (c : Camera) (b r : Bool) (l : Line) (h : Kept late p ids s) :
    Kept late p ids (gainReturned c b r l s) := kept_endLoad _ (kept_updCam _ _ h)

/-! ## Machine/LightOps.lean -/

theorem kept_updExposure (f : Exposure → Exposure) (h : Kept late p ids s) : Kept late p ids (updExposure f s) :=
  h.congr rfl rfl rfl rfl rfl
theorem kept_mapChannels (f : Nat → Channel → Channel) (h : Kept late p ids s) :
    Kept late p ids (mapChannels f s) :=
  h.congr rfl rfl rfl rfl rfl

theorem kept_holdAdmitted (d : Sides) (q : Plan) (h : Kept late p ids s) : Kept late p ids (holdAdmitted d q s) :=
  kept_updExposure _ h

theorem kept_dropAdmitted (h : Kept late p ids s) : Kept late p ids (dropAdmitted s) := by
  unfold dropAdmitted; split
  · exact kept_updExposure _ h
  · exact h

theorem kept_startExposure (k : ExposureKind) (d : Sides) (q : Plan) (o : Option Nat) (h : Kept late p ids s) :
    Kept late p ids (startExposure k d q o s) := kept_mapChannels _ (kept_updExposure _ h)

theorem kept_fireTrigger (c : Camera) (h : Kept late p ids s) : Kept late p ids (fireTrigger c s) := by
  unfold fireTrigger; dsimp only; split
  · exact kept_updCam _ _ h
  · exact h

theorem kept_fireTriggers (h : Kept late p ids s) : Kept late p ids (fireTriggers s) := by
  unfold fireTriggers
  exact kept_updExposure _ (kept_fireTrigger .right (kept_fireTrigger .left h))

theorem kept_warmOnEntry (h : Kept late p ids s) : Kept late p ids (warmOnEntry s) := by
  unfold warmOnEntry; split
  · exact kept_fireTriggers h
  · exact h

theorem kept_rampStep (h : Kept late p ids s) : Kept late p ids (rampStep s) := by
  unfold rampStep; dsimp only; split
  · exact kept_warmOnEntry (kept_updExposure _ (kept_mapChannels _ h))
  · exact kept_mapChannels _ h

theorem tame_charge (d : Nat) : Tame (chargeVolume d) := tame_of _ fun _ => by simp [chargeVolume]

theorem kept_updCal (f : Calibration → Calibration) (h : Kept late p ids s) : Kept late p ids (updCal f s) :=
  h.congr rfl rfl rfl rfl rfl

theorem kept_makeCharge (d : Nat) (h : Kept late p ids s) : Kept late p ids (makeCharge d s) := by
  unfold makeCharge; split
  · exact kept_updCal _ (h.congr rfl rfl rfl rfl rfl)
  · exact kept_updActive (tame_charge d) h

theorem kept_cutLit (h : Kept late p ids s) : Kept late p ids (cutLit s) := kept_mapChannels _ h
theorem kept_clearChannels (h : Kept late p ids s) : Kept late p ids (clearChannels s) := kept_mapChannels _ h

theorem kept_completeExposure (h : Kept late p ids s) : Kept late p ids (completeExposure s).1 := by
  unfold completeExposure; dsimp only
  refine kept_updExposure _ (kept_clearChannels ?_)
  split
  · exact h
  · exact kept_makeCharge _ h

theorem kept_abortExposure (h : Kept late p ids s) : Kept late p ids (abortExposure s) := by
  unfold abortExposure; split
  · exact h
  · exact kept_dropAdmitted h
  · exact kept_updExposure _ (kept_clearChannels h)
  all_goals exact kept_updExposure _ (kept_clearChannels (kept_makeCharge _ (kept_cutLit h)))

theorem kept_noteCharge (d : Nat) (h : Kept late p ids s) : Kept late p ids (noteCharge d s) := by
  unfold noteCharge; split
  · exact h
  · exact h.congr rfl rfl rfl rfl rfl
theorem kept_noteLampFault (h : Kept late p ids s) : Kept late p ids (noteLampFault s) := by
  unfold noteLampFault; split
  · exact h
  · exact h.congr rfl rfl rfl rfl rfl

theorem kept_reportLampFault (h : Kept late p ids s) : Kept late p ids (reportLampFault s) :=
  kept_markLamps (kept_noteLampFault (kept_updExposure _ h))

theorem kept_lampFault (i : Nat) (h : Kept late p ids s) : Kept late p ids (lampFault i s) :=
  kept_reportLampFault (kept_mapChannels _ h)

theorem kept_beginRamp (i : Nat) (h : Kept late p ids s) : Kept late p ids (beginRamp i s) := kept_mapChannels _ h
theorem kept_beginRampDown (f : Nat) (h : Kept late p ids s) : Kept late p ids (beginRampDown f s) :=
  kept_updExposure _ (kept_mapChannels _ h)

end Sys2Proof.Machine
end

