-- ==== Sys2Proof/Laws/KeptFlow.lean ====
section
/-! SUPPORT. The laws of Laws/Kept.lean through the cycle, the turner, the calibration, the requests, the
transit unit and start-up. -/

namespace Sys2Proof.Machine

set_option Elab.async false

variable {late : Nat → Prop} {p : List Instr} {ids : List OwnEntry} {s t : State}

/-! ## Machine/Halt.lean and Machine/TurnerOps.lean -/

theorem kept_updCycle (f : Cycle → Cycle) (h : Kept late p ids s) :
    Kept late p ids (updCycle f s) := h.congr rfl rfl rfl rfl rfl
theorem kept_updRun (f : RunRecord → RunRecord) (h : Kept late p ids s) :
    Kept late p ids (updRun f s) := kept_updCycle _ h
theorem kept_updOpening (f : OpeningRecord → OpeningRecord) (h : Kept late p ids s) :
    Kept late p ids (updOpening f s) :=
  kept_updCycle _ h
theorem kept_enterCycle (a : CycleState) (b : SubCondition) (h : Kept late p ids s) :
    Kept late p ids (enterCycle a b s) :=
  kept_updCycle _ h
theorem kept_updTurner (f : Turner → Turner) (h : Kept late p ids s) : Kept late p ids (updTurner f s) :=
  h.congr rfl rfl rfl rfl rfl

theorem kept_halt (k : FaultKind) (c : FaultClass) (st : Option Stage) (d : Sides) (h : Kept late p ids s) :
    Kept late p ids (halt k c st d s) :=
  kept_notice _ _ (kept_updCycle _ (kept_appendOrCount _ (kept_dropAdmitted (kept_updCycle _ h))))

theorem kept_haltCapture (k : FaultKind) (d : Sides) (h : Kept late p ids s) :
    Kept late p ids (haltCapture k d s) :=
  kept_halt _ _ _ _ h
theorem kept_haltTurn (k : FaultKind) (st : Option Stage) (h : Kept late p ids s) :
    Kept late p ids (haltTurn k st s) :=
  kept_halt _ _ _ _ h

theorem kept_setStage (a : Stage) (b : TurnerSub) (c : TurnerOutputs) (d : StageTimer) (e : Option Nat)
    (h : Kept late p ids s) : Kept late p ids (setStage a b c d e s) := kept_updTurner _ h

theorem tame_countTurnFault : Tame countTurnFault := tame_of _ fun _ => by simp [countTurnFault]

theorem kept_endTurn (k : FaultKind) (h : Kept late p ids s) : Kept late p ids (endTurn k s) := by
  unfold endTurn; dsimp only; split
  · exact kept_haltTurn _ _ (kept_updActive tame_countTurnFault (kept_updTurner _ h))
  · exact kept_updTurner _ h

theorem kept_abortTurn (c : StopCause) (h : Kept late p ids s) : Kept late p ids (abortTurn c s).1 := by
  unfold abortTurn; split
  · exact h.congr rfl rfl rfl rfl rfl
  · split <;> exact h

theorem kept_resolveRepeat (h : Kept late p ids s) : Kept late p ids (resolveRepeat s) := by
  unfold resolveRepeat; split
  · exact kept_updTurner _ h
  · exact h

theorem kept_resolveClear (h : Kept late p ids s) : Kept late p ids (resolveClear s) :=
  kept_updTurner _ h

theorem kept_enterRetryPause (h : Kept late p ids s) : Kept late p ids (enterRetryPause s) :=
  kept_setStage _ _ _ _ _ (kept_updTurner _ (kept_sync h))

theorem kept_retryable (k : FaultKind) (h : Kept late p ids s) : Kept late p ids (retryable k s) := by
  unfold retryable; split
  · exact kept_enterRetryPause h
  · exact kept_endTurn k h

theorem kept_doubleLeaf (h : Kept late p ids s) : Kept late p ids (doubleLeaf s) :=
  kept_retryable _ (kept_updActive (tame_of _ fun _ => by simp) (kept_updTurner _ h))

theorem kept_gripLoss (h : Kept late p ids s) : Kept late p ids (gripLoss s) := by
  unfold gripLoss; split
  · exact kept_endTurn _ h
  · exact kept_updTurner _ h

theorem kept_enterRelease (h : Kept late p ids s) : Kept late p ids (enterRelease s) := kept_setStage _ _ _ _ _ h

theorem kept_enterSweep (h : Kept late p ids s) : Kept late p ids (enterSweep s) := by
  have h1 := kept_setStage .sweep .none s.turner.carrying (.running s.now s.turner.g6.sweep) none h
  unfold enterSweep; dsimp only; split
  · exact kept_gripLoss h1
  · split
    · exact kept_enterRelease h1
    · exact h1

theorem kept_enterLift (h : Kept late p ids s) : Kept late p ids (enterLift s) := by
  have h1 := kept_setStage .lift .none s.turner.carrying (.running s.now s.turner.g6.lift) none h
  unfold enterLift; dsimp only; split
  · exact kept_doubleLeaf h1
  · split
    · exact kept_gripLoss h1
    · split
      · exact kept_enterSweep h1
      · exact h1

theorem kept_enterGrip (h : Kept late p ids s) : Kept late p ids (enterGrip s) := by
  have h1 := kept_setStage .grip .none ⟨.off, false, s.turner.vals.vacuum, .off⟩
    (.running s.now s.turner.g6.grip) none h
  unfold enterGrip; dsimp only; split
  · exact kept_enterLift h1
  · exact h1

theorem kept_enterPulse (h : Kept late p ids s) : Kept late p ids (enterPulse s) := by
  unfold enterPulse; split
  · exact kept_enterGrip h
  · exact kept_setStage _ _ _ _ _ h

theorem kept_checkRise (h : Kept late p ids s) : Kept late p ids (checkRise s) := by
  have h1 := kept_refreshPark h
  unfold checkRise; dsimp only
  split
  · split
    · exact kept_enterPulse (kept_updTurner _ h1)
    · exact kept_updTurner _ h1
  · split
    · exact kept_enterPulse h1
    · exact h1

theorem kept_takeTurn (h : Kept late p ids s) : Kept late p ids (takeTurn s) := by
  unfold takeTurn; split
  · exact kept_checkRise (kept_setStage _ _ _ _ _ (kept_updTurner _ h))
  · exact h

theorem kept_askTurn (h : Kept late p ids s) : Kept late p ids (askTurn s) := by
  unfold askTurn; split
  · exact kept_takeTurn h
  · split
    · exact kept_updTurner _ h
    · exact h

theorem kept_checkRetryPause (h : Kept late p ids s) : Kept late p ids (checkRetryPause s) := by
  unfold checkRetryPause; split
  · exact kept_enterPulse h
  · exact h

theorem kept_checkCarry (h : Kept late p ids s) : Kept late p ids (checkCarry s) := by
  unfold checkCarry; split
  · exact kept_enterSweep h
  · split
    · exact kept_enterRelease h
    · exact h

theorem kept_recoverGrip (h : Kept late p ids s) :
    Kept late p ids (recoverGrip s) := kept_checkCarry (kept_updTurner _ h)

theorem kept_samplePressure (h : Kept late p ids s) : Kept late p ids (samplePressure s) := by
  unfold samplePressure; split
  · split
    · exact kept_enterLift h
    · exact h
  · split
    · split
      · exact kept_gripLoss h
      · exact h
    · split
      · split
        · exact kept_recoverGrip h
        · exact h
      · exact h

/-! ## Machine/Flow.lean -/

theorem kept_stopReached (h : Kept late p ids s) :
    Kept late p ids (stopReached s) := kept_updRun _ (kept_notice _ _ h)
theorem kept_runComplete (h : Kept late p ids s) : Kept late p ids (runComplete s) :=
  kept_enterCycle _ _ (kept_updCycle _ (kept_notice _ _ h))
theorem kept_pausedState (q : ResumePoint) (h : Kept late p ids s) : Kept late p ids (pausedState q s) :=
  kept_dropAdmitted (kept_enterCycle _ _ (kept_updRun _ (kept_updCycle _ h)))
theorem kept_pausedNotice (q : ResumePoint) (h : Kept late p ids s) : Kept late p ids (pausedNotice q s) :=
  kept_notice _ _ h
theorem kept_enterPaused (q : ResumePoint) (h : Kept late p ids s) : Kept late p ids (enterPaused q s) :=
  kept_pausedNotice q (kept_pausedState q h)

theorem kept_openingCaptured (h : Kept late p ids s) : Kept late p ids (openingCaptured s) := by
  unfold openingCaptured; split
  · exact h
  · exact kept_notice _ _ h

theorem kept_tryTurn (h : Kept late p ids s) : Kept late p ids (tryTurn s) := by
  unfold tryTurn; split
  · exact kept_enterCycle _ _ h
  · exact kept_askTurn (kept_enterCycle _ _ h)

theorem kept_startTurn (h : Kept late p ids s) : Kept late p ids (startTurn s) := by
  unfold startTurn; split
  · split
    · exact kept_runComplete h
    · exact kept_tryTurn h
  · exact h

theorem kept_finish (h : Kept late p ids s) : Kept late p ids (finish s) := by
  have h1 := kept_updCycle (fun c => { c with opening := none }) h
  unfold finish; dsimp only; split
  · exact kept_runComplete h1
  · split
    · exact kept_enterPaused _ h1
    · exact kept_startTurn h1

theorem kept_finishOpening (h : Kept late p ids s) : Kept late p ids (finishOpening s) := by
  unfold finishOpening; split
  · exact kept_finish (kept_openingCaptured h)
  · exact kept_finish h

theorem kept_armSides (a b c : Nat) : ∀ (l : List Camera) (s : State), Kept late p ids s →
    Kept late p ids (armSides a b c l s)
  | [], _, h => h
  | _ :: l, _, h => kept_armSides a b c l _ (kept_updCam _ _ h)

theorem kept_beginExposure (k : ExposureKind) (o : OpeningRecord) (a : Nat) (q : Plan) (h : Kept late p ids s) :
    Kept late p ids (beginExposure k o a q s) := by
  unfold beginExposure; split
  · exact kept_warmOnEntry (kept_enterCycle _ _ (kept_updOpening _ (kept_sync (kept_armSides _ _ _ _ _
      (kept_startExposure _ _ _ _ h)))))
  · exact kept_haltCapture _ _ h

theorem kept_goOn (h : Kept late p ids s) : Kept late p ids (goOn s) := by
  have h1 := kept_updCycle (fun c => { c with camTimer := none }) h
  unfold goOn; dsimp only; split
  · split
    · split
      · exact kept_beginExposure _ _ _ _ h1
      · split
        · exact kept_beginExposure _ _ _ _ h1
        · exact kept_haltCapture _ _ h1
        · exact h1
    · exact kept_haltCapture _ _ h1
  · exact h1

theorem kept_prepareWaits (h : Kept late p ids s) : Kept late p ids (prepareWaits s) := by
  unfold prepareWaits; dsimp only; split
  · exact kept_enterCycle _ _ h
  · split
    · exact kept_enterCycle _ _ h
    · split
      · exact kept_goOn (kept_enterCycle _ _ h)
      · exact kept_enterCycle _ _ (kept_updCycle _ h)

theorem kept_enterPrepare (h : Kept late p ids s) : Kept late p ids (enterPrepare s) := by
  unfold enterPrepare; dsimp only; split
  · exact kept_prepareWaits (kept_enterCycle _ _ h)
  · exact kept_haltCapture _ _ (kept_enterCycle _ _ h)

theorem kept_beginOpening (h : Kept late p ids s) : Kept late p ids (beginOpening s) := by
  unfold beginOpening; split
  · dsimp only
    rename_i r _ v _ _
    have h1 : Kept late p ids (if v.cursor = r.stop ∧ ¬ r.stopReached then stopReached s else s) := by
      split
      · exact kept_stopReached h
      · exact h
    split
    · exact kept_finishOpening (kept_updCycle _ h1)
    · exact kept_enterPrepare (kept_updCycle _ h1)
  · exact h

/-- A verdict applied keeps a record within its bounds (R4, R20). -/
theorem tame_applyVerdict (side : Nat) (q : Verdict) (r : Bool) : Tame (applyVerdict side q r) := by
  refine ⟨?_, fun v hv => hv⟩
  rintro v ⟨h1, h2, h3⟩
  refine ⟨h1, ?_, ?_⟩
  · simpa [applyVerdict] using h2
  · simp only [applyVerdict]
    generalize ha : v.coverage.getD side .absent = b
    by_cases hl : side < v.coverage.length
    · rw [List.getD_eq_getElem?_getD, List.getElem?_eq_getElem hl] at ha
      simp only [Option.getD_some] at ha
      rw [List.countP_set hl, ha, h3]
      have hp : b ≠ .absent → 0 < v.coverage.countP fun c => c != .absent := fun hb =>
        List.countP_pos_iff.2 ⟨b, ha ▸ List.getElem_mem hl, by simpa using hb⟩
      cases b <;> cases q <;> simp [hl] <;> (have := hp (by simp)) <;> omega
    · simp [hl, List.set_eq_of_length_le (Nat.le_of_not_lt hl), h3]

theorem kept_setSide (c : Camera) (a : SideStatus) (l : LastResult) (h : Kept late p ids s) :
    Kept late p ids (setSide c a l s) := kept_updOpening _ h

theorem kept_settleSide (j : Judged) (h : Kept late p ids s) : Kept late p ids (settleSide j s) :=
  kept_setSide _ _ _ (kept_updCam _ _ h)

theorem kept_frameRecorded (j : Judged) (b : FrameBody) (h : Kept late p ids s) :
    Kept late p ids (frameRecorded j b s) :=
  kept_settleSide j (kept_updVol _ (tame_applyVerdict _ _ _) h)

theorem kept_reviewEnd (a : AfterReview) (h : Kept late p ids s) : Kept late p ids (reviewEnd a s) := by
  have h1 := kept_sync (kept_updCycle (fun c => { c with review := none }) h)
  unfold reviewEnd; dsimp only; split
  · exact kept_finishOpening h1
  · exact kept_enterPrepare (kept_updOpening _ (kept_updActive (tame_of _ fun _ => by simp) h1))
  · exact kept_haltCapture _ _ (kept_openingCaptured h1)

theorem kept_recordAll (a : AfterReview) : ∀ (l : List Judged) (s : State), Kept late p ids s →
    Kept late p ids (recordAll a l s)
  | [], _, h => kept_reviewEnd a h
  | j :: l, s, h => by
    unfold recordAll; split
    · exact kept_recordAll a l _ (kept_settleSide j h)
    · split
      · dsimp only; split
        · exact kept_recordAll a l _ (kept_frameRecorded _ _ (kept_requestAppend _ h))
        · exact kept_updCycle _ (kept_requestAppend _ h)
      · exact h

theorem kept_holdRetake (a : AfterReview) (h : Kept late p ids s) : Kept late p ids (holdRetake a s) := by
  unfold holdRetake; split
  · exact kept_holdAdmitted _ _ h
  · exact h
  · exact h

theorem kept_reviewCheck (h : Kept late p ids s) : Kept late p ids (reviewCheck s) := by
  unfold reviewCheck; split
  · split
    · exact kept_recordAll _ _ _ (kept_holdRetake _ h)
    · exact h
  · exact h

theorem kept_afterTurn (h : Kept late p ids s) : Kept late p ids (afterTurn s) := by
  unfold afterTurn; split
  · exact h
  · split
    · exact kept_runComplete h
    · split
      · exact kept_enterPaused _ h
      · exact kept_beginOpening h

theorem tame_turnCounted : Tame turnCounted :=
  ⟨fun _ ⟨_, h2, h3⟩ => ⟨Nat.min_le_right _ _, h2, h3⟩, fun _ h => h⟩

theorem kept_turnDone (h : Kept late p ids s) : Kept late p ids (turnDone s) := by
  have h1 := kept_updTurner (fun t => t.cleared.toRest) (kept_updVol s.turner.handle tame_turnCounted h)
  unfold turnDone; dsimp only
  have h2 : ∀ {u : State}, Kept late p ids u → Kept late p ids (if u.turner.pendingTurn ∧
      u.turner.state = .rest then
      takeTurn (updTurner (fun t => { t with pendingTurn := false }) u) else u) := by
    intro u hu; split
    · exact kept_takeTurn (kept_updTurner _ hu)
    · exact hu
  apply h2
  split
  · exact kept_afterTurn h1
  · exact h1

theorem kept_completeTurn (h : Kept late p ids s) : Kept late p ids (completeTurn s) := by
  have h1 := fun a => kept_requestAppend a (kept_setStage .settle .completing TurnerOutputs.atRest .off none h)
  unfold completeTurn; dsimp only; split
  · exact kept_turnDone (h1 _)
  · exact h1 _

theorem kept_enterSettle (h : Kept late p ids s) : Kept late p ids (enterSettle s) := by
  unfold enterSettle; split
  · exact kept_completeTurn h
  · exact kept_setStage _ _ _ _ _ h

theorem kept_enterPlatenLower (h : Kept late p ids s) : Kept late p ids (enterPlatenLower s) := by
  have h1 := kept_setStage .platenLower .none { TurnerOutputs.atRest with platen := .down }
    (.running s.now s.turner.g6.platen) none h
  unfold enterPlatenLower; dsimp only; split
  · exact kept_enterSettle h1
  · exact h1

theorem kept_enterReturn (h : Kept late p ids s) : Kept late p ids (enterReturn s) := by
  have h1 := kept_setStage .returning .none { TurnerOutputs.atRest with arm := .toPark }
    (.running s.now s.turner.g6.goBack) none h
  unfold enterReturn; dsimp only; split
  · exact kept_enterPlatenLower h1
  · exact h1

theorem kept_abortWork (c : StopCause) (h : Kept late p ids s) : Kept late p ids (abortWork c s).1 :=
  kept_abortTurn _ (kept_sync (kept_abortFrames (kept_updCycle _ (kept_withdrawFrame
    (kept_sync (kept_abortExposure (kept_updCycle _ h)))))))

theorem kept_cycleStopped (c : StopCause) (f : CycleState) (h : Kept late p ids s) :
    Kept late p ids (cycleStopped c f s) := kept_notice _ _ h

theorem kept_stopTail (c : StopCause) (f : CycleState) (a : AbortAnswer) (h : Kept late p ids s) :
    Kept late p ids (stopTail c f a s) := by
  have h1 := kept_cycleStopped c f h
  unfold stopTail; dsimp only; split
  · exact kept_haltTurn _ _ h1
  · exact kept_enterCycle _ _ (kept_updCycle _ (kept_sync (kept_resolveClear h1)))

theorem kept_safeStopFall (h : Kept late p ids s) : Kept late p ids (safeStopFall s) := by
  unfold safeStopFall; dsimp only; split
  · exact kept_haltTurn _ _ (kept_abortWork _ h)
  · exact kept_haltCapture _ _ (kept_abortWork _ h)

end Sys2Proof.Machine
end

