-- ==== Sys2Proof/Laws/KeptRequests.lean ====
section
/-! SUPPORT. The laws of Laws/Kept.lean through the calibration, snapshots, the wait list, the requests, the
transit unit and start-up. -/

namespace Sys2Proof.Machine

set_option Elab.async false

variable {late : Nat → Prop} {p : List Instr} {ids : List OwnEntry} {s t : State}

/-! ## Machine/Calibration.lean -/

theorem kept_calFinish (b : CalBody) (h : Kept late p ids s) : Kept late p ids (calFinish b s) := by
  have h1 : Kept late p ids (calReply b s) := kept_writeEntry _ _ h
  unfold calFinish; dsimp only
  refine kept_enterCycle _ _ (kept_updCycle _ ?_)
  split
  · exact kept_cycleStopped _ _ h1
  · exact h1

theorem kept_calEnd (d : Bool) (k : CalCause) (c : Option Camera) (cams : PerCam CalCamera)
    (q : Option StopCause) (h : Kept late p ids s) : Kept late p ids (calEnd d k c cams q s) := by
  unfold calEnd; split
  · exact h
  · dsimp only
    have h1 := fun a => kept_requestAppend a (kept_updCal (fun c => { c with recorded := true })
      (kept_enterCycle .calibrate .none (kept_updCycle (fun c => { c with camTimer := none })
        (kept_updCam .right CamState.freeFlying (kept_updCam .left CamState.freeFlying h)))))
    split
    · exact kept_calFinish _ (h1 _)
    · exact h1 _

theorem kept_calFail (k : CalCause) (h : Kept late p ids s) :
    Kept late p ids (calFail k s) := kept_calEnd _ _ _ _ _ h

theorem kept_calGo (h : Kept late p ids s) : Kept late p ids (calGo s) := by
  unfold calGo; split
  · exact h
  · dsimp only
    have h1 := kept_enterCycle .calibrate .none (kept_updCycle (fun c => { c with camTimer := none }) h)
    split
    · exact kept_calFail _ h1
    · split
      · exact kept_calFail _ h1
      · exact kept_warmOnEntry (kept_updCam _ _ (kept_updCam _ _ (kept_startExposure _ _ _ _ h1)))

theorem kept_calCameras (h : Kept late p ids s) : Kept late p ids (calCameras s) := by
  unfold calCameras; split
  · exact kept_calGo h
  · exact kept_enterCycle _ _ (kept_updCycle _ h)

theorem kept_calJudge (h : Kept late p ids s) : Kept late p ids (calJudge s) := by
  unfold calJudge; split
  · exact h
  · dsimp only; split
    · exact kept_calEnd _ _ _ _ _ (kept_updCam _ _ (kept_updCam _ _ h))
    · exact kept_calEnd _ _ _ _ _ h

theorem kept_calCheck (h : Kept late p ids s) : Kept late p ids (calCheck s) := by
  unfold calCheck; split
  · exact h
  · split
    · exact kept_calJudge h
    · exact h

theorem kept_calStop (c : StopCause) {r : State → State} (hr : ∀ u, Kept late p ids u → Kept late p ids (r u))
    (h : Kept late p ids s) : Kept late p ids (calStop c r s) := by
  unfold calStop; split
  · exact hr _ h
  · split
    · exact hr _ h
    · exact kept_calEnd _ _ _ _ _ (hr _ (kept_abortFrames (kept_abortExposure h)))

theorem kept_setSnapshot (q : Option Snapshot) (h : Kept late p ids s) : Kept late p ids (setSnapshot q s) :=
  h.congr rfl rfl rfl rfl rfl

theorem kept_snapshotReply (h : Kept late p ids s) : Kept late p ids (snapshotReply s) := by
  unfold snapshotReply; split
  · exact h
  · dsimp only; split
    · exact kept_setSnapshot _ (kept_writeEntry _ _ h)
    · exact kept_setSnapshot _ (kept_writeEntry _ _ h)

theorem kept_snapshotPlace : ∀ (l : List (Nat × Line)) (s : State), Kept late p ids s →
    Kept late p ids (snapshotPlace l s)
  | [], _, h => kept_snapshotReply h
  | (a, x) :: l, s, h => by
    unfold snapshotPlace; dsimp only; split
    · exact kept_snapshotPlace l _ (kept_enqueue _ _ _ _ (kept_bumpId (kept_sync h)) (hasPlace_lt ‹_›))
    · exact kept_setSnapshot _ (kept_waitFor _ _ (kept_bumpId (kept_sync h)))

theorem kept_snapshotGranted (i : Nat) (h : Kept late p ids s) (hq : s.transit.queue.length < 16) :
    Kept late p ids (snapshotGranted i s) := by
  unfold snapshotGranted; split
  · split
    · exact kept_snapshotPlace _ _ (kept_enqueue _ _ _ _ h hq)
    · exact h
  · exact h

theorem kept_afterAccepted (a : Append) (h : Kept late p ids s) : Kept late p ids (afterAccepted a s) := by
  unfold afterAccepted; split
  · split
    · split
      · exact kept_recordAll _ _ _ (kept_frameRecorded _ _ (kept_updCycle _ h))
      · exact h
    · exact h
  · split
    · exact h
    · exact kept_turnDone h
  · exact kept_replyDone _ _ _ h
  · exact h
  · split
    · exact kept_calFinish _ h
    · exact h

theorem kept_acceptWaiting (i : Nat) (h : Kept late p ids s) (hq : s.transit.queue.length < 16) :
    Kept late p ids (acceptWaiting i s) := by
  unfold acceptWaiting; split
  · exact kept_afterAccepted _ (kept_acceptHead _ h hq)
  · exact h

theorem kept_appendForReply (a : Append) (h : Kept late p ids s) : Kept late p ids (appendForReply a s) := by
  unfold appendForReply; dsimp only; split
  · exact kept_afterAccepted _ (kept_requestAppend _ h)
  · exact kept_requestAppend _ h

theorem kept_joinQueue {w : WaitItem} {rest : List WaitItem} (h : Kept late p ids s)
    (hw : s.transit.wait = w :: rest) (hq : s.transit.queue.length < 16) :
    Kept late p ids (joinQueue w { s with transit := { s.transit with wait := rest } }) := by
  have hpop : (∀ k, w.what ≠ .status k) →
      Kept late p ids { s with transit := { s.transit with wait := rest } } := fun hn =>
    ⟨h.pending, h.table, h.queue, h.holds, h.map, h.fifo, h.filed.popped hw hn⟩
  unfold joinQueue; split
  · rename_i a l o he
    have h1 := kept_enqueue a (some l) o w.id (hpop (by simp [he])) hq fun k e =>
      h.filed.plain w (by rw [hw]; exact List.mem_cons_self) a l k (e ▸ he)
    dsimp only; split
    · exact kept_setSnapshot _ h1
    · exact h1
  · rename_i k he
    exact h.paper rfl (by simp [setDirty, setShown, enqueue]; omega)
      (by simp [setDirty, setShown, enqueue]) (h.filed.joined hw he _ _ _)
  · exact kept_acceptWaiting _ (hpop (by simp [*])) hq
  · exact kept_snapshotGranted _ (hpop (by simp [*])) hq
  · exact kept_verifyAdvance _ (hpop (by simp [*])) fun _ => hq
  · exact kept_placeGainReads _ _ _ (hpop (by simp [*])) fun _ => hq

theorem kept_admitOldest (q : WaitItem → Bool) (h : Kept late p ids s) :
    Kept late p ids (admitOldest q s) := by
  unfold admitOldest; split
  · exact h
  · split
    · rename_i hw hc
      exact kept_joinQueue h hw hc.1
    · exact h

theorem kept_exposureEnds (h : Kept late p ids s) : Kept late p ids (exposureEnds s) := by
  unfold exposureEnds; dsimp only; split
  · exact kept_calCheck (kept_updCal _ (kept_completeExposure h))
  · split
    · refine kept_reviewCheck (kept_enterCycle _ _ ?_)
      have h1 := kept_sync (kept_completeExposure h)
      split
      · exact h1
      · exact kept_noteCharge _ h1
    · exact kept_completeExposure h

theorem kept_frameReported (h : Kept late p ids s) : Kept late p ids (frameReported s) := by
  unfold frameReported; split
  · exact kept_calCheck h
  · exact kept_reviewCheck h

/-! ## Machine/VolumeRequests.lean -/

theorem kept_ask (c u : Byte) (d : Head) {f : Ticket → State → State}
    (hf : ∀ t u, Kept late p ids u → Kept late p ids (f t u))
    (h : Kept late p ids s) : Kept late p ids (ask c u d f s) := by
  unfold ask; split
  · split
    · exact hf _ _ h
    · exact kept_refuse _ _ h
  · exact h

theorem kept_askUnknown (k : Byte) (d : Head) (h : Kept late p ids s) : Kept late p ids (askUnknown k d s) := by
  unfold askUnknown; split
  · exact kept_refuse _ _ h
  · exact h

theorem firstFailure_none : ∀ {cs : List (Bool × Reason)}, firstFailure cs = none →
    ∀ c ∈ cs, c.1 = false
  | [], _ => by simp
  | (true, r) :: rest, h => by simp [firstFailure] at h
  | (false, r) :: rest, h => by
    simp only [firstFailure] at h
    intro c hc
    rcases List.mem_cons.1 hc with rfl | hc
    · rfl
    · exact firstFailure_none (by simpa using h) c hc

theorem kept_checked (t : Ticket) (cs : List (Bool × Reason)) {f : State → State}
    (hf : (∀ c ∈ cs, c.1 = false) → Kept late p ids (f s))
    (h : Kept late p ids s) : Kept late p ids (checked t cs f s) := by
  unfold checked; split
  · exact kept_refuse _ _ h
  · rename_i he
    exact hf (firstFailure_none he)

theorem newVolume_wf (t : VolumeTable) (h : Head) (q : RegisterParams) : (newVolume t h q).1.wf := by
  refine ⟨by simp [newVolume], by simp [newVolume], ?_⟩
  simp only [newVolume]
  rw [List.countP_replicate]; simp

theorem kept_takeRegister (d : Head) (q : RegisterParams) (t : Ticket) (h : Kept late p ids s) :
    Kept late p ids (takeRegister d q t s) := by
  refine kept_checked _ _ (fun _ => ?_) h
  split
  · exact h
  · refine kept_replyDone _ _ _ (kept_table h ?_ ?_)
    · rintro v hv; cases hv; exact newVolume_wf _ _ _
    · intro ha; simp [isActive, newVolume] at ha

theorem named_get {t : Ticket} {v : Volume} (e : s.named t = some v) :
    s.vols.get t.handle.toNat = some v := by
  unfold State.named at e; split at e
  · exact e
  · cases e

theorem kept_updVolTo {k : Nat} {v w : Volume} (hk : Kept late p ids s) (e : s.vols.get k = some v)
    (hw : v.wf → w.wf) (ha : w.state = .active → v.state = .active ∨
      s.vols.table.countP isActive = 0) : Kept late p ids (updVol k (fun _ => w) s) := by
  unfold updVol; rw [e]
  obtain ⟨hl, he⟩ := get_mem e
  refine kept_table hk ?_ ?_
  · rintro u hu; cases hu; exact hw (hk.table.2.1 v (he ▸ List.getElem_mem hl))
  · intro h1
    rcases ha (by simpa [isActive] using h1) with h2 | h2
    · exact .inl ⟨hl, by rw [he]; simp [isActive, h2]⟩
    · exact .inr h2

theorem setOverride_same (d : Head) (q : SetVolumeParams) (v : Volume) :
    (v.wf → (setOverride d q v).wf) ∧ (setOverride d q v).state = v.state := by
  unfold setOverride; split <;> exact ⟨fun h => h, rfl⟩
theorem setLevels_same (c : Nat) (d : Head) (q : SetVolumeParams) (v : Volume) :
    (v.wf → (setLevels c d q v).1.wf) ∧ (setLevels c d q v).1.state = v.state := by
  unfold setLevels; split
  · split <;> exact ⟨fun h => h, rfl⟩
  · exact ⟨fun h => h, rfl⟩
theorem setExposure_same (d : Head) (q : SetVolumeParams) (v : Volume) :
    (v.wf → (setExposure d q v).1.wf) ∧ (setExposure d q v).1.state = v.state := by
  unfold setExposure; split
  · split <;> exact ⟨fun h => h, rfl⟩
  · exact ⟨fun h => h, rfl⟩
theorem setBudget_same (d : Head) (q : SetVolumeParams) (v : Volume) :
    (v.wf → (setBudget d q v).1.wf) ∧ (setBudget d q v).1.state = v.state := by
  unfold setBudget; split <;> exact ⟨fun h => h, rfl⟩

theorem changeVolume_same (t : VolumeTable) (d : Head) (q : SetVolumeParams) (v : Volume) :
    (v.wf → (changeVolume t d q v).1.wf) ∧ (changeVolume t d q v).1.state = v.state := by
  unfold changeVolume; dsimp only
  have h1 := setOverride_same d q v
  have h2 := setLevels_same (t.entry (t.classOf (setOverride d q v))).ceiling d q (setOverride d q v)
  have h3 := setExposure_same d q
    (setLevels (t.entry (t.classOf (setOverride d q v))).ceiling d q (setOverride d q v)).1
  have h4 := setBudget_same d q (setExposure d q
    (setLevels (t.entry (t.classOf (setOverride d q v))).ceiling d q (setOverride d q v)).1).1
  exact ⟨fun h => h4.1 (h3.1 (h2.1 (h1.1 h))), h4.2.trans (h3.2.trans (h2.2.trans h1.2))⟩

theorem kept_takeSetVolume (d : Head) (q : SetVolumeParams) (t : Ticket) (h : Kept late p ids s) :
    Kept late p ids (takeSetVolume d q t s) := by
  refine kept_checked _ _ (fun _ => ?_) h
  split
  · exact h
  · rename_i v hv
    have := changeVolume_same s.vols d q v
    exact kept_replyDone _ _ _ (kept_updVolTo h (named_get hv) this.1 fun ha => .inl (this.2 ▸ ha))

theorem updVol_const {k : Nat} {v : Volume} (f : Volume → Volume) (e : s.vols.get k = some v) :
    updVol k f s = updVol k (fun _ => f v) s := by unfold updVol; rw [e]

theorem kept_changeAndLog (t : Ticket) (e : VolumeEvent) (c : Bool) (f : Volume → Volume) (h : Kept late p ids s)
    (hf : ∀ v, s.named t = some v → (v.wf → (f v).wf) ∧
      ((f v).state = .active → v.state = .active ∨ s.vols.table.countP isActive = 0)) :
    Kept late p ids (changeAndLog t e c f s) := by
  unfold changeAndLog; split
  · exact h
  · rename_i v hv
    have hg := named_get hv
    rw [updVol_const f hg]
    exact kept_appendForReply _ (kept_updVolTo h hg (hf v hv).1 (hf v hv).2)

theorem countP_of_no_handle {t : VolumeTable} (h : t.activeHandle = none) :
    t.table.countP isActive = 0 := by
  rw [List.countP_eq_zero]
  exact fun x hx => by simpa using List.findIdx?_eq_none_iff.1 h x hx

theorem activeHandle_active {t : VolumeTable} {k : Nat} (h : t.activeHandle = some k) :
    ∃ v, t.get k = some v ∧ v.state = .active := by
  obtain ⟨hl, ha, _⟩ := List.findIdx?_eq_some_iff_getElem.1 h
  generalize hx : t.table[k] = x at ha
  cases x with
  | none => simp [isActive] at ha
  | some v =>
    refine ⟨v, ?_, by simpa [isActive] using ha⟩
    unfold VolumeTable.get
    rw [List.getD_eq_getElem?_getD, List.getElem?_eq_getElem hl]
    simpa using hx

theorem kept_takeActivate (o : BitVec 16) (t : Ticket) (h : Kept late p ids s) :
    Kept late p ids (takeActivate o t s) := by
  refine kept_checked _ _ (fun hc => kept_changeAndLog _ _ _ _ h fun v hv => ⟨?_, fun _ => .inr ?_⟩) h
  · rintro ⟨_, h2, h3⟩; exact ⟨Nat.min_le_right _ _, h2, h3⟩
  · apply countP_of_no_handle
    have h1 := hc (s.namedIs t fun v => v.state == .active, .state) (by simp)
    have h2 := hc (s.otherActive t, .activeExists) (by simp)
    generalize ha : s.vols.activeHandle = x at *
    cases x with
    | none => rfl
    | some k =>
      obtain ⟨w, hg, hw⟩ := activeHandle_active ha
      simp only [State.otherActive, ha, bne_eq_false_iff_eq] at h2
      rw [h2, named_get hv] at hg; cases hg
      simp [State.namedIs, hv, hw] at h1

theorem kept_takeSuspend (t : Ticket) (h : Kept late p ids s) : Kept late p ids (takeSuspend t s) :=
  kept_checked _ _ (fun _ => kept_changeAndLog _ _ _ _ h fun _ _ => ⟨id, by simp⟩) h

theorem kept_takeSetOpening (o : BitVec 16) (t : Ticket) (h : Kept late p ids s) :
    Kept late p ids (takeSetOpening o t s) :=
  kept_checked _ _ (fun _ => kept_replyDone _ _ _ (kept_updVol _
    ⟨fun _ ⟨_, h2, h3⟩ => ⟨Nat.min_le_right _ _, h2, h3⟩, fun _ h => h⟩ h)) h

theorem kept_takeClose (a b : BitVec 16) (t : Ticket) (h : Kept late p ids s) :
    Kept late p ids (takeClose a b t s) :=
  kept_checked _ _ (fun _ => kept_changeAndLog _ _ _ _ h fun _ _ => ⟨id, by simp⟩) h

theorem kept_takeRetire (t : Ticket) (h : Kept late p ids s) : Kept late p ids (takeRetire t s) :=
  kept_checked _ _ (fun _ => kept_replyDone _ _ _ (kept_table h (by simp) (by simp [isActive]))) h

theorem kept_takeSnapshot (d : Head) (a : BitVec 64) (t : Ticket) (h : Kept late p ids s) :
    Kept late p ids (takeSnapshot d a t s) := by
  unfold takeSnapshot; dsimp only
  refine kept_checked _ _ (fun _ => ?_) h
  split
  · exact h
  · exact kept_snapshotPlace _ _ (kept_setSnapshot _ h)

theorem kept_takeSetClass (c : Byte) (f : ClassFields) (t : Ticket) (h : Kept late p ids s) :
    Kept late p ids (takeSetClass c f t s) :=
  kept_checked _ _ (fun _ => kept_replyDone _ _ _ (h.congr rfl rfl rfl rfl rfl)) h

theorem kept_takeSetMaterial (l : List Byte) (t : Ticket) (h : Kept late p ids s) :
    Kept late p ids (takeSetMaterial l t s) := by
  unfold takeSetMaterial; dsimp only
  exact kept_checked _ _ (fun _ => kept_replyDone _ _ _ (h.congr rfl rfl rfl rfl rfl)) h

/-! ## Machine/Requests.lean -/

theorem kept_replyAccepted (t : Ticket) (e : Bool) (h : Kept late p ids s) :
    Kept late p ids (replyAccepted t e s) :=
  kept_writeEntry _ _ h

theorem kept_runReplace (n : Nat) (t : Ticket) (h : Kept late p ids s) : Kept late p ids (runReplace n t s) := by
  refine kept_checked _ _ (fun _ => ?_) h
  dsimp only
  have h1 := fun e => kept_replyAccepted t e
    (kept_updRun (fun r => { r with stop := n, stopReached := false }) h)
  generalize (decide (s.cycle.stop < n) : Bool) = e
  generalize replyAccepted t e (updRun (fun r => { r with stop := n, stopReached := false }) s) = u,
    h1 e = hu
  split
  · split
    · exact kept_runComplete (kept_stopReached hu)
    · exact kept_stopReached hu
  · exact hu

theorem kept_runFromIdle (b : Bool) (n : Nat) (t : Ticket) (h : Kept late p ids s) :
    Kept late p ids (runFromIdle b n t s) := by
  unfold runFromIdle
  refine kept_checked _ _ (fun _ => ?_) h
  exact kept_beginOpening (kept_replyAccepted _ _ (kept_updCycle _ h))

theorem kept_takeRun (d : Head) (n : BitVec 16) (t : Ticket) (h : Kept late p ids s) :
    Kept late p ids (takeRun d n t s) := by
  unfold takeRun; split
  · exact kept_runFromIdle _ _ _ h
  · exact kept_refuse _ _ h
  · exact kept_refuse _ _ h
  all_goals exact kept_runReplace _ _ h

theorem kept_takeStepTurn (t : Ticket) (h : Kept late p ids s) : Kept late p ids (takeStepTurn t s) := by
  unfold takeStepTurn; split
  · exact kept_checked _ _ (fun _ => kept_startTurn (kept_replyDone _ _ _ (kept_updCycle _ h))) h
  · exact kept_refuse _ _ h

theorem kept_pauseNow (q : ResumePoint) (t : Ticket) (h : Kept late p ids s) : Kept late p ids (pauseNow q t s) :=
  kept_pausedNotice _ (kept_replyDone _ _ _ (kept_pausedState _ h))

theorem kept_takePause (t : Ticket) (h : Kept late p ids s) : Kept late p ids (takePause t s) := by
  have h1 := kept_replyDone t false []
    (kept_updRun (fun r => { r with pausePending := true }) h)
  unfold takePause; split
  · exact kept_refuse _ _ h
  · exact kept_refuse _ _ h
  · exact kept_refuse _ _ h
  · exact kept_replyDone _ _ _ h
  · split
    · exact kept_replyDone _ _ _ h
    · exact kept_pauseNow _ _ h
  · split
    · exact h1
    · exact kept_pauseNow _ _ h
  · exact h1
  · exact h1

theorem kept_leavePause (q : Option ResumePoint) (h : Kept late p ids s) : Kept late p ids (leavePause q s) := by
  have h1 := kept_updRun (fun r => { r with resume := none }) h
  unfold leavePause; dsimp only; split
  · apply kept_enterCycle; split
    · exact kept_holdAdmitted _ _ h1
    · exact h1
  · exact h1

theorem kept_carryOn (q : Option ResumePoint) (h : Kept late p ids s) : Kept late p ids (carryOn q s) := by
  unfold carryOn; split
  · exact kept_beginOpening h
  · exact kept_enterPrepare h
  · split
    · exact kept_runComplete h
    · exact kept_startTurn h
  · exact h

theorem kept_takeContinue (t : Ticket) (h : Kept late p ids s) : Kept late p ids (takeContinue t s) := by
  unfold takeContinue; split
  · exact kept_checked _ _ (fun _ => kept_carryOn _ (kept_replyDone _ _ _ (kept_leavePause _ h))) h
  · exact kept_refuse _ _ h

theorem kept_retryStep (h : Kept late p ids s) : Kept late p ids (retryStep s) := by
  unfold retryStep; split
  · exact h
  · split
    · exact kept_resolveRepeat h
    · unfold retryCapture; split
      · exact h
      · dsimp only
        generalize (OpeningRecord.retried _ _) = o
        split
        · exact kept_enterCycle _ _ (kept_updCycle _ h)
        · exact kept_updCycle _ h

theorem kept_retryGoOn (h : Kept late p ids s) : Kept late p ids (retryGoOn s) := by
  unfold retryGoOn; split
  · exact h
  · split
    · exact kept_startTurn h
    · unfold retriedCapture; split
      · exact kept_beginOpening h
      · split
        · exact kept_enterPrepare h
        · exact kept_finishOpening h

theorem kept_takeRetry (t : Ticket) (h : Kept late p ids s) : Kept late p ids (takeRetry t s) := by
  unfold takeRetry; split
  · refine kept_checked _ _ (fun _ => ?_) h
    exact kept_retryGoOn (kept_replyDone _ _ _ (kept_retryStep h))
  · exact kept_refuse _ _ h

theorem kept_skipStep (h : Kept late p ids s) : Kept late p ids (skipStep s) := by
  unfold skipStep; split
  · exact h
  · split
    · unfold skipTurn
      exact kept_appendOrCount _ (kept_updActive tame_turnCounted (kept_sync (kept_resolveClear h)))
    · unfold skipCapture
      exact kept_updCycle _ h

theorem kept_skipGoOn (h : Kept late p ids s) : Kept late p ids (skipGoOn s) := by
  unfold skipGoOn; split
  · exact h
  · split
    · exact kept_afterTurn h
    · exact kept_finish (kept_openingCaptured h)

theorem kept_takeSkip (t : Ticket) (h : Kept late p ids s) : Kept late p ids (takeSkip t s) := by
  unfold takeSkip; split
  · refine kept_checked _ _ (fun _ => ?_) h
    exact kept_skipGoOn (kept_replyDone _ _ _ (kept_skipStep h))
  · exact kept_refuse _ _ h

theorem kept_abandonRun (h : Kept late p ids s) : Kept late p ids (abandonRun s) := by
  refine kept_enterCycle _ _ (kept_updCycle _ ?_)
  split
  · exact kept_sync (kept_resolveClear h)
  · exact h

theorem kept_takeAbandon (t : Ticket) (h : Kept late p ids s) : Kept late p ids (takeAbandon t s) := by
  unfold takeAbandon; split
  · exact kept_checked _ _ (fun _ => kept_replyDone _ _ _ (kept_abandonRun h)) h
  · exact kept_refuse _ _ h

theorem kept_stopBy (c : StopCause) {r : State → State} (hr : ∀ u, Kept late p ids u → Kept late p ids (r u))
    (h : Kept late p ids s) : Kept late p ids (stopBy c r s) := by
  unfold stopBy; dsimp only; split
  · exact kept_stopTail _ _ _ (hr _ (kept_abortWork _ h))
  · split
    · exact kept_calStop _ hr h
    · exact hr _ h

theorem kept_takeStop (t : Ticket) (h : Kept late p ids s) : Kept late p ids (takeStop t s) :=
  kept_stopBy _ (fun _ hu => kept_replyDone _ _ _ hu) h

theorem kept_takeClearFault (t : Ticket) (h : Kept late p ids s) : Kept late p ids (takeClearFault t s) :=
  kept_checked _ _ (fun _ => kept_replyDone _ _ _ (kept_mapChannels _ (kept_updCycle _ h))) h

theorem kept_recheckSlots (h : Kept late p ids s) : Kept late p ids (recheckSlots s) := by
  unfold recheckSlots; split
  · exact kept_prepareWaits h
  · exact h

theorem kept_takeRelease (c : Byte) (m : BitVec 16) (t : Ticket) (h : Kept late p ids s) :
    Kept late p ids (takeRelease c m t s) := by
  unfold takeRelease; split
  · exact kept_refuse _ _ h
  · exact kept_checked _ _ (fun _ => kept_recheckSlots (kept_replyDone _ _ _ (kept_updCam _ _ h))) h

theorem kept_takeLoadGains (c : Byte) (a : BitVec 64) (t : Ticket) (h : Kept late p ids s) :
    Kept late p ids (takeLoadGains c a t s) := by
  unfold takeLoadGains; dsimp only; split
  · exact kept_refuse _ _ h
  · exact kept_checked _ _ (fun _ => kept_placeGainReads _ _ none (kept_updCam _ _ h) (by simp)) h

theorem kept_takeSetCorrection (c d : Byte) (t : Ticket) (h : Kept late p ids s) :
    Kept late p ids (takeSetCorrection c d t s) := by
  unfold takeSetCorrection; split
  · exact kept_refuse _ _ h
  · exact kept_checked _ _ (fun _ => kept_replyDone _ _ _ (kept_updCam _ _ h)) h

theorem kept_takeCalibrate (q : CalibrateParams) (t : Ticket) (h : Kept late p ids s) :
    Kept late p ids (takeCalibrate q t s) :=
  kept_checked _ _ (fun _ => kept_calCameras (kept_enterCycle _ _ (kept_updCycle _ h))) h

theorem kept_takeSetRules (a b c : BitVec 16) (t : Ticket) (h : Kept late p ids s) :
    Kept late p ids (takeSetRules a b c t s) :=
  kept_checked _ _ (fun _ => kept_replyDone _ _ _ (kept_updCycle _ h)) h

theorem kept_recheckRoom (h : Kept late p ids s) : Kept late p ids (recheckRoom s) := by
  unfold recheckRoom; split
  · split
    · exact kept_prepareWaits h
    · exact kept_startTurn h
    all_goals exact h
  · exact h

theorem kept_takeLogTaken (n : BitVec 32) (t : Ticket) (h : Kept late p ids s) :
    Kept late p ids (takeLogTaken n t s) := by
  unfold takeLogTaken; dsimp only
  have h1 := fun a b c d => kept_replyDone (s := { s with log := { s.log with taken := d } }) a b c
    (h.congr rfl rfl rfl rfl rfl)
  split
  · exact kept_rearm (kept_recheckRoom (h1 _ _ _ _))
  · exact h1 _ _ _ _

theorem kept_takeVerify (t : Ticket) (h : Kept late p ids s) : Kept late p ids (takeVerify t s) := by
  refine kept_checked _ _ (fun _ => ?_) h
  split
  · exact h
  · split
    · exact kept_replyDone _ _ _ h
    · exact kept_verifyAdvance none (h.congr rfl rfl rfl rfl rfl) (by simp)

/-! ## Machine/Operands.lean and Machine/TransitOps.lean -/

theorem kept_askResume (l : Line) (h : Kept late p ids s) : Kept late p ids (askResume l s) := by
  refine kept_ask _ _ _ (fun t u hu => ?_) h
  generalize (lineByte l 8).toNat = n
  rcases n with _ | _ | _ | _ | n
  · exact kept_takeContinue _ hu
  · exact kept_takeRetry _ hu
  · exact kept_takeSkip _ hu
  · exact kept_takeAbandon _ hu
  · exact kept_refuse _ _ hu

theorem kept_askLine (l : Line) (h : Kept late p ids s) : Kept late p ids (askLine l s) := by
  unfold askLine; dsimp only; split
  · exact kept_ask _ _ _ (fun _ _ => kept_takeRegister _ _ _) h
  · exact kept_ask _ _ _ (fun _ _ => kept_takeSetVolume _ _ _) h
  · exact kept_ask _ _ _ (fun _ _ => kept_takeActivate _ _) h
  · exact kept_ask _ _ _ (fun _ _ => kept_takeSuspend _) h
  · exact kept_ask _ _ _ (fun _ _ => kept_takeSetOpening _ _) h
  · exact kept_ask _ _ _ (fun _ _ => kept_takeClose _ _ _) h
  · exact kept_ask _ _ _ (fun _ _ => kept_takeRetire _) h
  · exact kept_ask _ _ _ (fun _ _ => kept_takeSnapshot _ _ _) h
  · exact kept_ask _ _ _ (fun _ _ => kept_takeRun _ _ _) h
  · exact kept_ask _ _ _ (fun _ _ => kept_takeStepTurn _) h
  · exact kept_ask _ _ _ (fun _ _ => kept_takePause _) h
  · exact kept_askResume _ h
  · exact kept_ask _ _ _ (fun _ _ => kept_takeStop _) h
  · exact kept_ask _ _ _ (fun _ _ => kept_takeClearFault _) h
  · exact kept_ask _ _ _ (fun _ _ => kept_takeRelease _ _ _) h
  · exact kept_ask _ _ _ (fun _ _ => kept_takeLoadGains _ _ _) h
  · exact kept_ask _ _ _ (fun _ _ => kept_takeSetCorrection _ _ _) h
  · exact kept_ask _ _ _ (fun _ _ => kept_takeCalibrate _ _) h
  · exact kept_ask _ _ _ (fun _ _ => kept_takeSetRules _ _ _ _) h
  · exact kept_ask _ _ _ (fun _ _ => kept_takeSetClass _ _ _) h
  · exact kept_ask _ _ _ (fun _ _ => kept_takeSetMaterial _ _) h
  · exact kept_ask _ _ _ (fun _ _ => kept_takeLogTaken _ _) h
  · exact kept_ask _ _ _ (fun _ _ => kept_takeVerify _) h
  · exact kept_askUnknown _ _ h

theorem kept_handWrite (x : Txn) (h : Kept late p ids s) : Kept late p ids (handWrite x s) := by
  unfold handWrite; split
  · exact kept_askLine _ h
  · exact h.congr rfl rfl rfl rfl rfl

theorem kept_bumpSeq (h : Kept late p ids s) : Kept late p ids (bumpSeq s) := h.congr rfl rfl rfl rfl rfl
theorem kept_forward (q : Passed) (h : Kept late p ids s) :
    Kept late p ids (forward q s) := h.congr rfl rfl rfl rfl rfl
theorem kept_refuseWrite (x : Txn) (h : Kept late p ids s) :
    Kept late p ids (refuseWrite x s) := h.congr rfl rfl rfl rfl rfl
theorem kept_forwardWrite (x : Txn) (h : Kept late p ids s) :
    Kept late p ids (forwardWrite x s) := h.congr rfl rfl rfl rfl rfl

theorem kept_redirect (c : Camera) (o : Nat) (x : Txn) (h : Kept late p ids s) :
    Kept late p ids (redirect c o x s) := by
  have h1 := kept_takeLine c o x (kept_respond x .done h)
  unfold redirect; dsimp only; split
  · exact kept_bumpSeq h1
  · exact kept_frameReported (kept_bumpSeq h1)
  · split
    · exact kept_frameReported (kept_bumpSeq (kept_forward _ h1))
    · exact kept_bumpSeq (kept_forward _ h1)

theorem kept_apertureWrite (c : Camera) (w : Window) (x : Txn) (h : Kept late p ids s) :
    Kept late p ids (apertureWrite c w x s) := by
  unfold apertureWrite; split
  · exact kept_redirect _ _ _ h
  · exact kept_refuseWrite _ h

theorem kept_poolWrite (x : Txn) (h : Kept late p ids s) : Kept late p ids (poolWrite x s) := by
  unfold poolWrite; split <;> first | exact kept_refuseWrite _ h | exact kept_forwardWrite _ h

theorem kept_classifyWrite (x : Txn) (h : Kept late p ids s) : Kept late p ids (classifyWrite x s) := by
  unfold classifyWrite; dsimp only
  repeat' split
  all_goals first
    | exact kept_handWrite _ (kept_forwardWrite _ h)
    | exact kept_refuseWrite _ h
    | exact kept_apertureWrite _ _ _ h
    | exact kept_poolWrite _ h
    | exact kept_forwardWrite _ h

theorem kept_upWrite (x : Txn) (h : Kept late p ids s) : Kept late p ids (upWrite x s) := by
  unfold upWrite; split
  · split
    · exact kept_classifyWrite _ h
    · exact kept_forwardWrite _ h
  · exact h

theorem kept_classifyRead (x : Txn) (h : Kept late p ids s) (hh : s.transit.holds.length < 16) :
    Kept late p ids (classifyRead x s) := by
  unfold classifyRead; dsimp only; split
  · exact kept_respond _ _ h
  · split
    · exact ⟨h.pending, h.table, h.queue, by simp [bumpSeq]; omega, h.map, h.fifo,
        h.filed.congr rfl rfl rfl rfl⟩
    · exact kept_readForwarded _ (kept_bumpSeq (kept_forward _ h))

theorem kept_upRead (x : Txn) (h : Kept late p ids s) : Kept late p ids (upRead x s) := by
  unfold upRead; split
  · rename_i ho
    split
    · exact kept_classifyRead _ h (by simp [State.readOpen] at ho; exact ho.2)
    · exact kept_bumpSeq (kept_forward _ h)
  · exact h

theorem kept_markIssued (i : Nat) (h : Kept late p ids s) : Kept late p ids (markIssued i s) := by
  unfold markIssued; split
  · exact h.congr rfl rfl rfl rfl rfl
  · exact h

theorem kept_grantPort (h : Kept late p ids s) : Kept late p [] (grantPort s) := by
  have h0 : Kept late p [] s := { h with fifo := List.nil_prefix }
  unfold grantPort; split
  · unfold issueForwarded; split
    · exact h0
    · exact h0.congr rfl rfl rfl rfl rfl
  · unfold issueOwn; split
    · exact h0
    · rename_i e rest hq
      apply kept_releaseHolds; apply kept_markIssued
      refine ⟨h.pending, h.table, ?_, h.holds, h.map, List.nil_prefix,
        h.filed.issued hq rfl rfl rfl⟩
      have := h.queue
      rw [hq] at this
      simp [issue] at this ⊢; omega

theorem kept_answer (r : Bool) (d : List Byte) (h : Kept late p ids s) : Kept late p ids (answer r d s) := by
  unfold answer; split
  · exact h.congr rfl rfl rfl rfl rfl
  · split
    · exact h
    · rename_i i rest _
      dsimp only
      have h1 : Kept late p ids { s with transit := { s.transit with outstanding := rest } } :=
        h.congr rfl rfl rfl rfl rfl
      split
      · split
        · exact h1
        · exact kept_respond _ _ h1
      · unfold ownAnswer; split
        · exact kept_gainReturned _ _ _ _ h1
        · exact kept_verifyReturned _ _ h1
        all_goals exact h1

/-! ## Machine/StartUp.lean -/

theorem apart_default : apart RegionMap.default.windows = true := by decide

theorem lawful_reset : State.reset.vols.lawful := by
  refine ⟨rfl, ?_, by decide⟩
  intro v hv; exact absurd hv (by simp [State.reset])

theorem kept_resetEvent (c : ResetCause) (m : Bool) (h : Kept late p ids s) : Kept late p [] (resetEvent c m s) :=
  ⟨h.pending, lawful_reset, by simp [resetEvent, State.reset], by simp [resetEvent, State.reset], apart_default,
    List.nil_prefix, ⟨rfl, rfl⟩, by simp [resetEvent, State.reset], by simp [resetEvent, State.reset],
    by simp [resetEvent, State.reset, State.lineWaits]; decide, by simp [resetEvent, State.reset]⟩

theorem kept_setLines (f : Lines → Lines) (h : Kept late p ids s) :
    Kept late p ids (setLines f s) := h.congr rfl rfl rfl rfl rfl
theorem kept_updStart (f : Start → Start) (h : Kept late p ids s)
    (hf : (f s.start).phase = s.start.phase := by rfl) : Kept late p ids (updStart f s) :=
  h.congr rfl rfl rfl rfl rfl rfl rfl rfl hf

theorem kept_leaveReset (h : Kept late p ids s) : Kept late p ids (leaveReset s) := by
  unfold leaveReset; split
  · refine ⟨h.pending, h.table, h.queue, h.holds, h.map, h.fifo,
      State.filedFor.mono (h.filed.congr rfl rfl rfl rfl) fun k hk => ?_⟩
    exact absurd hk.1 (by simp [updStart])
  · exact h

theorem kept_supplyFall (h : Kept late p ids s) : Kept late p ids (supplyFall s) := by
  unfold supplyFall; dsimp only
  have h1 := fun k c => kept_notice k c (kept_updTurner (fun t => { t with supply := .low }) h)
  split
  · split
    · exact kept_safeStopFall (h1 _ _)
    · split
      · exact kept_calStop _ (fun _ hu => hu) (h1 _ _)
      · exact h1 _ _
  · exact h1 _ _

theorem kept_sampleSupply (h : Kept late p ids s) : Kept late p ids (sampleSupply s) := by
  unfold sampleSupply; split
  · split
    · exact kept_supplyFall h
    · exact h
  · split
    · exact kept_updTurner _ h
    · exact h

/-- As the part becomes READY its four status lines are composed (R181, R187). -/
theorem kept_becomeReady (h : Kept late p ids s) : Kept late p ids (becomeReady s) := by
  unfold becomeReady; dsimp only
  have h0 : Kept (fun _ => True) p ids (updTurner (fun t => { t with supply := .ok })
      (updStart (fun x => { x with phase := .ready, readyAt := s.now, waiting := .nothing }) s)) := by
    refine kept_updTurner _ ⟨h.pending, h.table, h.queue, h.holds, h.map, h.fifo,
      State.filedFor.mono (h.filed.congr rfl rfl rfl rfl) fun k hk => ?_⟩
    exact absurd trivial hk.2
  have h1 := fun k c => kept_placeStatus 3 (kept_placeStatus 2 (kept_placeStatus 1
    (kept_notice k c (kept_placeStatus 0 h0))))
  have h2 : ∀ k c, Kept late p ids _ := fun k c =>
    { h1 k c with filed := ⟨(h1 k c).filed.marks, (h1 k c).filed.plain, (h1 k c).filed.single,
        (h1 k c).filed.dirty, fun j hj hl => (h1 k c).filed.composed j hj ⟨hl.1, by omega⟩⟩ }
  split
  · exact kept_supplyFall (h2 _ _)
  · exact h2 _ _

theorem kept_setResult (g : Nat) (r : LoadResult) (h : Kept late p ids s) : Kept late p ids (setResult g r s) :=
  kept_updStart _ h
theorem kept_setGeometry (g : Geometry) (h : Kept late p ids s) : Kept late p ids (setGeometry g s) :=
  h.congr rfl rfl rfl rfl rfl

theorem kept_checkDefaultMap (h : Kept late p ids s) : Kept late p ids (checkDefaultMap s) := by
  unfold checkDefaultMap; split
  · exact kept_setResult _ _ (kept_setGeometry _ h)
  · exact h

theorem kept_defaultGroup (g : Nat) (h : Kept late p ids s) : Kept late p ids (defaultGroup g s) := by
  unfold defaultGroup; dsimp only; split
  · exact kept_checkDefaultMap (kept_setResult _ _ h)
  · exact kept_setResult _ _ h

theorem kept_loadGroup (g : Nat) (b : List Byte) (h : Kept late p ids s) : Kept late p ids (loadGroup g b s) := by
  unfold loadGroup; split
  · unfold loadMap; dsimp only; split
    · rename_i hm
      simp only [RegionMap.passes, Bool.and_eq_true] at hm
      exact kept_setResult _ _ ⟨h.pending, h.table, h.queue, h.holds, hm.1.1, h.fifo,
        h.filed.congr rfl rfl rfl rfl⟩
    · exact kept_checkDefaultMap (kept_setResult _ _ h)
  · exact kept_setResult _ _ (kept_setGeometry _ h)
  all_goals exact kept_setResult _ _ (h.congr rfl rfl rfl rfl rfl)

theorem kept_settleGroups : ∀ (l : List Nat) (s : State), Kept late p ids s → Kept late p ids (settleGroups l s)
  | [], _, h => kept_becomeReady h
  | g :: l, s, h => by
    unfold settleGroups; split
    · exact kept_updStart _ h
    · exact kept_settleGroups l _ (kept_defaultGroup g h)

theorem kept_signatureRead (x : List Byte) (c : BitVec 16) (h : Kept late p ids s) :
    Kept late p ids (signatureRead x c s) := by
  unfold signatureRead; split
  · exact kept_settleGroups _ _ (kept_updStart _ h)
  · exact h

theorem kept_groupRead (b : List Byte) (h : Kept late p ids s) : Kept late p ids (groupRead b s) := by
  unfold groupRead; split
  · split
    · exact kept_settleGroups _ _ (kept_loadGroup _ _ (kept_updStart _ h))
    · exact h
  all_goals exact h

end Sys2Proof.Machine
end

