-- ==== Sys2Proof/Laws/Steady.lean ====
section
/-! SUPPORT. The laws of the cycle, the lamps and the cameras (`State.steady`) through the shared operations: what
they read of a state, paperwork, records of volumes, the intake and the lighting unit. -/

namespace Sys2Proof.Machine

set_option Elab.async false

variable {s t : State}

/-! ## What the laws read -/

/-- All that `State.steady` reads of a state. -/
def State.core (s : State) :=
  (s.intake.cams, s.start.phase, s.vols.table, s.vols.classes, s.vols.material, s.light.exposure,
    s.light.channels, s.light.rampRate, s.light.warm, s.cycle.state, s.cycle.heldPlan, s.cycle.review,
    s.cycle.point, s.cycle.cal.isSome)

theorem activeHandle_congr {a b : VolumeTable} (h : b.table = a.table) : b.activeHandle = a.activeHandle := by
  unfold VolumeTable.activeHandle; rw [h]

theorem active_congr {a b : VolumeTable} (h : b.table = a.table) : b.active = a.active := by
  unfold VolumeTable.active; rw [activeHandle_congr h]; unfold VolumeTable.get; rw [h]

theorem limit_congr {a b : VolumeTable} (hc : b.classes = a.classes) (hm : b.material = a.material)
    (v : Volume) : b.entry (b.classOf v) = a.entry (a.classOf v) := by
  unfold VolumeTable.entry VolumeTable.classOf; rw [hc, hm]

theorem State.steady.congr (h : s.steady) (e : t.core = s.core) : t.steady := by
  simp only [State.core, Prod.mk.injEq] at e
  obtain ⟨e1, e2, e3, e4, e5, e6, e7, e8, e9, e10, e11, e12, e13, e14⟩ := e
  have ha := activeHandle_congr e3
  have hv := active_congr e3
  have hl := limit_congr e4 e5
  have hf : ∀ p, t.affords p ↔ s.affords p := by
    intro p; simp only [State.affords, e7, e8, e9, hv, hl]
  have hp : ∀ i, t.plannedFor i = s.plannedFor i := by
    intro i; simp only [State.plannedFor, e6, e8, e9]
  refine ⟨?_, ?_, ?_, ?_, ?_, ?_, ?_, ?_, ?_, ?_⟩
  · rw [e1]; exact h.cams
  · rw [e2, ha]; exact h.early
  · rw [e10, ha]; exact h.active
  · rw [e3]; exact h.used
  · rw [e3]; simp only [hl]; exact h.opened
  · rw [e6, e10]; exact h.exposing
  · rw [e6, e7]; simp only [hf, hp]; exact h.owing
  · rw [e10, e11, e13]; simp only [hf]; exact h.prepared
  · rw [e10, e12]; simp only [hf]; exact h.review
  · rw [e10, e14]; exact h.cal

theorem core_bare (h : t.bare = s.bare) : t.core = s.core := by
  unfold State.core
  rw [bare_intake h, bare_start h, bare_vols h, bare_light h, bare_cycle h]

/-- Paperwork changes none of them. -/
theorem State.steady.paper (h : s.steady) (hb : t.bare = s.bare) : t.steady := h.congr (core_bare hb)

/-- The laws hold, and the cycle may move: no volume exposure is under way, no review waits, no calibration is
in flight and a record is ACTIVE. -/
structure Calm (s : State) : Prop where
  steady : s.steady
  dark : s.light.exposure.underway = false
  idle : s.cycle.review = none
  cal : s.cycle.cal = none
  active : s.vols.activeHandle.isSome = true

theorem Calm.congr (h : Calm s) (e : t.core = s.core) : Calm t := by
  have hs := h.steady.congr e
  simp only [State.core, Prod.mk.injEq] at e
  obtain ⟨e1, e2, e3, e4, e5, e6, e7, e8, e9, e10, e11, e12, e13, e14⟩ := e
  refine ⟨hs, by rw [e6]; exact h.dark, by rw [e12]; exact h.idle, ?_, ?_⟩
  · have hc := h.cal
    rw [hc] at e14
    simpa using e14
  · rw [activeHandle_congr e3]; exact h.active

theorem Calm.paper (h : Calm s) (hb : t.bare = s.bare) : Calm t := h.congr (core_bare hb)

/-- Outside IDLE, CALIBRATE, EXPOSE and REVIEW the cycle may move. -/
theorem calm_of (h : s.steady) (h1 : s.cycle.state ≠ .idle) (h2 : s.cycle.state ≠ .calibrate)
    (h3 : s.cycle.state ≠ .expose) (h4 : s.cycle.state ≠ .review) : Calm s := by
  refine ⟨h, ?_, ?_, ?_, h.active h1 h2⟩
  · cases hu : s.light.exposure.underway
    · rfl
    · exact absurd (h.exposing hu) h3
  · cases hr : s.cycle.review with
    | none => rfl
    | some r => exact absurd (h.review r hr).1 h4
  · cases hc : s.cycle.cal with
    | none => rfl
    | some c => exact absurd (h.cal (by rw [hc]; rfl)) h2

/-- In IDLE with a record ACTIVE the cycle may move. -/
theorem calm_idle (h : s.steady) (hi : s.cycle.state = .idle) (ha : s.vols.activeHandle.isSome = true) :
    Calm s := by
  refine ⟨h, ?_, ?_, ?_, ha⟩
  · cases hu : s.light.exposure.underway
    · rfl
    · have := h.exposing hu; rw [hi] at this; cases this
  · cases hr : s.cycle.review with
    | none => rfl
    | some r => have := (h.review r hr).1; rw [hi] at this; cases this
  · cases hc : s.cycle.cal with
    | none => rfl
    | some c => have := h.cal (by rw [hc]; rfl); rw [hi] at this; cases this

/-- In REVIEW, once no review waits, the cycle may move. -/
theorem calm_review (h : s.steady) (hi : s.cycle.state = .review) (hr : s.cycle.review = none) : Calm s := by
  refine ⟨h, ?_, hr, ?_, h.active (by rw [hi]; simp) (by rw [hi]; simp)⟩
  · cases hu : s.light.exposure.underway
    · rfl
    · have := h.exposing hu; rw [hi] at this; cases this
  · cases hc : s.cycle.cal with
    | none => rfl
    | some c => have := h.cal (by rw [hc]; rfl); rw [hi] at this; cases this

/-! ## Changes of the cycle -/

/-- A change of the cycle that leaves no review and no calibration, and whose PREPARE, if it has one, holds a
retake that fits. -/
theorem State.steady.moved (h : s.steady) (hd : s.light.exposure.underway = false) {c : Cycle}
    (hr : c.review = none) (hc : c.cal.isSome = true → c.state = .calibrate)
    (ha : c.state ≠ .idle → c.state ≠ .calibrate → s.vols.activeHandle.isSome = true)
    (hp : c.state = .prepare ∨ (c.state = .paused ∧ c.point = some .prepare) →
      ∀ p, c.heldPlan = some p → s.affords p) : State.steady { s with cycle := c } := by
  have ho : s.light.exposure.owes = false := by
    have := hd
    simp only [Exposure.underway, Exposure.owes] at this ⊢
    cases hk : (s.light.exposure.kind == .calibration) <;> simp [hk] at this ⊢
    simp [this]
  refine ⟨h.cams, h.early, ha, h.used, h.opened, ?_, ?_, hp, ?_, hc⟩
  · intro hu
    have : s.light.exposure.underway = true := hu
    rw [hd] at this; cases this
  · intro hu
    have : s.light.exposure.owes = true := hu
    rw [ho] at this; cases this
  · intro r hr'
    have : c.review = some r := hr'
    rw [hr] at this; cases this

theorem Calm.moved (h : Calm s) {c : Cycle} (hr : c.review = none) (hc : c.cal = none)
    (hp : c.state = .prepare ∨ (c.state = .paused ∧ c.point = some .prepare) →
      ∀ p, c.heldPlan = some p → s.affords p) : Calm { s with cycle := c } :=
  ⟨h.steady.moved h.dark hr (by rw [hc]; simp) (fun _ _ => h.active) hp, h.dark, hr, hc, h.active⟩

/-- A state of the cycle other than PREPARE and PAUSED is entered. -/
theorem Calm.enter (h : Calm s) (st : CycleState) (sub : SubCondition) (h1 : st ≠ .prepare)
    (h2 : st ≠ .paused) : Calm (enterCycle st sub s) :=
  h.moved h.idle h.cal (fun hp => by
    rcases hp with hp | ⟨hp, _⟩
    · exact absurd hp h1
    · exact absurd hp h2)

/-- A change of the cycle that keeps what the laws read. -/
theorem Calm.cycle (h : Calm s) (f : Cycle → Cycle) (e1 : (f s.cycle).state = s.cycle.state)
    (e2 : (f s.cycle).heldPlan = s.cycle.heldPlan) (e3 : (f s.cycle).review = s.cycle.review)
    (e4 : (f s.cycle).point = s.cycle.point) (e5 : (f s.cycle).cal.isSome = s.cycle.cal.isSome) :
    Calm (updCycle f s) :=
  h.congr (by simp only [State.core, updCycle, e1, e2, e3, e4, e5])

theorem State.steady.cycle (h : s.steady) (f : Cycle → Cycle) (e1 : (f s.cycle).state = s.cycle.state)
    (e2 : (f s.cycle).heldPlan = s.cycle.heldPlan) (e3 : (f s.cycle).review = s.cycle.review)
    (e4 : (f s.cycle).point = s.cycle.point) (e5 : (f s.cycle).cal.isSome = s.cycle.cal.isSome) :
    (updCycle f s).steady :=
  h.congr (by simp only [State.core, updCycle, e1, e2, e3, e4, e5])

/-- The run record changes, its resume point kept. -/
theorem point_map (c : Cycle) (f : RunRecord → RunRecord) (hf : ∀ r, (f r).resume = r.resume) :
    ({ c with run := c.run.map f } : Cycle).point = c.point := by
  cases h : c.run <;> simp [Cycle.point, h, hf]

/-- The opening record changes, its prepared exposure kept. -/
theorem held_map (c : Cycle) (f : OpeningRecord → OpeningRecord) (hf : ∀ o, (f o).prepared = o.prepared) :
    ({ c with opening := c.opening.map f } : Cycle).heldPlan = c.heldPlan := by
  cases h : c.opening <;> simp [Cycle.heldPlan, h, hf]

theorem Calm.run (h : Calm s) (f : RunRecord → RunRecord) (hf : ∀ r, (f r).resume = r.resume) :
    Calm (updRun f s) := h.cycle _ rfl rfl rfl (point_map _ f hf) rfl
theorem State.steady.run (h : s.steady) (f : RunRecord → RunRecord) (hf : ∀ r, (f r).resume = r.resume) :
    (updRun f s).steady := h.cycle _ rfl rfl rfl (point_map _ f hf) rfl
theorem Calm.opening (h : Calm s) (f : OpeningRecord → OpeningRecord)
    (hf : ∀ o, (f o).prepared = o.prepared) : Calm (updOpening f s) :=
  h.cycle _ rfl (held_map _ f hf) rfl rfl rfl
theorem State.steady.opening (h : s.steady) (f : OpeningRecord → OpeningRecord)
    (hf : ∀ o, (f o).prepared = o.prepared) : (updOpening f s).steady :=
  h.cycle _ rfl (held_map _ f hf) rfl rfl rfl

/-! ## Volume records -/

/-- A change of a record that leaves its state, its class, its budget and its dose used, and does not raise its
opening dose. -/
structure Plain (f : Volume → Volume) : Prop where
  state : ∀ v, (f v).state = v.state
  override : ∀ v, (f v).override = v.override
  material : ∀ v, (f v).material = v.material
  budget : ∀ v, (f v).budget = v.budget
  used : ∀ v, (f v).doseUsed = v.doseUsed
  dose : ∀ v, (f v).openingDose ≤ v.openingDose

theorem Plain.classOf {f : Volume → Volume} (hf : Plain f) (t : VolumeTable) (v : Volume) :
    t.classOf (f v) = t.classOf v := by
  unfold VolumeTable.classOf; rw [hf.override, hf.material]

theorem plain_touchRecords (n : Nat) : Plain (touchRecords n) := by
  constructor <;> intro v <;> simp [touchRecords]
theorem plain_turnCounted : Plain turnCounted := by
  constructor <;> intro v <;> simp [turnCounted]
theorem plain_countTurnFault : Plain countTurnFault := by
  constructor <;> intro v <;> simp [countTurnFault]
theorem plain_applyVerdict (k : Nat) (q : Verdict) (r : Bool) : Plain (applyVerdict k q r) := by
  constructor <;> intro v <;> simp [applyVerdict]

theorem findIdx?_set {α : Type} (q : α → Bool) (l : List α) (k : Nat) (x : α)
    (h : ∀ hk : k < l.length, q x = q l[k]) : (l.set k x).findIdx? q = l.findIdx? q := by
  induction l generalizing k with
  | nil => simp
  | cons y l ih =>
    cases k with
    | zero => simp [List.findIdx?_cons, h (by simp)]
    | succ k =>
      simp only [List.set_cons_succ, List.findIdx?_cons]
      rw [ih k (fun hk => h (Nat.succ_lt_succ hk))]

/-- A record changed in place keeps which record is ACTIVE. -/
theorem updVol_handle (k : Nat) {f : Volume → Volume} (hf : ∀ v, (f v).state = v.state) :
    (updVol k f s).vols.activeHandle = s.vols.activeHandle := by
  unfold updVol; split
  · rename_i v hv
    obtain ⟨hl, he⟩ := get_mem hv
    refine findIdx?_set _ _ _ _ fun hk => ?_
    rw [he]; simp [isActive, hf]
  · rfl

/-- The active record after a change in place. -/
theorem updVol_active (k : Nat) {f : Volume → Volume} (hf : ∀ v, (f v).state = v.state) {j : Nat} {w : Volume}
    (h : (updVol k f s).vols.active = some (j, w)) :
    ∃ v, s.vols.active = some (j, v) ∧ (w = v ∨ (j = k ∧ w = f v)) := by
  have hh := updVol_handle (s := s) k hf
  unfold VolumeTable.active at h
  rw [hh] at h
  cases ha : s.vols.activeHandle with
  | none => rw [ha] at h; cases h
  | some i =>
    rw [ha] at h
    simp only [Option.bind_some, Option.map_eq_some_iff, Prod.mk.injEq] at h
    obtain ⟨x, hx, rfl, rfl⟩ := h
    unfold updVol at hx
    split at hx
    · rename_i v hv
      obtain ⟨hl, he⟩ := get_mem hv
      simp only [VolumeTable.get, List.getD_eq_getElem?_getD] at hx
      by_cases hik : i = k
      · subst hik
        rw [List.getElem?_set_self hl] at hx
        simp only [Option.getD_some, Option.some.injEq] at hx
        exact ⟨v, by unfold VolumeTable.active; rw [ha]; simp [hv], .inr ⟨rfl, hx.symm⟩⟩
      · rw [List.getElem?_set_ne (Ne.symm hik)] at hx
        refine ⟨x, ?_, .inl rfl⟩
        unfold VolumeTable.active; rw [ha]
        simp [VolumeTable.get, List.getD_eq_getElem?_getD, hx]
    · exact ⟨x, by unfold VolumeTable.active; rw [ha]; simp [hx], .inl rfl⟩

theorem updVol_mem (k : Nat) {f : Volume → Volume} {w : Volume} (h : some w ∈ (updVol k f s).vols.table) :
    some w ∈ s.vols.table ∨ ∃ v, some v ∈ s.vols.table ∧ w = f v := by
  unfold updVol at h; split at h
  · rename_i v hv
    obtain ⟨hl, he⟩ := get_mem hv
    rcases List.mem_or_eq_of_mem_set h with h1 | h1
    · exact .inl h1
    · cases h1; exact .inr ⟨v, he ▸ List.getElem_mem hl, rfl⟩
  · exact .inl h

/-- All but the table of records stays. -/
theorem updVol_rest (k : Nat) (f : Volume → Volume) (s : State) :
    ∃ x, updVol k f s = { s with vols := { s.vols with table := x } } := by
  unfold updVol; split
  · exact ⟨_, rfl⟩
  · exact ⟨s.vols.table, rfl⟩

theorem affords_updVol (k : Nat) {f : Volume → Volume} (hf : Plain f) {p : Plan} (h : s.affords p) :
    (updVol k f s).affords p := by
  obtain ⟨x, hx⟩ := updVol_rest k f s
  refine ⟨by rw [hx]; exact h.1, ?_⟩
  intro j w hw
  obtain ⟨v, hv, h1⟩ := updVol_active k hf.state hw
  have := h.2 j v hv
  have hl : (updVol k f s).vols.entry ((updVol k f s).vols.classOf w) = s.vols.entry (s.vols.classOf w) := by
    rw [hx]; rfl
  rw [hl]
  rcases h1 with rfl | ⟨-, rfl⟩
  · exact this
  · rw [hf.used, hf.budget, hf.classOf]
    exact ⟨this.1, le_trans (Nat.add_le_add_right (hf.dose v) _) this.2⟩

theorem State.steady.updVol (h : s.steady) (k : Nat) {f : Volume → Volume} (hf : Plain f) :
    (updVol k f s).steady := by
  obtain ⟨x, hx⟩ := updVol_rest k f s
  have hh := updVol_handle (s := s) k hf.state
  have ha : ∀ {p}, s.affords p → (Sys2Proof.Machine.updVol k f s).affords p := affords_updVol k hf
  have hused : ∀ w, some w ∈ (Sys2Proof.Machine.updVol k f s).vols.table → w.doseUsed ≤ w.budget := by
    intro w hw
    rcases updVol_mem k hw with h1 | ⟨v, hv, rfl⟩
    · exact h.used w h1
    · rw [hf.used, hf.budget]; exact h.used v hv
  have hopen : ∀ w, some w ∈ (Sys2Proof.Machine.updVol k f s).vols.table → w.state = .active → w.openingDose ≤
      ((Sys2Proof.Machine.updVol k f s).vols.entry
        ((Sys2Proof.Machine.updVol k f s).vols.classOf w)).doseLimit := by
    intro w hw hs
    have hl : (Sys2Proof.Machine.updVol k f s).vols.entry
        ((Sys2Proof.Machine.updVol k f s).vols.classOf w) = s.vols.entry (s.vols.classOf w) := by
      rw [hx]; rfl
    rw [hl]
    rcases updVol_mem k hw with h1 | ⟨v, hv, rfl⟩
    · exact h.opened w h1 hs
    · rw [hf.classOf]; exact le_trans (hf.dose v) (h.opened v hv ((hf.state v).symm.trans hs))
  rw [hx] at hh ha hused hopen ⊢
  exact ⟨h.cams, fun hs => hh.trans (h.early hs), fun h1 h2 => by
      show Option.isSome _ = true
      rw [hh]; exact h.active h1 h2,
    hused, hopen, h.exposing, fun ho => ⟨ha (h.owing ho).1, (h.owing ho).2⟩,
    fun hp p hq => ha (h.prepared hp p hq),
    fun r hr => ⟨(h.review r hr).1, fun d p hd => ha ((h.review r hr).2 d p hd)⟩, h.cal⟩

theorem Calm.updVol (h : Calm s) (k : Nat) {f : Volume → Volume} (hf : Plain f) : Calm (updVol k f s) := by
  obtain ⟨x, hx⟩ := updVol_rest k f s
  refine ⟨h.steady.updVol k hf, by rw [hx]; exact h.dark, by rw [hx]; exact h.idle, by rw [hx]; exact h.cal,
    ?_⟩
  rw [updVol_handle k hf.state]; exact h.active

theorem State.steady.updActive (h : s.steady) {f : Volume → Volume} (hf : Plain f) :
    (updActive f s).steady := by
  unfold Sys2Proof.Machine.updActive; split
  · exact h.updVol _ hf
  · exact h

theorem Calm.updActive (h : Calm s) {f : Volume → Volume} (hf : Plain f) : Calm (updActive f s) := by
  unfold Sys2Proof.Machine.updActive; split
  · exact h.updVol _ hf
  · exact h

/-! ## The log (spec/07) -/

theorem lowTest_core (s : State) : (lowTest s).core = s.core := by
  unfold lowTest; split
  · generalize hu : ({ s with log := { s.log with lowMark := .spent } } : State) = u
    rw [core_bare (notice_bare _ _ u), ← hu]; rfl
  · rfl

theorem markNextAppend_core (s : State) : (markNextAppend s).core = s.core :=
  core_bare (markNextAppend_bare s)

theorem sync_core (s : State) : (sync s).core = s.core := core_bare (sync_bare s)

/-- An acceptance changes nothing the laws read but the record's numbers. -/
theorem acceptHead_core (i : Nat) (s : State) : (acceptHead i s).core = s.core ∨
    ∃ h n v, v.core = s.core ∧ (acceptHead i s).core = (updVol h (touchRecords n) v).core := by
  unfold acceptHead; split
  · exact .inl rfl
  · rename_i a rest _
    dsimp only
    generalize hv : (enqueue _ _ _ i _ : State) = v
    have hvc : v.core = s.core := by rw [← hv]; rfl
    rw [lowTest_core, markNextAppend_core]
    cases a.handle with
    | none => exact .inl hvc
    | some h => exact .inr ⟨h, _, v, hvc, rfl⟩

theorem State.steady.acceptHead (h : s.steady) (i : Nat) : (acceptHead i s).steady := by
  rcases acceptHead_core i s with e | ⟨k, n, v, e1, e2⟩
  · exact h.congr e
  · exact ((h.congr e1).updVol k (plain_touchRecords n)).congr e2

theorem Calm.acceptHead (h : Calm s) (i : Nat) : Calm (acceptHead i s) := by
  rcases acceptHead_core i s with e | ⟨k, n, v, e1, e2⟩
  · exact h.congr e
  · exact ((h.congr e1).updVol k (plain_touchRecords n)).congr e2

/-- What asking for an append makes of a law that reads the core and outlives a record's numbers. -/
theorem requestAppend_law {P : State → Prop} (hc : ∀ {u v : State}, P u → v.core = u.core → P v)
    (ha : ∀ {u : State} (i : Nat), P u → P (Sys2Proof.Machine.acceptHead i u)) (a : Append) (h : P s) :
    P (requestAppend a s).1 := by
  unfold requestAppend; dsimp only
  have h1 : P (lowTest { sync s with
      log := { (sync s).log with appends := (sync s).log.appends ++ [a] } }) :=
    hc h ((lowTest_core _).trans ((show _ = (sync s).core from rfl).trans (sync_core s)))
  generalize lowTest { sync s with
    log := { (sync s).log with appends := (sync s).log.appends ++ [a] } } = u at *
  split
  · split
    · exact ha _ (hc h1 (show (bumpId u).core = u.core from rfl))
    · exact hc h1 (markNextAppend_core u)
  · exact h1

theorem State.steady.requestAppend (h : s.steady) (a : Append) : (requestAppend a s).1.steady :=
  requestAppend_law (P := State.steady) (fun h e => h.congr e) (fun i h => h.acceptHead i) a h

theorem Calm.requestAppend (h : Calm s) (a : Append) : Calm (requestAppend a s).1 :=
  requestAppend_law (P := Calm) (fun h e => h.congr e) (fun i h => h.acceptHead i) a h

theorem State.steady.appendOrCount (h : s.steady) (a : Append) : (appendOrCount a s).steady := by
  unfold Sys2Proof.Machine.appendOrCount; split
  · exact h.congr (sync_core s)
  · exact h.requestAppend a

theorem Calm.appendOrCount (h : Calm s) (a : Append) : Calm (appendOrCount a s) := by
  unfold Sys2Proof.Machine.appendOrCount; split
  · exact h.congr (sync_core s)
  · exact h.requestAppend a

theorem readForwarded_core (x : Txn) (s : State) : (readForwarded x s).core = s.core := by
  unfold readForwarded; split
  · split <;> rfl
  · rfl

theorem releaseHolds_core (i : Nat) (s : State) : (releaseHolds i s).core = s.core := by
  unfold releaseHolds; dsimp only
  have : ∀ (l : List Passed) (u : State), (l.foldl (fun s r => readForwarded r.txn s) u).core = u.core := by
    intro l; induction l with
    | nil => intro u; rfl
    | cons r l ih => intro u; exact (ih _).trans (readForwarded_core _ _)
  exact (this _ _).trans rfl

theorem rearm_core (s : State) : (rearm s).core = s.core := by
  unfold rearm; split <;> rfl

theorem withdrawFrame_core (s : State) : (withdrawFrame s).core = s.core := by
  unfold withdrawFrame; split
  · dsimp only
    refine (rearm_core _).trans ?_
    split
    · refine (markNextAppend_core _).trans ?_
      have : ∀ (l : List Nat) (u : State), (l.foldl (fun s i => releaseHolds i s) u).core = u.core := by
        intro l; induction l with
        | nil => intro u; rfl
        | cons r l ih => intro u; exact (ih _).trans (releaseHolds_core _ _)
      exact (this _ _).trans rfl
    · rfl
  · rfl

theorem verifyAdvance_core (g : Option Nat) (s : State) : (verifyAdvance g s).core = s.core := by
  unfold verifyAdvance; split
  · rfl
  · dsimp only; split
    · exact (core_bare (replyDone_bare _ _ _ _)).trans rfl
    · split
      · rfl
      · generalize hu : sync _ = u
        have h1 : u.core = s.core := by rw [← hu]; exact (sync_core _).trans rfl
        split
        · exact Eq.trans (b := u.core) rfl h1
        · exact Eq.trans (b := u.core) rfl h1

theorem verifyReturned_core (r : Bool) (l : Line) (s : State) : (verifyReturned r l s).core = s.core := by
  unfold verifyReturned; split
  · rfl
  · exact (verifyAdvance_core none _).trans rfl

end Sys2Proof.Machine
end

