-- ==== Sys2Proof/Laws/SteadyUnits.lean ====
section
/-! SUPPORT. The laws of the cycle, the lamps and the cameras through the frame intake's and the lighting unit's
operations. -/

namespace Sys2Proof.Machine

set_option Elab.async false

variable {s t : State}

/-! ## Cameras (spec/05) -/

/-- What the laws of a camera read of it. -/
def CamState.profile (c : CamState) :=
  (c.slots.map Slot.flies, c.pendingTable, c.activeTable, c.intakeRec.table, c.load)

theorem CamState.lawful.congr {c d : CamState} (h : c.lawful) (e : d.profile = c.profile) : d.lawful := by
  simp only [CamState.profile, Prod.mk.injEq] at e
  obtain ⟨e1, e2, e3, e4, e5⟩ := e
  have hc : ∀ l : List Slot, l.countP Slot.flies = (l.map Slot.flies).countP id := by
    intro l; rw [List.countP_map]; rfl
  exact ⟨by rw [hc, e1, ← hc]; exact h.single, by rw [e2]; exact h.pendingGains, by rw [e3]; exact h.activeGains,
    by rw [e4]; exact h.frameGains, by rw [e5]; exact h.loadGains⟩

/-- A slot replaced by one that flies only if it did. -/
theorem CamState.lawful.putSlot {c : CamState} (h : c.lawful) (k : Nat) (x : Slot)
    (hx : x.flies = true → ∀ hk : k < c.slots.length, (c.slots[k]).flies = true) : (c.putSlot k x).lawful := by
  refine ⟨?_, h.pendingGains, h.activeGains, h.frameGains, h.loadGains⟩
  show (c.slots.set k x).countP Slot.flies ≤ 1
  by_cases hk : k < c.slots.length
  · rw [List.countP_set hk]
    have := h.single
    by_cases hf : x.flies = true
    · simp [hf, hx hf hk]; omega
    · simp [hf]; omega
  · rw [List.set_eq_of_length_le (Nat.le_of_not_lt hk)]; exact h.single

theorem map_set_same {α β : Type} (f : α → β) (l : List α) (k : Nat) (x : α)
    (h : ∀ hk : k < l.length, f x = f l[k]) : (l.set k x).map f = l.map f := by
  apply List.ext_getElem?
  intro i
  rw [List.map_set]
  by_cases hk : k < l.length
  · by_cases hi : i = k
    · subst hi; rw [List.getElem?_set_self (by simpa using hk)]; simp [hk, h hk]
    · rw [List.getElem?_set_ne (Ne.symm hi)]
  · rw [List.set_eq_of_length_le (by simpa using Nat.le_of_not_lt hk)]

theorem getD_slot {c : CamState} {k : Nat} (hk : k < c.slots.length) :
    c.slots.getD k Slot.empty = c.slots[k] := by
  rw [List.getD_eq_getElem?_getD, List.getElem?_eq_getElem hk]; rfl

theorem updFrame_profile (c : CamState) (k : Nat) (f : Frame → Frame) :
    (c.updFrame k f).profile = c.profile := by
  have : (c.slots.set k { c.slots.getD k Slot.empty with
      frame := (c.slots.getD k Slot.empty).frame.map f }).map Slot.flies = c.slots.map Slot.flies :=
    map_set_same _ _ _ _ fun hk => by rw [getD_slot hk]; rfl
  simp only [CamState.profile, CamState.updFrame, CamState.putSlot, this]

theorem endFrame_profile (g : Geometry) (e : FrameEnd) (r : FrameReason) (c : CamState) :
    (c.endFrame g e r).profile = c.profile := by
  unfold CamState.endFrame; split
  · rfl
  · exact updFrame_profile _ _ _

theorem setIntake_profile (c : CamState) (f : IntakeRecord → IntakeRecord)
    (hf : (f c.intakeRec).table = c.intakeRec.table) : (c.setIntake f).profile = c.profile := by
  simp only [CamState.profile, CamState.setIntake, hf]

theorem lawful_arm {c : CamState} (h : c.lawful) (f : Frame) : (c.arm f).lawful := by
  unfold CamState.arm; split
  · rename_i k hn _
    refine ⟨?_, h.pendingGains, h.activeGains, h.frameGains, h.loadGains⟩
    have h0 : c.slots.countP Slot.flies = 0 := by
      rw [List.countP_eq_zero]; intro x hx
      have := List.findIdx?_eq_none_iff.1 hn x hx
      simpa [Slot.flies] using this
    show (c.slots.set k _).countP Slot.flies ≤ 1
    by_cases hk : k < c.slots.length
    · rw [List.countP_set hk, h0]; simp only [Nat.zero_sub, Nat.zero_add]; split <;> simp
    · rw [List.set_eq_of_length_le (Nat.le_of_not_lt hk), h0]; simp
  · exact h

theorem lawful_trigger {c : CamState} (h : c.lawful) (g : Geometry) (b l : Bool) (n : Nat) :
    (c.trigger g b l n).lawful := by
  unfold CamState.trigger; split
  · exact h
  · dsimp only
    have hd : (if c.intakeRec.busy = true then c.endFrame g .damaged .sequence else c).lawful := by
      split
      · exact h.congr (endFrame_profile _ _ _ _)
      · exact h
    generalize (if c.intakeRec.busy = true then c.endFrame g .damaged .sequence else c) = d at *
    refine CamState.lawful.congr ?_ (updFrame_profile _ _ _)
    have ht : gainsInRange (if d.pendingTableFlag = true then d.pendingTable else d.activeTable) := by
      split
      · exact hd.pendingGains
      · exact hd.activeGains
    exact ⟨hd.single, hd.pendingGains, ht, ht, hd.loadGains⟩

theorem lawful_triggerFalls {c : CamState} (h : c.lawful) (n : Nat) (g : Geometry) :
    (c.triggerFalls n g).lawful := by
  unfold CamState.triggerFalls; split
  · split
    · exact h.congr (setIntake_profile _ _ rfl)
    · exact h
  · exact h

theorem lawful_breakFrame {c : CamState} (h : c.lawful) (g : Geometry) (r : FrameReason) :
    (c.breakFrame g r).lawful := by
  unfold CamState.breakFrame
  exact (h.congr (endFrame_profile _ _ _ _)).congr (setIntake_profile _ _ rfl)

theorem lawful_completeFrame {c : CamState} (h : c.lawful) (g : Geometry) : (c.completeFrame g).lawful := by
  unfold CamState.completeFrame; dsimp only
  refine CamState.lawful.congr ?_ (setIntake_profile _ _ rfl)
  split
  · exact h.congr (endFrame_profile _ _ _ _)
  · split <;> exact h.congr (endFrame_profile _ _ _ _)

theorem fill_flies (x : Slot) : x.fill.flies = x.flies := by
  unfold Slot.fill; split
  · rename_i h; simp [Slot.flies, h]
  · rfl

theorem lawful_goodLine {c : CamState} (h : c.lawful) (g : Geometry) (o : Nat) (d : Bool) (l : List Byte) :
    (c.goodLine g o d l).1.lawful := by
  have hf : ∀ k, (c.putSlot k (c.slots.getD k Slot.empty).fill).lawful := fun k =>
    h.putSlot k _ fun hx hk => by rw [fill_flies, getD_slot hk] at hx; exact hx
  have hc : (match c.intakeRec.state, c.intakeRec.armed with
      | .waitFirst, some k => c.putSlot k (c.slots.getD k Slot.empty).fill
      | _, _ => c).lawful := by
    split
    · exact hf _
    · exact h
  unfold CamState.goodLine; dsimp only
  split
  · exact lawful_completeFrame (hc.congr (setIntake_profile _ _ rfl)) g
  · exact hc.congr (setIntake_profile _ _ rfl)

theorem lawful_expire {c : CamState} (h : c.lawful) (g : Geometry) : (c.expire g).lawful := by
  unfold CamState.expire; split
  · exact (h.congr (endFrame_profile _ _ _ _)).congr (setIntake_profile _ _ rfl)
  · exact h.congr (setIntake_profile _ _ rfl)

theorem lawful_markLamp {c : CamState} (h : c.lawful) : c.markLamp.lawful := by
  unfold CamState.markLamp; split
  · exact h
  · split
    · exact h.congr (setIntake_profile _ _ rfl)
    · exact h.congr (updFrame_profile _ _ _)

theorem empty_flies : Slot.empty.flies = false := rfl

theorem lawful_abortFrame {c : CamState} (h : c.lawful) (n : Nat) (g : Geometry) : (c.abortFrame n g).lawful := by
  unfold CamState.abortFrame; split
  · exact h
  · refine CamState.lawful.congr (h.putSlot _ Slot.empty (by simp [empty_flies])) (setIntake_profile _ _ ?_)
    split <;> rfl

theorem lawful_settleFrame {c : CamState} (h : c.lawful) (k : Nat) (v : Verdict) (r : FrameReason) :
    (c.settleFrame k v r).lawful := by
  unfold CamState.settleFrame
  split <;> exact h.putSlot _ _ (by simp [Slot.flies, Slot.empty])

theorem lawful_freeFlying {c : CamState} (h : c.lawful) : c.freeFlying.lawful := by
  unfold CamState.freeFlying; split
  · exact h.putSlot _ Slot.empty (by simp [empty_flies])
  · exact h

theorem countP_mapIdx_le {α : Type} (p : α → Bool) (f : Nat → α → α) (hf : ∀ i x, p (f i x) = true → p x = true) :
    ∀ l : List α, (l.mapIdx f).countP p ≤ l.countP p := by
  intro l
  induction l generalizing f with
  | nil => simp
  | cons x l ih =>
    rw [List.mapIdx_cons, List.countP_cons, List.countP_cons]
    have h1 := ih (fun i => f (i + 1)) (fun i x => hf (i + 1) x)
    have h2 := hf 0 x
    by_cases h : p (f 0 x) = true
    · simp [h, h2 h]; exact h1
    · simp [h]; omega

theorem lawful_release {c : CamState} (h : c.lawful) (m : Nat) : (c.release m).lawful := by
  refine ⟨le_trans (countP_mapIdx_le _ _ ?_ _) h.single, h.pendingGains, h.activeGains, h.frameGains, h.loadGains⟩
  intro i x hx
  split at hx
  · cases hx
  · exact hx

theorem clampGain_range (v : Nat) : 512 ≤ clampGain v ∧ clampGain v ≤ 4095 := by
  unfold clampGain clampTo; omega

theorem gainHalf_range (l : Line) : gainsInRange (gainHalf l).1 := by
  intro g hg
  simp only [gainHalf, List.mem_map] at hg
  obtain ⟨v, -, rfl⟩ := hg
  exact clampGain_range v

theorem bandGain_range (g : Geometry) (a b : Nat) : 512 ≤ (bandGain g a b).1 ∧ (bandGain g a b).1 ≤ 4095 := by
  unfold bandGain; dsimp only; split
  · simp
  · simp only [clampTo]; omega

theorem newGains_range (g : Geometry) (a : Nat) (l : List Nat) :
    gainsInRange ((newGains g a l).map Prod.fst) := by
  intro x hx
  simp only [newGains, List.map_map, List.mem_map] at hx
  obtain ⟨b, -, rfl⟩ := hx
  exact bandGain_range _ _ _

theorem unitGains_range : gainsInRange unitGains := by
  intro g hg
  simp only [unitGains, List.mem_replicate] at hg
  omega

theorem lawful_fresh (n : Nat) : (CamState.fresh n).lawful := by
  refine ⟨?_, unitGains_range, unitGains_range, unitGains_range, fun g h hg => by cases hg⟩
  simp only [CamState.fresh]
  rw [List.countP_replicate]; simp [empty_flies]

/-- A camera is changed, its laws kept. -/
theorem updCam_get (c d : Camera) (f : CamState → CamState) (s : State) :
    (updCam c f s).intake.cams.get d = if d = c then f (s.intake.cams.get d) else s.intake.cams.get d := by
  cases c <;> cases d <;> rfl

theorem State.steady.updCam (h : s.steady) (c : Camera) {f : CamState → CamState}
    (hf : (s.intake.cams.get c).lawful → (f (s.intake.cams.get c)).lawful) : (updCam c f s).steady :=
  ⟨fun d => by
      rw [updCam_get]; split
      · rename_i e; subst e; exact hf (h.cams _)
      · exact h.cams d,
    h.early, h.active, h.used, h.opened, h.exposing, h.owing, h.prepared, h.review, h.cal⟩

theorem Calm.updCam (h : Calm s) (c : Camera) {f : CamState → CamState}
    (hf : (s.intake.cams.get c).lawful → (f (s.intake.cams.get c)).lawful) : Calm (updCam c f s) :=
  ⟨h.steady.updCam c hf, h.dark, h.idle, h.cal, h.active⟩

theorem steady_takeLine (c : Camera) (o : Nat) (x : Txn) (h : s.steady) : (takeLine c o x s).1.steady := by
  unfold takeLine; dsimp only
  split
  · exact h.congr rfl
  · split
    · exact h.congr rfl
    · split
      · exact h.updCam _ fun hc => lawful_breakFrame hc _ _
      · split
        · exact h.updCam _ fun hc => lawful_breakFrame hc _ _
        · exact h.updCam c (f := fun _ => (CamState.goodLine _ _ _ _ (s.intake.cams.get c)).1)
            fun hc => lawful_goodLine hc _ _ _ _

theorem steady_markLamps (h : s.steady) : (markLamps s).steady :=
  (h.updCam _ fun hc => lawful_markLamp hc).updCam _ fun hc => lawful_markLamp hc

theorem steady_abortFrames (h : s.steady) : (abortFrames s).steady := by
  unfold abortFrames
  exact (h.updCam _ fun hc => lawful_abortFrame hc _ _).updCam _ fun hc => lawful_abortFrame hc _ _

theorem placeGainRead_core (c : Camera) (b : Bool) (g : Option Nat) (s : State) :
    (placeGainRead c b g s).1.core = s.core := by
  unfold placeGainRead; split
  · rfl
  · dsimp only; split
    · rfl
    · have h1 := sync_core s
      generalize sync s = u at *
      split
      · exact Eq.trans (b := u.core) rfl h1
      · exact Eq.trans (b := u.core) rfl h1

theorem placeGainReads_core (c : Camera) (b : Bool) (g : Option Nat) (s : State) :
    (placeGainReads c b g s).core = s.core := by
  unfold placeGainReads; dsimp only; split
  · rw [placeGainRead_core, placeGainRead_core]
  · rw [placeGainRead_core]

theorem steady_endLoad (c : Camera) (h : s.steady) : (endLoad c s).steady := by
  have drop : ∀ x : CamState, x.lawful → ({ x with load := none } : CamState).lawful := fun x hx =>
    ⟨hx.single, hx.pendingGains, hx.activeGains, hx.frameGains, fun g h hg => by cases hg⟩
  unfold endLoad; split
  · exact h
  · rename_i l hl
    split
    · rename_i a b ha hb
      dsimp only; split
      · exact (h.updCam c (f := fun x => { x with load := none }) (drop _)).paper (refuse_bare _ _ _)
      · have hr := h.cams c
        have h1 := hr.loadGains l a hl (.inl ha)
        have h2 := hr.loadGains l b hl (.inr hb)
        have h3 := (h.updCam c (f := fun x => { x with load := none }) (drop _)).updCam c
          (f := fun x => { x with pendingTable := a.1 ++ b.1, pendingTableFlag := true }) fun hx =>
            ⟨hx.single, fun g hg => by
              rcases List.mem_append.1 hg with hg | hg
              · exact h1 g hg
              · exact h2 g hg, hx.activeGains, hx.frameGains, hx.loadGains⟩
        exact h3.paper (replyDone_bare _ _ _ _)
    · exact h

theorem steady_gainReturned (c : Camera) (b r : Bool) (l : Line) (h : s.steady) :
    (gainReturned c b r l s).steady := by
  unfold gainReturned
  refine steady_endLoad c (h.updCam c fun hx => ⟨hx.single, hx.pendingGains, hx.activeGains, hx.frameGains, ?_⟩)
  intro g q hg hq
  have hg' : (s.intake.cams.get c).load.map (fun g : GainLoad =>
      if b = true then { g with second := some (gainHalf l), refused := g.refused || r }
      else { g with first := some (gainHalf l), refused := g.refused || r }) = some g := hg
  rw [Option.map_eq_some_iff] at hg'
  obtain ⟨g0, h0, rfl⟩ := hg'
  cases b
  · simp only [Bool.false_eq_true, if_false] at hq
    rcases hq with hq | hq
    · cases hq; exact gainHalf_range l
    · exact hx.loadGains g0 q h0 (.inr hq)
  · simp only [if_true] at hq
    rcases hq with hq | hq
    · exact hx.loadGains g0 q h0 (.inl hq)
    · cases hq; exact gainHalf_range l

end Sys2Proof.Machine
end

