-- ==== Sys2Proof/Laws/SteadyLight.lean ====
section
/-! SUPPORT. The laws of the cycle, the lamps and the cameras through the lighting unit's operations: ramps,
triggers, charges, lamp faults, aborts and completions. -/

namespace Sys2Proof.Machine

set_option Elab.async false

variable {s t : State}

/-! ## Changes of the lighting unit -/

theorem affords_congr (e : t.core = s.core) (p : Plan) : t.affords p ↔ s.affords p := by
  simp only [State.core, Prod.mk.injEq] at e
  obtain ⟨-, -, e3, e4, e5, -, e7, e8, e9, -⟩ := e
  simp only [State.affords, e7, e8, e9, active_congr e3, limit_congr e4 e5]

/-- The lighting unit with the constants of another. -/
structure SameLamps (a b : Lighting) : Prop where
  k : a.channels.map Channel.k = b.channels.map Channel.k
  rate : a.rampRate = b.rampRate
  warm : a.warm = b.warm

theorem affords_light {l : Lighting} (hl : SameLamps l s.light) (p : Plan) :
    State.affords { s with light := l } p ↔ s.affords p := by
  simp only [State.affords, hl.k, hl.rate, hl.warm]

/-- A change of the lighting unit that leaves no charge open. -/
theorem State.steady.lightPaid (h : s.steady) {l : Lighting} (hl : SameLamps l s.light)
    (hu : l.exposure.underway = true → s.cycle.state = .expose) (ho : l.exposure.owes = false) :
    State.steady { s with light := l } :=
  ⟨h.cams, h.early, h.active, h.used, h.opened, hu,
    fun x => absurd ((show l.exposure.owes = true from x).symm.trans ho) (by simp),
    fun hp p hq => (affords_light hl p).2 (h.prepared hp p hq),
    fun r hr => ⟨(h.review r hr).1, fun d p hd => (affords_light hl p).2 ((h.review r hr).2 d p hd)⟩, h.cal⟩

/-- A change of the lighting unit that keeps an open charge open and within the plan. -/
theorem State.steady.lightOwing (h : s.steady) {l : Lighting} (hl : SameLamps l s.light)
    (hu : l.exposure.underway = true → s.cycle.state = .expose)
    (ho : l.exposure.owes = true → s.light.exposure.owes = true ∧ l.exposure.plan = s.light.exposure.plan ∧
      ∀ i c, l.channels[i]? = some c → c.onTime ≤ s.plannedFor i) : State.steady { s with light := l } := by
  refine ⟨h.cams, h.early, h.active, h.used, h.opened, hu, fun x => ?_,
    fun hp p hq => (affords_light hl p).2 (h.prepared hp p hq),
    fun r hr => ⟨(h.review r hr).1, fun d p hd => (affords_light hl p).2 ((h.review r hr).2 d p hd)⟩, h.cal⟩
  obtain ⟨h1, h2, h3⟩ := ho x
  refine ⟨(affords_light hl _).2 ?_, fun i c hc => ?_⟩
  · show s.affords l.exposure.plan
    rw [h2]; exact (h.owing h1).1
  · have := h3 i c hc
    simpa only [State.plannedFor, Exposure.level, hl.rate, hl.warm, h2] using this

theorem owes_underway {e : Exposure} (h : e.underway = false) : e.owes = false := by
  simp only [Exposure.underway, Exposure.owes] at h ⊢
  cases hk : (e.kind == .calibration) <;> simp [hk] at h ⊢
  simp [h]

/-- The channels change, each keeping its constant and staying within its planned on-time. -/
theorem State.steady.channels (h : s.steady) {f : Nat → Channel → Channel} (hk : ∀ i c, (f i c).k = c.k)
    (ht : ∀ i c, c.onTime ≤ s.plannedFor i → (f i c).onTime ≤ s.plannedFor i) :
    (mapChannels f s).steady := by
  refine h.lightOwing ⟨?_, rfl, rfl⟩ h.exposing fun ho => ⟨ho, rfl, ?_⟩
  · apply List.ext_getElem?; intro i
    simp only [List.getElem?_map, List.getElem?_mapIdx, Option.map_map]
    congr 1; funext c; exact hk i c
  · intro i c hc
    simp only [List.getElem?_mapIdx, Option.map_eq_some_iff] at hc
    obtain ⟨c0, h0, rfl⟩ := hc
    exact ht i c0 ((h.owing ho).2 i c0 h0)

/-- The exposure record changes, its plan kept and no charge opened. -/
theorem State.steady.exposure (h : s.steady) {f : Exposure → Exposure}
    (hu : (f s.light.exposure).underway = true → s.cycle.state = .expose)
    (ho : (f s.light.exposure).owes = true → s.light.exposure.owes = true)
    (hp : (f s.light.exposure).plan = s.light.exposure.plan) : (updExposure f s).steady :=
  h.lightOwing ⟨rfl, rfl, rfl⟩ hu fun x => ⟨ho x, hp, (h.owing (ho x)).2⟩

/-- The exposure record is replaced by one that is not under way. -/
theorem State.steady.exposureDark (h : s.steady) {f : Exposure → Exposure}
    (hu : (f s.light.exposure).underway = false) : (updExposure f s).steady :=
  h.lightPaid ⟨rfl, rfl, rfl⟩ (fun x => by
    have : (f s.light.exposure).underway = true := x
    rw [hu] at this; cases this) (owes_underway hu)

theorem Calm.exposure (h : Calm s) {f : Exposure → Exposure} (hu : (f s.light.exposure).underway = false) :
    Calm (updExposure f s) :=
  ⟨h.steady.exposureDark hu, hu, h.idle, h.cal, h.active⟩

theorem Calm.dropAdmitted (h : Calm s) : Calm (dropAdmitted s) := by
  unfold Sys2Proof.Machine.dropAdmitted; split
  · exact h.exposure (by simp [Exposure.underway, Phase.running])
  · exact h

theorem steady_dropAdmitted (h : s.steady) : (dropAdmitted s).steady := by
  unfold dropAdmitted; split
  · exact h.exposureDark (by simp [Exposure.underway, Phase.running])
  · exact h

theorem Calm.holdAdmitted (h : Calm s) (d : Sides) (p : Plan) : Calm (holdAdmitted d p s) :=
  h.exposure (by simp [Exposure.underway, Phase.running])

/-! ## Ramps (R90, R91, R96) -/

theorem onTimeAt_le {c : Channel} {n p : Nat} (h : c.onTime ≤ p) : c.onTimeAt n p ≤ p := by
  unfold Channel.onTimeAt; split
  · exact Nat.min_le_left _ _
  · exact h

theorem step_k (n r p : Nat) (c : Channel) : (c.step n r p).k = c.k := by
  unfold Channel.step; split
  · split
    · rfl
    · split <;> rfl
    all_goals rfl
  · rfl

theorem step_onTime {n r p : Nat} {c : Channel} (h : c.onTime ≤ p) : (c.step n r p).onTime ≤ p := by
  unfold Channel.step; split
  · split
    · exact h
    · split
      · exact onTimeAt_le h
      · exact h
    all_goals exact h
  · exact h

theorem steady_beginRamp (i : Nat) (h : s.steady) : (beginRamp i s).steady := by
  unfold beginRamp
  refine h.channels (fun j c => ?_) fun j c hc => ?_
  · split <;> rfl
  · split <;> exact hc

theorem steady_cutLit (h : s.steady) : (cutLit s).steady := by
  unfold cutLit
  refine h.channels (fun j c => ?_) fun j c hc => ?_
  · split <;> rfl
  · split
    · exact onTimeAt_le hc
    · exact hc

theorem steady_clearChannels (h : s.steady) : (clearChannels s).steady :=
  h.channels (fun _ _ => rfl) fun _ _ _ => Nat.zero_le _

theorem steady_restoreFailed (h : s.steady) :
    (mapChannels (fun _ c => if c.state = .failed then { c with state := .off } else c) s).steady :=
  h.channels (fun _ _ => by split <;> rfl) fun _ _ hc => by split <;> exact hc

/-- The phase moves among those of an exposure under way. -/
theorem State.steady.phase (h : s.steady) {f : Exposure → Exposure}
    (hk : (f s.light.exposure).kind = s.light.exposure.kind)
    (hp : (f s.light.exposure).plan = s.light.exposure.plan)
    (hr : (f s.light.exposure).phase.running = true → s.light.exposure.phase.running = true)
    (he : (f s.light.exposure).phase = .ending →
      s.light.exposure.phase = .ending ∨ s.light.exposure.phase.running = true)
    (hc : (f s.light.exposure).phase = .ending → (f s.light.exposure).charged = false →
      s.light.exposure.phase = .ending → s.light.exposure.charged = false) : (updExposure f s).steady := by
  refine h.exposure (fun hu => h.exposing ?_) (fun ho => ?_) hp
  · simp only [Exposure.underway, hk, Bool.and_eq_true, Bool.or_eq_true, beq_iff_eq] at hu ⊢
    refine ⟨hu.1, ?_⟩
    rcases hu.2 with h1 | h1
    · exact .inl (hr h1)
    · exact (he h1).symm
  · simp only [Exposure.owes, hk, Bool.and_eq_true, Bool.or_eq_true, beq_iff_eq, Bool.not_eq_true'] at ho ⊢
    refine ⟨ho.1, ?_⟩
    rcases ho.2 with h1 | ⟨h1, h2⟩
    · exact .inl (hr h1)
    · rcases he h1 with h3 | h3
      · exact .inr ⟨h3, hc h1 h2 h3⟩
      · exact .inl h3

theorem steady_beginRampDown (n : Nat) (h : s.steady) (hp : s.light.exposure.phase.running = true) :
    (beginRampDown n s).steady := by
  unfold beginRampDown
  refine State.steady.phase (h.channels (fun _ c => ?_) fun _ c hc => ?_) rfl rfl (fun _ => hp)
    (fun e => by cases e) (fun e => by cases e)
  · split <;> rfl
  · split <;> exact hc

/-! ## Triggers (R91, R107) -/

theorem steady_fireTrigger (c : Camera) (h : s.steady) : (fireTrigger c s).steady := by
  unfold fireTrigger; dsimp only; split
  · exact h.updCam _ fun hc => lawful_trigger hc _ _ _ _
  · exact h

theorem fireTrigger_light (c : Camera) (s : State) : (fireTrigger c s).light = s.light := by
  unfold fireTrigger; dsimp only; split
  · cases c <;> rfl
  · rfl

theorem steady_fireTriggers (h : s.steady)
    (hp : s.light.exposure.phase = .ending ∨ s.light.exposure.phase.running = true) :
    (fireTriggers s).steady := by
  unfold fireTriggers
  have hl : (fireTrigger .right (fireTrigger .left s)).light = s.light := by
    rw [fireTrigger_light, fireTrigger_light]
  refine State.steady.phase (steady_fireTrigger _ (steady_fireTrigger _ h)) rfl rfl ?_ ?_ ?_
  · rw [hl]; dsimp only; split
    · intro e; cases e
    · intro _; rcases hp with h1 | h1
      · exact absurd h1 ‹_›
      · exact h1
  · rw [hl]; exact fun _ => hp
  · rw [hl]; exact fun _ h1 _ => h1

theorem steady_warmOnEntry (h : s.steady) : (warmOnEntry s).steady := by
  unfold warmOnEntry; split
  · rename_i hp
    exact steady_fireTriggers h (.inr (by rw [hp.1]; rfl))
  · exact h

theorem steady_rampStep (h : s.steady) : (rampStep s).steady := by
  unfold rampStep
  have h1 : (mapChannels (fun i c => c.step s.now s.light.rampRate (s.plannedFor i)) s).steady :=
    h.channels (fun _ _ => step_k _ _ _ _) fun _ _ hc => step_onTime hc
  dsimp only
  split
  · rename_i hp
    refine steady_warmOnEntry (h1.phase rfl rfl (fun _ => ?_) (fun e => by cases e) fun e => by cases e)
    rw [hp.1]; rfl
  · exact h1

/-! ## Charges (R17, R92, R94, R99) -/

theorem ceilDiv_mono {a b c : Nat} (h : a ≤ b) : ceilDiv a c ≤ ceilDiv b c := by
  unfold ceilDiv; exact Nat.div_le_div_right (by omega)

/-- A charge is never above the dose predicted for its plan while no on-time is above the planned one (R144). -/
theorem chargeOf_le (rate warm time : Nat) : ∀ (cs : List Channel) (vs : List Nat),
    (∀ i c, cs[i]? = some c → c.onTime ≤ plannedOnTime rate warm time (vs.getD i 0)) →
    chargeOf cs vs ≤ predictedDose rate warm time vs (cs.map Channel.k)
  | [], _, _ => by simp [chargeOf]
  | _ :: _, [], _ => by simp [chargeOf]
  | c :: cs, v :: vs, h => by
    have h1 := chargeOf_le rate warm time cs vs fun i d hd => by simpa using h (i + 1) d (by simpa using hd)
    have h2 : c.onTime ≤ plannedOnTime rate warm time v := by simpa using h 0 c rfl
    simp only [chargeOf, predictedDose, List.map_cons]
    refine Nat.add_le_add ?_ h1
    by_cases hv : v = 0
    · subst hv; simp [dose, ceilDiv]
    · rw [if_neg hv]; split
      · exact ceilDiv_mono (Nat.mul_le_mul_left _ h2)
      · exact Nat.zero_le _

theorem charge_le (h : s.steady) (ho : s.light.exposure.owes = true) :
    s.chargeNow ≤ s.light.exposure.plan.predicted := by
  rw [(h.owing ho).1.1]
  exact chargeOf_le _ _ _ _ _ (h.owing ho).2

/-- The charge is made and no charge is open after it. -/
theorem steady_charged (h : s.steady) (hk : s.light.exposure.kind ≠ .calibration)
    (ho : s.light.exposure.owes = true) {l : Lighting}
    (hu : l.exposure.underway = true → s.cycle.state = .expose) (hn : l.exposure.owes = false) :
    State.steady { makeCharge s.chargeNow s with light := l } ∧
      (makeCharge s.chargeNow s).light = s.light ∧ (makeCharge s.chargeNow s).cycle = s.cycle ∧
      (makeCharge s.chargeNow s).vols.activeHandle = s.vols.activeHandle := by
  have hd := charge_le h ho
  have ha := (h.owing ho).1.2
  have hx : s.cycle.state = .expose := h.exposing (by
    simp only [Exposure.owes, Exposure.underway, Bool.and_eq_true, Bool.or_eq_true] at ho ⊢
    exact ⟨ho.1, ho.2.imp id fun q => q.1⟩)
  generalize s.chargeNow = d at *
  unfold makeCharge; rw [if_neg hk]
  unfold updActive
  cases hh : s.vols.activeHandle with
  | none =>
    have := h.active (by rw [hx]; simp) (by rw [hx]; simp)
    rw [hh] at this; cases this
  | some k =>
    dsimp only
    have hfs : ∀ v, (chargeVolume d v).state = v.state := fun _ => rfl
    have hhd := updVol_handle (s := s) k hfs
    have hmem : ∀ w, some w ∈ (updVol k (chargeVolume d) s).vols.table → w.doseUsed ≤ w.budget := by
      intro w hw
      unfold updVol at hw; split at hw
      · rename_i v hv
        obtain ⟨h1, h2⟩ := get_mem hv
        rcases List.mem_or_eq_of_mem_set hw with h3 | h3
        · exact h.used w h3
        · cases h3
          have := (ha k v (by unfold VolumeTable.active; rw [hh]; simp [hv])).1
          simp only [chargeVolume, satAdd]; omega
      · exact h.used w hw
    obtain ⟨x, hxv⟩ := updVol_rest k (chargeVolume d) s
    have hop : ∀ w, some w ∈ (updVol k (chargeVolume d) s).vols.table → w.state = .active →
        w.openingDose ≤ (s.vols.entry (s.vols.classOf w)).doseLimit := by
      intro w hw hs
      unfold updVol at hw; split at hw
      · rename_i v hv
        rcases List.mem_or_eq_of_mem_set hw with h3 | h3
        · exact h.opened w h3 hs
        · cases h3
          have := (ha k v (by unfold VolumeTable.active; rw [hh]; simp [hv])).2
          have hc : s.vols.classOf (chargeVolume d v) = s.vols.classOf v := rfl
          rw [hc]; simp only [chargeVolume, satAdd]; omega
      · exact h.opened w hw hs
    rw [hxv] at hhd hmem hop ⊢
    refine ⟨⟨h.cams, fun hs => hhd.trans (h.early hs), fun _ _ => ?_, hmem, hop, hu, fun q => ?_, fun q => ?_,
      fun r hr => ?_, h.cal⟩, rfl, rfl, ?_⟩
    · show Option.isSome _ = true
      rw [hhd, hh]; rfl
    · have : l.exposure.owes = true := q
      rw [hn] at this; cases this
    · have q' : s.cycle.state = .prepare ∨ s.cycle.state = .paused ∧ s.cycle.point = some .prepare := q
      rw [hx] at q'; rcases q' with q' | ⟨q', -⟩ <;> cases q'
    · have := (h.review r hr).1; rw [hx] at this; cases this
    · rw [hhd, hh]

/-- A charge to the calibration, or with none open on a volume exposure, leaves what the laws read. -/
theorem makeCharge_core (d : Nat) (hk : s.light.exposure.kind = .calibration) :
    (makeCharge d s).core = s.core ∧ (makeCharge d s).cycle.state = s.cycle.state := by
  unfold makeCharge; rw [if_pos hk]
  refine ⟨?_, rfl⟩
  simp only [State.core, updCal, Cycle.heldPlan, Cycle.point, Option.isSome_map]

/-- The charge of an exposure is made, then its record and its channels are cleared (R92, R94). -/
theorem steady_settle (h : s.steady)
    (ho : s.light.exposure.kind ≠ .calibration → s.light.exposure.owes = true) :
    (updExposure (fun e => { e with phase := .none }) (clearChannels (makeCharge s.chargeNow s))).steady ∧
      (makeCharge s.chargeNow s).cycle.state = s.cycle.state := by
  by_cases hk : s.light.exposure.kind = .calibration
  · obtain ⟨h1, h2⟩ := makeCharge_core s.chargeNow hk
    refine ⟨?_, h2⟩
    exact (steady_clearChannels (h.congr h1)).exposureDark (by simp [Exposure.underway, Phase.running])
  · obtain ⟨h1, h2, h3, -⟩ := steady_charged h hk (ho hk)
      (l := { (clearChannels s).light with exposure := { s.light.exposure with phase := .none } })
      (by simp [Exposure.underway, Phase.running])
      (by simp [Exposure.owes, Phase.running])
    refine ⟨?_, by rw [h3]⟩
    refine h1.congr ?_
    simp only [State.core, updExposure, clearChannels, mapChannels, h2]

/-- A record whose phase is NONE is not under way. -/
theorem dark_none (e : Exposure) : ({ e with phase := .none } : Exposure).underway = false := by
  simp [Exposure.underway, Phase.running]

/-- The lighting unit's part of the completion event keeps the laws and ends the exposure (R92). -/
theorem steady_completeExposure (h : s.steady)
    (hp : s.light.exposure.phase = .ending ∨ s.light.exposure.phase.running = true) :
    (completeExposure s).1.steady ∧ (completeExposure s).1.light.exposure.underway = false ∧
      (completeExposure s).1.cycle.state = s.cycle.state := by
  unfold completeExposure; dsimp only
  split
  · exact ⟨(steady_clearChannels h).exposureDark (dark_none _), dark_none _, rfl⟩
  · rename_i hc
    have := steady_settle h fun hk => by
      simp only [Exposure.owes, Bool.and_eq_true, Bool.or_eq_true, Bool.not_eq_true', beq_eq_false_iff_ne,
        beq_iff_eq]
      refine ⟨hk, hp.symm.imp id fun q => ⟨q, by simpa using hc⟩⟩
    exact ⟨this.1, dark_none _, this.2⟩

/-- An abort keeps the laws and ends every exposure (R94). -/
theorem steady_abortExposure (h : s.steady) :
    (abortExposure s).steady ∧ (abortExposure s).light.exposure.underway = false ∧
      (abortExposure s).cycle.state = s.cycle.state := by
  have cut : s.light.exposure.phase.running = true →
      (updExposure (fun e => { e with phase := .none })
        (clearChannels (makeCharge (cutLit s).chargeNow (cutLit s)))).steady ∧
      (updExposure (fun e => { e with phase := .none })
        (clearChannels (makeCharge (cutLit s).chargeNow (cutLit s)))).light.exposure.underway = false ∧
      (updExposure (fun e => { e with phase := .none })
        (clearChannels (makeCharge (cutLit s).chargeNow (cutLit s)))).cycle.state = s.cycle.state := by
    intro hr
    have := steady_settle (steady_cutLit h) fun hk => by
      simp only [Exposure.owes, Bool.and_eq_true, Bool.or_eq_true, Bool.not_eq_true', beq_eq_false_iff_ne]
      exact ⟨hk, .inl hr⟩
    exact ⟨this.1, dark_none _, this.2⟩
  unfold abortExposure; split
  · rename_i hp
    exact ⟨h, by simp [Exposure.underway, hp, Phase.running], rfl⟩
  · rename_i hp
    refine ⟨steady_dropAdmitted h, ?_, ?_⟩
    · unfold dropAdmitted; rw [if_pos hp]; exact dark_none _
    · unfold dropAdmitted; rw [if_pos hp]; rfl
  · exact ⟨(steady_clearChannels h).exposureDark (dark_none _), dark_none _, rfl⟩
  all_goals exact cut (by simp [*, Phase.running])

/-! ## Lamp faults and rest losses (R95, R96) -/

theorem steady_noteCharge (d : Nat) (h : s.steady) : (noteCharge d s).steady := by
  unfold noteCharge; split
  · exact h
  · exact h.opening (fun o => { o with charge := d }) fun _ => rfl

theorem steady_reportLampFault (h : s.steady) : (reportLampFault s).steady := by
  unfold reportLampFault
  refine steady_markLamps ?_
  have h1 : (updExposure (fun e => { e with lampFault := true }) s).steady :=
    h.phase rfl rfl (fun q => q) (fun q => .inl q) fun _ q _ => q
  unfold noteLampFault; split
  · exact h1
  · exact h1.opening (fun o => { o with lampFault := true }) fun _ => rfl

theorem steady_lampFault (i : Nat) (h : s.steady) : (lampFault i s).steady := by
  unfold lampFault
  refine steady_reportLampFault (h.channels (fun j c => ?_) fun j c hc => ?_)
  · split <;> rfl
  · split
    · exact onTimeAt_le hc
    · exact hc

theorem reportLampFault_light (s : State) : (reportLampFault s).light =
    { s.light with exposure := { s.light.exposure with lampFault := true } } := by
  unfold reportLampFault noteLampFault; split <;> rfl

/-- A rest loss under the lamps cuts them and makes the charge; the exposure is ENDING (R95). -/
theorem steady_restCut (h : s.steady) (hr : s.light.exposure.phase.running = true) :
    (updExposure (fun e => { e with phase := .ending }) (reportLampFault
      (updExposure (fun e => { e with charged := true })
        (noteCharge (cutLit s).chargeNow (makeCharge (cutLit s).chargeNow (cutLit s)))))).steady := by
  have hc := steady_cutLit h
  have hl : (cutLit s).light.exposure = s.light.exposure := rfl
  have key : (updExposure (fun e => { e with phase := .ending, charged := true })
      (makeCharge (cutLit s).chargeNow (cutLit s))).steady := by
    by_cases hk : s.light.exposure.kind = .calibration
    · obtain ⟨h1, -⟩ := makeCharge_core (s := cutLit s) (cutLit s).chargeNow hk
      have hs := hc.congr h1
      refine hs.exposureDark ?_
      simp only [State.core, Prod.mk.injEq] at h1
      rw [h1.2.2.2.2.2.1, hl]; simp [Exposure.underway, hk]
    · have hu : s.light.exposure.underway = true := by
        simp [Exposure.underway, hk, hr]
      have ho : (cutLit s).light.exposure.owes = true := by
        rw [hl]; simp [Exposure.owes, hk, hr]
      obtain ⟨h1, h2, -, -⟩ := steady_charged hc hk ho
        (l := { (cutLit s).light with exposure := { s.light.exposure with phase := .ending, charged := true } })
        (fun _ => h.exposing hu) (by simp [Exposure.owes, Phase.running])
      refine h1.congr ?_
      simp only [State.core, updExposure, h2]; rfl
  have h2 := steady_reportLampFault (steady_noteCharge (cutLit s).chargeNow key)
  refine h2.congr ?_
  generalize makeCharge (cutLit s).chargeNow (cutLit s) = u
  unfold reportLampFault noteLampFault noteCharge
  by_cases hk : u.light.exposure.kind = .calibration
  · simp only [updExposure, hk, if_true]; rfl
  · simp only [updExposure, hk, if_false]; rfl

end Sys2Proof.Machine
end

