-- ==== Sys2Proof/Laws/SteadyFlow.lean ====
section
/-! SUPPORT. The laws of the cycle, the lamps and the cameras through halts, the turner, the opening cycle, the
review and the abort. -/

namespace Sys2Proof.Machine

set_option Elab.async false

variable {s t : State}

/-! ## Halts and the turner (spec/03, R52) -/

theorem Calm.turner (h : Calm s) (f : Turner → Turner) : Calm (updTurner f s) := h.congr rfl
theorem State.steady.turner (h : s.steady) (f : Turner → Turner) : (updTurner f s).steady := h.congr rfl
theorem State.steady.stage (h : s.steady) (a : Stage) (b : TurnerSub) (c : TurnerOutputs) (d : StageTimer)
    (e : Option Nat) : (setStage a b c d e s).steady := h.congr rfl

theorem steady_halt (k : FaultKind) (c : FaultClass) (st : Option Stage) (d : Sides) (h : Calm s) :
    (halt k c st d s).steady := by
  unfold halt; dsimp only
  refine State.steady.paper ?_ (notice_bare _ _ _)
  have h1 := ((h.cycle (fun x => { x with fault := some (s.faultNow k c st d) }) rfl rfl rfl rfl
    rfl).dropAdmitted).appendOrCount (.fault (s.faultNow k c st d))
  exact h1.steady.moved h1.dark rfl (fun hc => by
    have := h1.cal; simp only [Cycle.halted] at hc; rw [this] at hc; cases hc) (fun _ _ => h1.active) (fun hp => by rcases hp with hp | ⟨hp, _⟩ <;> cases hp)

theorem steady_haltCapture (k : FaultKind) (d : Sides) (h : Calm s) : (haltCapture k d s).steady :=
  steady_halt _ _ _ _ h
theorem steady_haltTurn (k : FaultKind) (st : Option Stage) (h : Calm s) : (haltTurn k st s).steady :=
  steady_halt _ _ _ _ h

theorem calm_turn (h : s.steady) (ht : s.cycle.state = .turn) : Calm s :=
  calm_of h (by simp [ht]) (by simp [ht]) (by simp [ht]) (by simp [ht])

theorem steady_endTurn (k : FaultKind) (h : s.steady) : (endTurn k s).steady := by
  unfold endTurn; dsimp only; split
  · rename_i ht
    exact steady_haltTurn _ _ ((calm_turn (h.turner _) ht).updActive plain_countTurnFault)
  · exact h.turner _

theorem steady_retryable (k : FaultKind) (h : s.steady) : (retryable k s).steady := by
  unfold retryable; split
  · exact h.congr (sync_core s)
  · exact steady_endTurn k h

theorem steady_doubleLeaf (h : s.steady) : (doubleLeaf s).steady :=
  steady_retryable _ ((h.turner _).updActive (by constructor <;> intro v <;> simp))

theorem steady_gripLoss (h : s.steady) : (gripLoss s).steady := by
  unfold gripLoss; split
  · exact steady_endTurn _ h
  · exact h.turner _

theorem steady_enterSweep (h : s.steady) : (enterSweep s).steady := by
  have h1 := h.stage .sweep .none s.turner.carrying (.running s.now s.turner.g6.sweep) none
  unfold enterSweep; dsimp only; split
  · exact steady_gripLoss h1
  · split
    · exact h1.stage _ _ _ _ _
    · exact h1

theorem steady_enterLift (h : s.steady) : (enterLift s).steady := by
  have h1 := h.stage .lift .none s.turner.carrying (.running s.now s.turner.g6.lift) none
  unfold enterLift; dsimp only; split
  · exact steady_doubleLeaf h1
  · split
    · exact steady_gripLoss h1
    · split
      · exact steady_enterSweep h1
      · exact h1

theorem steady_enterGrip (h : s.steady) : (enterGrip s).steady := by
  have h1 := h.stage .grip .none ⟨.off, false, s.turner.vals.vacuum, .off⟩
    (.running s.now s.turner.g6.grip) none
  unfold enterGrip; dsimp only; split
  · exact steady_enterLift h1
  · exact h1

theorem steady_enterPulse (h : s.steady) : (enterPulse s).steady := by
  unfold enterPulse; split
  · exact steady_enterGrip h
  · exact h.stage _ _ _ _ _

theorem refreshPark_core (s : State) : (refreshPark s).core = s.core := by
  unfold refreshPark; split <;> rfl

theorem steady_checkRise (h : s.steady) : (checkRise s).steady := by
  have h1 := h.congr (refreshPark_core s)
  unfold checkRise; dsimp only
  split
  · split
    · exact steady_enterPulse (h1.turner _)
    · exact h1.turner _
  · split
    · exact steady_enterPulse h1
    · exact h1

theorem steady_takeTurn (h : s.steady) : (takeTurn s).steady := by
  unfold takeTurn; split
  · exact steady_checkRise ((h.turner _).stage _ _ _ _ _)
  · exact h

theorem steady_askTurn (h : s.steady) : (askTurn s).steady := by
  unfold askTurn; split
  · exact steady_takeTurn h
  · split
    · exact h.turner _
    · exact h

theorem steady_checkRetryPause (h : s.steady) : (checkRetryPause s).steady := by
  unfold checkRetryPause; split
  · exact steady_enterPulse h
  · exact h

theorem steady_checkCarry (h : s.steady) : (checkCarry s).steady := by
  unfold checkCarry; split
  · exact steady_enterSweep h
  · split
    · exact h.stage _ _ _ _ _
    · exact h

theorem steady_samplePressure (h : s.steady) : (samplePressure s).steady := by
  unfold samplePressure; split
  · split
    · exact steady_enterLift h
    · exact h
  · split
    · split
      · exact steady_gripLoss h
      · exact h
    · split
      · split
        · exact steady_checkCarry (h.turner _)
        · exact h
      · exact h

theorem Calm.resolveClear (h : Calm s) : Calm (resolveClear s) := h.turner _
theorem Calm.resolveRepeat (h : Calm s) : Calm (resolveRepeat s) := by
  unfold Sys2Proof.Machine.resolveRepeat; split
  · exact h.turner _
  · exact h

/-! ## Notices and the ends of a run (R32, R43, R44, R47) -/

theorem Calm.notice (h : Calm s) (k : NoticeKind) (f : Fields) : Calm (notice k f s) := h.paper (notice_bare _ _ _)

theorem Calm.stopReached (h : Calm s) : Calm (stopReached s) :=
  (h.notice _ _).run (fun r => { r with stopReached := true }) fun _ => rfl
theorem State.steady.stopReached (h : s.steady) : (stopReached s).steady :=
  (h.paper (notice_bare _ _ _)).run (fun r => { r with stopReached := true }) fun _ => rfl

/-- The cycle becomes IDLE. -/
theorem Calm.toIdle (h : Calm s) {c : Cycle} (hr : c.review = none) (hc : c.cal = none) (hi : c.state = .idle) :
    State.steady { s with cycle := c } :=
  (h.moved hr hc fun q => by rw [hi] at q; rcases q with q | ⟨q, _⟩ <;> cases q).steady

theorem steady_runComplete (h : Calm s) : (runComplete s).steady := by
  unfold runComplete; dsimp only
  have h1 := h.notice .runComplete
    [(12, u8 (orFF s.vols.activeHandle)), (14, u16 s.cycle.stop), (16, u16 s.vols.cursor),
      (18, u8 ((s.cycle.run.map RunRecord.kind).getD .run).code)]
  generalize notice _ _ _ = u at *
  exact h1.toIdle h1.idle h1.cal rfl

/-- The exposure a PREPARE would start fits (R88, R89). -/
def Ready (s : State) : Prop := ∀ p, s.cycle.heldPlan = some p → s.affords p

theorem Ready.congr (h : Ready s) (e : t.core = s.core) : Ready t := by
  intro p hp
  have e' := e
  simp only [State.core, Prod.mk.injEq] at e
  exact (affords_congr e' p).2 (h p (by rw [← e.2.2.2.2.2.2.2.2.2.2.1]; exact hp))

theorem ready_of (h : s.steady) (hp : s.cycle.state = .prepare) : Ready s := h.prepared (.inl hp)

theorem calm_pausedState (p : ResumePoint) (h : Calm s) (hp : p = .prepare → Ready s) :
    Calm (pausedState p s) := by
  unfold pausedState
  refine Calm.dropAdmitted (h.moved h.idle h.cal ?_)
  intro q
  refine hp ?_
  rcases q with q | ⟨-, q⟩
  · cases q
  · have q' : (s.cycle.run.map fun r => { r with resume := some p, pausePending := false }).bind
        RunRecord.resume = some .prepare := q
    cases hr : s.cycle.run with
    | none => rw [hr] at q'; cases q'
    | some r => rw [hr] at q'; simpa using q'

theorem steady_enterPaused (p : ResumePoint) (h : Calm s) (hp : p ≠ .prepare) : (enterPaused p s).steady := by
  have h1 := calm_pausedState p h fun q => absurd q hp
  unfold enterPaused pausedNotice
  exact (h1.notice _ _).steady

theorem Calm.openingCaptured (h : Calm s) : Calm (openingCaptured s) := by
  unfold Sys2Proof.Machine.openingCaptured; split
  · exact h
  · exact h.notice _ _

theorem steady_tryTurn (h : Calm s) : (tryTurn s).steady := by
  unfold tryTurn; split
  · exact (h.enter .turn .waitLog (by simp) (by simp)).steady
  · exact steady_askTurn (h.enter .turn .none (by simp) (by simp)).steady

theorem steady_startTurn (h : Calm s) : (startTurn s).steady := by
  unfold startTurn; split
  · split
    · exact steady_runComplete h
    · exact steady_tryTurn h
  · exact h.steady

/-- The opening record is replaced by one that holds no retake. -/
theorem Calm.openingNone (h : Calm s) (o : Option OpeningRecord)
    (ho : ∀ r, o = some r → r.prepared.retake = none) :
    Calm (updCycle (fun c => { c with opening := o }) s) ∧
      Ready (updCycle (fun c => { c with opening := o }) s) := by
  have hn : ∀ p : Plan, (o.bind fun o => o.prepared.retake) ≠ some p := by
    intro p hp
    cases o with
    | none => cases hp
    | some r => rw [Option.bind_some, ho r rfl] at hp; cases hp
  exact ⟨h.moved h.idle h.cal fun _ p hp => absurd hp (hn p), fun p hp => absurd hp (hn p)⟩

theorem steady_finish (h : Calm s) : (finish s).steady := by
  have h1 := (h.openingNone none (by simp)).1
  unfold finish; dsimp only; split
  · exact steady_runComplete h1
  · split
    · exact steady_enterPaused _ h1 (by simp)
    · exact steady_startTurn h1

theorem steady_finishOpening (h : Calm s) : (finishOpening s).steady := by
  unfold finishOpening; split
  · exact steady_finish h.openingCaptured
  · exact steady_finish h

/-! ## PREPARE (R35 to R37) -/

/-- Arming the slots changes the cameras alone, and keeps their laws (R105). -/
theorem armSides_cams (h o r : Nat) : ∀ (l : List Camera) (s : State), ∃ x : PerCam CamState,
    armSides h o r l s = { s with intake := { s.intake with cams := x } } ∧
      ((∀ c, (s.intake.cams.get c).lawful) → ∀ c, (x.get c).lawful)
  | [], s => ⟨s.intake.cams, rfl, fun q => q⟩
  | c :: l, s => by
    obtain ⟨x, h1, h2⟩ := armSides_cams h o r l
      (updCam c (fun x => x.arm (Frame.fresh (some h) o (some (sideOf o c)) r)) s)
    refine ⟨x, by rw [armSides, h1]; cases c <;> rfl, fun q => h2 fun d => ?_⟩
    rw [updCam_get]; split
    · exact lawful_arm (q _) _
    · exact q d

/-- Bringing the status lines up to date on the way into a state of the cycle changes nothing of the core. -/
theorem core_enter_sync (st : CycleState) (sub : SubCondition) (f : OpeningRecord → OpeningRecord) (s : State) :
    (enterCycle st sub (updOpening f (sync s))).core = (enterCycle st sub (updOpening f s)).core := by
  simp only [State.core, enterCycle, updOpening, updCycle, sync_cycle, sync_intake, sync_start, sync_vols,
    sync_light]

/-- An exposure that fits is started (R37, R90). -/
theorem steady_beginExposure (k : ExposureKind) (o : OpeningRecord) (n : Nat) (p : Plan) (h : Calm s)
    (hp : s.affords p) : (beginExposure k o n p s).steady := by
  unfold beginExposure; split
  · refine steady_warmOnEntry (State.steady.congr (s := enterCycle .expose .none
      (updOpening (fun o => { o with exposed := true, lampFault := false })
        (armSides n o.number o.retakes o.prepared.sides.list
          (startExposure k o.prepared.sides p (some n) s)))) ?_ (core_enter_sync _ _ _ _))
    obtain ⟨x, h1, h2⟩ := armSides_cams n o.number o.retakes o.prepared.sides.list
      (startExposure k o.prepared.sides p (some n) s)
    rw [h1]
    have hl : SameLamps (startExposure k o.prepared.sides p (some n) s).light s.light := by
      refine ⟨?_, rfl, rfl⟩
      apply List.ext_getElem?; intro i
      simp only [startExposure, mapChannels, updExposure, List.getElem?_map, List.getElem?_mapIdx, Option.map_map]
      rfl
    refine ⟨h2 h.steady.cams, h.steady.early, fun _ _ => h.active, h.steady.used, h.steady.opened,
      fun _ => rfl, fun _ => ⟨(affords_light hl p).2 hp, fun i c hc => ?_⟩, fun q => ?_, fun r hr => ?_,
      fun hc => ?_⟩
    · simp only [startExposure, mapChannels, updExposure, updOpening, updCycle, enterCycle,
        List.getElem?_mapIdx, Option.map_eq_some_iff] at hc
      obtain ⟨c0, -, rfl⟩ := hc
      exact Nat.zero_le _
    · rcases q with q | ⟨q, _⟩ <;> cases q
    · have : s.cycle.review = some r := hr
      rw [h.idle] at this; cases this
    · have : s.cycle.cal.isSome = true := hc
      rw [h.cal] at this; cases this
  · exact steady_haltCapture _ _ h

/-- An admitted plan fits (R88). -/
theorem affords_of_admitted {k : Nat} {v : Volume} {e : ClassEntry} {ls : List Nat} {n : Nat} {p : Plan}
    (hv : s.vols.active = some (k, v)) (he : e = s.vols.entry (s.vols.classOf v))
    (h : judgeAdmission s v e (s.planOf ls n) = .admitted p) : s.affords p := by
  unfold judgeAdmission at h
  split at h
  · cases h
  · dsimp only at h; split at h
    · rename_i hq
      cases h
      simp only [Bool.and_eq_true, doseTest, decide_eq_true_eq] at hq
      refine ⟨rfl, fun j w hw => ?_⟩
      rw [hv] at hw; cases hw
      exact ⟨hq.2.2, he ▸ hq.2.1⟩
    · cases h

theorem activeClass_entry {k : Nat} {v : Volume} {e : ClassEntry} (hv : s.vols.active = some (k, v))
    (he : s.activeClass = some e) : e = s.vols.entry (s.vols.classOf v) := by
  unfold State.activeClass at he; rw [hv] at he; simpa using he.symm

theorem steady_goOn (h : Calm s) (hr : Ready s) : (goOn s).steady := by
  have h1 : Calm (updCycle (fun c => { c with camTimer := none }) s) := h.cycle _ rfl rfl rfl rfl rfl
  have r1 : Ready (updCycle (fun c => { c with camTimer := none }) s) := hr
  unfold goOn; dsimp only
  generalize updCycle (fun c => { c with camTimer := none }) s = u at *
  split
  · rename_i o k v e ho hv he
    split
    · split
      · rename_i p hp
        exact steady_beginExposure _ _ _ _ h1 (r1 p (by simp [Cycle.heldPlan, ho, hp]))
      · split
        · rename_i p hp
          exact steady_beginExposure _ _ _ _ h1 (affords_of_admitted hv (activeClass_entry hv he) hp)
        · exact steady_haltCapture _ _ h1
        · exact h1.steady
    · exact steady_haltCapture _ _ h1
  · exact h1.steady

/-- PREPARE is entered, or stays entered. -/
theorem Calm.prepare (h : Calm s) (hr : Ready s) (b : SubCondition) :
    Calm (enterCycle .prepare b s) ∧ Ready (enterCycle .prepare b s) :=
  ⟨h.moved h.idle h.cal fun _ => hr, hr⟩

theorem steady_prepareWaits (h : Calm s) (hr : Ready s) : (prepareWaits s).steady := by
  unfold prepareWaits; dsimp only; split
  · exact (h.prepare hr _).1.steady
  · split
    · exact (h.prepare hr _).1.steady
    · split
      · exact steady_goOn (h.prepare hr _).1 (h.prepare hr _).2
      · have h1 : Calm (updCycle
            (fun c => { c with camTimer := some (s.now + ms s.intake.geo.camReadyTimeout) }) s) :=
          h.cycle _ rfl rfl rfl rfl rfl
        exact (h1.prepare (hr.congr rfl) _).1.steady

theorem steady_enterPrepare (h : Calm s) (hr : Ready s) : (enterPrepare s).steady := by
  have h1 := h.prepare hr .none
  unfold enterPrepare; dsimp only; split
  · exact steady_prepareWaits h1.1 h1.2
  · exact steady_haltCapture _ _ h1.1

theorem steady_beginOpening (h : Calm s) : (beginOpening s).steady := by
  unfold beginOpening; split
  · rename_i r k v _ _
    have h0 : Calm (if v.cursor = r.stop ∧ ¬ r.stopReached = true then stopReached s else s) := by
      split
      · exact h.stopReached
      · exact h
    dsimp only
    generalize (if v.cursor = r.stop ∧ ¬ r.stopReached = true then stopReached s else s) = u at *
    have h1 := h0.openingNone (some (OpeningRecord.fresh r.skipCovered v)) (by
      intro o ho; cases ho; rfl)
    split
    · exact steady_finishOpening h1.1
    · exact steady_enterPrepare h1.1 h1.2
  · exact h.steady

/-! ## Review (R39 to R44) -/

/-- A review waits or is being recorded: the cycle is in REVIEW, and a retake it is to prepare fits. -/
structure Judging (a : AfterReview) (s : State) : Prop where
  calm : Calm s
  state : s.cycle.state = .review
  fits : ∀ d p, a = .retake d p → s.affords p

theorem Judging.congr {a : AfterReview} (h : Judging a s) (e : t.core = s.core) : Judging a t := by
  have e' := e
  simp only [State.core, Prod.mk.injEq] at e
  exact ⟨h.calm.congr e', by rw [e.2.2.2.2.2.2.2.2.2.1]; exact h.state,
    fun d p hd => (affords_congr e' p).2 (h.fits d p hd)⟩

theorem Judging.updVol {a : AfterReview} (h : Judging a s) (k : Nat) {f : Volume → Volume} (hf : Plain f) :
    Judging a (updVol k f s) := by
  refine ⟨h.calm.updVol k hf, ?_, fun d p hd => affords_updVol k hf (h.fits d p hd)⟩
  obtain ⟨x, hx⟩ := updVol_rest k f s
  rw [hx]; exact h.state

theorem Judging.acceptHead {a : AfterReview} (h : Judging a s) (i : Nat) : Judging a (acceptHead i s) := by
  rcases acceptHead_core i s with e | ⟨k, n, v, e1, e2⟩
  · exact h.congr e
  · exact ((h.congr e1).updVol k (plain_touchRecords n)).congr e2

theorem Judging.settleSide {a : AfterReview} (h : Judging a s) (j : Judged) : Judging a (settleSide j s) := by
  unfold Sys2Proof.Machine.settleSide setSide
  have h1 : Calm (updCam j.cam (CamState.settleFrame j.slot j.verdict j.reason) s) :=
    h.calm.updCam _ fun hc => lawful_settleFrame hc _ _ _
  have e : ∀ p, State.affords (updCam j.cam (CamState.settleFrame j.slot j.verdict j.reason)
      s) p ↔ s.affords p := by
    intro p; cases j.cam <;> exact Iff.rfl
  have hst : (updCam j.cam (CamState.settleFrame j.slot j.verdict j.reason) s).cycle = s.cycle := by
    cases j.cam <;> rfl
  generalize updCam j.cam (CamState.settleFrame j.slot j.verdict j.reason) s = u at *
  refine ⟨h1.opening _ fun _ => rfl, ?_, fun d p hd => (e p).2 (h.fits d p hd)⟩
  show u.cycle.state = _
  rw [hst]; exact h.state

theorem Judging.recorded {a : AfterReview} (h : Judging a s) (j : Judged) (b : FrameBody) :
    Judging a (frameRecorded j b s) :=
  (h.updVol _ (plain_applyVerdict _ _ _)).settleSide j

theorem steady_reviewEnd (a : AfterReview) (h : Judging a s) : (reviewEnd a s).steady := by
  have h1 : Judging a (updCycle (fun c => { c with review := none }) s) := by
    refine ⟨h.calm.moved rfl h.calm.cal fun q => ?_, h.state, h.fits⟩
    have hs := h.state
    rcases q with q | ⟨q, _⟩ <;> (simp only at q; rw [hs] at q; cases q)
  replace h1 := h1.congr (sync_core _)
  unfold reviewEnd; dsimp only
  generalize sync (updCycle (fun c => { c with review := none }) s) = u at *
  split
  · exact steady_finishOpening h1.calm
  · rename_i d p
    have hv : Plain fun v : Volume => { v with retakes := satSucc v.retakes } := by
      constructor <;> intro v <;> simp
    have h2 := h1.calm.updActive hv
    have h3 : (updActive (fun v => { v with retakes := satSucc v.retakes }) u).affords p := by
      unfold updActive; split
      · exact affords_updVol _ hv (h1.fits d p rfl)
      · exact h1.fits d p rfl
    have hst : (updActive (fun v => { v with retakes := satSucc v.retakes }) u).cycle.state = .review := by
      unfold updActive; split
      · rename_i k _
        obtain ⟨x, hx⟩ := updVol_rest k (fun v : Volume => { v with retakes := satSucc v.retakes }) u
        rw [hx]; exact h1.state
      · exact h1.state
    generalize updActive (fun v => { v with retakes := satSucc v.retakes }) u = w at *
    refine steady_enterPrepare (h2.moved h2.idle h2.cal fun q => ?_) fun q hq => ?_
    · rcases q with q | ⟨q, _⟩ <;> (simp only at q; rw [hst] at q; cases q)
    · simp only [updOpening, updCycle, Cycle.heldPlan, Option.bind_map] at hq
      cases ho : w.cycle.opening with
      | none => rw [ho] at hq; cases hq
      | some o => rw [ho] at hq; cases hq; exact h3
  · exact steady_haltCapture _ _ h1.calm.openingCaptured

theorem steady_recordAll (a : AfterReview) : ∀ (l : List Judged) (s : State), Judging a s →
    (recordAll a l s).steady
  | [], _, h => steady_reviewEnd a h
  | j :: l, s, h => by
    unfold recordAll; split
    · exact steady_recordAll a l _ (h.settleSide j)
    · split
      · rename_i o k v _ _
        have h1 : ∀ b, Judging a (requestAppend b s).1 := fun b =>
          requestAppend_law (P := Judging a) (fun q e => q.congr e) (fun i q => q.acceptHead i) b h
        dsimp only; split
        · exact steady_recordAll a l _ ((h1 _).recorded j _)
        · have h2 := h1 (.frame (frameBody s o k v j))
          generalize (requestAppend (.frame (frameBody s o k v j)) s).1 = u at *
          have hd : u.light.exposure.owes = true → False := fun q => by
            have := owes_underway h2.calm.dark; rw [this] at q; cases q
          refine ⟨h2.calm.steady.cams, h2.calm.steady.early, fun _ _ => h2.calm.active, h2.calm.steady.used,
            h2.calm.steady.opened, h2.calm.steady.exposing, fun q => absurd q (fun q => hd q), fun q => ?_,
            fun r hr => ?_, h2.calm.steady.cal⟩
          · have hs := h2.state
            rcases q with q | ⟨q, _⟩ <;> (simp only [updCycle] at q; rw [hs] at q; cases q)
          · simp only [updCycle, Option.some.injEq] at hr
            subst hr
            exact ⟨h2.state, fun d p hd => h2.fits d p hd⟩
      · exact h.calm.steady

/-- What a review decides to retake fits (R40). -/
theorem decide_fits {o : OpeningRecord} {k : Nat} {v : Volume} {e : ClassEntry}
    (hv : s.vols.active = some (k, v)) (he : s.activeClass = some e) {d : Sides} {p : Plan}
    (h : (decideReview s o v e).2 = .retake d p) : s.affords p := by
  have hm : ∀ js : List Judged, (settleMarginal e js).2 ≠ .retake d p := by
    intro js hj
    unfold settleMarginal at hj; dsimp only at hj
    split at hj
    · cases hj
    · split at hj <;> cases hj
  unfold decideReview at h; dsimp only at h
  split at h
  · cases h
  · split at h
    · cases h
    · split at h
      · cases h
      · split at h
        · split at h
          · rename_i q hq
            cases h
            exact affords_of_admitted hv (activeClass_entry hv he) hq
          · exact absurd h (hm _)
          · exact absurd h (hm _)
        · exact absurd h (hm _)

theorem steady_reviewCheck (h : s.steady) : (reviewCheck s).steady := by
  unfold reviewCheck; split
  · rename_i hc
    have hcalm := calm_review h hc.1 hc.2.1
    split
    · rename_i o k v e ho hv he
      dsimp only
      refine steady_recordAll _ _ _ ?_
      have hj : Judging (decideReview s o v e).2 s :=
        ⟨hcalm, hc.1, fun d p hd => decide_fits hv he hd⟩
      generalize (decideReview s o v e).2 = a at *
      cases a with
      | retake d p =>
        exact ⟨hj.calm.holdAdmitted d p, hj.state, fun d p hd => hj.fits d p hd⟩
      | finish => exact hj
      | halt k d => exact hj
    · exact h
  · exact h

/-! ## The end of a turn (R46, R66 to R68) -/

theorem steady_afterTurn (h : Calm s) : (afterTurn s).steady := by
  unfold afterTurn; split
  · exact h.steady
  · split
    · exact steady_runComplete h
    · split
      · exact steady_enterPaused _ h (by simp)
      · exact steady_beginOpening h

theorem steady_turnDone (h : s.steady) : (turnDone s).steady := by
  have h1 : (updTurner (fun t => t.cleared.toRest) (updVol s.turner.handle turnCounted s)).steady :=
    (h.updVol _ plain_turnCounted).turner _
  unfold turnDone; dsimp only
  generalize updTurner (fun t => t.cleared.toRest) (updVol s.turner.handle turnCounted s) = u at *
  have h2 : (if u.cycle.state = .turn then afterTurn u else u).steady := by
    split
    · exact steady_afterTurn (calm_turn h1 ‹_›)
    · exact h1
  generalize (if u.cycle.state = .turn then afterTurn u else u) = w at *
  split
  · exact steady_takeTurn (h2.turner _)
  · exact h2

theorem steady_completeTurn (h : s.steady) : (completeTurn s).steady := by
  have h1 := h.stage .settle .completing TurnerOutputs.atRest .off none
  unfold completeTurn; dsimp only; split
  · exact steady_turnDone (h1.requestAppend _)
  · exact h1.requestAppend _

theorem steady_enterSettle (h : s.steady) : (enterSettle s).steady := by
  unfold enterSettle; split
  · exact steady_completeTurn h
  · exact h.stage _ _ _ _ _

theorem steady_enterPlatenLower (h : s.steady) : (enterPlatenLower s).steady := by
  have h1 := h.stage .platenLower .none { TurnerOutputs.atRest with platen := .down }
    (.running s.now s.turner.g6.platen) none
  unfold enterPlatenLower; dsimp only; split
  · exact steady_enterSettle h1
  · exact h1

theorem steady_enterReturn (h : s.steady) : (enterReturn s).steady := by
  have h1 := h.stage .returning .none { TurnerOutputs.atRest with arm := .toPark }
    (.running s.now s.turner.g6.goBack) none
  unfold enterReturn; dsimp only; split
  · exact steady_enterPlatenLower h1
  · exact h1

/-! ## Abort and stop (R49, R51) -/

/-- After an abort of a working cycle the cycle may move (R49). -/
theorem calm_abortWork (c : StopCause) (h : s.steady) (hw : s.cycle.state.working = true) :
    Calm (abortWork c s).1 := by
  have h1 : (updCycle (fun c => { c with camTimer := none }) s).steady := h.cycle _ rfl rfl rfl rfl rfl
  obtain ⟨h2, h3, h4⟩ := steady_abortExposure h1
  unfold abortWork; dsimp only
  have h4' : (abortExposure (updCycle (fun c => { c with camTimer := none }) s)).cycle.state = s.cycle.state := h4
  generalize abortExposure (updCycle (fun c => { c with camTimer := none }) s) = u at *
  have e := (withdrawFrame_core (sync u)).trans (sync_core u)
  have h5 := h2.congr e
  simp only [State.core, Prod.mk.injEq] at e
  have h6 : (withdrawFrame (sync u)).light.exposure.underway = false := by rw [e.2.2.2.2.2.1]; exact h3
  have h7 : (withdrawFrame (sync u)).cycle.state = s.cycle.state := by rw [e.2.2.2.2.2.2.2.2.2.1]; exact h4'
  generalize withdrawFrame (sync u) = v at *
  have hni : v.cycle.state ≠ .idle := by rw [h7]; intro q; rw [q] at hw; cases hw
  have hnc : v.cycle.state ≠ .calibrate := by rw [h7]; intro q; rw [q] at hw; cases hw
  have hcal : v.cycle.cal = none := by
    cases hc : v.cycle.cal with
    | none => rfl
    | some c => exact absurd (h5.cal (by rw [hc]; rfl)) hnc
  have h8 : Calm (updCycle (fun c => { c with review := none }) v) :=
    ⟨h5.moved h6 rfl h5.cal h5.active h5.prepared, h6, rfl, hcal, h5.active hni hnc⟩
  have h9 : Calm (sync (abortFrames (updCycle (fun c => { c with review := none }) v))) := by
    refine Calm.paper ?_ (sync_bare _)
    unfold abortFrames
    exact (h8.updCam _ fun hc => lawful_abortFrame hc _ _).updCam _ fun hc => lawful_abortFrame hc _ _
  generalize sync (abortFrames (updCycle (fun c => { c with review := none }) v)) = w at *
  unfold abortTurn; split
  · exact h9.turner (fun t => t.faulted (.aborted c))
  · split <;> exact h9

theorem steady_stopTail (c : StopCause) (f : CycleState) (a : AbortAnswer) (h : Calm s) :
    (stopTail c f a s).steady := by
  have h1 : Calm (cycleStopped c f s) := by unfold cycleStopped; exact h.notice _ _
  unfold stopTail; dsimp only; split
  · exact steady_haltTurn _ _ h1
  · have h2 := h1.resolveClear.paper (sync_bare _)
    generalize sync (resolveClear _) = u at *
    exact h2.toIdle h2.idle h2.cal rfl

theorem steady_safeStopFall (h : s.steady) (hw : s.cycle.state.working = true) : (safeStopFall s).steady := by
  unfold safeStopFall; dsimp only; split
  · exact steady_haltTurn _ _ (calm_abortWork _ h hw)
  · exact steady_haltCapture _ _ (calm_abortWork _ h hw)

end Sys2Proof.Machine
end

