-- ==== Sys2Proof/Laws/SteadyRequests.lean ====
section
/-! SUPPORT. The laws of the cycle, the lamps and the cameras through the calibration, the log's acceptance, the
requests, the transit unit and start-up. -/

namespace Sys2Proof.Machine

set_option Elab.async false

variable {s t : State}

/-! ## The calibration (spec/05 section 5.10) -/

theorem dark_calibrate (h : s.steady) (hc : s.cycle.state = .calibrate) :
    s.light.exposure.underway = false ∧ s.cycle.review = none := by
  refine ⟨?_, ?_⟩
  · cases hu : s.light.exposure.underway
    · rfl
    · have := h.exposing hu; rw [hc] at this; cases this
  · cases hr : s.cycle.review with
    | none => rfl
    | some r => have := (h.review r hr).1; rw [hc] at this; cases this

theorem steady_calFinish (b : CalBody) (h : s.steady) (hc : s.cycle.state = .calibrate) :
    (calFinish b s).steady := by
  have key : ∀ u : State, u.bare = s.bare →
      (enterCycle .idle .none (updCycle (fun c => { c with cal := none, camTimer := none }) u)).steady := by
    intro u hb
    have h1 := h.paper hb
    obtain ⟨h2, h3⟩ := dark_calibrate h1 (by rw [bare_cycle hb]; exact hc)
    exact h1.moved h2 h3 (fun q => by cases q) (fun q => absurd rfl q)
      (fun q => by rcases q with q | ⟨q, _⟩ <;> cases q)
  unfold calFinish; dsimp only; split
  · exact key _ (by unfold cycleStopped; rw [notice_bare]; exact writeEntry_bare _ _ _)
  · exact key _ (writeEntry_bare _ _ _)

/-- What asking for an append keeps besides the laws: the state of the cycle. -/
theorem steady_requestAppend_state (a : Append) (h : s.steady) :
    (requestAppend a s).1.steady ∧ (requestAppend a s).1.cycle.state = s.cycle.state := by
  have := requestAppend_law (s := s) (P := fun u => u.steady ∧ u.cycle.state = s.cycle.state)
    (fun {u v} hu e => ⟨hu.1.congr e, by
      simp only [State.core, Prod.mk.injEq] at e
      rw [e.2.2.2.2.2.2.2.2.2.1]; exact hu.2⟩)
    (fun {u} i hu => ⟨hu.1.acceptHead i, by
      rcases acceptHead_core i u with e | ⟨k, n, v, e1, e2⟩
      · simp only [State.core, Prod.mk.injEq] at e
        rw [e.2.2.2.2.2.2.2.2.2.1]; exact hu.2
      · obtain ⟨x, hx⟩ := updVol_rest k (touchRecords n) v
        rw [hx] at e2
        simp only [State.core, Prod.mk.injEq] at e1 e2
        rw [e2.2.2.2.2.2.2.2.2.2.1, e1.2.2.2.2.2.2.2.2.2.1]; exact hu.2⟩) a ⟨h, rfl⟩
  exact this

theorem steady_calEnd (d : Bool) (k : CalCause) (c : Option Camera) (cams : PerCam CalCamera)
    (st : Option StopCause) (h : s.steady) : (calEnd d k c cams st s).steady := by
  unfold calEnd; split
  · exact h
  · rename_i cal hcal
    have hs := h.cal (by rw [hcal]; rfl)
    have h1 := (h.updCam .left fun hc => lawful_freeFlying hc).updCam .right fun hc => lawful_freeFlying hc
    have hs1 : (updCam .right CamState.freeFlying
        (updCam .left CamState.freeFlying s)).cycle.state = .calibrate := hs
    dsimp only
    generalize updCam .right CamState.freeFlying (updCam .left CamState.freeFlying s) = u at *
    obtain ⟨h2, h3⟩ := dark_calibrate h1 hs1
    have h4 : (updCal (fun c => { c with recorded := true })
        (enterCycle .calibrate .none (updCycle (fun c => { c with camTimer := none }) u))).steady :=
      h1.moved h2 h3 (fun _ => rfl) (fun _ q => absurd rfl q)
        (fun q => by rcases q with q | ⟨q, _⟩ <;> cases q)
    have h5 : (updCal (fun c => { c with recorded := true })
        (enterCycle .calibrate .none (updCycle (fun c => { c with camTimer := none }) u))).cycle.state =
        .calibrate := rfl
    generalize updCal (fun c => { c with recorded := true })
        (enterCycle .calibrate .none (updCycle (fun c => { c with camTimer := none }) u)) = w at *
    obtain ⟨h6, h7⟩ := steady_requestAppend_state (.calibration ⟨d, k, c, cal.target, cal.levels, cal.exposure,
      cal.charge, cams, cal.ticket, cal.clamped, st⟩) h4
    split
    · exact steady_calFinish _ h6 (h7.trans h5)
    · exact h6

theorem steady_calFail (k : CalCause) (h : s.steady) : (calFail k s).steady := steady_calEnd _ _ _ _ _ h

theorem steady_calGo (h : s.steady) : (calGo s).steady := by
  unfold calGo; split
  · exact h
  · rename_i c hc
    have hs := h.cal (by rw [hc]; rfl)
    obtain ⟨h2, h3⟩ := dark_calibrate h hs
    have h1 : (enterCycle .calibrate .none (updCycle (fun c => { c with camTimer := none }) s)).steady :=
      h.moved h2 h3 (fun _ => rfl) (fun _ q => absurd rfl q) (fun q => by rcases q with q | ⟨q, _⟩ <;> cases q)
    dsimp only
    generalize enterCycle .calibrate .none (updCycle (fun c => { c with camTimer := none }) s) = u at *
    split
    · exact steady_calFail _ h1
    · split
      · exact steady_calFail _ h1
      · refine steady_warmOnEntry ?_
        refine State.steady.updCam (State.steady.updCam ?_ _ fun hc => lawful_arm hc _) _
          fun hc => lawful_arm hc _
        unfold startExposure mapChannels updExposure
        refine h1.lightPaid ⟨?_, rfl, rfl⟩ (fun q => by simp [Exposure.underway] at q) (by simp [Exposure.owes])
        apply List.ext_getElem?; intro i
        simp only [List.getElem?_map, List.getElem?_mapIdx, Option.map_map]
        rfl

theorem steady_calCameras (h : s.steady) (hs : s.cycle.state = .calibrate) : (calCameras s).steady := by
  unfold calCameras; split
  · exact steady_calGo h
  · obtain ⟨h2, h3⟩ := dark_calibrate h hs
    exact h.moved h2 h3 (fun _ => rfl) (fun _ q => absurd rfl q) (fun q => by rcases q with q | ⟨q, _⟩ <;> cases q)

theorem steady_calJudge (h : s.steady) : (calJudge s).steady := by
  unfold calJudge; split
  · exact h
  · dsimp only; split
    · refine steady_calEnd _ _ _ _ _ (State.steady.updCam (h.updCam _ fun hc => ?_) _ fun hc => ?_)
      · exact ⟨hc.single, newGains_range _ _ _, hc.activeGains, hc.frameGains, hc.loadGains⟩
      · exact ⟨hc.single, newGains_range _ _ _, hc.activeGains, hc.frameGains, hc.loadGains⟩
    · exact steady_calEnd _ _ _ _ _ h

theorem steady_calCheck (h : s.steady) : (calCheck s).steady := by
  unfold calCheck; split
  · exact h
  · split
    · exact steady_calJudge h
    · exact h

theorem steady_calStop (c : StopCause) {r : State → State} (hr : ∀ u : State, u.steady →
    (r u).steady) (h : s.steady) :
    (calStop c r s).steady := by
  unfold calStop; split
  · exact hr _ h
  · split
    · exact hr _ h
    · exact steady_calEnd _ _ _ _ _ (hr _ (steady_abortFrames (steady_abortExposure h).1))

/-! ## Snapshots and acceptance (R25, R26, R150, R168) -/

theorem snapshotReply_core (s : State) : (snapshotReply s).core = s.core := by
  unfold snapshotReply; split
  · rfl
  · rename_i p hp
    dsimp only
    have h1 := core_bare (writeEntry_bare (replyFields p.ticket .done 0 false false [(12, u8 p.mapLines)])
      .snapshotReply s)
    generalize writeEntry _ _ s = u at *
    split
    · exact Eq.trans (b := u.core) rfl h1
    · exact Eq.trans (b := u.core) rfl h1

theorem snapshotPlace_core : ∀ (l : List (Nat × Line)) (s : State), (snapshotPlace l s).core = s.core
  | [], s => snapshotReply_core s
  | (a, x) :: l, s => by
    unfold snapshotPlace; dsimp only
    have h1 := sync_core s
    generalize sync s = u at *
    split
    · exact (snapshotPlace_core l _).trans (Eq.trans (b := u.core) rfl h1)
    · exact Eq.trans (b := u.core) rfl h1

theorem snapshotGranted_core (i : Nat) (s : State) : (snapshotGranted i s).core = s.core := by
  unfold snapshotGranted; split
  · split
    · exact (snapshotPlace_core _ _).trans rfl
    · rfl
  · rfl

theorem steady_afterAccepted (a : Append) (h : s.steady) : (afterAccepted a s).steady := by
  unfold afterAccepted; split
  · split
    · rename_i b r hr
      split
      · rename_i j rest hj
        obtain ⟨h1, h2⟩ := h.review r hr
        have hd : s.light.exposure.underway = false := by
          cases hu : s.light.exposure.underway
          · rfl
          · have := h.exposing hu; rw [h1] at this; cases this
        have hc : s.cycle.cal = none := by
          cases hc : s.cycle.cal with
          | none => rfl
          | some c => have := h.cal (by rw [hc]; rfl); rw [h1] at this; cases this
        have h3 : Judging r.after (updCycle (fun c => { c with review := none }) s) :=
          ⟨⟨h.moved hd rfl h.cal h.active h.prepared, hd, rfl, hc, h.active (by simp [h1]) (by simp [h1])⟩, h1,
            fun d p q => h2 d p q⟩
        exact steady_recordAll _ _ _ (h3.recorded j _)
      · exact h
    · exact h
  · split
    · exact h
    · exact steady_turnDone h
  · exact h.paper (replyDone_bare _ _ _ _)
  · exact h
  · split
    · exact steady_calFinish _ h ‹_›
    · exact h

theorem steady_acceptWaiting (i : Nat) (h : s.steady) : (acceptWaiting i s).steady := by
  unfold acceptWaiting; split
  · exact steady_afterAccepted _ (h.acceptHead i)
  · exact h

theorem steady_appendForReply (a : Append) (h : s.steady) : (appendForReply a s).steady := by
  unfold appendForReply; dsimp only; split
  · exact steady_afterAccepted _ (h.requestAppend a)
  · exact h.requestAppend a

theorem steady_joinQueue (w : WaitItem) (h : s.steady) : (joinQueue w s).steady := by
  unfold joinQueue; split
  · dsimp only; split
    · exact h.congr rfl
    · exact h.congr rfl
  · exact h.congr rfl
  · exact steady_acceptWaiting _ h
  · exact h.congr (snapshotGranted_core _ _)
  · exact h.congr (verifyAdvance_core _ _)
  · exact h.congr (placeGainReads_core _ _ _ _)

theorem steady_admitOldest (q : WaitItem → Bool) (h : s.steady) : (admitOldest q s).steady := by
  unfold admitOldest; split
  · exact h
  · split
    · exact steady_joinQueue _ (h.congr rfl)
    · exact h

/-! ## The ends of exposures and frames (R38, R92, R118) -/

theorem Calm.noteCharge (d : Nat) (h : Calm s) : Calm (noteCharge d s) := by
  unfold Sys2Proof.Machine.noteCharge; split
  · exact h
  · exact h.opening (fun o => { o with charge := d }) fun _ => rfl

theorem steady_exposureEnds (h : s.steady)
    (hp : s.light.exposure.phase = .ending ∨ s.light.exposure.phase.running = true) :
    (exposureEnds s).steady := by
  obtain ⟨h1, h2, h3⟩ := steady_completeExposure h hp
  unfold exposureEnds; dsimp only
  generalize completeExposure s = q at *
  obtain ⟨u, d⟩ := q
  dsimp only at *
  split
  · refine steady_calCheck (h1.cycle
        (fun c => { c with cal := c.cal.map fun c => { c with exposureDone := true } })
      rfl rfl rfl rfl ?_)
    simp
  · split
    · rename_i hx
      have hc : u.cycle.cal = none := by
        cases hc : u.cycle.cal with
        | none => rfl
        | some c => have := h1.cal (by rw [hc]; rfl); rw [hx] at this; cases this
      have hr : u.cycle.review = none := by
        cases hr : u.cycle.review with
        | none => rfl
        | some r => have := (h1.review r hr).1; rw [hx] at this; cases this
      have hcalm : Calm u := ⟨h1, h2, hr, hc, h1.active (by simp [hx]) (by simp [hx])⟩
      have hs : Calm (sync u) := hcalm.paper (sync_bare u)
      have hn : Calm (if s.light.exposure.charged = true then sync u else noteCharge d (sync u)) := by
        split
        · exact hs
        · exact hs.noteCharge d
      exact steady_reviewCheck (hn.enter .review .none (by simp) (by simp)).steady
    · exact h1

theorem steady_frameReported (h : s.steady) : (frameReported s).steady := by
  unfold frameReported; split
  · exact steady_calCheck h
  · exact steady_reviewCheck h

/-! ## The requests of the volume table (spec/01) -/

theorem steady_ask (c u : Byte) (d : Head) {f : Ticket → State → State}
    (hf : ∀ t s, State.steady s → s.start.phase = .ready → (f t s).steady)
    (h : s.steady) : (ask c u d f s).steady := by
  unfold ask; split
  · rename_i hr
    split
    · exact hf _ _ h (by simpa [State.ready] using hr)
    · exact h.paper (refuse_bare _ _ _)
  · exact h

theorem steady_checked (t : Ticket) (cs : List (Bool × Reason)) {f : State → State}
    (hf : (∀ q ∈ cs, q.1 = false) → (f s).steady) (h : s.steady) : (checked t cs f s).steady := by
  unfold checked; split
  · exact h.paper (refuse_bare _ _ _)
  · rename_i he
    exact hf (firstFailure_none he)

/-- A change of the table while the cycle is IDLE. -/
theorem State.steady.idleTable (h : s.steady) (hi : s.cycle.state = .idle) (hr : s.start.phase = .ready)
    {x : List (Option Volume)} (hu : ∀ v, some v ∈ x → v.doseUsed ≤ v.budget)
    (ho : ∀ v, some v ∈ x → v.state = .active → v.openingDose ≤ (s.vols.entry (s.vols.classOf v)).doseLimit) :
    State.steady { s with vols := { s.vols with table := x } } := by
  have hd : s.light.exposure.underway = false := by
    cases hq : s.light.exposure.underway
    · rfl
    · have := h.exposing hq; rw [hi] at this; cases this
  refine ⟨h.cams, fun q => absurd hr q, fun q => absurd hi q, hu, ho, h.exposing, fun q => ?_, fun q => ?_,
    fun r q => ?_, h.cal⟩
  · have : s.light.exposure.owes = true := q
    rw [owes_underway hd] at this; cases this
  · have : s.cycle.state = .prepare ∨ s.cycle.state = .paused ∧ s.cycle.point = some .prepare := q
    rw [hi] at this; rcases this with q | ⟨q, _⟩ <;> cases q
  · have := (h.review r q).1; rw [hi] at this; cases this

/-- A change of the table that leaves the active record. -/
theorem State.steady.otherTable (h : s.steady) {x : List (Option Volume)}
    (hh : VolumeTable.activeHandle { s.vols with table := x } = s.vols.activeHandle)
    (ha : VolumeTable.active { s.vols with table := x } = s.vols.active)
    (hu : ∀ v, some v ∈ x → v.doseUsed ≤ v.budget)
    (ho : ∀ v, some v ∈ x → v.state = .active → v.openingDose ≤ (s.vols.entry (s.vols.classOf v)).doseLimit) :
    State.steady { s with vols := { s.vols with table := x } } := by
  have hf : ∀ p, State.affords { s with vols := { s.vols with table := x } } p ↔ s.affords p := by
    intro p; simp only [State.affords, ha]; rfl
  refine ⟨h.cams, fun q => hh.trans (h.early q), fun q1 q2 => ?_, hu, ho, h.exposing,
    fun q => ⟨(hf _).2 (h.owing q).1, (h.owing q).2⟩, fun q p hp => (hf p).2 (h.prepared q p hp),
    fun r q => ⟨(h.review r q).1, fun d p hd => (hf p).2 ((h.review r q).2 d p hd)⟩, h.cal⟩
  show Option.isSome _ = true
  rw [hh]; exact h.active q1 q2

/-- A record that is not ACTIVE takes the place of one that is not, or of none. -/
theorem State.steady.setOther (h : s.steady) {k : Nat} {o : Option Volume} (hk : isActive (s.vols.get k) = false)
    (ho : isActive o = false) (hu : ∀ v, o = some v → v.doseUsed ≤ v.budget) :
    State.steady { s with vols := { s.vols with table := s.vols.table.set k o } } := by
  have hh : VolumeTable.activeHandle { s.vols with table := s.vols.table.set k o } = s.vols.activeHandle := by
    refine findIdx?_set _ _ _ _ fun hl => ?_
    rw [ho]
    have : s.vols.get k = s.vols.table[k] := by
      unfold VolumeTable.get; rw [List.getD_eq_getElem?_getD, List.getElem?_eq_getElem hl]; rfl
    rw [← this, hk]
  refine h.otherTable hh ?_ (fun v hv => ?_) fun v hv hs => ?_
  · unfold VolumeTable.active; rw [hh]
    cases ha : s.vols.activeHandle with
    | none => rfl
    | some j =>
      have hjk : j ≠ k := by
        rintro rfl
        obtain ⟨w, hg, hw⟩ := activeHandle_active ha
        rw [hg] at hk; simp [isActive, hw] at hk
      simp only [Option.bind_some, VolumeTable.get, List.getD_eq_getElem?_getD, List.getElem?_set_ne (Ne.symm hjk)]
  · rcases List.mem_or_eq_of_mem_set hv with h1 | h1
    · exact h.used v h1
    · exact hu v h1.symm
  · rcases List.mem_or_eq_of_mem_set hv with h1 | h1
    · exact h.opened v h1 hs
    · rw [← h1] at ho; simp [isActive, hs] at ho

theorem firstFree_get {k : Nat} (h : s.vols.firstFree = some k) : s.vols.get k = none := by
  obtain ⟨hl, ha, _⟩ := List.findIdx?_eq_some_iff_getElem.1 h
  unfold VolumeTable.get
  rw [List.getD_eq_getElem?_getD, List.getElem?_eq_getElem hl]
  simpa using ha

theorem steady_takeRegister (d : Head) (q : RegisterParams) (t : Ticket) (h : s.steady) :
    (takeRegister d q t s).steady := by
  refine steady_checked _ _ (fun _ => ?_) h
  split
  · exact h
  · rename_i k hk
    refine State.steady.paper (h.setOther (k := k) (o := some (newVolume s.vols d q).1) ?_ rfl ?_)
      (replyDone_bare _ _ _ _)
    · rw [firstFree_get hk]; rfl
    · rintro v hv; cases hv; exact Nat.zero_le _

theorem changeVolume_doses (t : VolumeTable) (d : Head) (q : SetVolumeParams) (v : Volume)
    (h : v.doseUsed ≤ v.budget) : (changeVolume t d q v).1.doseUsed ≤ (changeVolume t d q v).1.budget ∧
      (changeVolume t d q v).1.openingDose = v.openingDose ∧
      (changeVolume t d q v).1.material = v.material ∧ (changeVolume t d q v).1.state = v.state ∧
      (d.flag 3 = false → (changeVolume t d q v).1.override = v.override) := by
  unfold changeVolume setOverride; dsimp only
  generalize hw : (if d.flag 3 = true then
    { v with override := if d.flag 6 = true then none else some q.override.toNat } else v) = w
  have h0 : w.doseUsed = v.doseUsed ∧ w.budget = v.budget ∧ w.openingDose = v.openingDose ∧
      w.material = v.material ∧ w.state = v.state ∧ (d.flag 3 = false → w.override = v.override) := by
    rw [← hw]; split
    · rename_i hf; exact ⟨rfl, rfl, rfl, rfl, rfl, fun q => by rw [q] at hf; cases hf⟩
    · exact ⟨rfl, rfl, rfl, rfl, rfl, fun _ => rfl⟩
  have h1 : ∀ c, (setLevels c d q w).1.doseUsed = w.doseUsed ∧ (setLevels c d q w).1.budget = w.budget ∧
      (setLevels c d q w).1.openingDose = w.openingDose ∧ (setLevels c d q w).1.material = w.material ∧
      (setLevels c d q w).1.state = w.state ∧ (setLevels c d q w).1.override = w.override := by
    intro c; unfold setLevels; split
    · split <;> exact ⟨rfl, rfl, rfl, rfl, rfl, rfl⟩
    · exact ⟨rfl, rfl, rfl, rfl, rfl, rfl⟩
  have h2 : ∀ u : Volume, (setExposure d q u).1.doseUsed = u.doseUsed ∧ (setExposure d q u).1.budget = u.budget ∧
      (setExposure d q u).1.openingDose = u.openingDose ∧ (setExposure d q u).1.material = u.material ∧
      (setExposure d q u).1.state = u.state ∧ (setExposure d q u).1.override = u.override := by
    intro u; unfold setExposure; split
    · split <;> exact ⟨rfl, rfl, rfl, rfl, rfl, rfl⟩
    · exact ⟨rfl, rfl, rfl, rfl, rfl, rfl⟩
  have h3 : ∀ u : Volume, u.doseUsed ≤ u.budget → (setBudget d q u).1.doseUsed ≤ (setBudget d q u).1.budget ∧
      (setBudget d q u).1.openingDose = u.openingDose ∧ (setBudget d q u).1.material = u.material ∧
      (setBudget d q u).1.state = u.state ∧ (setBudget d q u).1.override = u.override := by
    intro u hu; unfold setBudget; split
    · exact ⟨le_trans (Nat.le_max_right _ _) (Nat.le_max_right _ _), rfl, rfl, rfl, rfl⟩
    · exact ⟨hu, rfl, rfl, rfl, rfl⟩
  obtain ⟨a1, a2, a3, a4, a5, a6⟩ := h0
  obtain ⟨b1, b2, b3, b4, b5, b6⟩ := h1 (t.entry (t.classOf w)).ceiling
  generalize (setLevels (t.entry (t.classOf w)).ceiling d q w).1 = x at *
  obtain ⟨c1, c2, c3, c4, c5, c6⟩ := h2 x
  generalize (setExposure d q x).1 = y at *
  obtain ⟨d1, d3, d4, d5, d6⟩ := h3 y (by rw [c1, c2, b1, b2, a1, a2]; exact h)
  exact ⟨d1, by rw [d3, c3, b3, a3], by rw [d4, c4, b4, a4], by rw [d5, c5, b5, a5],
    fun q => by rw [d6, c6, b6, a6 q]⟩

theorem steady_takeSetVolume (d : Head) (q : SetVolumeParams) (t : Ticket) (h : s.steady)
    (hr : s.start.phase = .ready) : (takeSetVolume d q t s).steady := by
  refine steady_checked _ _ (fun hc => ?_) h
  split
  · exact h
  · rename_i v hv
    have hi : s.cycle.state = .idle := by
      have := hc (!s.idle, .state) (by simp)
      simpa [State.idle] using this
    obtain ⟨hl, he⟩ := get_mem (named_get hv)
    have hm : some v ∈ s.vols.table := he ▸ List.getElem_mem hl
    obtain ⟨h1, h2, h3, h4, h5⟩ := changeVolume_doses s.vols d q v (h.used v hm)
    refine State.steady.paper ?_ (replyDone_bare _ _ _ _)
    unfold updVol; rw [named_get hv]
    refine h.idleTable hi hr (fun w hw => ?_) fun w hw hs => ?_
    · rcases List.mem_or_eq_of_mem_set hw with h6 | h6
      · exact h.used w h6
      · cases h6; exact h1
    · rcases List.mem_or_eq_of_mem_set hw with h6 | h6
      · exact h.opened w h6 hs
      · cases h6
        rw [h4] at hs
        have hf : d.flag 3 = false := by
          have := hc (d.flag 3 && s.namedIs t fun v => v.state == .active, .state) (by simp)
          simpa [State.namedIs, hv, hs] using this
        have hcl : s.vols.classOf (changeVolume s.vols d q v).1 = s.vols.classOf v := by
          unfold VolumeTable.classOf; rw [h5 hf, h3]
        rw [hcl, h2]; exact h.opened v hm hs

theorem steady_changeAndLog (t : Ticket) (e : VolumeEvent) (c : Bool) (f : Volume → Volume) (h : s.steady)
    (hi : s.cycle.state = .idle) (hr : s.start.phase = .ready) (hu : ∀ v, (f v).doseUsed = v.doseUsed)
    (hb : ∀ v, (f v).budget = v.budget)
    (ho : ∀ v, (f v).state = .active → (f v).openingDose = 0) : (changeAndLog t e c f s).steady := by
  unfold changeAndLog; split
  · exact h
  · refine steady_appendForReply _ ?_
    rename_i v hv
    obtain ⟨hl, he⟩ := get_mem (named_get hv)
    have hm : some v ∈ s.vols.table := he ▸ List.getElem_mem hl
    unfold updVol; rw [named_get hv]
    refine h.idleTable hi hr (fun w hw => ?_) fun w hw hs => ?_
    · rcases List.mem_or_eq_of_mem_set hw with h6 | h6
      · exact h.used w h6
      · cases h6; rw [hu, hb]; exact h.used v hm
    · rcases List.mem_or_eq_of_mem_set hw with h6 | h6
      · exact h.opened w h6 hs
      · cases h6; rw [ho v hs]; exact Nat.zero_le _

theorem idle_of_check {cs : List (Bool × Reason)} {b : Bool} (hc : ∀ c ∈ cs, c.1 = false)
    (hm : (!s.idle || b, .state) ∈ cs) : s.cycle.state = .idle := by
  have := hc _ hm
  simp [State.idle] at this
  exact this.1

theorem steady_takeActivate (o : BitVec 16) (t : Ticket) (h : s.steady) (hr : s.start.phase = .ready) :
    (takeActivate o t s).steady := by
  refine steady_checked _ _ (fun hc => steady_changeAndLog _ _ _ _ h ?_ hr (fun _ => rfl) (fun _ => rfl)
    fun _ _ => rfl) h
  have := hc (!s.idle, .state) (by simp)
  simpa [State.idle] using this

theorem steady_takeSuspend (t : Ticket) (h : s.steady) (hr : s.start.phase = .ready) : (takeSuspend t s).steady :=
  steady_checked _ _ (fun hc => steady_changeAndLog _ _ _ _ h (idle_of_check hc (b := s.completing) (by simp)) hr
    (fun _ => rfl) (fun _ => rfl) fun _ q => by cases q) h

theorem steady_takeClose (a b : BitVec 16) (t : Ticket) (h : s.steady) (hr : s.start.phase = .ready) :
    (takeClose a b t s).steady :=
  steady_checked _ _ (fun hc => steady_changeAndLog _ _ _ _ h (idle_of_check hc (b := s.completing) (by simp)) hr
    (fun _ => rfl) (fun _ => rfl) fun _ q => by cases q) h

theorem plain_placeAt (n : Nat) : Plain (placeAt n) := by
  constructor <;> intro v <;> simp [placeAt]

theorem steady_takeSetOpening (o : BitVec 16) (t : Ticket) (h : s.steady) : (takeSetOpening o t s).steady :=
  steady_checked _ _ (fun _ => (h.updVol _ (plain_placeAt _)).paper (replyDone_bare _ _ _ _)) h

theorem steady_takeRetire (t : Ticket) (h : s.steady) : (takeRetire t s).steady := by
  refine steady_checked _ _ (fun hc => ?_) h
  refine State.steady.paper (h.setOther (k := t.handle.toNat) (o := none) ?_ rfl (by simp))
    (replyDone_bare _ _ _ _)
  have h1 := hc ((s.named t).isNone, .noVolume) (by simp)
  have h2 := hc (s.namedIs t fun v => v.state == .active || v.state == .suspended, .state) (by simp)
  cases hv : s.named t with
  | none => simp [hv] at h1
  | some v =>
    rw [named_get hv]
    simp only [State.namedIs, hv, Bool.or_eq_false_iff, beq_eq_false_iff_ne] at h2
    simp [isActive, h2.1]

theorem steady_takeSnapshot (d : Head) (a : BitVec 64) (t : Ticket) (h : s.steady) :
    (takeSnapshot d a t s).steady := by
  unfold takeSnapshot; dsimp only
  refine steady_checked _ _ (fun _ => ?_) h
  split
  · exact h
  · exact h.congr ((snapshotPlace_core _ _).trans rfl)

/-- With no record ACTIVE the class table and the material map may change (R8, R9). -/
theorem State.steady.tables (h : s.steady) (ha : s.vols.activeHandle = none) (c : List ClassEntry) (m : List Nat) :
    State.steady { s with vols := { s.vols with classes := c, material := m } } := by
  have hno : ∀ v, some v ∈ s.vols.table → v.state ≠ .active := by
    intro v hv hs
    have := List.findIdx?_eq_none_iff.1 ha _ hv
    simp [isActive, hs] at this
  have hst : s.cycle.state = .idle ∨ s.cycle.state = .calibrate := by
    by_cases h1 : s.cycle.state = .idle
    · exact .inl h1
    · by_cases h2 : s.cycle.state = .calibrate
      · exact .inr h2
      · have := h.active h1 h2; rw [ha] at this; cases this
  have hd : s.light.exposure.underway = false := by
    cases hq : s.light.exposure.underway
    · rfl
    · have := h.exposing hq; rw [this] at hst; rcases hst with q | q <;> cases q
  refine ⟨h.cams, h.early, h.active, h.used, fun v hv hs => absurd hs (hno v hv), h.exposing, fun q => ?_,
    fun q => ?_, fun r q => ?_, h.cal⟩
  · have : s.light.exposure.owes = true := q
    rw [owes_underway hd] at this; cases this
  · have q' : s.cycle.state = .prepare ∨ s.cycle.state = .paused ∧ s.cycle.point = some .prepare := q
    rcases hst with e | e <;> rw [e] at q' <;> rcases q' with q | ⟨q, _⟩ <;> cases q
  · have := (h.review r q).1
    rcases hst with e | e <;> rw [e] at this <;> cases this

theorem no_active {cs : List (Bool × Reason)} {r : Reason} (hc : ∀ c ∈ cs, c.1 = false)
    (hm : (s.vols.activeHandle.isSome, r) ∈ cs) : s.vols.activeHandle = none := by
  have := hc _ hm
  simpa using this

theorem steady_takeSetClass (c : Byte) (f : ClassFields) (t : Ticket) (h : s.steady) :
    (takeSetClass c f t s).steady := by
  refine steady_checked _ _ (fun hc => ?_) h
  have ha := no_active (r := .state) hc (.tail _ (.head _))
  exact State.steady.paper (h.tables ha _ s.vols.material) (replyDone_bare _ _ _ _)

theorem steady_takeSetMaterial (l : List Byte) (t : Ticket) (h : s.steady) : (takeSetMaterial l t s).steady := by
  unfold takeSetMaterial; dsimp only
  refine steady_checked _ _ (fun hc => ?_) h
  have ha := no_active (r := .state) hc (.tail _ (.head _))
  exact State.steady.paper (h.tables ha s.vols.classes _) (replyDone_bare _ _ _ _)

end Sys2Proof.Machine
end

