-- ==== Sys2Proof/Laws/SteadyParts.lean ====
section
/-! SUPPORT. The laws of the cycle, the lamps and the cameras through the requests of the cycle, the intake and the
log, the transit unit and start-up. -/

namespace Sys2Proof.Machine

set_option Elab.async false

variable {s t : State}

/-! ## RUN, STEP_TURN, PAUSE (R30 to R33, R47) -/

theorem steady_replyAccepted (t : Ticket) (e : Bool) (h : s.steady) : (replyAccepted t e s).steady :=
  h.paper (writeEntry_bare _ _ _)

theorem Calm.replyDone (h : Calm s) (t : Ticket) (b : Bool) (f : Fields) : Calm (replyDone t b f s) :=
  h.paper (replyDone_bare _ _ _ _)
theorem State.steady.replyDone (h : s.steady) (t : Ticket) (b : Bool) (f : Fields) : (replyDone t b f s).steady :=
  h.paper (replyDone_bare _ _ _ _)
theorem State.steady.refuse (h : s.steady) (t : Ticket) (r : Reason) : (refuse t r s).steady :=
  h.paper (refuse_bare _ _ _)

theorem steady_runReplace (n : Nat) (t : Ticket) (h : s.steady) : (runReplace n t s).steady := by
  refine steady_checked _ _ (fun _ => ?_) h
  dsimp only
  have h1 := steady_replyAccepted t (decide (s.cycle.stop < n))
    (h.run (fun r => { r with stop := n, stopReached := false }) fun _ => rfl)
  generalize replyAccepted _ _ (updRun _ s) = u at *
  split
  · have h2 := h1.stopReached
    generalize stopReached u = w at *
    split
    · exact steady_runComplete (calm_turn h2 ‹_›)
    · exact h2
  · exact h1

/-- A run is made in a cycle that is IDLE. -/
theorem Calm.makeRun (h : Calm s) (hi : s.cycle.state = .idle) (k : RunKind) (n : Nat) (b : Bool) :
    Calm (makeRun k n b s) :=
  h.moved h.idle h.cal fun q => by
    rcases q with q | ⟨q, _⟩ <;> (simp only at q; rw [hi] at q; cases q)

theorem calm_of_checks {cs : List (Bool × Reason)} {r : Reason} (h : s.steady) (hi : s.cycle.state = .idle)
    (hc : ∀ c ∈ cs, c.1 = false) (hm : (s.vols.activeHandle.isNone, r) ∈ cs) : Calm s :=
  calm_idle h hi (by have := hc _ hm; simpa using this)

theorem steady_runFromIdle (b : Bool) (n : Nat) (t : Ticket) (h : s.steady) (hi : s.cycle.state = .idle) :
    (runFromIdle b n t s).steady := by
  refine steady_checked _ _ (fun hc => ?_) h
  have h1 := (calm_of_checks (r := .noVolume) h hi hc (.head _)).makeRun hi .run n b
  exact steady_beginOpening (h1.paper (writeEntry_bare _ _ _))

theorem steady_takeRun (d : Head) (n : BitVec 16) (t : Ticket) (h : s.steady) : (takeRun d n t s).steady := by
  unfold takeRun; split
  · exact steady_runFromIdle _ _ _ h ‹_›
  · exact h.refuse _ _
  · exact h.refuse _ _
  all_goals exact steady_runReplace _ _ h

theorem steady_takeStepTurn (t : Ticket) (h : s.steady) : (takeStepTurn t s).steady := by
  unfold takeStepTurn; split
  · rename_i hi
    have hi' : s.cycle.state = .idle := by simpa [State.idle] using hi
    refine steady_checked _ _ (fun hc => ?_) h
    exact steady_startTurn (((calm_of_checks (r := .noVolume)
        h hi' hc (.head _)).makeRun hi' _ _ _).replyDone _ _ _)
  · exact h.refuse _ _

theorem steady_pauseNow (q : ResumePoint) (t : Ticket) (h : Calm s) (hq : q = .prepare → Ready s) :
    (pauseNow q t s).steady := by
  have h1 := (calm_pausedState q h hq).replyDone t false []
  unfold pauseNow pausedNotice
  exact (h1.notice _ _).steady

theorem steady_takePause (t : Ticket) (h : s.steady) : (takePause t s).steady := by
  have h1 := (h.run (fun r => { r with pausePending := true }) fun _ => rfl).replyDone t false []
  unfold takePause; split
  · exact h.refuse _ _
  · exact h.refuse _ _
  · exact h.refuse _ _
  · exact h.replyDone _ _ _
  · rename_i hp
    split
    · exact h.replyDone _ _ _
    · exact steady_pauseNow _ _ (calm_of h (by simp [hp]) (by simp [hp]) (by simp [hp]) (by simp [hp]))
        fun _ => ready_of h hp
  · rename_i hp
    split
    · exact h1
    · exact steady_pauseNow _ _ (calm_turn h hp) fun q => by cases q
  · exact h1
  · exact h1

/-! ## RESUME (R48, R53 to R56) -/

theorem Ready.paper (h : Ready s) (hb : t.bare = s.bare) : Ready t := h.congr (core_bare hb)

theorem calm_leavePause (q : Option ResumePoint) (h : Calm s) (hs : s.cycle.state = .paused)
    (hq : q = some .prepare → Ready s) :
    Calm (leavePause q s) ∧ (q = some .prepare → Ready (leavePause q s)) := by
  have h1 : Calm (updRun (fun r => { r with resume := none }) s) := by
    refine h.moved h.idle h.cal fun p => ?_
    rcases p with p | ⟨_, p⟩
    · simp only at p; rw [hs] at p; cases p
    · cases hr : s.cycle.run with
      | none => simp [Cycle.point, hr] at p
      | some r => simp [Cycle.point, hr] at p
  have r1 : q = some .prepare → Ready (updRun (fun r => { r with resume := none }) s) := fun e => hq e
  unfold leavePause; dsimp only
  generalize updRun (fun r => { r with resume := none }) s = u at *
  split
  · rename_i o _
    have h2 : Calm (match o.prepared.retake with
        | some p => holdAdmitted o.prepared.sides p u
        | none => u) ∧ Ready (match o.prepared.retake with
        | some p => holdAdmitted o.prepared.sides p u
        | none => u) := by
      split
      · exact ⟨h1.holdAdmitted _ _, fun p hp => r1 rfl p hp⟩
      · exact ⟨h1, r1 rfl⟩
    have h3 := h2.1.prepare h2.2 .none
    exact ⟨h3.1, fun _ => h3.2⟩
  · exact ⟨h1, r1⟩

theorem steady_carryOn (q : Option ResumePoint) (h : Calm s) (hq : q = some .prepare → Ready s) :
    (carryOn q s).steady := by
  unfold carryOn; split
  · exact steady_beginOpening h
  · exact steady_enterPrepare h (hq rfl)
  · split
    · exact steady_runComplete h
    · exact steady_startTurn h
  · exact h.steady

theorem steady_takeContinue (t : Ticket) (h : s.steady) : (takeContinue t s).steady := by
  unfold takeContinue; split
  · rename_i hs
    refine steady_checked _ _ (fun _ => ?_) h
    have h1 := calm_leavePause s.cycle.point
      (calm_of h (by simp [hs]) (by simp [hs]) (by simp [hs]) (by simp [hs])) hs
      fun e => h.prepared (.inr ⟨hs, e⟩)
    exact steady_carryOn _ (h1.1.replyDone _ _ _) fun e => (h1.2 e).paper (replyDone_bare _ _ _ _)
  · exact h.refuse _ _

theorem calm_halted (h : s.steady) (hs : s.cycle.state = .halted) : Calm s :=
  calm_of h (by simp [hs]) (by simp [hs]) (by simp [hs]) (by simp [hs])

/-- After RETRY's changes the cycle may move, and what a PREPARE would start is not a retake (R54). -/
theorem calm_retryStep (h : Calm s) :
    Calm (retryStep s) ∧ (∀ f, (retryStep s).cycle.fault = some f → f.isTurn = false →
      (retryStep s).cycle.opening.isSome = true → Ready (retryStep s)) := by
  unfold retryStep; split
  · rename_i hf
    exact ⟨h, fun f hf' => by rw [hf] at hf'; cases hf'⟩
  · rename_i f hf
    split
    · rename_i ht
      refine ⟨h.resolveRepeat, fun g hg hn => ?_⟩
      have : (resolveRepeat s).cycle = s.cycle := by unfold resolveRepeat; split <;> rfl
      rw [this, hf] at hg; cases hg
      rw [ht] at hn; cases hn
    · unfold retryCapture; split
      · rename_i ho
        exact ⟨h, fun _ _ _ q => by rw [ho] at q; cases q⟩
      · rename_i o ho
        dsimp only
        generalize (if f.kind = .marginalHalt then f.sides else Sides.empty) = d
        have h1 := h.openingNone (some (o.retried d))
          (by intro r hr; cases hr; rfl)
        split
        · have h2 := h1.1.prepare h1.2 .none
          exact ⟨h2.1, fun _ _ _ _ => h2.2⟩
        · exact ⟨h1.1, fun _ _ _ _ => h1.2⟩

theorem steady_retryGoOn (h : Calm s) (hr : ∀ f, s.cycle.fault = some f → f.isTurn = false →
    s.cycle.opening.isSome = true → Ready s) : (retryGoOn s).steady := by
  unfold retryGoOn; split
  · exact h.steady
  · rename_i f hf
    split
    · exact steady_startTurn h
    · rename_i ht
      unfold retriedCapture; split
      · exact steady_beginOpening h
      · rename_i o ho
        split
        · exact steady_enterPrepare h (hr f hf (by simpa using ht) (by rw [ho]; rfl))
        · exact steady_finishOpening h

theorem steady_takeRetry (t : Ticket) (h : s.steady) : (takeRetry t s).steady := by
  unfold takeRetry; split
  · rename_i hs
    refine steady_checked _ _ (fun _ => ?_) h
    obtain ⟨h1, h2⟩ := calm_retryStep (calm_halted h hs)
    have hb := replyDone_bare t false [] (retryStep s)
    refine steady_retryGoOn (h1.paper hb) fun f hf ht ho => ?_
    rw [bare_cycle hb] at hf ho
    exact (h2 f hf ht ho).paper hb
  · exact h.refuse _ _

theorem calm_skipStep (h : Calm s) (hs : s.cycle.state = .halted) : Calm (skipStep s) := by
  unfold skipStep; split
  · exact h
  · split
    · unfold skipTurn
      exact ((h.resolveClear.paper (sync_bare _)).updActive plain_turnCounted).appendOrCount _
    · refine h.moved h.idle h.cal fun q => ?_
      rcases q with q | ⟨q, _⟩ <;> (simp only at q; rw [hs] at q; cases q)

theorem steady_skipGoOn (h : Calm s) : (skipGoOn s).steady := by
  unfold skipGoOn; split
  · exact h.steady
  · split
    · exact steady_afterTurn h
    · exact steady_finish h.openingCaptured

theorem steady_takeSkip (t : Ticket) (h : s.steady) : (takeSkip t s).steady := by
  unfold takeSkip; split
  · rename_i hs
    refine steady_checked _ _ (fun _ => ?_) h
    exact steady_skipGoOn ((calm_skipStep (calm_halted h hs) hs).replyDone _ _ _)
  · exact h.refuse _ _

theorem steady_abandonRun (h : Calm s) : (abandonRun s).steady := by
  have h1 : Calm (if (s.cycle.fault.map FaultRecord.isTurn).getD false then sync (resolveClear s) else s) := by
    split
    · exact h.resolveClear.paper (sync_bare _)
    · exact h
  unfold abandonRun
  generalize (if (s.cycle.fault.map FaultRecord.isTurn).getD false then sync (resolveClear s) else s) = u at *
  exact h1.toIdle h1.idle h1.cal rfl

theorem steady_takeAbandon (t : Ticket) (h : s.steady) : (takeAbandon t s).steady := by
  unfold takeAbandon; split
  · rename_i hs
    exact steady_checked _ _ (fun _ => (steady_abandonRun (calm_halted h hs)).replyDone _ _ _) h
  · exact h.refuse _ _

/-! ## STOP and CLEAR_FAULT (R49, R50, R56) -/

theorem steady_stopBy (c : StopCause) {r : State → State} (hr : ∀ u : State, (r u).bare = u.bare) (h : s.steady) :
    (stopBy c r s).steady := by
  unfold stopBy; dsimp only; split
  · exact steady_stopTail _ _ _ ((calm_abortWork c h ‹_›).paper (hr _))
  · split
    · exact steady_calStop _ (fun u hu => hu.paper (hr u)) h
    · exact h.paper (hr _)

theorem steady_takeStop (t : Ticket) (h : s.steady) : (takeStop t s).steady :=
  steady_stopBy _ (fun _ => replyDone_bare _ _ _ _) h

theorem steady_takeClearFault (t : Ticket) (h : s.steady) : (takeClearFault t s).steady :=
  steady_checked _ _ (fun _ => (steady_restoreFailed
    (h.cycle (fun c => { c with fault := none }) rfl rfl rfl rfl rfl)).replyDone _ _ _) h

/-! ## The intake's, the rules' and the log's requests -/

theorem steady_recheckSlots (h : s.steady) : (recheckSlots s).steady := by
  unfold recheckSlots; split
  · rename_i hs
    exact steady_prepareWaits (calm_of h (by simp [hs]) (by simp [hs]) (by simp [hs]) (by simp [hs]))
      (ready_of h hs.1)
  · exact h

theorem steady_takeRelease (c : Byte) (m : BitVec 16) (t : Ticket) (h : s.steady) :
    (takeRelease c m t s).steady := by
  unfold takeRelease; split
  · exact h.refuse _ _
  · rename_i k _
    refine steady_checked _ _ (fun _ => ?_) h
    have h1 := h.updCam k (f := CamState.release m.toNat) fun hc => lawful_release hc _
    exact steady_recheckSlots (h1.replyDone _ _ _)

theorem steady_takeLoadGains (c : Byte) (a : BitVec 64) (t : Ticket) (h : s.steady) :
    (takeLoadGains c a t s).steady := by
  unfold takeLoadGains; dsimp only; split
  · exact h.refuse _ _
  · rename_i k _
    refine steady_checked _ _ (fun _ => ?_) h
    refine State.steady.congr (h.updCam k (f := fun x => { x with load := some ⟨t, a.toNat, none, none, false⟩ })
      fun hc => ?_) (placeGainReads_core _ _ _ _)
    exact ⟨hc.single, hc.pendingGains, hc.activeGains, hc.frameGains, fun g x hg hx => by
      cases hg; rcases hx with hx | hx <;> cases hx⟩

theorem steady_takeSetCorrection (c d : Byte) (t : Ticket) (h : s.steady) :
    (takeSetCorrection c d t s).steady := by
  unfold takeSetCorrection; split
  · exact h.refuse _ _
  · rename_i k _
    refine steady_checked _ _ (fun _ => State.steady.replyDone ?_ _ _ _) h
    exact h.updCam k fun hc => hc.congr rfl

theorem steady_takeCalibrate (q : CalibrateParams) (t : Ticket) (h : s.steady) : (takeCalibrate q t s).steady := by
  refine steady_checked _ _ (fun hc => ?_) h
  have hi : s.cycle.state = .idle := by
    have := hc (!s.idle, .state) (.tail _ (.head _))
    simpa [State.idle] using this
  have hd : s.light.exposure.underway = false := by
    cases hu : s.light.exposure.underway
    · rfl
    · have := h.exposing hu; rw [hi] at this; cases this
  have hr : s.cycle.review = none := by
    cases hr : s.cycle.review with
    | none => rfl
    | some r => have := (h.review r hr).1; rw [hi] at this; cases this
  refine steady_calCameras ?_ rfl
  exact h.moved hd hr (fun _ => rfl) (fun _ q => absurd rfl q) fun q => by rcases q with q | ⟨q, _⟩ <;> cases q

theorem steady_takeSetRules (a b c : BitVec 16) (t : Ticket) (h : s.steady) : (takeSetRules a b c t s).steady :=
  steady_checked _ _ (fun _ => (h.cycle (fun x => { x with rules := ⟨a.toNat, b.toNat, c.toNat⟩ }) rfl rfl rfl
    rfl rfl).replyDone _ _ _) h

theorem steady_recheckRoom (h : s.steady) : (recheckRoom s).steady := by
  unfold recheckRoom; split
  · split
    · rename_i hs
      exact steady_prepareWaits (calm_of h (by simp [hs]) (by simp [hs]) (by simp [hs]) (by simp [hs]))
        (ready_of h hs)
    · exact steady_startTurn (calm_turn h ‹_›)
    all_goals exact h
  · exact h

theorem steady_takeLogTaken (n : BitVec 32) (t : Ticket) (h : s.steady) : (takeLogTaken n t s).steady := by
  unfold takeLogTaken; dsimp only
  have h0 : State.steady { s with log := { s.log with taken := max s.log.taken (min n.toNat s.log.appended) } } :=
    h.congr rfl
  generalize ({ s with log := { s.log with taken := max s.log.taken (min n.toNat s.log.appended) } } :
      State) = u at *
  generalize hw : replyDone _ _ _ u = w
  have h1 : w.steady := hw ▸ h0.replyDone _ _ _
  split
  · exact (steady_recheckRoom h1).congr (rearm_core _)
  · exact h1

theorem steady_takeVerify (t : Ticket) (h : s.steady) : (takeVerify t s).steady := by
  refine steady_checked _ _ (fun _ => ?_) h
  split
  · exact h
  · split
    · exact h.replyDone _ _ _
    · exact h.congr ((verifyAdvance_core _ _).trans rfl)

/-! ## Request lines and the transit unit (spec/08) -/

theorem steady_askUnknown (k : Byte) (d : Head) (h : s.steady) : (askUnknown k d s).steady := by
  unfold askUnknown; split
  · exact h.refuse _ _
  · exact h

theorem steady_askResume (l : Line) (h : s.steady) : (askResume l s).steady := by
  refine steady_ask _ _ _ (fun t u hu _ => ?_) h
  generalize (lineByte l 8).toNat = n
  rcases n with _ | _ | _ | _ | n
  · exact steady_takeContinue _ hu
  · exact steady_takeRetry _ hu
  · exact steady_takeSkip _ hu
  · exact steady_takeAbandon _ hu
  · exact hu.refuse _ _

theorem steady_askLine (l : Line) (h : s.steady) : (askLine l s).steady := by
  unfold askLine; dsimp only; split
  · exact steady_ask _ _ _ (fun _ _ hu _ => steady_takeRegister _ _ _ hu) h
  · exact steady_ask _ _ _ (fun _ _ => steady_takeSetVolume _ _ _) h
  · exact steady_ask _ _ _ (fun _ _ => steady_takeActivate _ _) h
  · exact steady_ask _ _ _ (fun _ _ => steady_takeSuspend _) h
  · exact steady_ask _ _ _ (fun _ _ hu _ => steady_takeSetOpening _ _ hu) h
  · exact steady_ask _ _ _ (fun _ _ => steady_takeClose _ _ _) h
  · exact steady_ask _ _ _ (fun _ _ hu _ => steady_takeRetire _ hu) h
  · exact steady_ask _ _ _ (fun _ _ hu _ => steady_takeSnapshot _ _ _ hu) h
  · exact steady_ask _ _ _ (fun _ _ hu _ => steady_takeRun _ _ _ hu) h
  · exact steady_ask _ _ _ (fun _ _ hu _ => steady_takeStepTurn _ hu) h
  · exact steady_ask _ _ _ (fun _ _ hu _ => steady_takePause _ hu) h
  · exact steady_askResume _ h
  · exact steady_ask _ _ _ (fun _ _ hu _ => steady_takeStop _ hu) h
  · exact steady_ask _ _ _ (fun _ _ hu _ => steady_takeClearFault _ hu) h
  · exact steady_ask _ _ _ (fun _ _ hu _ => steady_takeRelease _ _ _ hu) h
  · exact steady_ask _ _ _ (fun _ _ hu _ => steady_takeLoadGains _ _ _ hu) h
  · exact steady_ask _ _ _ (fun _ _ hu _ => steady_takeSetCorrection _ _ _ hu) h
  · exact steady_ask _ _ _ (fun _ _ hu _ => steady_takeCalibrate _ _ hu) h
  · exact steady_ask _ _ _ (fun _ _ hu _ => steady_takeSetRules _ _ _ _ hu) h
  · exact steady_ask _ _ _ (fun _ _ hu _ => steady_takeSetClass _ _ _ hu) h
  · exact steady_ask _ _ _ (fun _ _ hu _ => steady_takeSetMaterial _ _ hu) h
  · exact steady_ask _ _ _ (fun _ _ hu _ => steady_takeLogTaken _ _ hu) h
  · exact steady_ask _ _ _ (fun _ _ hu _ => steady_takeVerify _ hu) h
  · exact steady_askUnknown _ _ h

theorem steady_handWrite (x : Txn) (h : s.steady) : (handWrite x s).steady := by
  unfold handWrite; split
  · exact steady_askLine _ h
  · exact h.congr rfl

theorem forwardWrite_core (x : Txn) (s : State) : (forwardWrite x s).core = s.core := rfl
theorem refuseWrite_core (x : Txn) (s : State) : (refuseWrite x s).core = s.core := rfl

theorem steady_redirect (c : Camera) (o : Nat) (x : Txn) (h : s.steady) : (redirect c o x s).steady := by
  have h1 := steady_takeLine c o x (s := respond x .done s) (h.congr rfl)
  unfold redirect; dsimp only
  generalize takeLine c o x (respond x .done s) = q at *
  split
  · exact h1.congr rfl
  · exact steady_frameReported (h1.congr rfl)
  · split
    · exact steady_frameReported (h1.congr rfl)
    · exact h1.congr rfl

theorem steady_apertureWrite (c : Camera) (w : Window) (x : Txn) (h : s.steady) :
    (apertureWrite c w x s).steady := by
  unfold apertureWrite; split
  · exact steady_redirect _ _ _ h
  · exact h.congr rfl

theorem steady_poolWrite (x : Txn) (h : s.steady) : (poolWrite x s).steady := by
  unfold poolWrite; split <;> exact h.congr rfl

theorem steady_classifyWrite (x : Txn) (h : s.steady) : (classifyWrite x s).steady := by
  have h1 := h.congr (forwardWrite_core x s)
  have h2 := h.congr (refuseWrite_core x s)
  unfold classifyWrite; dsimp only
  generalize forwardWrite x s = u at *
  generalize refuseWrite x s = w at *
  repeat' split
  all_goals first
    | exact h1
    | exact h2
    | exact steady_handWrite _ h1
    | exact steady_apertureWrite _ _ _ h
    | exact steady_poolWrite _ h

theorem steady_upWrite (x : Txn) (h : s.steady) : (upWrite x s).steady := by
  unfold upWrite; split
  · split
    · exact steady_classifyWrite _ h
    · exact h.congr rfl
  · exact h

theorem upRead_core (x : Txn) (s : State) : (upRead x s).core = s.core := by
  unfold upRead; split
  · split
    · unfold classifyRead; dsimp only; split
      · rfl
      · split
        · rfl
        · exact (readForwarded_core _ _).trans rfl
    · rfl
  · rfl

theorem grantPort_core (s : State) : (grantPort s).core = s.core := by
  unfold grantPort; split
  · unfold issueForwarded; split <;> rfl
  · unfold issueOwn; split
    · rfl
    · refine (releaseHolds_core _ _).trans ?_
      unfold markIssued; split <;> rfl

theorem steady_answer (r : Bool) (d : List Byte) (h : s.steady) : (answer r d s).steady := by
  unfold answer; split
  · exact h.congr rfl
  · split
    · exact h
    · rename_i i rest _
      dsimp only
      have h1 : State.steady { s with transit := { s.transit with outstanding := rest } } := h.congr rfl
      generalize ({ s with transit := { s.transit with outstanding := rest } } : State) = u at *
      split
      · split
        · exact h1
        · exact h1.congr rfl
      · unfold ownAnswer; split
        · exact steady_gainReturned _ _ _ _ h1
        · exact h1.congr (verifyReturned_core _ _ _)
        all_goals exact h1

/-! ## Start-up and the supply monitor (spec/10, R75) -/

theorem steady_reset : State.reset.steady := by
  refine ⟨fun c => ?_, fun _ => rfl, fun q => absurd rfl q, fun v hv => ?_, fun v hv => ?_, fun q => ?_,
      fun q => ?_,
    fun q => ?_, fun r q => ?_, fun q => ?_⟩
  · cases c <;> exact lawful_fresh _
  · exact absurd hv (by simp [State.reset])
  · exact absurd hv (by simp [State.reset])
  · exact absurd q (by decide)
  · exact absurd q (by decide)
  · exact absurd q (by decide)
  · cases q
  · cases q

theorem steady_resetEvent (c : ResetCause) (m : Bool) : (resetEvent c m s).steady := steady_reset.congr rfl

theorem State.steady.lines (h : s.steady) (f : Lines → Lines) : (setLines f s).steady := h.congr rfl

/-- Before READY the start-up may go on. -/
theorem State.steady.phaseTo (h : s.steady) (f : Start → Start) (hp : s.start.phase ≠ .ready) :
    (updStart f s).steady :=
  ⟨h.cams, fun _ => h.early hp, h.active, h.used, h.opened, h.exposing, h.owing, h.prepared, h.review, h.cal⟩

theorem steady_leaveReset (h : s.steady) : (leaveReset s).steady := by
  unfold leaveReset; split
  · rename_i hc
    exact h.phaseTo _ (by rw [hc.1]; simp)
  · exact h

/-- A SAFE_STOP fall, once its notice is written (R51). -/
theorem steady_fallAct (h : s.steady) (m : Bool) : (if m = true then
    if s.cycle.state.working = true then safeStopFall s
    else if s.cycle.state = .calibrate then calStop .supplyLow id s else s
    else s).steady := by
  split
  · split
    · exact steady_safeStopFall h ‹_›
    · split
      · exact steady_calStop _ (fun _ hu => hu) h
      · exact h
  · exact h

theorem steady_supplyFall (h : s.steady) : (supplyFall s).steady := by
  unfold supplyFall; dsimp only
  have h1 := (h.turner (fun t => { t with supply := .low }))
  generalize updTurner _ s = u at *
  have h2 : (notice .supplyLow [(12, u8 u.lines.supplySense), (13, u8 u.turner.g6.supplyLevel),
      (14, u8 u.turner.g6.supplyMode.code)] u).steady := h1.paper (notice_bare _ _ _)
  generalize notice .supplyLow [(12, u8 u.lines.supplySense), (13, u8 u.turner.g6.supplyLevel),
      (14, u8 u.turner.g6.supplyMode.code)] u = w at *
  have := steady_fallAct h2 (decide (w.turner.g6.supplyMode = .safeStop))
  simpa only [decide_eq_true_eq] using this

theorem steady_sampleSupply (h : s.steady) : (sampleSupply s).steady := by
  unfold sampleSupply; split
  · split
    · exact steady_supplyFall h
    · exact h
  · split
    · exact h.turner _
    · exact h

theorem placeStatus_core (k : Nat) (s : State) :
    (placeStatus k s).core = s.core := core_bare (placeStatus_bare k s)

theorem steady_becomeReady (h : s.steady) (hp : s.start.phase ≠ .ready) : (becomeReady s).steady := by
  unfold becomeReady; dsimp only
  have h1 := (h.phaseTo (fun x => { x with phase := .ready, readyAt := s.now, waiting := .nothing }) hp).turner
    (fun t => { t with supply := .ok })
  generalize updTurner _ (updStart _ s) = u at *
  have h2 := h1.congr (placeStatus_core 0 u)
  generalize placeStatus 0 u = v at *
  have h3 := h2.paper (notice_bare .ready (readyContents v) v)
  generalize notice .ready (readyContents v) v = w at *
  have h4 := ((h3.congr (placeStatus_core 1 w)).congr (placeStatus_core 2 _)).congr (placeStatus_core 3 _)
  generalize placeStatus 3 (placeStatus 2 (placeStatus 1 w)) = x at *
  split
  · exact steady_supplyFall h4
  · exact h4

/-- The laws hold before READY. -/
structure Early (s : State) : Prop where
  steady : s.steady
  phase : s.start.phase ≠ .ready

theorem Early.congr (h : Early s) (e : t.core = s.core) : Early t := by
  refine ⟨h.steady.congr e, ?_⟩
  simp only [State.core, Prod.mk.injEq] at e
  rw [e.2.1]; exact h.phase

theorem early_setResult (g : Nat) (r : LoadResult) (h : Early s) : Early (setResult g r s) := h.congr rfl

theorem early_setGeometry (g : Geometry) (h : Early s) : Early (setGeometry g s) :=
  ⟨⟨fun c => by cases c <;> exact lawful_fresh _, h.steady.early, h.steady.active, h.steady.used, h.steady.opened,
    h.steady.exposing, h.steady.owing, h.steady.prepared, h.steady.review, h.steady.cal⟩, h.phase⟩

theorem early_checkDefaultMap (h : Early s) : Early (checkDefaultMap s) := by
  unfold checkDefaultMap; split
  · exact early_setResult _ _ (early_setGeometry _ h)
  · exact h

theorem early_defaultGroup (g : Nat) (h : Early s) : Early (defaultGroup g s) := by
  unfold defaultGroup; dsimp only; split
  · exact early_checkDefaultMap (early_setResult _ _ h)
  · exact early_setResult _ _ h

theorem early_dark (h : Early s) : s.light.exposure.underway = false ∧
    (s.cycle.state = .idle ∨ s.cycle.state = .calibrate) := by
  have hst : s.cycle.state = .idle ∨ s.cycle.state = .calibrate := by
    by_cases h1 : s.cycle.state = .idle
    · exact .inl h1
    · by_cases h2 : s.cycle.state = .calibrate
      · exact .inr h2
      · have := h.steady.active h1 h2; rw [h.steady.early h.phase] at this; cases this
  refine ⟨?_, hst⟩
  cases hq : s.light.exposure.underway
  · rfl
  · have := h.steady.exposing hq; rw [this] at hst; rcases hst with q | q <;> cases q

/-- Before READY the lighting unit's constants may change (R185). -/
theorem early_lighting (b : List Byte) (h : Early s) : Early { s with light := readLighting b s.light } := by
  obtain ⟨h1, hst⟩ := early_dark h
  refine ⟨⟨h.steady.cams, h.steady.early, h.steady.active, h.steady.used, h.steady.opened, h.steady.exposing,
    fun q => ?_, fun q => ?_, fun r q => ?_, h.steady.cal⟩, h.phase⟩
  · have : s.light.exposure.owes = true := q
    rw [owes_underway h1] at this; cases this
  · have q' : s.cycle.state = .prepare ∨ s.cycle.state = .paused ∧ s.cycle.point = some .prepare := q
    rcases hst with e | e <;> rw [e] at q' <;> rcases q' with q | ⟨q, _⟩ <;> cases q
  · have := (h.steady.review r q).1
    rcases hst with e | e <;> rw [e] at this <;> cases this

theorem early_loadGroup (g : Nat) (b : List Byte) (h : Early s) : Early (loadGroup g b s) := by
  unfold loadGroup; split
  · unfold loadMap; dsimp only; split
    · exact early_setResult _ _ (h.congr rfl)
    · exact early_checkDefaultMap (early_setResult _ _ h)
  · exact early_setResult _ _ (early_setGeometry _ h)
  · exact early_setResult _ _ (early_lighting b h)
  · exact early_setResult _ _ ⟨h.steady.tables (h.steady.early h.phase) _ s.vols.material, h.phase⟩
  · exact early_setResult _ _ ⟨h.steady.tables (h.steady.early h.phase) s.vols.classes _, h.phase⟩
  · refine early_setResult _ _ (h.congr ?_)
    rfl
  · exact early_setResult _ _ (h.congr rfl)

theorem steady_settleGroups : ∀ (l : List Nat) (s : State), Early s → (settleGroups l s).steady
  | [], _, h => steady_becomeReady h.steady h.phase
  | g :: l, s, h => by
    unfold settleGroups; split
    · exact h.steady.phaseTo _ h.phase
    · exact steady_settleGroups l _ (early_defaultGroup g h)

theorem early_updStart (f : Start → Start) (h : Early s) (hf : (f s.start).phase = s.start.phase) :
    Early (updStart f s) :=
  ⟨h.steady.phaseTo f h.phase, by
    show (f s.start).phase ≠ _
    rw [hf]; exact h.phase⟩

theorem steady_signatureRead (x : List Byte) (c : BitVec 16) (h : s.steady) : (signatureRead x c s).steady := by
  unfold signatureRead; split
  · rename_i hc
    exact steady_settleGroups _ _ (early_updStart _ ⟨h, by rw [hc.1]; simp⟩ rfl)
  · exact h

theorem steady_groupRead (b : List Byte) (h : s.steady) : (groupRead b s).steady := by
  unfold groupRead; split
  · split
    · rename_i hc
      exact steady_settleGroups _ _ (early_loadGroup _ _ (early_updStart _ ⟨h, by rw [hc]; simp⟩ rfl))
    · exact h
  all_goals exact h

end Sys2Proof.Machine
end

