-- ==== Sys2Proof/Laws/KeptCommands.lean ====
section
/-! SUPPORT. The laws through the operations the commands of the lamps, the cameras and the turner are made of. -/

namespace Sys2Proof.Machine

set_option Elab.async false

variable {late : Nat → Prop} {p : List Instr} {ids : List OwnEntry} {s t : State}

theorem kept_ite {p ids} {c : Prop} [Decidable c] {s t : State} (hs : Kept late p ids s) (ht : Kept late p ids t) :
   Kept late p ids (if c then s else t) := by split <;> assumption

theorem kept_rampStart (c) (h : Kept late p ids s) : Kept late p ids (rampStart c s) := by
  unfold rampStart; split
  · dsimp only; split
    · exact kept_beginRamp _ h
    · exact kept_lampFault _ (kept_beginRamp _ h)
  · exact h
theorem kept_lightsAtFall (h : Kept late p ids s) : Kept late p ids (lightsAtFall s) := by
  unfold lightsAtFall; split
  · split
    · dsimp only; split
      · exact kept_beginRampDown _ h
      · exact kept_exposureEnds (kept_beginRampDown _ h)
    · exact kept_exposureEnds h
    all_goals exact h
  · exact h
theorem kept_triggersFall (h : Kept late p ids s) : Kept late p ids (triggersFall s) := by
  unfold triggersFall; dsimp only; exact kept_lightsAtFall (kept_updCam _ _ (kept_updCam _ _ h))
theorem kept_frameTimerExpires (c) (h : Kept late p ids s) : Kept late p ids (frameTimerExpires c s) := by
  unfold frameTimerExpires; split
  · split
    · dsimp only; split
      · exact kept_frameReported (kept_updCam _ _ h)
      · exact kept_updCam _ _ h
    · exact h
  · exact h
theorem kept_lightsAtRestLoss (h : Kept late p ids s) : Kept late p ids (lightsAtRestLoss s) := by
  unfold lightsAtRestLoss; dsimp only
  have h1 := kept_updExposure (fun e => { e with phase := .ending }) (kept_reportLampFault
    (kept_updExposure (fun e => { e with charged := true })
        (kept_noteCharge (cutLit s).chargeNow (kept_makeCharge (cutLit s).chargeNow (kept_cutLit h)))))
  split
  · exact kept_exposureEnds h1
  · exact h1
theorem kept_recheckCameras (h : Kept late p ids s) : Kept late p ids (recheckCameras s) := by
  unfold recheckCameras; split
  · split
    · split
      · exact kept_goOn (kept_enterCycle _ _ h)
      · exact h
    · split
      · exact kept_calGo h
      · exact h
    all_goals exact h
  · exact h
theorem kept_cameraTimeoutExpires (h : Kept late p ids s) : Kept late p ids (cameraTimeoutExpires s) := by
  unfold cameraTimeoutExpires; split
  · split
    · split
      · exact kept_haltCapture _ _ h
      · exact kept_calFail _ h
      all_goals exact h
    · exact h
  · exact h
theorem kept_stageExpires (a k) (h : Kept late p ids s) : Kept late p ids (stageExpires a k s) := by
  unfold stageExpires; split
  · exact kept_endTurn _ h
  · exact h


theorem steady_ite {c : Prop} [Decidable c] {s t : State} (hs : c → s.steady) (ht : ¬ c → t.steady) :
    (if c then s else t).steady := by
  split
  · exact hs ‹_›
  · exact ht ‹_›

theorem steady_rampStart (c : Nat) (h : s.steady) : (rampStart c s).steady := by
  unfold rampStart; split
  · dsimp only; split
    · exact steady_beginRamp _ h
    · exact steady_lampFault _ (steady_beginRamp _ h)
  · exact h

theorem steady_lightsAtFall (h : s.steady) : (lightsAtFall s).steady := by
  unfold lightsAtFall; split
  · split
    · rename_i hp
      have hr : s.light.exposure.phase.running = true := by rw [hp]; rfl
      have h1 := steady_beginRampDown s.fallMoment h hr
      dsimp only; split
      · exact h1
      · exact steady_exposureEnds h1 (.inr rfl)
    · exact steady_exposureEnds h (.inl ‹_›)
    all_goals exact h
  · exact h

theorem steady_triggersFall (h : s.steady) : (triggersFall s).steady := by
  unfold triggersFall; dsimp only
  exact steady_lightsAtFall ((h.updCam _ fun hc => lawful_triggerFalls hc _ _).updCam _
    fun hc => lawful_triggerFalls hc _ _)

theorem steady_warmEnd (h : s.steady) : (if s.warmEnds then fireTriggers s else s).steady := by
  refine steady_ite (fun hw => steady_fireTriggers h ?_) fun _ => h
  simp only [State.warmEnds, Bool.and_eq_true, Bool.or_eq_true, beq_iff_eq] at hw
  rcases hw.1.1 with (q | q) | q
  · exact .inr (by rw [q]; rfl)
  · exact .inr (by rw [q]; rfl)
  · exact .inl q

theorem steady_frameTimerExpires (c : Camera) (h : s.steady) : (frameTimerExpires c s).steady := by
  unfold frameTimerExpires; split
  · split
    · have h1 := h.updCam c (f := CamState.expire s.intake.geo) fun hc => lawful_expire hc _
      dsimp only; split
      · exact steady_frameReported h1
      · exact h1
    · exact h
  · exact h

theorem steady_lightsAtRestLoss (h : s.steady) (hr : s.light.exposure.phase.running = true) :
    (lightsAtRestLoss s).steady := by
  unfold lightsAtRestLoss; dsimp only
  have h1 := steady_restCut h hr
  split
  · exact steady_exposureEnds h1 (.inl rfl)
  · exact h1

theorem steady_recheckCameras (h : s.steady) : (recheckCameras s).steady := by
  unfold recheckCameras; split
  · split
    · rename_i hs
      split
      · have h1 := (calm_of h (by simp [hs]) (by simp [hs]) (by simp [hs]) (by simp [hs])).prepare
          (ready_of h hs) .none
        exact steady_goOn h1.1 h1.2
      · exact h
    · split
      · exact steady_calGo h
      · exact h
    all_goals exact h
  · exact h

theorem steady_cameraTimeoutExpires (h : s.steady) : (cameraTimeoutExpires s).steady := by
  unfold cameraTimeoutExpires; split
  · split
    · split
      · rename_i hs
        exact steady_haltCapture _ _ (calm_of h (by simp [hs]) (by simp [hs]) (by simp [hs]) (by simp [hs]))
      · exact steady_calFail _ h
      all_goals exact h
    · exact h
  · exact h

theorem steady_stageExpires (a : Stage) (k : FaultKind) (h : s.steady) : (stageExpires a k s).steady := by
  unfold stageExpires; split
  · exact steady_endTurn _ h
  · exact h

end Sys2Proof.Machine
end

