-- ==== Sys2Proof/Laws/Running.lean ====
section
/-! SUPPORT. How a command is shown to complete or to lead on, from the equation of its operation: the steps
every proof about one command takes. -/

namespace Sys2Proof.Machine

set_option Elab.async false

/-! ## What a state that came to `e` shares with it -/

theorem lines_came {s e : State} {n fs} (h : s.cameTo n e fs) : s.lines = e.lines := bare_lines h.1

theorem turner_came {s e : State} {n fs} (h : s.cameTo n e fs) : s.turner = e.turner := bare_turner h.1

theorem cycle_came {s e : State} {n fs} (h : s.cameTo n e fs) : s.cycle = e.cycle := bare_cycle h.1

theorem start_came {s e : State} {n fs} (h : s.cameTo n e fs) : s.start = e.start := bare_start h.1

theorem vols_came {s e : State} {n fs} (h : s.cameTo n e fs) : s.vols = e.vols := bare_vols h.1

theorem log_came {s e : State} {n fs} (h : s.cameTo n e fs) : s.log = e.log := bare_log h.1

theorem light_came {s e : State} {n fs} (h : s.cameTo n e fs) : s.light = e.light := bare_light h.1

theorem intake_came {s e : State} {n fs} (h : s.cameTo n e fs) : s.intake = e.intake := bare_intake h.1

theorem now_came {s e : State} {n fs} (h : s.cameTo n e fs) : s.now = e.now := bare_now h.1

theorem map_came {s e : State} {n fs} (h : s.cameTo n e fs) : s.transit.map = e.transit.map := bare_map h.1

/-! ## Coming to a state -/

/-- A state whose newest number is still that of `s` hasStatus written no entry since. -/
theorem wrote_self {s e : State} (h : e.req.newest = s.req.newest) : e.wrote s.req.newest [] := by
  simpa [State.wrote] using h

theorem came_arrive {m : Moment} {s : State} : (arrive m s).cameTo s.req.newest (arrive m s) [] := ⟨rfl,
    wrote_self rfl⟩

theorem bumpId_came {s e : State} {n fs} (h : s.cameTo n e fs) : (bumpId s).cameTo n e fs :=
  ⟨h.1, by refine wrote_congr (s := s) ?_ ?_ ?_ ?_ fs n h.2 <;> rfl⟩

theorem waitFor_came {s e : State} {n fs} (w id) (h : s.cameTo n e fs) :
    (waitFor w id s).cameTo n e fs := by
  refine ⟨h.1, wrote_mono (s := s) (fun a l hh => ?_) ?_ ?_ _ _ h.2⟩
  · rcases hh with ⟨id, hh⟩ | ⟨id, hh⟩
    · exact .inl ⟨id, hh⟩
    · exact .inr ⟨id, List.mem_append_left _ hh⟩
  · rfl
  · rfl

theorem enqueue_came {s e : State} {n fs} (a c o i) (h : s.cameTo n e fs) :
    (enqueue a c o i s).cameTo n e fs :=
  ⟨h.1, wrote_mono (fun _ _ hc => enqueue_carries _ _ _ _ _ hc) rfl rfl fs n h.2⟩

theorem setLog_came {s e : State} {n fs} (f : CaptureLog → CaptureLog) (h : s.cameTo n e fs) : ({ s with
    log := f s.log } : State).cameTo n { e with log := f e.log } fs := by
  have h2 : ∀ (u : State) l, (State.bare { u with log := l }) = { u.bare with log := l } := fun _ _ => rfl
  refine ⟨?_, ?_⟩
  · rw [h2, h.1, log_came h]; rfl
  · refine wrote_congr (s := s) ?_ ?_ ?_ ?_ _ _ h.2 <;> rfl

theorem freeRoom_came {s e : State} {n fs} (h : s.cameTo n e fs) : s.freeRoom = e.freeRoom ∧
    s.cap = e.cap := by
  unfold State.freeRoom State.cap; rw [log_came h, map_came h]; exact ⟨rfl, rfl⟩

/-! ## A command completes, or leads on -/

theorem completes_exact {c : Instr} {m : Moment} {f : State → State} {s e : State}
    (hx : exec c s = takeCommand m f s) (h : f (arrive m s) = e)
        (hn : e.req.newest = (arrive m s).req.newest) :
    s.completes c e [] := completes_of hx (h ▸ ⟨rfl, wrote_self (by rw [h]; exact hn)⟩)

theorem completes_now {c : Instr} {m : Moment} {f : State → State} {s e : State}
    (hx : exec c s = takeCommand m f s) (h : f (arrive m s) = e)
        (hn : e.req.newest = (arrive m s).req.newest := by rfl) : s.completes c e [] :=
  completes_exact hx h hn

theorem completes_by {c : Instr} {m : Moment} {f : State → State} {s e x : State} {fs}
    (hx : exec c s = takeCommand m f s) (h : f (arrive m s) = x) (hc : x.cameTo s.req.newest e fs) :
        s.completes c e fs :=
  completes_of hx (by rw [h]; exact hc)

theorem leads_of {c : Instr} {m : Moment} {f g : State → State} {s s1 e : State} {fs}
    (hx : exec c s = takeCommand m f s) (h : f (arrive m s) = g s1) (hc : s1.cameTo s.req.newest e fs) :
        s.leads c g e fs :=
  ⟨s1, by rw [hx]; unfold takeCommand; rw [h], hc⟩

theorem leads_now {c : Instr} {m : Moment} {f g : State → State} {s e : State}
    (hx : exec c s = takeCommand m f s) (h : f (arrive m s) = g e)
        (hn : e.req.newest = (arrive m s).req.newest := by rfl) : s.leads c g e [] :=
  leads_of hx h ⟨rfl, wrote_self hn⟩

/-! ## Requests and their checks (R11, R174 to R176) -/

theorem ready_of_phase {s : State} (h : s.start.phase = .ready) : s.ready = true := by simp [State.ready, h]

theorem not_ready {a : State} (h : a.start.phase ≠ .ready) : ¬ a.ready = true := by simp [State.ready, h]

theorem ask_asked {code used : Byte} {h : Head} {f : Ticket → State →
    State} {a : State} (hh : a.asked h used) :
   ask code used h f a = f (h.ticket code) a := by
  unfold ask; rw [if_pos (ready_of_phase hh.1), if_pos hh.2]

theorem same_completes {c : Instr} {m : Moment} {g : State → State} {s : State} 
    (hx : exec c s = takeCommand m g s) (h : g (arrive m s) = arrive m s) : s.completes c (arrive m s) [] :=
  completes_of hx (by rw [h]; exact came_arrive)

theorem refuse_completes {c : Instr} {m : Moment} {g : State → State} {s : State} {t : Ticket} {r : Reason}
    (hx : exec c s = takeCommand m g s) (h : g (arrive m s) = refuse t r (arrive m s)) :
        s.completes c (arrive m s) [refusal t r] :=
  completes_of hx (by rw [h]; exact came_arrive.refuse t r)

theorem done_completes {c : Instr} {m : Moment} {g : State → State} {s e : State} {t : Ticket} {cl : Bool}
    {rs : Fields}
    (hx : exec c s = takeCommand m g s) (h : g (arrive m s) = replyDone t cl rs e)
        (hn : e.req.newest = (arrive m s).req.newest) : s.completes c e [doneReply t cl rs] :=
  completes_of hx (by rw [h]; exact State.cameTo.replyDone (fs := []) (e := e) t cl rs ⟨rfl, wrote_self hn⟩)

theorem replyDone_came {m : Moment} {s e : State} (t : Ticket) (cl rs)
    (hn : e.req.newest = (arrive m s).req.newest) :
   (replyDone t cl rs e).cameTo s.req.newest e [doneReply t cl rs] :=
  State.cameTo.replyDone (fs := []) t cl rs ⟨rfl, wrote_self hn⟩

theorem replyAccepted_came {m : Moment} {s e : State} (t : Ticket) (x)
    (hn : e.req.newest = (arrive m s).req.newest) :
   (replyAccepted t x e).cameTo s.req.newest e [acceptedReply t x] :=
  State.cameTo.entry (fs := []) (acceptedReply t x) ⟨rfl, wrote_self hn⟩

theorem requestOf_ask {c : Instr} {m code used h} (hc : requestOf c = some (m, code, used, h)) :
   ∃ f, ∀ s, exec c s = takeCommand m (ask code used h f) s := by
  cases c <;> simp only [requestOf, Option.some.injEq, Prod.mk.injEq, reduceCtorEq] at hc
  all_goals obtain ⟨rfl, rfl, rfl, rfl⟩ := hc
  · exact ⟨_, fun s => exec_registerVolume _ _ _ s⟩
  · exact ⟨_, fun s => exec_setVolume _ _ _ s⟩
  · exact ⟨_, fun s => exec_activate _ _ _ s⟩
  · exact ⟨_, fun s => exec_suspend _ _ s⟩
  · exact ⟨_, fun s => exec_setOpening _ _ _ s⟩
  · exact ⟨_, fun s => exec_closeVolume _ _ _ _ s⟩
  · exact ⟨_, fun s => exec_retireVolume _ _ s⟩
  · exact ⟨_, fun s => exec_snapshotVolume _ _ _ s⟩
  · exact ⟨_, fun s => exec_run _ _ _ s⟩
  · exact ⟨_, fun s => exec_stepTurn _ _ s⟩
  · exact ⟨_, fun s => exec_pause _ _ s⟩
  · exact ⟨_, fun s => exec_resumeContinue _ _ s⟩
  · exact ⟨_, fun s => exec_resumeRetry _ _ s⟩
  · exact ⟨_, fun s => exec_resumeSkip _ _ s⟩
  · exact ⟨_, fun s => exec_resumeAbandon _ _ s⟩
  · exact ⟨_, fun s => exec_stop _ _ s⟩
  · exact ⟨_, fun s => exec_clearFault _ _ s⟩
  · exact ⟨_, fun s => exec_releaseSlots _ _ _ _ s⟩
  · exact ⟨_, fun s => exec_loadGains _ _ _ _ s⟩
  · exact ⟨_, fun s => exec_setCorrection _ _ _ _ s⟩
  · exact ⟨_, fun s => exec_calibrate _ _ _ s⟩
  · exact ⟨_, fun s => exec_setRules _ _ _ _ _ s⟩
  · exact ⟨_, fun s => exec_setClassEntry _ _ _ _ s⟩
  · exact ⟨_, fun s => exec_setMaterialMap _ _ _ s⟩
  · exact ⟨_, fun s => exec_logTaken _ _ _ s⟩
  · exact ⟨_, fun s => exec_verifyLog _ _ s⟩

/-- A check that passes hands on to the next one (R11). -/
theorem checked_next {t : Ticket} {b : Bool} {r : Reason} {cs f a} (hb : b = false) : checked t ((b, r)
    :: cs) f a = checked t cs f a := by
  subst hb; rfl

/-- The first check that fails gives the reason (R11). -/
theorem checked_refused {t : Ticket} {b : Bool} {r : Reason} {cs f a} (hb : b = true) : checked t ((b, r)
    :: cs) f a = refuse t r a := by
  subst hb; rfl

/-- With no check left the request is carried out (R11). -/
theorem checked_all {t : Ticket} {f a} : checked t [] f a = f a := rfl

end Sys2Proof.Machine
end

