-- ==== Sys2Proof/Laws/Specs.lean ====
section
/-! SUPPORT. What the operations of the blocks do, each said once: the form of the state they leave, or what it
came to. -/

namespace Sys2Proof.Machine

set_option Elab.async false

/-! ## The region map (R161, R186) -/

theorem meets_of_holds {v w : Window} {x : Nat} (h1 : v.holds x = true) (h2 : w.holds x = true) :
    v.meets w = true := by
  simp [Window.holds, Window.meets] at *; omega

theorem meets_comm {v w : Window} : v.meets w = w.meets v := by simp [Window.meets, Bool.and_comm]

theorem apart_pairwise : ∀ {l : List Window}, apart l = true → l.Pairwise (fun v w => v.meets w = false)
  | [], _ => List.Pairwise.nil
  | w :: rest, h => by
    simp only [apart, Bool.and_eq_true, Bool.not_eq_true', List.any_eq_false] at h
    exact List.Pairwise.cons (fun v hv => by simpa using h.1 v hv) (apart_pairwise h.2)

/-- In windows that do not overlap an address lies in one of them only. -/
theorem holds_only_one {m : RegionMap} (h : apart m.windows = true) {x i j : Nat}
    (hi : i < m.windows.length) (hj : j < m.windows.length) (hij : i ≠ j)
    (hh : m.windows[i].holds x = true) : m.windows[j].holds x = false := by
  have hp := List.pairwise_iff_getElem.1 (apart_pairwise h)
  by_contra hc
  simp only [Bool.not_eq_false] at hc
  rcases Nat.lt_or_gt_of_ne hij with h1 | h1
  · have := hp i j hi hj h1; rw [meets_of_holds hh hc] at this; cases this
  · have := hp j i hj hi h1; rw [meets_of_holds hc hh] at this; cases this

/-! ## Reads, held and forwarded (R171, R179) -/

theorem readForwarded_bare (x : Txn) (s : State) : (readForwarded x s).bare = s.bare := by
  unfold readForwarded; split
  · split <;> rfl
  · rfl

theorem readForwarded_newest (x : Txn) (s : State) : (readForwarded x s).req.newest = s.req.newest := by
  unfold readForwarded; split
  · split <;> rfl
  · rfl

theorem releaseHolds_spec (id : Nat) (s : State) :
   (releaseHolds id s).bare = State.bare { s with transit := { s.transit with
      holds := s.transit.holds.filter fun h => h.waitsFor != id
      stream := ((s.transit.holds.filter fun h => h.waitsFor == id).map Hold.read).foldr insertReleased
          s.transit.stream } }
   ∧ (releaseHolds id s).transit.queue = s.transit.queue ∧ (releaseHolds id s).transit.wait =
       s.transit.wait ∧ (releaseHolds id s).req.newest = s.req.newest
   ∧ (releaseHolds id s).req.newestIssued = s.req.newestIssued := by
  unfold releaseHolds; dsimp only
  have : ∀ (l : List Passed) (u : State), (l.foldl (fun s r => readForwarded r.txn s) u).bare = u.bare ∧
      (l.foldl (fun s r => readForwarded r.txn s) u).transit.queue = u.transit.queue ∧
      (l.foldl (fun s r => readForwarded r.txn s) u).transit.wait = u.transit.wait ∧
      (l.foldl (fun s r => readForwarded r.txn s) u).req.newest = u.req.newest ∧
      (l.foldl (fun s r => readForwarded r.txn s) u).req.newestIssued = u.req.newestIssued := by
    intro l
    induction l with
    | nil => intro u; exact ⟨rfl, rfl, rfl, rfl, rfl⟩
    | cons r l ih =>
      intro u
      obtain ⟨h1, h2, h3, h4, h5⟩ := ih (readForwarded r.txn u)
      have hr : (readForwarded r.txn u).bare = u.bare ∧ (readForwarded r.txn u).transit.queue =
          u.transit.queue ∧ (readForwarded r.txn u).transit.wait = u.transit.wait ∧
          (readForwarded r.txn u).req.newest = u.req.newest ∧ (readForwarded r.txn u).req.newestIssued =
          u.req.newestIssued := by
        unfold readForwarded; split
        · split <;> exact ⟨rfl, rfl, rfl, rfl, rfl⟩
        · exact ⟨rfl, rfl, rfl, rfl, rfl⟩
      simp only [List.foldl]
      exact ⟨h1.trans hr.1, h2.trans hr.2.1, h3.trans hr.2.2.1, h4.trans hr.2.2.2.1, h5.trans hr.2.2.2.2⟩
  exact this _ _

theorem readForwarded_eq (x) (s : State) : ∃ b, readForwarded x s = { s with req := { s.req with
    noticeOut := b } } := by
  unfold readForwarded; split
  · split
    · exact ⟨false, rfl⟩
    · exact ⟨s.req.noticeOut, rfl⟩
  · exact ⟨s.req.noticeOut, rfl⟩

theorem readForwarded_fold (l : List Passed) : ∀ s : State, ∃ b, l.foldl (fun s r => readForwarded r.txn s)
    s = { s with req := { s.req with noticeOut := b } } := by
  induction l with
  | nil => intro s; exact ⟨s.req.noticeOut, rfl⟩
  | cons r l ih =>
    intro s
    obtain ⟨b, hb⟩ := readForwarded_eq r.txn s
    obtain ⟨b2, hb2⟩ := ih (readForwarded r.txn s)
    refine ⟨b2, ?_⟩
    rw [List.foldl_cons, hb2, hb]

theorem releaseHolds_eq (id) (s : State) :
    ∃ b tr, releaseHolds id s = { s with transit := tr, req := { s.req with noticeOut := b } } := by
  unfold releaseHolds; dsimp only
  obtain ⟨b, hb⟩ := readForwarded_fold ((s.transit.holds.filter fun h => h.waitsFor == id).map Hold.read)
      { s with
    transit := { s.transit with
      holds := s.transit.holds.filter fun h => h.waitsFor != id
      stream := ((s.transit.holds.filter fun h => h.waitsFor == id).map Hold.read).foldr insertReleased
          s.transit.stream } }
  exact ⟨b, _, hb⟩

theorem releaseHolds_fold (ids : List Nat) : ∀ s : State, ∃ b tr,
    ids.foldl (fun s i => releaseHolds i s) s =
      { s with transit := tr, req := { s.req with noticeOut := b } } := by
  induction ids with
  | nil => intro s; exact ⟨s.req.noticeOut, s.transit, rfl⟩
  | cons r l ih =>
    intro s
    obtain ⟨b, tr, hb⟩ := releaseHolds_eq r s
    obtain ⟨b2, tr2, hb2⟩ := ih (releaseHolds r s)
    refine ⟨b2, tr2, ?_⟩
    rw [List.foldl_cons, hb2, hb]

/-! ## Status lines (R180, R181) -/

theorem statusLine_congr {s t : State} (h : t.bare = s.bare) (hn : t.req.newest = s.req.newest) (k : Nat) :
    statusLine k t = statusLine k s := by
  have h1 : t.transit.refusedWrites = s.transit.refusedWrites :=
    congrArg (fun x => x.transit.refusedWrites) h
  have h2 : t.req.partialRequests = s.req.partialRequests :=
    congrArg (fun x => x.req.partialRequests) h
  unfold statusLine
  rw [bare_start h, bare_cycle h, bare_vols h, bare_log h, bare_turner h, bare_light h, bare_intake h, hn,
      h1, h2]

/-! ## The log (R150 to R155) -/

theorem markNextAppend_eq (s : State) : markNextAppend s = s ∨ ∃ j,
    markNextAppend s = waitFor .append j (bumpId (sync s)) := by
  unfold markNextAppend; split
  · exact .inl rfl
  · exact .inr ⟨_, rfl⟩

theorem markNextAppend_came {s e : State} {n fs} (h : s.cameTo n e fs) :
    (markNextAppend s).cameTo n e fs := by
  rcases markNextAppend_eq s with h1 | ⟨j, h1⟩ <;> rw [h1]
  · exact h
  · have h := h.sync
    generalize sync s = u at *
    exact ⟨h.1, wrote_mono (fun _ _ hc => waitFor_carries _ _ _ (bumpId_carries _ hc)) rfl rfl fs n h.2⟩

theorem markNextAppend_newest (s : State) : (markNextAppend s).req.newest = s.req.newest :=
  (markNextAppend_came (came_self s)).2

theorem rearm_eq (s : State) : ∃ m, rearm s = { s with log := { s.log with lowMark := m } } := by
  unfold rearm; split
  · exact ⟨_, rfl⟩
  · exact ⟨s.log.lowMark, rfl⟩

/-- Bringing the status lines up to date changes the transit unit and the request unit alone. -/
theorem syncLine_eq (k : Nat) (s : State) : ∃ tr rq, syncLine k s = { s with transit := tr, req := rq } := by
  unfold syncLine; split
  · exact ⟨s.transit, s.req, rfl⟩
  · split
    · exact ⟨s.transit, s.req, rfl⟩
    · unfold placeStatus; dsimp only; split
      · exact ⟨_, _, rfl⟩
      · split
        · exact ⟨s.transit, _, rfl⟩
        · split <;> exact ⟨_, _, rfl⟩

theorem sync_eq (s : State) : ∃ tr rq, sync s = { s with transit := tr, req := rq } := by
  obtain ⟨t0, r0, h0⟩ := syncLine_eq 0 s
  obtain ⟨t1, r1, h1⟩ := syncLine_eq 1 (syncLine 0 s)
  obtain ⟨t2, r2, h2⟩ := syncLine_eq 2 (syncLine 1 (syncLine 0 s))
  obtain ⟨t3, r3, h3⟩ := syncLine_eq 3 (syncLine 2 (syncLine 1 (syncLine 0 s)))
  exact ⟨t3, r3, by rw [sync, h3, h2, h1, h0]⟩

theorem markNextAppend_form (s : State) : ∃ tr rq, markNextAppend s = { s with transit := tr, req := rq } := by
  rcases markNextAppend_eq s with h | ⟨j, h⟩
  · exact ⟨s.transit, s.req, h⟩
  · obtain ⟨tr, rq, hs⟩ := sync_eq s
    exact ⟨_, rq, by rw [h, hs]; rfl⟩

theorem withdrawFrame_eq (s : State) : ∃ tr rq m, withdrawFrame s = { s with
    transit := tr
    req := rq
    log := { s.log with lowMark := m, appends := s.log.appends.filter fun a => !a.isFrame } } := by
  unfold withdrawFrame; split
  · dsimp only
    split
    · obtain ⟨b, tr, hb⟩ := releaseHolds_fold ((s.transit.wait.filter WaitItem.isAppend).map WaitItem.id)
        { s with
          log := { s.log with appends := s.log.appends.filter fun a => !a.isFrame }
          transit := { s.transit with wait := s.transit.wait.filter fun w => !w.isAppend } }
      obtain ⟨tr2, rq2, h2⟩ := markNextAppend_form { s with
          log := { s.log with appends := s.log.appends.filter fun a => !a.isFrame }
          transit := tr, req := { s.req with noticeOut := b } }
      rw [show ({ s with
          log := { s.log with appends := s.log.appends.filter fun a => !a.isFrame } } : State).transit.wait
              = s.transit.wait from rfl]
      rw [hb]
      obtain ⟨m, h3⟩ := rearm_eq { s with
          log := { s.log with appends := s.log.appends.filter fun a => !a.isFrame }
          transit := tr2, req := rq2 }
      refine ⟨tr2, rq2, m, ?_⟩
      have e : markNextAppend { s with
          log := { s.log with appends := s.log.appends.filter fun a => !a.isFrame }
          transit := tr, req := { s.req with noticeOut := b } } = { s with
          log := { s.log with appends := s.log.appends.filter fun a => !a.isFrame }
          transit := tr2, req := rq2 } := h2
      rw [e, h3]
    · obtain ⟨m, h3⟩ := rearm_eq { s with log := { s.log with appends := s.log.appends.filter fun a =>
        !a.isFrame } }
      exact ⟨s.transit, s.req, m, h3⟩
  · rename_i h
    refine ⟨s.transit, s.req, s.log.lowMark, ?_⟩
    have : s.log.appends.filter (fun a => !a.isFrame) = s.log.appends := by
      rw [List.filter_eq_self]; intro a ha; simp at h; simpa using h a ha
    rw [this]

/-- The contents of a LOG_LOW notice (R155). -/
def lowFields (e : State) : Fields := [(12, u32 e.log.appended), (16, u32 e.log.taken),
    (20, u32 e.freeRoom)]

theorem lowTest_came {s e : State} {n fs} (h : s.cameTo n e fs) :
    let low : Bool := e.log.lowMark == .armed && e.freeRoom ≤ e.cap / 8
    (lowTest s).cameTo n (if low then { e with log := { e.log with lowMark := .spent } } else e)
      (fs ++ if low then [noticeFields .logLow (lowFields e)] else []) := by
  intro low
  obtain ⟨hf, hc⟩ := freeRoom_came h
  have hl := log_came h
  unfold lowTest
  by_cases hlow : low = true
  · have hh : e.log.lowMark = .armed ∧ e.freeRoom ≤ e.cap / 8 := by simpa [low] using hlow
    rw [if_pos (by rw [hf, hc, hl]; exact hh), hlow]
    simp only [if_true]
    rw [hl, hf]
    refine State.cameTo.notice _ _ (n := n) (fs := fs) ⟨?_, ?_⟩
    case refine_2 => refine wrote_congr (s := s) ?_ ?_ ?_ ?_ fs n h.2 <;> rfl
    have e1 := h.1
    have : ∀ u : State, (State.bare { u with log := { u.log with lowMark := .spent } }) = { u.bare with
        log := { u.bare.log with lowMark := .spent } } := fun _ => rfl
    have h2 : ({ s with log := { e.log with lowMark := .spent } } : State) = { s with log := { s.log with
        lowMark := .spent } } := by
      rw [hl]
    rw [h2, this, this, e1]
  · have hh : ¬ (e.log.lowMark = .armed ∧ e.freeRoom ≤ e.cap / 8) := by
      intro k; apply hlow; simpa [low] using k
    rw [if_neg (by rw [hf, hc, hl]; exact hh)]
    simp only [Bool.not_eq_true] at hlow; rw [hlow]
    simpa using h

theorem lowTest_fifo (s : State) :
    s.transit.queue.map OwnEntry.fixed <+: (lowTest s).transit.queue.map OwnEntry.fixed ∧
        s.transit.wait <+: (lowTest s).transit.wait := by
  unfold lowTest; split
  · generalize hu : ({ s with log := { s.log with lowMark := .spent } } : State) = u
    have ht : u.transit = s.transit := by rw [← hu]
    rw [← ht]; exact notice_fifo _ _ u
  · exact ⟨List.prefix_rfl, List.prefix_rfl⟩

theorem lowTest_cycle (s : State) : (lowTest s).cycle = s.cycle := by
  unfold lowTest; split
  · rw [notice_cycle]
  · rfl

theorem acceptHead_cycle (i : Nat) (s : State) : (acceptHead i s).cycle = s.cycle := by
  unfold acceptHead; split
  · rfl
  · dsimp only
    generalize hv : (enqueue _ _ _ i _ : State) = v
    have hvc : v.cycle = s.cycle := by rw [← hv]; rfl
    have key : ∀ u : State, (lowTest (markNextAppend u)).cycle = u.cycle := by
      intro u
      rw [lowTest_cycle, bare_cycle (markNextAppend_bare u)]
    rw [key]; split
    · rw [← hvc]; unfold updVol; split <;> rfl
    · exact hvc

/-- Asking for an append leaves the cycle as it is (R150). -/
theorem requestAppend_cycle (a : Append) (s : State) : (requestAppend a s).1.cycle = s.cycle := by
  unfold requestAppend; dsimp only
  have h1 : (lowTest { sync s with
      log := { (sync s).log with appends := (sync s).log.appends ++ [a] } }).cycle = s.cycle := by
    rw [lowTest_cycle]; show (sync s).cycle = s.cycle; exact bare_cycle (sync_bare s)
  generalize lowTest _ = w at h1
  split
  · split
    · exact (acceptHead_cycle _ (bumpId w)).trans h1
    · exact (bare_cycle (markNextAppend_bare w)).trans h1
  · exact h1

theorem appendOrCount_cycle (a : Append) (s : State) : (appendOrCount a s).cycle = s.cycle := by
  unfold appendOrCount; split
  · exact sync_cycle s
  · exact requestAppend_cycle a s

/-! ## Volumes -/

theorem active_cases (t : VolumeTable) : (t.activeHandle = none ∧ t.active = none) ∨ ∃ k v,
    t.activeHandle = some k ∧ t.active = some (k,v) ∧ t.get k = some v := by
  unfold VolumeTable.active
  cases h : t.activeHandle with
  | none => exact .inl ⟨rfl, rfl⟩
  | some k =>
    right
    have h' := h
    unfold VolumeTable.activeHandle at h
    rw [List.findIdx?_eq_some_iff_getElem] at h
    obtain ⟨hk, ha, -⟩ := h
    have : t.get k = t.table[k] := by
      unfold VolumeTable.get; rw [List.getD_eq_getElem?_getD, List.getElem?_eq_getElem hk]; rfl
    cases hv : t.table[k] with
    | none => rw [hv] at ha; cases ha
    | some v => exact ⟨k, v, rfl, by simp [this, hv], this.trans hv⟩

theorem leaves_eq (a : State) :
    a.leaves = match a.vols.active with
      | some p => p.2.leaves
      | none => 0 := by
  unfold State.leaves; cases a.vols.active <;> rfl

theorem updVol_withVolume {a : State} {k : Nat} {v : Volume} (f : Volume → Volume)
    (hg : a.vols.get k = some v) : updVol k f a = a.withVolume k (some (f v)) := updVol_some f hg

theorem updActive_withVolume {e : State} {k v} (f : Volume → Volume) (hk : e.vols.activeHandle = some k)
    (hv : e.vols.get k = some v) :
   updActive f e = e.withVolume k (some (f v)) := (updActive_some f hk).trans (updVol_some f hv)

theorem updActive_eq (f : Volume → Volume) (e : State) : updActive f e = match e.vols.activeHandle with
      | none => e
      | some k => match e.vols.get k with
        | none => e
        | some w => e.withVolume k (some (f w)) := by
  unfold updActive; split
  · rename_i h hh; rw [hh]; dsimp only; unfold updVol; split
    · rename_i v hv; rw [hv]; rfl
    · rename_i hv; rw [hv]
  · rename_i hh; rw [hh]

/-! ## Runs, pauses and openings (spec/02) -/

theorem updRun_some {e : State} {r : RunRecord} (f : RunRecord → RunRecord) (hr : e.cycle.run = some r) :
    updRun f e = { e with cycle := { e.cycle with run := some (f r) } } := by
  show ({ e with cycle := { e.cycle with run := e.cycle.run.map f } } : State) = _
  rw [hr]; rfl

theorem updRun_none {e : State} (f : RunRecord → RunRecord) (hr : e.cycle.run = none) : updRun f e = e := by
  show ({ e with cycle := { e.cycle with run := e.cycle.run.map f } } : State) = _
  have : ({ e.cycle with run := e.cycle.run.map f } : Cycle) = e.cycle := by
    have h2 : e.cycle.run.map f = e.cycle.run := by rw [hr]; rfl
    rw [h2]
  rw [this]

theorem idle_iff {a : State} : a.idle = true ↔ a.cycle.state = .idle := by simp [State.idle]

theorem completing_iff {a : State} : a.completing = true ↔ a.turner.sub = .completing := by
  simp [State.completing]

theorem owed_iff (x : SideStatus) : x.owed = true ↔ x = .wanted ∨ x = .pending := by
  cases x <;> simp [SideStatus.owed]

theorem runComplete_came {s e : State} {n fs} (h : s.cameTo n e fs) (r : RunRecord)
    (hr : e.cycle.run = some r) :
    (runComplete s).cameTo n { e with cycle := { e.cycle.over with camTimer := none } }
      (fs ++ [e.completeNotice r.kind r.stop]) := by
  have hc := cycle_came h
  have hv := vols_came h
  have h1 := ((h.notice .runComplete [(12, u8 (orFF e.vols.activeHandle)), (14, u16 r.stop),
      (16, u16 e.vols.cursor), (18, u8 r.kind.code)]).clean
     (clean_updCycle (fun c => { c with run := none, opening := none, camTimer := none }))).clean
         (clean_enterCycle .idle .none)
  have : runComplete s = enterCycle .idle .none (updCycle (fun c => { c with
      run := none, opening := none, camTimer := none }) (notice .runComplete [(12, u8 (orFF
      e.vols.activeHandle)), (14, u16 r.stop), (16, u16 e.vols.cursor), (18, u8 r.kind.code)] s)) := by
    unfold runComplete Cycle.stop; rw [hc, hv, hr]; rfl
  rw [this]; exact h1

theorem stopReached_came {s e : State} {n fs} (h : s.cameTo n e fs) (r : RunRecord)
    (hr : e.cycle.run = some r) :
    (stopReached s).cameTo n
      { e with cycle := { e.cycle with run := some { r with stopReached := true } } }
      (fs ++ [noticeFields .stopOpeningReached
        [(12, u8 (orFF e.vols.activeHandle)), (14, u16 r.stop), (16, u16 e.vols.cursor)]]) := by
  have hc := cycle_came h
  have hv := vols_came h
  have h1 := (h.notice .stopOpeningReached [(12, u8 (orFF e.vols.activeHandle)), (14, u16 r.stop),
      (16, u16 e.vols.cursor)]).clean
     (clean_updRun (fun r => { r with stopReached := true }))
  have : stopReached s = updRun (fun r => { r with stopReached := true })
      (notice .stopOpeningReached [(12, u8 (orFF e.vols.activeHandle)), (14, u16 r.stop),
      (16, u16 e.vols.cursor)] s) := by
    unfold stopReached Cycle.stop; rw [hc, hv, hr]; rfl
  rw [this]
  have e2 : updRun (fun r => { r with stopReached := true }) e = { e with cycle := { e.cycle with
      run := some { r with stopReached := true } } } := by
    exact updRun_some _ hr
  rw [← e2]; exact h1

theorem dropAdmitted_eq (e : State) : dropAdmitted e = { e with
    light := { e.light with
      exposure := if e.light.exposure.phase = .admitted then
          { e.light.exposure with phase := .none } else e.light.exposure } } := by
  unfold dropAdmitted; split
  · rfl
  · rfl

theorem pausedState_eq (p) (e : State) : pausedState p e = { e with
    cycle := { e.cycle with
      state := .paused, sub := .none, camTimer := none
      run := e.cycle.run.map fun r => { r with resume := some p, pausePending := false } }
    light := { e.light with
      exposure := if e.light.exposure.phase = .admitted then
          { e.light.exposure with phase := .none } else e.light.exposure } } := by
  by_cases hz : e.light.exposure.phase = .admitted
  · rw [if_pos hz]
    unfold pausedState dropAdmitted
    rw [if_pos (by exact hz)]; rfl
  · rw [if_neg hz]
    unfold pausedState dropAdmitted
    rw [if_neg (by exact hz)]; rfl

theorem pauseNow_came {m s} {e : State} (t : Ticket) (p : ResumePoint)
    (hn : e.req.newest = (arrive m s).req.newest) :
    (pauseNow p t e).cameTo s.req.newest (pausedState p e)
      [doneReply t false [], noticeFields .cyclePaused
        [(12, u8 (orFF e.vols.activeHandle)), (14, u16 e.vols.cursor),
         (16, u16 ((e.cycle.run.map RunRecord.stop).getD 0)), (18, u8 p.code)]] := by
  have hp : (pausedState p e).cameTo s.req.newest (pausedState p e) [] := ⟨rfl,
      wrote_self (((clean_pausedState p).newest e).trans hn)⟩
  have h1 := hp.replyDone t false []
  have h2 := h1.notice .cyclePaused [(12, u8 (orFF e.vols.activeHandle)), (14, u16 e.vols.cursor),
           (16, u16 ((e.cycle.run.map RunRecord.stop).getD 0)), (18, u8 p.code)]
  have : pauseNow p t e = notice .cyclePaused [(12, u8 (orFF e.vols.activeHandle)), (14, u16 e.vols.cursor),
           (16, u16 ((e.cycle.run.map RunRecord.stop).getD 0)), (18, u8 p.code)] (replyDone t false []
               (pausedState p e)) := by
    unfold pauseNow pausedNotice
    have hv : (replyDone t false [] (pausedState p e)).vols = e.vols := by
      rw [vols_came h1]; unfold pausedState dropAdmitted; split <;> rfl
    have hs : (replyDone t false [] (pausedState p e)).cycle.stop = (e.cycle.run.map RunRecord.stop).getD 0
        := by
      rw [cycle_came h1]; unfold pausedState dropAdmitted Cycle.stop; cases hr : e.cycle.run <;> split <;>
          simp [updRun, updCycle, enterCycle, updExposure, hr]
    rw [hv, hs]
  rw [this]; exact h2

theorem clean_holdAdmitted (sd p) : Clean (holdAdmitted sd p) := ⟨fun _ => rfl, fun _ => rfl, fun _ => rfl,
    fun _ => rfl, fun _ => rfl⟩

theorem openingCaptured_came {s e : State} {n fs} (h : s.cameTo n e fs) (o : OpeningRecord)
    (ho : e.cycle.opening = some o) :
    (openingCaptured s).cameTo n e (fs ++ [noticeFields .openingCaptured
      ([(12, u8 (orFF e.vols.activeHandle)), (14, u16 o.number)] ++ sideFields 16 o.sides.left ++
        sideFields 20 o.sides.right)]) := by
  unfold openingCaptured; rw [cycle_came h, ho, vols_came h]
  exact h.notice _ _

theorem halted_eq (c : Cycle) (cls) : c.halted cls = { c with
      state := .halted, sub := .none, camTimer := none, review := none
      run := c.run.map fun r => { r with pausePending := false, resume := none }
      opening := if cls = .turn then none else c.opening } := by cases cls <;> rfl

/-! ## The turner (spec/03) -/

theorem runsStage_iff (t : Turner) (st : Stage) : t.runsStage st = true ↔ (t.state = .turning ∧
    t.stage = some st ∧ t.sub = .none) := by
  simp [Turner.runsStage, and_assoc]

theorem atStage_iff (t : Turner) (st : Stage) : t.atStage st = true ↔
    ((t.state = .turning ∨ t.state = .hold) ∧ t.stage = some st) := by
  simp [Turner.atStage]

theorem timeDue_iff (t : Turner) (now : Nat) : t.timeDue now = true ↔ ∃ x, t.stageTime = some x ∧
    x ≤ now := by
  unfold Turner.timeDue; cases t.stageTime <;> simp

theorem timerDue_iff (t : Turner) (now : Nat) : t.timerDue now = true ↔ ∃ since left,
    t.stageTimer = .running since left ∧ since + ms left ≤ now := by
  unfold Turner.timerDue; cases t.stageTimer <;> simp

theorem refreshPark_out {e : State} (h : ¬ (e.turner.state = .turning ∧
    (e.turner.stage = some .platenRise ∨ e.turner.sub = .retryPause))) : refreshPark e = e := by
  unfold refreshPark; rw [if_neg h]

theorem refreshPark_in {e : State}
    (h : e.turner.state = .turning ∧
      (e.turner.stage = some .platenRise ∨ e.turner.sub = .retryPause)) :
    refreshPark e = { e with
      turner := { e.turner with
        outputs := { e.turner.outputs with arm := if e.lines.armParked then .off else .toPark } } } := by
  unfold refreshPark; rw [if_pos h]

theorem enterPulse_eq (e : State) : enterPulse e =
    if e.turner.vals.knife = 0 then enterGrip e
    else { e with
      turner := e.turner.entered .separate ⟨.off, true, 0, .off⟩ .off
        (some (e.now + ms e.turner.vals.knife)) } := by
  unfold enterPulse; split <;> rfl

theorem checkRise_eq {e : State}
    (h : e.turner.state = .turning ∧ e.turner.stage = some .platenRise ∧ e.turner.sub = .none) :
    checkRise e =
      let r : State := { e with turner := { e.turner with outputs := { e.turner.outputs with
        platen := if e.lines.platenUp then .off else e.turner.outputs.platen
        arm := if e.lines.armParked then .off else .toPark } } }
      if e.lines.platenUp = true ∧ e.lines.armParked = true then enterPulse r else r := by
  unfold checkRise; rw [refreshPark_in ⟨h.1, .inl h.2.1⟩]; dsimp only
  by_cases hz : e.lines.platenUp = true
  · rw [if_pos hz, if_pos hz]; rfl
  · rw [if_neg hz, if_neg hz]

theorem resolveRepeat_eq (e : State) : resolveRepeat e = { e with
    turner := if e.turner.state = .faulted then { e.turner with
        state := .rest, stage := none, sub := .none, stageTimer := .off, stageTime := none
        holdTimer := none, outputs := ⟨.off, false, 0, .off⟩ } else e.turner } := by
  unfold resolveRepeat; split
  · rfl
  · rfl

theorem resolveClear_eq (e : State) : resolveClear e = { e with
    turner := if e.turner.state = .faulted then { e.turner with
        retry := 0, doubles := 0, state := .rest, stage := none, sub := .none
        stageTimer := .off, stageTime := none
        holdTimer := none, outputs := ⟨.off, false, 0, .off⟩ }
      else { e.turner with retry := 0, doubles := 0 } } := by
  unfold resolveClear updTurner
  by_cases h : e.turner.state = .faulted
  · simp only [if_pos h]; rfl
  · simp only [if_neg h]; rfl

theorem faulted_failed (t : Turner) (k : FaultKind) : t.faulted (.fault k) = t.failed k := by
  unfold Turner.faulted Turner.failed Turner.holdsLeaf Turner.atStage
  congr 3
  cases (t.state == TurnerState.turning || t.state == TurnerState.hold) <;> simp

theorem abortTurn_spec (cause) (s : State) : let t := (abortTurn cause s).1
   t = { s with turner := t.turner } ∧ 
   (s.turner.inFlight = true → t.turner = s.turner.faulted (.aborted cause) ∧
       (abortTurn cause s).2 = ⟨true, s.turner.stage, s.turner.holdsLeaf⟩) ∧
   (s.turner.inFlight = false → t.turner = s.turner) := by
  unfold abortTurn; dsimp only
  split
  · rename_i h; exact ⟨rfl, fun _ => ⟨rfl, rfl⟩, fun k => by rw [h] at k; cases k⟩
  · rename_i h; split
    · exact ⟨rfl, fun k => absurd k h, fun _ => rfl⟩
    · exact ⟨rfl, fun k => absurd k h, fun _ => rfl⟩

/-! ## Charges and the end of an exposure (spec/04) -/

theorem chargeOf_eq : ∀ (cs : List Channel) (vs : List Nat), chargeOf cs vs = ((cs.zip vs).map fun q => if
    q.1.wasLit then dose q.2 q.1.k q.1.onTime else 0).sum := by
  intro cs
  induction cs with
  | nil => intro vs; cases vs <;> rfl
  | cons c cs ih =>
    intro vs
    cases vs with
    | nil => rfl
    | cons v vs => simp only [chargeOf, List.zip_cons_cons, List.map_cons, List.sum_cons, ih]

theorem makeCharge_paid (d : Nat) (s : State) : makeCharge d s = s.paid d := by
  unfold makeCharge State.paid
  split
  · rfl
  · unfold updActive
    split
    · rename_i h hh; rw [hh]; dsimp only; unfold updVol; split
      · rename_i v hv; rw [hv]; rfl
      · rename_i hv; rw [hv]
    · rename_i hh; rw [hh]

theorem paid_eq_parts (s : State) (d : Nat) : ∃ cd cl vs, s.paid d = { s with
    light := { s.light with calibrationDose := cd }
    cycle := { s.cycle with cal := cl }
    vols := vs } := by
  unfold State.paid
  split
  · exact ⟨_, _, s.vols, rfl⟩
  · split
    · exact ⟨s.light.calibrationDose, s.cycle.cal, s.vols, rfl⟩
    · split
      · exact ⟨s.light.calibrationDose, s.cycle.cal, s.vols, rfl⟩
      · exact ⟨s.light.calibrationDose, s.cycle.cal, _, rfl⟩

theorem makeCharge_rest (d) (s : State) :
    (makeCharge d s).req = s.req ∧ (makeCharge d s).log = s.log ∧
      (makeCharge d s).start = s.start ∧ (makeCharge d s).turner = s.turner ∧
      (makeCharge d s).cycle.state = s.cycle.state ∧
      (makeCharge d s).cycle.review = s.cycle.review ∧
      (makeCharge d s).cycle.camTimer = s.cycle.camTimer ∧
      (makeCharge d s).light.channels = s.light.channels ∧
      (makeCharge d s).intake = s.intake ∧
      (makeCharge d s).light.exposure = s.light.exposure := by
  unfold makeCharge; split
  · simp [updCal]
  · rcases active_cases s.vols with ⟨h1, -⟩ | ⟨k, v, h1, -, h3⟩
    · rw [updActive_none _ h1]; simp
    · rw [updActive_some _ h1, updVol_some _ h3]; simp

theorem makeCharge_outer (d) (s : State) :
    (makeCharge d s).lines = s.lines ∧ (makeCharge d s).now = s.now := by
  unfold makeCharge; split
  · simp [updCal]
  · rcases active_cases s.vols with ⟨h1, -⟩ | ⟨k, v, h1, -, h3⟩
    · rw [updActive_none _ h1]; simp
    · rw [updActive_some _ h1, updVol_some _ h3]; simp

/-- What of a record an abort never changes. -/
def volumeKey (v : Volume) := (v.cursor, v.coverage, v.sidesCovered, v.framesAccepted, v.retakes)

/-- The volume table is the same but for doses. -/
structure SameBooks (s t : State) : Prop where
  get : ∀ k, (t.vols.get k).map volumeKey = (s.vols.get k).map volumeKey
  act : t.vols.activeHandle = s.vols.activeHandle
  cls : t.vols.classes = s.vols.classes
  mat : t.vols.material = s.vols.material

theorem SameBooks.refl (s) : SameBooks s s := ⟨fun _ => rfl, rfl, rfl, rfl⟩

theorem SameBooks.trans {a b c} (h : SameBooks a b) (g : SameBooks b c) : SameBooks a c :=
  ⟨fun k => (g.get k).trans (h.get k), g.act.trans h.act, g.cls.trans h.cls, g.mat.trans h.mat⟩

theorem SameBooks.of_eq {s t : State} (h : t.vols = s.vols) :
    SameBooks s t := ⟨fun _ => by rw [h], by rw [h], by rw [h], by rw [h]⟩

theorem updVol_same {s : State} {k v} (hv : s.vols.get k = some v) (f : Volume → Volume)
    (hk : volumeKey (f v) = volumeKey v) (hst : (f v).state = v.state) :
    SameBooks s (updVol k f s) := by
  rw [updVol_some f hv]
  have hlen : k < s.vols.table.length := by
    by_contra hc
    unfold VolumeTable.get at hv
    rw [List.getD_eq_getElem?_getD, List.getElem?_eq_none (by omega)] at hv; cases hv
  have hvk : s.vols.table[k] = some v := by
    unfold VolumeTable.get at hv
    rw [List.getD_eq_getElem?_getD, List.getElem?_eq_getElem hlen] at hv; exact hv
  refine ⟨fun j => ?_, ?_, rfl, rfl⟩
  · unfold VolumeTable.get; simp only [List.getD_eq_getElem?_getD, List.getElem?_set]
    by_cases hj : k = j
    · subst hj; rw [if_pos rfl, if_pos hlen, List.getElem?_eq_getElem hlen, hvk]; simp [hk]
    · rw [if_neg hj]
  · unfold VolumeTable.activeHandle
    have : ∀ l : List (Option Volume), l.findIdx? isActive = (l.map isActive).findIdx? id := by
      intro l; rw [List.findIdx?_map]; rfl
    rw [this, this]
    congr 1
    rw [List.map_set]
    have e : isActive (some (f v)) = isActive s.vols.table[k] := by rw [hvk]; simp [isActive, hst]
    rw [e]
    apply List.ext_getElem
    · simp
    · intro i h1 h2
      rw [List.getElem_set]; split
      · rename_i h; subst h; simp
      · rfl

theorem chargeVolume_same (d) (s : State) : SameBooks s (updActive (chargeVolume d) s) := by
  rcases active_cases s.vols with ⟨h1, -⟩ | ⟨k, v, h1, -, h3⟩
  · rw [updActive_none _ h1]; exact .refl s
  · rw [updActive_some _ h1]; exact updVol_same h3 _ rfl rfl

theorem makeCharge_same (d) (s : State) : SameBooks s (makeCharge d s) := by
  unfold makeCharge; split
  · exact .of_eq rfl
  · exact chargeVolume_same d s

/-- What the end of an exposure in flight keeps (R94). -/
structure AbortKeeps (s t : State) : Prop where
  v : SameBooks s t
  req : t.req.newest = s.req.newest
  start : t.start = s.start
  cs : t.cycle.state = s.cycle.state
  apd : t.log.appended = s.log.appended
  tk : t.log.taken = s.log.taken

theorem AbortKeeps.trans {a b c} (h : AbortKeeps a b) (g : AbortKeeps b c) : AbortKeeps a c :=
  ⟨h.v.trans g.v, g.req.trans h.req, g.start.trans h.start, g.cs.trans h.cs, g.apd.trans h.apd,
      g.tk.trans h.tk⟩

theorem AbortKeeps.refl (s) : AbortKeeps s s := ⟨.refl s, rfl, rfl, rfl, rfl, rfl⟩

/-- A channel is lit. -/
def litChannel (c : Channel) : Bool := c.state == .rampUp || c.state == .on || c.state == .rampDown

theorem clearChannels_dark (s : State) : ∀ c ∈ (clearChannels s).light.channels, litChannel c = false := by
  intro c hc
  simp only [clearChannels, mapChannels, List.mem_mapIdx] at hc
  obtain ⟨i, hi, rfl⟩ := hc
  unfold litChannel; split <;> rfl

theorem endLit_spec (s : State) :
    let u := makeCharge (cutLit s).chargeNow (cutLit s)
    let t := updExposure (fun e => { e with phase := .none }) (clearChannels u)
    AbortKeeps s t ∧ t.turner = s.turner ∧ t.intake = s.intake ∧ t.log = s.log ∧
      t.cycle.review = s.cycle.review ∧ t.cycle.camTimer = s.cycle.camTimer ∧ t.lines = s.lines ∧
      t.now = s.now := by
  intro u
  have h : u = makeCharge (cutLit s).chargeNow (cutLit s) := rfl
  obtain ⟨h1, h2, h3, h4, h5, h6, h7, -, h9, -⟩ := makeCharge_rest (cutLit s).chargeNow (cutLit s)
  obtain ⟨hl, hn⟩ := makeCharge_outer (cutLit s).chargeNow (cutLit s)
  have hv := makeCharge_same (cutLit s).chargeNow (cutLit s)
  rw [← h] at h1 h2 h3 h4 h5 h6 h7 h9 hl hn hv
  clear_value u
  have hc : SameBooks s (cutLit s) := .of_eq rfl
  have hu : SameBooks u (updExposure (fun e => { e with phase := .none }) (clearChannels u)) := .of_eq rfl
  exact ⟨⟨(hc.trans hv).trans hu, congrArg RequestUnit.newest h1, h3, h5, congrArg CaptureLog.appended h2,
    congrArg CaptureLog.taken h2⟩, h4, h9, h2, h6, h7, hl, hn⟩

theorem abortExposure_spec (s : State) :
    let t := abortExposure s
    AbortKeeps s t ∧ t.light.exposure.phase = .none ∧
      ((s.light.exposure.phase = .none ∨ s.light.exposure.phase = .admitted →
          ∀ c ∈ s.light.channels, litChannel c = false) → ∀ c ∈ t.light.channels, litChannel c = false) ∧
      t.turner = s.turner ∧ t.intake = s.intake ∧ t.log = s.log ∧ t.cycle.review = s.cycle.review ∧
      t.cycle.camTimer = s.cycle.camTimer ∧ t.lines = s.lines ∧ t.now = s.now := by
  unfold abortExposure
  split
  · rename_i h; exact ⟨AbortKeeps.refl s, h, fun k => k (.inl h), rfl, rfl, rfl, rfl, rfl, rfl, rfl⟩
  · rename_i h
    unfold dropAdmitted; rw [if_pos h]
    exact ⟨⟨.of_eq rfl, rfl, rfl, rfl, rfl, rfl⟩, rfl, fun k => k (.inr h), rfl, rfl, rfl, rfl, rfl, rfl,
        rfl⟩
  · exact ⟨⟨.of_eq rfl, rfl, rfl, rfl, rfl, rfl⟩, rfl, fun _ => clearChannels_dark s, rfl, rfl, rfl, rfl,
      rfl, rfl, rfl⟩
  all_goals
    obtain ⟨h1, h2, h3, h4, h5, h6, h7, h8⟩ := endLit_spec s
    exact ⟨h1, rfl, fun _ => clearChannels_dark _, h2, h3, h4, h5, h6, h7, h8⟩

/-! ## The frame intake (spec/05) -/

theorem cams_set_set (p : PerCam CamState) (w x y) : (p.set w x).set w y = p.set w y := by cases w <;> rfl

theorem cams_get_set (p : PerCam CamState) (w x) : (p.set w x).get w = x := by cases w <;> rfl

theorem busy_of_state {r : IntakeRecord} (h : r.state = .waitFirst ∨ r.state = .receiving) :
    r.busy = true := by
  rcases h with h | h <;> simp [IntakeRecord.busy, h]

theorem updFrame_spec {c : CamState} {k : Nat} {f : Frame} (h : (c.slots[k]?.bind Slot.frame) = some f)
    (g : Frame → Frame) :
   (((c.updFrame k g).slots[k]?).bind Slot.frame) = some (g f) ∧ (∀ j, j ≠ k →
       (c.updFrame k g).slots[j]? = c.slots[j]?) := by
  have hk : k < c.slots.length := by
    by_contra hc; rw [List.getElem?_eq_none (by omega)] at h; cases h
  have hx : (c.slots.getD k Slot.empty).frame = some f := by
    rw [List.getElem?_eq_getElem hk] at h
    rw [List.getD_eq_getElem?_getD, List.getElem?_eq_getElem hk]; exact h
  unfold CamState.updFrame CamState.putSlot; dsimp only
  refine ⟨?_, ?_⟩
  · rw [List.getElem?_set_self hk]; show Option.map g _ = _; rw [hx]; rfl
  · intro j hj; rw [List.getElem?_set_ne (Ne.symm hj)]

theorem endFrame_spec {c : CamState} {k : Nat} {f : Frame} (ha : c.intakeRec.armed = some k)
    (h : (c.slots[k]?.bind Slot.frame) = some f) (g : Geometry) (e : FrameEnd) (r : FrameReason) :
    (((c.endFrame g e r).slots[k]?).bind Slot.frame) =
        some { f with
          ending := e, reason := r, sum := c.intakeRec.sum, clip := c.intakeRec.clip
          mean := g.mean c.intakeRec.sum } ∧
      (c.endFrame g e r).intakeRec = c.intakeRec ∧
      ∀ j, j ≠ k → (c.endFrame g e r).slots[j]? = c.slots[j]? := by
  unfold CamState.endFrame; rw [ha]
  have := updFrame_spec h fun f => { f with
    ending := e, reason := r, sum := c.intakeRec.sum, clip := c.intakeRec.clip
    mean := g.mean c.intakeRec.sum }
  exact ⟨this.1, rfl, this.2⟩

theorem abortFrames_eq (s : State) : ∃ i, abortFrames s = { s with intake := i } ∧
    i.cams = ⟨s.intake.cams.left.abortFrame s.now s.intake.geo,
      s.intake.cams.right.abortFrame s.now s.intake.geo⟩ := by
  exact ⟨_, rfl, rfl⟩

theorem fireTrigger_eq (w : Camera) (s : State) : fireTrigger w s =
    { s with intake := { s.intake with cams := (fireTrigger w s).intake.cams } } := by
  unfold fireTrigger; dsimp only; split <;> rfl

theorem fireTrigger_get (w v : Camera) (s : State) :
    (fireTrigger w s).intake.cams.get v =
      if v = w then
        if s.light.exposure.sides.has w then
          CamState.trigger s.intake.geo (s.light.exposure.kind == .calibration)
            s.light.exposure.lampFault s.fallMoment (s.intake.cams.get w)
        else s.intake.cams.get w
      else s.intake.cams.get v := by
  unfold fireTrigger; dsimp only
  split
  · show (s.intake.cams.set w _).get v = _
    cases w <;> cases v <;> rfl
  · split
    · rename_i h; rw [h]
    · rfl

theorem armSides_eq (h op rt : Nat) : ∀ (l : List Camera) (s : State), ∃ cams,
    armSides h op rt l s = { s with intake := { s.intake with cams := cams } } ∧
    ∀ c, (c ∉ l → cams.get c = s.intake.cams.get c) ∧
      (c ∈ l → l.Nodup → cams.get c =
        (s.intake.cams.get c).arm (Frame.fresh (some h) op (some (sideOf op c)) rt)) := by
  intro l
  induction l with
  | nil => intro s; exact ⟨s.intake.cams, rfl, fun c => ⟨fun _ => rfl, fun z => by cases z⟩⟩
  | cons d l ih =>
    intro s
    obtain ⟨cams, h1, h2⟩ := ih (updCam d (fun x => x.arm (Frame.fresh (some h) op (some (sideOf op d))
        rt)) s)
    refine ⟨cams, by unfold armSides; rw [h1]; rfl, fun c => ⟨fun hc => ?_, fun hc hn => ?_⟩⟩
    · rw [List.mem_cons, not_or] at hc
      rw [(h2 c).1 hc.2]
      show (s.intake.cams.set d _).get c = _
      cases c <;> cases d <;> first | rfl | exact absurd rfl hc.1
    · rw [List.nodup_cons] at hn
      by_cases hd : c = d
      · subst hd; rw [(h2 c).1 hn.1]; show (s.intake.cams.set c _).get c = _; cases c <;> rfl
      · rcases List.mem_cons.1 hc with hz | hz
        · exact absurd hz hd
        · rw [(h2 c).2 hz hn.2]
          have : (updCam d (fun x => x.arm (Frame.fresh (some h) op (some (sideOf op d)) rt))
              s).intake.cams.get c = s.intake.cams.get c := by
            show (s.intake.cams.set d _).get c = _
            cases c <;> cases d <;> first | rfl | exact absurd rfl hd
          rw [this]

theorem Sides_list_eq (q : Sides) : q.list = (if q.left = true then [Camera.left] else [])
    ++ (if q.right = true then [Camera.right] else []) := by
  obtain ⟨a, b⟩ := q; cases a <;> cases b <;> rfl

theorem Sides_size_eq (q : Sides) : q.size = q.list.length := by
  obtain ⟨a, b⟩ := q; cases a <;> cases b <;> rfl

theorem cameraOf_none {b : Byte} (h : 1 < b.toNat) : cameraOf b = none := by
  unfold cameraOf; rw [if_neg (by omega), if_neg (by omega)]

theorem cameraOf_some {b : Byte} {w : Camera} (h : b.toNat = cameraCode w) : cameraOf b = some w := by
  unfold cameraOf; cases w
  · have : b.toNat = 0 := h
    rw [if_pos this]
  · have : b.toNat = 1 := h
    rw [if_neg (by omega), if_pos this]

theorem cameraCode_of_le {b : Byte} (h : b.toNat ≤ 1) : ∃ w : Camera, b.toNat = cameraCode w := by
  have : b.toNat = 0 ∨ b.toNat = 1 := by omega
  rcases this with h | h
  · exact ⟨.left, h⟩
  · exact ⟨.right, h⟩

theorem maskFrom_spec (p : Nat → Slot → Bool) : ∀ (l : List Slot) (k : Nat), (∃ n,
    maskFrom p k l = 2 ^ k * n) ∧
    ∀ j, (maskFrom p k l).testBit (k + j) = (match l[j]? with | some x => p (k + j) x | none => false) := by
  intro l
  induction l with
  | nil => intro k; exact ⟨⟨0, by simp [maskFrom]⟩, fun j => by simp [maskFrom]⟩
  | cons x l ih =>
    intro k
    obtain ⟨⟨n, hn⟩, hj⟩ := ih (k + 1)
    constructor
    · refine ⟨(if p k x then 1 else 0) + 2 * n, ?_⟩
      simp only [maskFrom, hn]; split
      · rw [Nat.pow_succ]; ring
      · rw [Nat.pow_succ]; ring
    · intro j
      have hform : maskFrom p k (x :: l) = 2 ^ k * (2 * n + (p k x).toNat) := by
        simp only [maskFrom, hn]; cases p k x <;> simp [Nat.pow_succ] <;> ring
      rw [hform]
      rw [Nat.testBit_two_pow_mul]
      have hle : decide (k ≤ k + j) = true := by simp
      simp only [ge_iff_le, hle, Bool.true_and, Nat.add_sub_cancel_left]
      cases j with
      | zero =>
        simp only [List.getElem?_cons_zero, Nat.add_zero, Nat.testBit_zero]
        cases p k x <;> simp
      | succ j =>
        rw [Nat.testBit_succ]
        have : (2 * n + (p k x).toNat) / 2 = n := by cases p k x <;> simp <;> omega
        rw [this]
        have := hj j
        rw [hn, Nat.testBit_two_pow_mul] at this
        have hle : decide (k + 1 ≤ k + 1 + j) = true := by simp
        simp only [ge_iff_le, hle, Bool.true_and, Nat.add_sub_cancel_left] at this
        rw [this, List.getElem?_cons_succ, show k + 1 + j = k + (j + 1) by omega]

theorem gainHalf_eq (data : List Byte) (_h : data.length = 64) :
    gainHalf data =
      (((List.range 32).map fun i => lineWord 16 data (2 * i) 2).map fun v =>
          min 4095 (max 512 v.toNat),
        ((List.range 32).map fun i => lineWord 16 data (2 * i) 2).countP fun v =>
          v.toNat < 512 || 4095 < v.toNat) := by
  have hw : ∀ i, (lineWord 16 data (2*i) 2).toNat = rd16 data (2*i) := by
    intro i
    unfold lineWord rd16 rd8 lineByte
    have h1 := (data.getD (2*i) 0#8).isLt
    have h2 := (data.getD (2*i+1) 0#8).isLt
    simp only [List.range_succ, List.range_zero, List.nil_append, List.foldr_append, List.foldr_cons,
        List.foldr_nil, BitVec.toNat_ofNat, Nat.mul_zero, Nat.add_zero]
    omega
  unfold gainHalf rd16s
  simp only [List.map_map, Prod.mk.injEq]
  constructor
  · apply List.map_congr_left; intro i _
    simp only [Function.comp_apply, hw, clampGain, clampTo, Nat.zero_add]
  · rw [List.countP_map, List.countP_map]
    congr 1; funext i
    simp only [Function.comp_apply, hw, clampGain, clampTo, Nat.zero_add]
    rw [Bool.eq_iff_iff]; simp; omega

theorem placeGainRead_came {s e : State} {n fs} (c sec) (h : s.cameTo n e fs) :
    (placeGainRead c sec none s).1.cameTo n e fs := by
  unfold placeGainRead; split
  · exact h
  · dsimp only; split
    · exact enqueue_came _ _ _ _ (bumpId_came h.sync)
    · exact waitFor_came _ _ (bumpId_came h.sync)

theorem placeGainReads_came {s e : State} {n fs} (c) (h : s.cameTo n e fs) :
    (placeGainReads c false none s).cameTo n e fs := by
  unfold placeGainReads; dsimp only
  split
  · exact placeGainRead_came _ _ (placeGainRead_came _ _ h)
  · exact placeGainRead_came _ _ h

/-! ## Start-up and the supply monitor (spec/10; R75) -/

theorem floorPow2_spec (n : Nat) (h : 1 ≤ n) : ∀ k, n < 2 ^ (k+1) → ∃ j, j ≤ k ∧ floorPow2 n k = 2 ^ j
  | 0, _ => ⟨0, le_rfl, by simp [floorPow2, h]⟩
  | k+1, hk => by
    unfold floorPow2; split
    · exact ⟨k+1, le_rfl, rfl⟩
    · obtain ⟨j, hj, e⟩ := floorPow2_spec n h k (by omega)
      exact ⟨j, by omega, e⟩

theorem flashLE_lt (b : List Byte) : ∀ n o, flashLE b o n < 256 ^ n
  | 0, _ => by simp [flashLE]
  | n+1, o => by
    have := flashLE_lt b n (o+1)
    have h8 : flash8 b o < 256 := (b.getD o 0xFF#8).isLt
    unfold flashLE; rw [pow_succ]; omega

/-- The contents of a SUPPLY_LOW notice (R76). -/
def supplyFields (s : State) : Fields := [(12, u8 s.lines.supplySense), (13, u8 s.turner.g6.supplyLevel),
    (14, u8 s.turner.g6.supplyMode.code)]

theorem supplyFall_came {s e : State} {n fs} (h : s.cameTo n e fs)
    (hc : e.cycle.state = .idle ∨ e.cycle.state = .halted ∨ e.turner.g6.supplyMode = .notice) :
    (supplyFall s).cameTo n { e with turner := { e.turner with supply := .low } }
      (fs ++ [noticeFields .supplyLow (supplyFields e)]) := by
  have h1 := h.clean (clean_updTurner fun t => { t with supply := .low })
  have h2 := h1.notice .supplyLow [(12, u8 (updTurner (fun t => { t with supply := .low })
      s).lines.supplySense), (13, u8 (updTurner (fun t => { t with supply := .low })
      s).turner.g6.supplyLevel),
          (14, u8 (updTurner (fun t => { t with supply := .low }) s).turner.g6.supplyMode.code)]
  have hs : supplyFall s = notice .supplyLow [(12, u8 (updTurner (fun t => { t with supply := .low })
      s).lines.supplySense), (13, u8 (updTurner (fun t => { t with supply := .low })
      s).turner.g6.supplyLevel),
          (14, u8 (updTurner (fun t => { t with supply := .low }) s).turner.g6.supplyMode.code)]
              (updTurner (fun t => { t with supply := .low }) s) := by
    unfold supplyFall; dsimp only
    generalize hx : notice .supplyLow _ _ = x at *
    have e1 : x.cycle = e.cycle := by have q := cycle_came h2; exact q
    have e2 : x.turner = { e.turner with supply := .low } := by have q := turner_came h2; exact q
    rw [e1, e2]
    rcases hc with hc | hc | hc
    · rw [hc]; simp [CycleState.working]
    · rw [hc]; simp [CycleState.working]
    · rw [hc]; simp
  rw [hs]
  have el := lines_came h1
  have et := turner_came h1
  rw [el, et] at h2 ⊢
  exact h2

theorem becomeReady_came {s e : State} {n fs} (h : s.cameTo n e fs)
    (hc : e.cycle.state = .idle ∨ e.turner.g6.supplyMode = .notice ∨ e.turner.g6.supplyLevel ≤
    e.lines.supplySense) :
   let low : Bool := e.lines.supplySense < e.turner.g6.supplyLevel
   (becomeReady s).cameTo n { e with
        start := { e.start with phase := .ready, readyAt := e.now, waiting := .nothing }
        turner := { e.turner with supply := if low then .low else .ok } }
      (fs ++ [noticeFields .ready (readyContents e)] ++
        (if low then [noticeFields .supplyLow (supplyFields e)] else [])) := by
  intro low
  have hn := now_came h
  have h1 := ((h.clean (clean_updStart fun x => { x with phase := .ready, readyAt := s.now, waiting
      := .nothing })).clean
    (clean_updTurner fun t => { t with supply := .ok })).placeStatus 0
  unfold becomeReady; dsimp only
  generalize hx : placeStatus 0 _ = x at *
  have h2 := (((h1.notice .ready (readyContents x)).placeStatus 1).placeStatus 2).placeStatus 3
  have hr : readyContents x = readyContents e := by unfold readyContents; rw [start_came h1]; rfl
  generalize hy : placeStatus 3 _ = y at *
  rw [hr] at h2
  have hl := lines_came h2
  have ht := turner_came h2
  rw [hl, ht, hn] at *
  by_cases hlow : e.lines.supplySense < e.turner.g6.supplyLevel
  · have : low = true := by simp [low, hlow]
    rw [this]; rw [if_pos (by exact hlow)]
    exact supplyFall_came h2 (hc.imp id fun h => .inr (h.resolve_right (by omega)))
  · have : low = false := by simp [low, hlow]
    rw [this]; rw [if_neg (by exact hlow)]
    simp only [Bool.false_eq_true, if_false, List.append_nil]; exact h2

end Sys2Proof.Machine
end

