-- ==== Sys2Proof/Laws/Room.lean ====
section
/-! SUPPORT. The own-traffic queue while it has room (R168, R169): what is placed finds its place, and status lines
take at most one each. -/

namespace Sys2Proof.Machine

set_option Elab.async false

/-- The write of status line `k` is queued. -/
def hasStatus (q : List OwnEntry) (k : Nat) : Bool := q.any fun e => e.origin == .status k

/-- How many of the four coalescing status lines have no write queued. -/
def missingStatus (q : List OwnEntry) : Nat := (!hasStatus q 0).toNat + (!hasStatus q 1).toNat +
    (!hasStatus q 2).toNat + (!hasStatus q 3).toNat

/-- The snapshot lines queued, in order. -/
def snapshotWrites (q : List OwnEntry) : List (Nat × Option Line) :=
      (q.filter fun e => e.origin == .snapshotLine).map fun e => (e.addr, e.content)

theorem coalesce_origin (k l) (e : OwnEntry) : (coalesce k l e).origin = e.origin := by
  unfold coalesce; split <;> rfl

theorem hasStatus_coalesce (q k j l) : hasStatus (q.map (coalesce j l)) k = hasStatus q k := by
  simp only [hasStatus, List.any_map]; congr 1; funext e; simp [coalesce_origin]

theorem missingStatus_coalesce (q j l) : missingStatus (q.map (coalesce j l)) = missingStatus q := by
  simp only [missingStatus, hasStatus_coalesce]

theorem snapshotWrites_coalesce (q j l) : snapshotWrites (q.map (coalesce j l)) = snapshotWrites q := by
  simp only [snapshotWrites]
  induction q with
  | nil => rfl
  | cons e q ih =>
    simp only [List.map_cons, List.filter_cons, coalesce_origin]
    split
    · rename_i h
      simp only [List.map_cons, ih]
      have : coalesce j l e = e := by
        unfold coalesce; rw [if_neg]; intro h2; rw [h2] at h; simp at h
      rw [this]
    · exact ih

theorem hasStatus_append (q e k) : hasStatus (q ++ [e]) k = (hasStatus q k || e.origin == .status k) := by
  simp [hasStatus]

theorem hasStatus_status (q : List OwnEntry) (i a c k j) : hasStatus (q ++ [⟨i,a,c,.status k⟩])
    j = (hasStatus q j || decide (k = j)) := by
  rw [hasStatus_append]; congr 1; rw [Bool.eq_iff_iff]; simp

/-- Nothing waits, the queue hasStatus at most `n` entries counting a write for each status line that may
    still come, its
snapshot lines are `sn`, and the entries `keep` are in it. -/
structure Roomy (n : Nat) (sn : List (Nat × Option Line)) (keep : List OwnEntry) (s : State) : Prop where
  w : s.transit.wait = []
  l : s.transit.queue.length + missingStatus s.transit.queue ≤ n
  sn : snapshotWrites s.transit.queue = sn
  mem : ∀ e ∈ keep, (∀ k, e.origin ≠ .status k) ∧ e ∈ s.transit.queue

theorem roomy_self {a : State} (hw : a.transit.wait = []) : Roomy (a.transit.queue.length + 4)
    (snapshotWrites a.transit.queue) [] a := by
  refine ⟨hw, ?_, rfl, by simp⟩
  have : ∀ b : Bool, b.toNat ≤ 1 := by decide
  have h0 := this (!hasStatus a.transit.queue 0)
  have h1 := this (!hasStatus a.transit.queue 1)
  have h2 := this (!hasStatus a.transit.queue 2)
  have h3 := this (!hasStatus a.transit.queue 3)
  unfold missingStatus; omega

theorem roomy_weaken {n n' sn kp s} (h : Roomy n sn kp s) (hh : n ≤ n') : Roomy n' sn kp s := ⟨h.w,
    h.l.trans hh, h.sn, h.mem⟩

theorem roomy_hasPlace {n sn kp s} (h : Roomy n sn kp s) (hn : n ≤ 15) : (s.transit).hasPlace = true := by
  unfold Transit.hasPlace; rw [h.w]; have := h.l; simp; omega

theorem roomy_bumpId {n sn kp s} (h : Roomy n sn kp s) : Roomy n sn kp (bumpId s) := ⟨h.w, h.l, h.sn, h.mem⟩

theorem roomy_setSnapshot {n sn kp s} (p) (h : Roomy n sn kp s) : Roomy n sn kp (setSnapshot p s) := ⟨h.w,
    h.l, h.sn, h.mem⟩

theorem roomy_setLog {n sn kp s} (l) (h : Roomy n sn kp s) : Roomy n sn kp { s with log := l } := ⟨h.w,
    h.l, h.sn, h.mem⟩

theorem roomy_setVols {n sn kp s} (l) (h : Roomy n sn kp s) : Roomy n sn kp { s with vols := l } := ⟨h.w,
    h.l, h.sn, h.mem⟩

theorem roomy_updVol {n sn kp s} (k f) (h : Roomy n sn kp s) : Roomy n sn kp (updVol k f s) := by
  unfold updVol; split
  · exact roomy_setVols _ h
  · exact h

theorem roomy_syncLine {n sn kp s} (k : Nat) (hk : k < 4) (h : Roomy n sn kp s) (hn : n ≤ 16) :
    Roomy n sn kp (syncLine k s) := by
  unfold syncLine; split
  · exact h
  · split
    · exact h
    · unfold placeStatus; dsimp only; split
      · refine ⟨h.w, ?_, ?_, ?_⟩
        · simp only [setShown_transit, List.length_map, missingStatus_coalesce]; exact h.l
        · simp only [setShown_transit, snapshotWrites_coalesce]; exact h.sn
        · intro e he
          refine ⟨(h.mem e he).1, ?_⟩
          simp only [setShown_transit, List.mem_map]
          exact ⟨e, (h.mem e he).2, by unfold coalesce; rw [if_neg ((h.mem e he).1 k)]⟩
      · rename_i hh
        rw [if_neg (by rw [h.w]; simp)]
        have hm : hasStatus s.transit.queue k = false := by simpa [hasStatus] using hh
        have hl := h.l
        have h1 : 1 ≤ missingStatus s.transit.queue := by
          unfold missingStatus
          obtain rfl | rfl | rfl | rfl : k = 0 ∨ k = 1 ∨ k = 2 ∨ k = 3 := by omega
          all_goals (rw [hm]; simp only [Bool.not_false, Bool.toNat_true]; omega)
        rw [if_pos (by unfold Transit.hasPlace; rw [h.w]; simp; omega)]
        refine ⟨h.w, ?_, ?_, ?_⟩
        · simp only [setShown_transit, enqueue_transit, bumpId_transit, List.length_append,
            List.length_singleton]
          have : missingStatus (s.transit.queue ++ [⟨s.transit.nextId, s.statusAddr k,
              some (statusLine k s), .status k⟩]) + 1 ≤ missingStatus s.transit.queue := by
            unfold missingStatus; simp only [hasStatus_status]
            clear * - hm hk
            generalize s.transit.queue = q at *
            revert hm
            generalize h0 : hasStatus q 0 = b0
            generalize h1 : hasStatus q 1 = b1
            generalize h2 : hasStatus q 2 = b2
            generalize h3 : hasStatus q 3 = b3
            intro hm
            obtain rfl | rfl | rfl | rfl : k = 0 ∨ k = 1 ∨ k = 2 ∨ k = 3 := by omega
            · rw [h0] at hm; subst hm; cases b1 <;> cases b2 <;> cases b3 <;> simp
            · rw [h1] at hm; subst hm;  cases b0 <;> cases b2 <;> cases b3 <;> simp
            · rw [h2] at hm; subst hm;  cases b1 <;> cases b0 <;> cases b3 <;> simp
            · rw [h3] at hm; subst hm;  cases b1 <;> cases b2 <;> cases b0 <;> simp
          omega
        · simp only [setShown_transit, enqueue_transit, bumpId_transit, snapshotWrites, List.filter_append,
            List.map_append]
          rw [← h.sn]; simp [snapshotWrites]
        · intro e he
          exact ⟨(h.mem e he).1, List.mem_append_left _ (h.mem e he).2⟩

theorem roomy_sync {n sn kp s} (h : Roomy n sn kp s) (hn : n ≤ 16) : Roomy n sn kp (sync s) :=
  roomy_syncLine 3 (by omega) (roomy_syncLine 2 (by omega)
      (roomy_syncLine 1 (by omega) (roomy_syncLine 0 (by omega) h hn) hn) hn) hn

theorem roomy_enqueue {n sn kp s} (a c o i) (h : Roomy n sn kp s) (ho : ∀ k, o ≠ .status k) : 
   Roomy (n+1) (if o = .snapshotLine then sn ++ [(a,c)] else sn) (kp ++ [⟨i,a,c,o⟩]) (enqueue a c o i s)
       := by
  refine ⟨h.w, ?_, ?_, ?_⟩
  · simp only [enqueue_transit, List.length_append, List.length_singleton]
    have : ∀ k, hasStatus (s.transit.queue ++ [⟨i, a, c, o⟩]) k = hasStatus s.transit.queue k := by
      intro k; rw [hasStatus_append]; have := ho k; simp [this]
    have h2 : missingStatus (s.transit.queue ++ [⟨i, a, c, o⟩]) = missingStatus s.transit.queue := by
      simp only [missingStatus, this]
    have := h.l; omega
  · simp only [enqueue_transit, snapshotWrites, List.filter_append, List.map_append, ← h.sn]
    split
    · rename_i e; simp [e]
    · rename_i e; simp [e]
  · intro e he
    rcases List.mem_append.1 he with he | he
    · exact ⟨(h.mem e he).1, List.mem_append_left _ (h.mem e he).2⟩
    · rw [List.mem_singleton] at he; subst he
      exact ⟨ho, List.mem_append_right _ (by simp)⟩

theorem roomy_writeEntry {n sn kp s} (f) (h : Roomy n sn kp s) (hn : n ≤ 15) : Roomy (n+1)
    sn kp (writeEntry f .entry s) := by
  have hs := roomy_sync h (by omega)
  have hp := roomy_hasPlace hs hn
  refine roomy_sync ?_ (by omega)
  unfold placeEntry placeWrite; dsimp only
  rw [if_pos (by exact hp)]
  have h2 : Roomy n sn kp (bumpId { sync s with
      req := { (sync s).req with
        newest := satSucc (sync s).req.newest
        noticeOut := true
        newestIssued := false
        newestId := some (sync s).transit.nextId
        newestLine := some ((sync s).entryAddr (satSucc (sync s).req.newest)) } }) := ⟨hs.w, hs.l, hs.sn,
            hs.mem⟩
  have h3 := roomy_enqueue ((sync s).entryAddr (satSucc (sync s).req.newest))
      (some (compose ((0, u32 (satSucc (sync s).req.newest)) :: f)))
      .entry (sync s).transit.nextId h2 (by intro k; simp)
  simp only [reduceCtorEq, if_false] at h3
  exact ⟨h3.w, h3.l, h3.sn, fun e he => h3.mem e (List.mem_append_left _ he)⟩

theorem roomy_lowTest {n sn kp s} (h : Roomy n sn kp s) (hn : n ≤ 15) : Roomy (n+1) sn kp (lowTest s) := by
  unfold lowTest; split
  · exact roomy_writeEntry _ (roomy_setLog _ h) hn
  · exact roomy_weaken h (by omega)

theorem roomy_placeGainRead {n sn kp s} (c sec) (l : GainLoad) (hl : (s.cam c).load = some l)
    (h : Roomy n sn kp s) (hn : n ≤ 15) :
   ∃ i, Roomy (n+1) sn (kp ++ [⟨i, l.addr + (if sec then 64 else 0), none, .gainRead c sec⟩])
       (placeGainRead c sec none s).1 ∧ (placeGainRead c sec none s).2 = true := by
  unfold placeGainRead; rw [hl]; dsimp only
  have hs := roomy_sync h (by omega)
  rw [if_pos (roomy_hasPlace hs hn)]
  have := roomy_enqueue (l.addr + if sec = true then 64 else 0) none (.gainRead c sec)
      (sync s).transit.nextId (roomy_bumpId hs) (by intro k; simp)
  simp only [reduceCtorEq, if_false] at this
  exact ⟨_, this, rfl⟩

end Sys2Proof.Machine
end

