-- ==== Sys2Proof/WellFormed.lean ====
section
/-! DEFINITION. Which commands are of the form the spec gives them: lengths of lists, the bounds of a
transaction within its line (R159), a request line's fixed field lengths (R190). -/

namespace Sys2Proof

/-- A transaction has 1..64 bytes within one line, an enable per byte, and the data-error attribute
only on a camera's write (R159). -/
def Txn.fitsLine (x : Txn) : Bool :=
  1 ≤ x.len && x.addr.toNat % 64 + x.len ≤ 64 && x.enables.length == x.len

/-- A write carries one data byte per byte of its length. -/
def Txn.writeFormed (x : Txn) : Bool :=
  x.fitsLine && x.data.length == x.len &&
    (!x.dataError || x.requester == .camL || x.requester == .camR)

/-- A read carries no data and no data-error attribute. -/
def Txn.readFormed (x : Txn) : Bool :=
  x.fitsLine && x.data.isEmpty && !x.dataError

/-- A camera's write has 1..64 bytes within one line (aperture bases are on line boundaries, R161), and
one enable and one data byte per byte of its length. -/
def Payload.formedAt (p : Payload) (offset : Nat) : Bool :=
  1 ≤ p.len && offset % 64 + p.len ≤ 64 && p.enables.length == p.len && p.data.length == p.len

/-- The check of a command's form. -/
def Instr.wellFormed : Instr → Bool
  | .profileSignatureRead _ sig _ => sig.length == 4
  | .upstreamWrite _ x => x.writeFormed
  | .upstreamRead _ x => x.readFormed
  | .apertureWrite _ _ offset p => p.formedAt offset.toNat
  | .requestUnknownKind _ kind _ => kind.toNat == 0 || 0x18 ≤ kind.toNat
  | .registerVolume _ _ p => p.mark.length == 32 && p.levels.length == 6
  | .setVolume _ _ p => p.levels.length == 6
  | .calibrate _ _ p => p.levels.length == 6
  | .setMaterialMap _ _ classes => classes.length == 16
  | .downstreamResponse _ _ data => data.length ≤ 64
  | .powerOn _ _ | .lineReset _ | .resetEnd _ | .profileGroupRead _ _ | .activate _ _ _
  | .suspend _ _ | .setOpening _ _ _ | .closeVolume _ _ _ _ | .retireVolume _ _
  | .snapshotVolume _ _ _ | .run _ _ _ | .stepTurn _ _ | .pause _ _ | .resumeContinue _ _
  | .resumeRetry _ _ | .resumeSkip _ _ | .resumeAbandon _ _ | .stop _ _ | .clearFault _ _
  | .releaseSlots _ _ _ _ | .loadGains _ _ _ _ | .setCorrection _ _ _ _ | .setRules _ _ _ _ _
  | .setClassEntry _ _ _ _ | .logTaken _ _ _ | .verifyLog _ _ | .downstreamIssue _
  | .ownTrafficWaitAdmit _ | .logAppendAccept _ | .haltInActive _ | .camReadyActive _ _
  | .cameraReadyTimeout _ | .channelRampStart _ _ | .lampRampStep _ | .warmEnd _ | .triggerFall _
  | .exposureCompletion _ | .frameTimeout _ _ | .restLoss _ _ | .lampOkInactive _ _
  | .platenUpActive _ | .platenDownActive _ | .armParkedActive _ | .armAtLeftActive _
  | .leafSenseActive _ | .leafSenseInactive _ | .doubleSenseActive _ | .wandPressureSample _ _
  | .holdTimeout _ | .supplySenseSample _ _ | .platenTimeout _ | .gripTimeout _ | .liftTimeout _
  | .sweepTimeout _ | .returnTimeout _ | .knifePulseElapsed _ | .retryPauseElapsed _
  | .releaseElapsed _ | .settleElapsed _ | .powerEstablished _ => true

end Sys2Proof
end

