-- ==== Sys2Proof/Tests/Slice0.lean ====
section
/-! SUPPORT. Tests: ill-formed terms refused, the spec's worked figures, small steps, and for each statement
with hypotheses a state that meets them. -/

open Sys2Proof Sys2Proof.Machine

namespace Sys2Proof.Tests

set_option Elab.async false

/-! ## Small states -/

/-- Taken at once, no line changed quietly. -/
def at0 : Moment := ⟨0, []⟩
/-- Taken after so many milliseconds. -/
def later (n : Nat) : Moment := ⟨ms n, []⟩
/-- A request's header: flags and handle, tag 7. -/
def head (flags handle : Nat) : Head :=
  ⟨BitVec.ofNat 8 flags, 7#16, BitVec.ofNat 8 handle, 0#8, 0#8, 0#8⟩
/-- The part at READY, the cradle at rest, cameras and lamps well, the supply up. -/
def part : State :=
  { State.reset with
    lines := ⟨false, true, false, false, false, true, 0, 255, List.replicate 6 true, ⟨true, true⟩,
      false, false, true⟩
    start := { State.reset.start with phase := .ready } }
/-- The part loading its profile, every group accepted. -/
def loading (w : LoaderWait) : State :=
  { part with start := { part.start with phase := .profileLoad, waiting := w, accept := 0x1555#16 } }
/-- A volume of 4 leaves, class 1. -/
def book (st : VolState) : Volume :=
  { mark := 65#8 :: List.replicate 31 0x20#8, state := st, material := 4, override := none, leaves := 4
    budget := 40000000, doseUsed := 31250000, openingDose := 0
    baseLevels := some [640, 640, 700, 512, 0, 0], exposureTime := none, cursor := 1
    coverage := List.replicate 10 .absent, sidesCovered := 0, framesAccepted := 0, framesMarginal := 0
    framesRejected := 0, framesDamaged := 0, retakes := 0, repeatFrames := 0, turnsDone := 0
    turnFaults := 0, doubleLeafEvents := 0, firstRecord := 0, lastRecord := 0 }
/-- The part with that volume at handle 0. -/
def shelf (st : VolState) : State := part.withVolume 0 (some (book st))
/-- The opening record of opening 1, both sides WANTED. -/
def opened : OpeningRecord :=
  { number := 1, sides := ⟨⟨.wanted, none⟩, ⟨.wanted, none⟩⟩, retakes := 0
    prepared := ⟨⟨true, true⟩, none⟩, lampFault := false, exposed := false, charge := 0 }
/-- A run to opening 3. -/
def toThree : RunRecord := ⟨.run, 3, false, false, false, none⟩
/-- The cycle at work on opening 1. -/
def cycling (st : CycleState) (sub : SubCondition) : State :=
  { shelf .active with cycle :=
    { part.cycle with state := st, sub := sub, run := some toThree, opening := some opened } }
/-- The cycle halted by a fault of this class. -/
def halted (cls : FaultClass) : State :=
  { cycling .halted .none with cycle := { (cycling .halted .none).cycle with
    fault := some ⟨.gripFail, cls, 0, some .grip, ⟨false, false⟩, 1, 0⟩ } }
/-- A frame of opening 1, side 2. -/
def frame : Frame := ⟨0, some 0, 1, some 2, 0, .inFlight, .none, none, 0, 0, 0, false⟩
/-- The left camera's intake record replaced, slot 0 holding the frame. -/
def taking (st : IntakeState) (slot : SlotState) (expected remaining : Nat) : State :=
  let s := cycling .expose .none
  let c := s.intake.cams.left
  { s with intake := { s.intake with cams := s.intake.cams.set .left { c with
      slots := c.slots.set 0 ⟨slot, some frame⟩
      intakeRec := { IntakeRecord.idle with
        state := st, armed := some 0, expected := expected, remaining := remaining, timer := some 0 } } } }
/-- An exposure of both sides in this phase, its clock started at 0. -/
def lighting (p : Phase) : State :=
  let s := cycling .expose .none
  { s with light := { s.light with exposure :=
    ⟨p, .first, ⟨true, true⟩, ⟨[640, 640, 700, 512, 0, 0], 100, 22, 894528⟩, some 0, false, 0, false,
      false⟩ } }
/-- The turner at work in a stage whose timers have run out. -/
def turning (st : Stage) (sub : TurnerSub) : State :=
  let s := cycling .turn .none
  { s with turner := { s.turner with
    state := .turning, stage := some st, sub := sub, stageTimer := .running 0 0, stageTime := some 0 } }
/-- The turner in HOLD. -/
def holding (st : Stage) : State :=
  { turning st .none with turner := { (turning st .none).turner with
    state := .hold, stageTimer := .suspended 5, holdTimer := some 0 } }
/-- A calibration in flight. -/
def calibrating (recorded : Bool) : State :=
  { part with cycle := { part.cycle with
    state := .calibrate, sub := .waitCamera, camTimer := some 0
    cal := some ⟨⟨0x12#8, 7#16, 0#8⟩, 3600, [0, 0, 0, 0, 0, 0], 100, false, false, 0, recorded⟩ } }
/-- A one-line transaction of the station. -/
def line (addr : Nat) (who : Requester) (data : List Byte) : Txn :=
  ⟨BitVec.ofNat 34 addr, 64, List.replicate 64 true, who, false, data⟩
/-- 64 zero bytes. -/
def zeros : List Byte := List.replicate 64 0#8
/-- A camera's full line of zero pixels. -/
def dark : Payload := ⟨64, List.replicate 64 true, false, zeros⟩
/-- An own write on its way. -/
def own (o : Origin) (c : Option Line) : OwnEntry := ⟨3, 0x3FFF01000, c, o⟩

/-- The state after a command. -/
def after (c : Instr) (s : State) : State :=
  match exec c s with
  | .next t => t
  | .fault _ | .refused _ => s
/-- Of each entry of the reply list a command writes: is it a notice; outcome or notice kind; reason. -/
def answers (c : Instr) (s : State) : List (Nat × Nat × Nat) :=
  ((after c s).transit.queue.filter fun e => e.origin == .entry).map fun e =>
    let l := e.content.getD []
    if rd8 l 4 = 0 then (0, rd8 l 9, rd8 l 10) else (1, rd8 l 5, 0)
/-- REFUSED with a reason. -/
def no (r : Reason) : List (Nat × Nat × Nat) := [(0, 3, r.code)]
/-- DONE. -/
def done : List (Nat × Nat × Nat) := [(0, 0, 0)]
/-- The record at handle 0. -/
def vol (s : State) : Volume := (s.vols.get 0).getD (book .closed)

/-! ## Ill-formed terms are refused -/

theorem test_wf_transaction_longer_than_its_line :
    ({ line 0 .station [] with len := 65 } : Txn).fitsLine = false := by decide +kernel
theorem test_wf_transaction_across_two_lines :
    ({ line 8 .station [] with len := 57, enables := List.replicate 57 true } : Txn).fitsLine = false := by
  decide +kernel
theorem test_wf_enables_not_one_per_byte :
    ({ line 0 .station [] with enables := [true] } : Txn).fitsLine = false := by decide +kernel
theorem test_wf_write_without_its_data :
    (Instr.upstreamWrite at0 (line 0 .station [])).wellFormed = false := by decide +kernel
theorem test_wf_data_error_of_the_station :
    (Instr.upstreamWrite at0 { line 0 .station zeros with dataError := true }).wellFormed = false := by
  decide +kernel
theorem test_wf_read_with_data :
    (Instr.upstreamRead at0 (line 0 .station zeros)).wellFormed = false := by decide +kernel
theorem test_wf_aperture_write_across_two_lines :
    (Instr.apertureWrite at0 .left 32#34 dark).wellFormed = false := by decide +kernel
theorem test_wf_signature_of_three_bytes :
    (Instr.profileSignatureRead at0 [0#8, 0#8, 0#8] 0#16).wellFormed = false := by decide +kernel
theorem test_wf_unknown_kind_that_is_known :
    (Instr.requestUnknownKind at0 0x17#8 (head 0 0)).wellFormed = false := by decide +kernel
theorem test_wf_mark_of_31_bytes :
    (Instr.registerVolume at0 (head 0 0)
      ⟨List.replicate 31 65#8, 0#8, 0#8, 1#16, 1#32, List.replicate 6 0#16, 1#16⟩).wellFormed = false := by
  decide +kernel
theorem test_wf_five_levels :
    (Instr.registerVolume at0 (head 0 0)
      ⟨List.replicate 32 65#8, 0#8, 0#8, 1#16, 1#32, List.replicate 5 0#16, 1#16⟩).wellFormed = false ∧
    (Instr.setVolume at0 (head 0 0) ⟨1#32, List.replicate 5 0#16, 1#16, 0#8⟩).wellFormed = false ∧
    (Instr.calibrate at0 (head 0 0) ⟨3600#16, List.replicate 5 0#16, 1#16⟩).wellFormed = false := by
  decide +kernel
theorem test_wf_map_of_15_classes :
    (Instr.setMaterialMap at0 (head 0 0) (List.replicate 15 0#8)).wellFormed = false := by decide +kernel
theorem test_wf_answer_of_65_bytes :
    (Instr.downstreamResponse at0 false (List.replicate 65 0#8)).wellFormed = false := by decide +kernel
theorem test_wf_well_formed_terms :
    (Instr.upstreamWrite at0 (line 0 .camL zeros)).wellFormed = true ∧
    (Instr.upstreamRead at0 (line 0 .station [])).wellFormed = true ∧
    (Instr.apertureWrite at0 .left 64#34 dark).wellFormed = true ∧
    (Instr.requestUnknownKind at0 0x18#8 (head 0 0)).wellFormed = true := by decide +kernel

/-! ## The worked figures of spec/06 -/

/-- The table "Worked cases: correction and bands". -/
theorem test_correction_of_a_pixel :
    ([3000, 3600, 5000, 0].map fun p => correctPixel true 1200 (rawClamp p)) = [3516, 4095, 4095, 0] ∧
    ([3000, 3600, 5000, 0].map fun p => correctPixel false 1200 (rawClamp p)) = [3000, 3600, 4095, 0] := by
  decide +kernel
/-- The bands of the same cases: W 4096, 1024 and 3072. -/
theorem test_bands_of_a_line :
    bandOf 4096 1048832 = 2 ∧ bandOf 4096 (1048832 + 62) = 2 ∧ bandOf 1024 (4160 + 30) = 2 ∧
    bandOf 1024 (4160 + 32) = 3 ∧ bandOf 3072 (2 * 47) = 0 ∧ bandOf 3072 (2 * 48) = 1 := by decide +kernel
/-- The tables "Worked cases: statistics and verdicts". -/
theorem test_verdicts :
    Geometry.default.mean 74500000000 = 2960 ∧ Geometry.default.mean 96000000 = 3 ∧
    Rules.default.judge 25165824 2960 25344 = (.accepted, .none) ∧
    Rules.default.judge 25165824 2960 25345 = (.rejected, .clipped) ∧
    Rules.default.judge 25165824 2700 0 = (.accepted, .none) ∧
    Rules.default.judge 25165824 2699 0 = (.rejected, .low) ∧
    Rules.default.judge 25165824 3300 0 = (.accepted, .none) ∧
    Rules.default.judge 25165824 3301 0 = (.rejected, .high) ∧
    Rules.judge ⟨200, 300, 66⟩ 25165824 0 0 = (.accepted, .none) ∧
    Rules.judge ⟨200, 300, 66⟩ 25165824 501 0 = (.rejected, .high) := by decide +kernel
/-- "Worked cases: retake trims". -/
theorem test_trims :
    trimFactor 3000 .low 2400 = 1280 ∧ trimLevel 900 600 1280 = 750 ∧ trimFactor 3000 .low 2900 = 1059 ∧
    trimLevel 900 750 1059 = 776 ∧ trimLevel 700 700 1059 = 700 ∧ trimFactor 3000 .high 4095 = 750 ∧
    trimFactor 3000 .low 0 = 4096 ∧ trimLevel 900 200 4096 = 800 ∧ trimLevel 900 1 256 = 1 ∧
    retakeLevel 900 600 .left (.rejected 1280) (.rejected 896) = 750 ∧
    retakeLevel 900 800 .right (.rejected 1280) (.rejected 896) = 700 ∧
    retakeLevel 900 500 .both (.rejected 1280) (.rejected 896) = 438 ∧
    retakeLevel 900 800 .right (.rejected 1280) .damaged = 800 ∧
    retakeLevel 900 500 .both (.rejected 1280) .damaged = 625 := by decide +kernel
/-- "Worked cases: calibration gains". -/
theorem test_gains :
    bandGain .default 3600 1207959552 = (1200, false, false) ∧
    bandGain .default 3600 314572800 = (4095, true, false) ∧
    bandGain .default 3600 20000000 = (4095, false, true) ∧
    bandGain .default 3600 1610219520 = (900, false, false) ∧
    bandGain .default 1000 1610219520 = (512, true, false) ∧
    bandGain .default 3600 (64 * 393216) = (4095, true, false) := by decide +kernel
/-- "Worked cases: dose", and the first exposure of spec/04. -/
theorem test_doses :
    predictedDose 50 40 120 [600, 575] [2000, 1987] = 431025 ∧ rampTime 50 575 = 12 ∧
    dose 600 2000 98 + dose 575 1987 98 = 229568 ∧ dose 600 2000 3 + dose 575 1987 3 = 7028 ∧
    dose 1023 4095 (plannedOnTime 1 500 2000 1023) = 19044036 ∧
    part.planOf [640, 640, 700, 512, 0, 0] 100 = ⟨[640, 640, 700, 512, 0, 0], 100, 22, 894528⟩ := by
  decide +kernel


/-! ## Request lines and start-up -/

/-- SET_RULES with T 2600, τ 300, λ 650 and tag 7, byte by byte from R174 and R190. -/
theorem test_line_of_set_rules :
    lineCommand ([0x13#8, 0#8, 0x07#8, 0#8, 0#8, 0#8, 0#8, 0#8, 0x28#8, 0x0A#8, 0x2C#8, 0x01#8, 0x8A#8,
      0x02#8] ++ List.replicate 50 0#8) = .setRules at0 (head 0 0) 2600#16 300#16 650#16 := by
  decide +kernel
/-- RUN of handle 3 to opening 40 with skip-covered, and RESUME with SKIP (R53, R190). -/
theorem test_lines_of_run_and_resume :
    lineCommand ([0x09#8, 0x01#8, 0x07#8, 0#8, 3#8, 0#8, 0#8, 0#8, 0x28#8] ++ List.replicate 55 0#8) =
      .run at0 (head 1 3) 40#16 ∧
    lineCommand ([0x0C#8, 0#8, 0x07#8, 0#8, 0#8, 0#8, 0#8, 0#8, 2#8] ++ List.replicate 55 0#8) =
      .resumeSkip at0 (head 0 0) := by decide +kernel
theorem test_powerOn : (after (.powerOn at0 true) (cycling .turn .none)).start.phase = .reset ∧
    (after (.powerOn at0 true) (cycling .turn .none)).cycle.state = .idle ∧
    (after (.powerOn at0 true) (cycling .turn .none)).vols.table = List.replicate 32 none := by decide +kernel
theorem test_lineReset : (after (.lineReset at0) (cycling .turn .none)).start.runningMark = true ∧
    (after (.lineReset at0) part).start.runningMark = false ∧
    (after (.lineReset at0) State.reset).start.cause = .powerOn := by decide +kernel
theorem test_resetEnd_and_powerEstablished :
    (after (.resetEnd at0) { State.reset with lines := part.lines }).start.phase = .profileLoad ∧
    (after (.resetEnd at0) State.reset).start.phase = .reset ∧
    (after (.powerEstablished at0) State.reset).start.phase = .profileLoad := by decide +kernel
theorem test_profileSignatureRead :
    (after (.profileSignatureRead at0 [0x52#8, 0x4D#8, 0x4B#8, 0x50#8] 0x1555#16)
      (loading .signature)).start.waiting = .group 1 ∧
    (after (.profileSignatureRead at0 [0x52#8, 0x4D#8, 0x4B#8, 0x51#8] 0x1555#16)
      (loading .signature)).start.phase = .ready ∧
    answers (.profileSignatureRead at0 zeros 0#16) (loading .signature) = [(1, 0, 0)] := by decide +kernel
/-- G5 with T 5000, τ 100, λ 66: T is clamped to 4095 (R131, R185). -/
theorem test_profileGroupRead :
    (after (.profileGroupRead at0 [0x88#8, 0x13#8, 100#8, 0#8, 66#8, 0#8]) (loading (.group 5))).cycle.rules =
      ⟨4095, 100, 66⟩ := by decide +kernel

/-! ## The frame-store path -/

theorem test_upstreamWrite :
    (after (.upstreamWrite at0 (line 0x3FFF01000 .station zeros)) part).out.map Prod.snd = [.refused] ∧
    (after (.upstreamWrite at0 (line 0x3FFF01000 .station zeros)) part).transit.refusedWrites = 1 ∧
    (after (.upstreamWrite at0 (line 0x1000 .service zeros)) part).transit.stream.length = 1 := by
  decide +kernel
theorem test_upstreamRead :
    (after (.upstreamRead at0 (line 0x380000000 .station [])) part).out.map Prod.snd = [.refused] ∧
    (after (.upstreamRead at0 (line 0x1000 .station [])) part).transit.stream.length = 1 ∧
    (after (.upstreamRead at0 (line 0x3FFF01000 .station []))
      { part with transit := { part.transit with queue := [own .entry (some zeros)] } }).transit.holds.map
        Hold.waitsFor = [3] := by decide +kernel
theorem test_apertureWrite :
    (after (.apertureWrite at0 .left 0#34 dark) (taking .waitFirst .armed 0 50331648)).intake.cams.left.slots.map
      Slot.state = [.filling, .free, .free, .free] ∧
    (after (.apertureWrite at0 .left 64#34 dark)
        (taking .waitFirst .armed 0 50331648)).intake.cams.left.intakeRec.state =
      .draining ∧
    (after (.apertureWrite at0 .right 0#34 dark) part).intake.drops = 1 := by decide +kernel
theorem test_downstreamIssue_and_downstreamResponse :
    (after (.downstreamIssue at0)
      { part with transit := { part.transit with queue := [own .entry (some zeros)] } }).transit.mark = .own ∧
    (after (.downstreamResponse at0 false [])
      { part with transit := { part.transit with stale := 2 } }).transit.stale = 1 := by decide +kernel
theorem test_ownTrafficWaitAdmit_and_logAppendAccept :
    (after (.ownTrafficWaitAdmit at0)
      { part with transit := { part.transit with wait := [⟨3, .write 64 zeros .entry⟩] } }).transit.queue.map
        OwnEntry.addr = [64] ∧
    (after (.logAppendAccept at0)
      { part with
        transit := { part.transit with wait := [⟨3, .append⟩] }
        log := { part.log with appends := [.turn ⟨0, 1, 0, 0, true⟩] } }).log.appended = 1 := by
  decide +kernel
/-- A retake of one side whose slot was still ARMED frees that slot and arms it again in one step: status line 3
is placed all the same, for the slot was FREE in between (R104, R181), after line 0, which shows the record
accepted (R150). -/
theorem test_retake_shows_the_freed_slot :
    let u := taking .idle .armed 0 0
    let j : Judged := ⟨.left, 0, .damaged, .sequence, .pending⟩
    let b : FrameBody := ⟨0, 1, 2, .left, 0, 1, .damaged, .sequence, 0, 0, 0, false, 0, false⟩
    let p : Plan := ⟨[0, 0, 0, 0, 0, 0], 100, 0, 0⟩
    let f := { u with
      cycle := { u.cycle with state := .review, review := some ⟨[j], .retake ⟨true, false⟩ p⟩ }
      log := { u.log with appends := [.frame b] }, transit := { u.transit with wait := [⟨3, .append⟩] } }
    let s := { f with req := { f.req with shown := (List.range 4).map fun k => some (statusLine k f) } }
    let t := after (.ownTrafficWaitAdmit at0) s
    (t.intake.cams.left.slots.map Slot.state = s.intake.cams.left.slots.map Slot.state) ∧
    t.cycle.state = .expose ∧ t.transit.queue.map OwnEntry.origin = [.record, .status 0, .status 3] := by
  decide +kernel

/-! ## Requests -/

/-- The parameters of a volume of so many leaves. -/
def reg (mark : Nat) (material leaves : Nat) : RegisterParams :=
  ⟨BitVec.ofNat 8 mark :: List.replicate 31 0x20#8, BitVec.ofNat 8 material, 0#8, BitVec.ofNat 16 leaves,
    40000000#32, List.replicate 6 0#16, 0#16⟩

theorem test_header :
    answers (.requestUnknownKind at0 0x18#8 (head 0 0)) part = no .unknownKind ∧
    answers (.stop at0 { head 0 0 with zero5 := 1#8 }) part = no .badField ∧
    answers (.stop at0 (head 1 0)) part = no .badField ∧
    answers (.stop at0 (head 0 0)) (loading .signature) = [] := by decide +kernel
theorem test_registerVolume :
    answers (.registerVolume at0 (head 0 0) (reg 66 4 4095)) (shelf .closed) = done ∧
    ((after (.registerVolume at0 (head 0 0) (reg 66 4 4)) (shelf .closed)).vols.get 1).map Volume.leaves =
      some 4 := by decide +kernel
theorem test_registerVolume_refused :
    answers (.registerVolume at0 (head 0 0) (reg 66 4 0)) part = no .badField ∧
    answers (.registerVolume at0 (head 0 0) (reg 66 4 4096)) part = no .badField ∧
    answers (.registerVolume at0 (head 0 0) (reg 66 16 4)) part = no .badField ∧
    answers (.registerVolume at0 (head 0 0) (reg 65 4 4)) (shelf .closed) = no .duplicate ∧
    answers (.registerVolume at0 (head 0 0) (reg 66 4 4))
      { part with vols := { part.vols with table := List.replicate 32 (some (book .closed)) } } =
      no .tableFull := by decide +kernel
/-- Levels above class 1's ceiling of 900 are clamped; a budget below the dose used is raised to it. -/
theorem test_setVolume :
    (vol (after (.setVolume at0 (head 3 0) ⟨5#32, List.replicate 6 1023#16, 1#16, 0#8⟩)
      (shelf .active))).baseLevels = some (List.replicate 6 900) ∧
    (vol (after (.setVolume at0 (head 3 0) ⟨5#32, List.replicate 6 1023#16, 1#16, 0#8⟩)
      (shelf .active))).budget = 31250000 := by decide +kernel
theorem test_setVolume_refused :
    (let p : SetVolumeParams := ⟨5#32, List.replicate 6 0#16, 1#16, 3#8⟩
     answers (.setVolume at0 (head 0x10 0) p) (shelf .active) = no .badField ∧
     answers (.setVolume at0 (head 1 32) p) (shelf .active) = no .badField ∧
     answers (.setVolume at0 (head 1 31) p) (shelf .active) = no .noVolume ∧
     answers (.setVolume at0 (head 1 0) p) (cycling .turn .none) = no .state ∧
     answers (.setVolume at0 (head 8 0) p) (shelf .active) = no .state ∧
     answers (.setVolume at0 (head 1 0) p) (shelf .closed) = no .closed) := by decide +kernel
theorem test_activate :
    (vol (after (.activate at0 (head 0 0) 5#16) (shelf .registered))).cursor = 4 ∧
    answers (.activate at0 (head 0 0) 4#16) (shelf .registered) = done ∧
    (after (.activate at0 (head 0 0) 4#16) (shelf .registered)).log.appended = 1 := by decide +kernel
theorem test_activate_refused :
    answers (.activate at0 (head 0 0) 4#16) (shelf .active) = no .state ∧
    answers (.activate at0 (head 0 0) 4#16) (shelf .closed) = no .closed ∧
    answers (.activate at0 (head 0 1) 4#16) (shelf .active) = no .noVolume ∧
    answers (.activate at0 (head 0 1) 4#16) ((shelf .active).withVolume 1 (some (book .suspended))) =
      no .activeExists ∧
    answers (.activate at0 (head 0 0) 4#16)
      { shelf .registered with log := { part.log with appended := 4096 } } = no .logFull := by decide +kernel
theorem test_suspend :
    answers (.suspend at0 (head 0 0)) (shelf .active) = done ∧
    (vol (after (.suspend at0 (head 0 0)) (shelf .active))).state = .suspended ∧
    answers (.suspend at0 (head 0 0)) (shelf .suspended) = no .state ∧
    answers (.suspend at0 (head 0 0)) (turning .settle .completing) = no .state := by decide +kernel
theorem test_setOpening :
    (vol (after (.setOpening at0 (head 0 0) 5#16) (shelf .active))).cursor = 4 ∧
    answers (.setOpening at0 (head 0 0) 0#16) (shelf .suspended) = no .state ∧
    answers (.setOpening at0 (head 0 0) 0#16) (shelf .closed) = no .closed ∧
    answers (.setOpening at0 (head 0 32) 0#16) (shelf .active) = no .badField ∧
    answers (.setOpening at0 (head 0 31) 0#16) (shelf .active) = no .noVolume := by decide +kernel
theorem test_closeVolume :
    answers (.closeVolume at0 (head 0 0) 0#16 0xFFFF#16) (shelf .active) = done ∧
    answers (.closeVolume at0 (head 0 0) 1#16 0xFFFE#16) (shelf .active) = no .mismatch ∧
    answers (.closeVolume at0 (head 0 0) 0#16 0xFFFE#16) (shelf .suspended) = no .mismatch ∧
    answers (.closeVolume at0 (head 0 0) 0#16 0xFFFF#16) (shelf .registered) = no .state := by decide +kernel
theorem test_retireVolume :
    answers (.retireVolume at0 (head 0 0)) (shelf .closed) = done ∧
    (after (.retireVolume at0 (head 0 0)) (shelf .closed)).vols.get 0 = none ∧
    answers (.retireVolume at0 (head 0 0)) (shelf .suspended) = no .state ∧
    answers (.retireVolume at0 (head 0 0))
      ((taking .idle .filled 0 0).withVolume 0 (some (book .closed))) = no .slotsHeld := by decide +kernel
theorem test_snapshotVolume :
    ((after (.snapshotVolume at0 (head 1 0) 0x1000#64) (shelf .active)).transit.queue.map OwnEntry.addr) =
      [0x3FFF02100, 0x3FFF02140, 0x3FFF02180, 0x3FFF021C0, 0x1000, 0x3FFF02100, 0x3FFF01000] ∧
    answers (.snapshotVolume at0 (head 1 0) 0x3FFF01000#64) (shelf .active) = no .badField ∧
    answers (.snapshotVolume at0 (head 0 1) 0#64) (shelf .active) = no .noVolume := by decide +kernel
theorem test_run :
    answers (.run at0 (head 0 0) 4#16) (shelf .active) = [(0, 1, 0)] ∧
    (after (.run at0 (head 0 0) 4#16) (shelf .active)).cycle.state = .expose ∧
    answers (.run at0 (head 0 0) 1#16) (shelf .active) = [(0, 1, 0), (1, 1, 0)] := by decide +kernel
theorem test_run_refused :
    answers (.run at0 (head 0 0) 0#16) (shelf .active) = no .range ∧
    answers (.run at0 (head 0 0) 5#16) (shelf .active) = no .range ∧
    answers (.run at0 (head 0 0) 4#16) (shelf .suspended) = no .noVolume ∧
    answers (.run at0 (head 0 0) 4#16)
      { shelf .active with lines := { part.lines with haltIn := true } } = no .haltActive ∧
    answers (.run at0 (head 0 0) 4#16) (halted .turn) = no .state ∧
    answers (.run at0 (head 0 0) 1#16) (cycling .turn .none) = no .range := by decide +kernel
theorem test_stepTurn :
    answers (.stepTurn at0 (head 0 0)) (shelf .active) = done ∧
    (after (.stepTurn at0 (head 0 0)) (shelf .active)).turner.stage = some .platenRise ∧
    answers (.stepTurn at0 (head 0 0)) (shelf .registered) = no .noVolume ∧
    answers (.stepTurn at0 (head 0 0)) ((shelf .active).withVolume 0 (some { book .active with cursor := 4 })) =
      no .endOfVolume := by decide +kernel
theorem test_pause :
    answers (.pause at0 (head 0 0)) (cycling .prepare .waitSlot) = [(0, 0, 0), (1, 4, 0)] ∧
    (after (.pause at0 (head 0 0)) (cycling .expose .none)).cycle.pausePending = true ∧
    answers (.pause at0 (head 0 0)) part = no .state := by decide +kernel
/-- The cycle PAUSED with this resume point. -/
def paused (p : ResumePoint) : State :=
  { cycling .paused .none with cycle := { (cycling .paused .none).cycle with
    run := some { toThree with resume := some p } } }
theorem test_resumeContinue :
    (after (.resumeContinue at0 (head 0 0)) (paused .turn)).cycle.state = .turn ∧
    (after (.resumeContinue at0 (head 0 0)) (paused .prepare)).cycle.state = .expose ∧
    (after (.resumeContinue at0 (head 0 0)) (paused .beginOpening)).cycle.state = .expose ∧
    answers (.resumeContinue at0 (head 0 0)) (halted .turn) = no .state := by decide +kernel
theorem test_resume_of_a_halt :
    (after (.resumeRetry at0 (head 0 0)) (halted .turn)).cycle.state = .turn ∧
    (after (.resumeRetry at0 (head 0 0)) (halted .capture)).cycle.state = .expose ∧
    (vol (after (.resumeSkip at0 (head 0 0)) (halted .turn))).cursor = 2 ∧
    (after (.resumeSkip at0 (head 0 0)) (halted .capture)).cycle.state = .turn ∧
    (after (.resumeAbandon at0 (head 0 0)) (halted .turn)).cycle.state = .idle ∧
    answers (.resumeAbandon at0 (head 0 0)) part = no .state := by decide +kernel
/-- ABANDON of a turn fault brings the turner to REST (line 1), then the cycle to IDLE (line 0), then writes its
DONE: the writes are placed in that order (R56, R175, R181). -/
theorem test_abandon_places_lines_in_order :
    let u := halted .turn
    let f := { u with turner := { u.turner with state := .faulted } }
    let s := { f with req := { f.req with shown := (List.range 4).map fun k => some (statusLine k f) } }
    ((after (.resumeAbandon at0 (head 0 0)) s).transit.queue.map OwnEntry.origin).take 3 =
      [.status 1, .status 0, .entry] := by decide +kernel
theorem test_stop_and_haltInActive :
    answers (.stop at0 (head 0 0)) (cycling .prepare .none) = [(0, 0, 0), (1, 5, 0)] ∧
    (after (.stop at0 (head 0 0)) (turning .lift .none)).cycle.state = .halted ∧
    (after (.haltInActive at0) (turning .grip .none)).cycle.state = .idle ∧
    (after (.haltInActive at0) (halted .turn)).cycle.state = .halted := by decide +kernel
theorem test_clearFault :
    (after (.clearFault at0 (head 0 0)) { halted .turn with cycle := { part.cycle with
      fault := (halted .turn).cycle.fault } }).cycle.fault = none ∧
    answers (.clearFault at0 (head 0 0)) (halted .turn) = no .state := by decide +kernel
theorem test_releaseSlots :
    (after (.releaseSlots at0 (head 0 0) 0#8 3#16) (taking .idle .filled 0 0)).intake.cams.left.slots.map
      Slot.state = [.free, .free, .free, .free] ∧
    answers (.releaseSlots at0 (head 0 0) 0#8 16#16) part = no .badField ∧
    answers (.releaseSlots at0 (head 0 0) 2#8 1#16) part = no .badField := by decide +kernel
theorem test_loadGains :
    (after (.loadGains at0 (head 0 0) 0#8 0x1000#64) part).transit.queue.map OwnEntry.addr =
      [0x1000, 0x1040] ∧
    answers (.loadGains at0 (head 0 0) 0#8 0x400000000#64) part = no .badField ∧
    answers (.loadGains at0 (head 0 0) 1#8 0x1000#64) (calibrating false) = no .busy := by decide +kernel
theorem test_setCorrection :
    (after (.setCorrection at0 (head 0 0) 1#8 0#8) part).intake.cams.right.pendingCorrectionFlag = true ∧
    answers (.setCorrection at0 (head 0 0) 0#8 2#8) part = no .badField ∧
    answers (.setCorrection at0 (head 0 0) 0#8 1#8) (calibrating false) = no .busy := by decide +kernel
/-- CALIBRATE's parameters with this target. -/
def calib (target : Nat) : CalibrateParams := ⟨BitVec.ofNat 16 target, List.replicate 6 0#16, 100#16⟩
theorem test_calibrate :
    (after (.calibrate at0 (head 0 0) (calib 4095)) part).light.exposure.phase = .warm ∧
    (after (.calibrate at0 (head 0 0) (calib 256))
      { part with lines := { part.lines with camReady := ⟨true, false⟩ } }).cycle.sub = .waitCamera ∧
    answers (.calibrate at0 (head 0 0) (calib 255)) part = no .badField ∧
    answers (.calibrate at0 (head 0 0) (calib 4096)) part = no .badField ∧
    answers (.calibrate at0 (head 0 0) (calib 3600)) (shelf .active) = no .activeExists := by decide +kernel
theorem test_setRules :
    (after (.setRules at0 (head 0 0) 4095#16 2047#16 65535#16) part).cycle.rules = ⟨4095, 2047, 65535⟩ ∧
    answers (.setRules at0 (head 0 0) 4096#16 0#16 0#16) part = no .badField ∧
    answers (.setRules at0 (head 0 0) 0#16 2048#16 0#16) part = no .badField ∧
    answers (.setRules at0 (head 0 0) 0#16 0#16 0#16) (cycling .turn .none) = no .state := by decide +kernel
/-- In-range class fields with this vacuum level. -/
def fields (vacuum : Nat) : ClassFields :=
  ⟨BitVec.ofNat 8 vacuum, 90#8, 68#8, 1#8, 1500#16, 50#16, 2#8, 1#8, 700#16, 1500000#32, 120#16, 600#16,
    400#16, 1#8⟩
theorem test_setClassEntry :
    (after (.setClassEntry at0 (head 0 0) 3#8 (fields 15)) part).vols.classes.map ClassEntry.vacuum =
      [12, 9, 6, 15] ∧
    answers (.setClassEntry at0 (head 0 0) 4#8 (fields 15)) part = no .badField ∧
    answers (.setClassEntry at0 (head 0 0) 0#8 (fields 16)) (shelf .active) = no .badField ∧
    answers (.setClassEntry at0 (head 0 0) 0#8 (fields 15)) (shelf .active) = no .state := by decide +kernel
theorem test_setMaterialMap :
    (after (.setMaterialMap at0 (head 0 0) (List.replicate 16 3#8)) part).vols.material =
      List.replicate 16 3 ∧
    answers (.setMaterialMap at0 (head 0 0) (4#8 :: List.replicate 15 3#8)) (shelf .active) =
      no .badField ∧
    answers (.setMaterialMap at0 (head 0 0) (List.replicate 16 3#8)) (shelf .active) = no .state := by
  decide +kernel
theorem test_logTaken :
    (after (.logTaken at0 (head 0 0) 9#32) { part with log := { part.log with appended := 8 } }).log.taken = 8 ∧
    answers (.logTaken at0 (head 0 0) 0#32) part = done := by decide +kernel
theorem test_verifyLog :
    answers (.verifyLog at0 (head 0 0)) (shelf .active) = done ∧
    (after (.verifyLog at0 (head 0 0)) { (shelf .active).withVolume 0
      (some { book .active with firstRecord := 2, lastRecord := 3 }) with
      log := { part.log with appended := 3 } }).transit.queue.map OwnEntry.addr = [0x3FFF10040] ∧
    answers (.verifyLog at0 (head 0 5)) (shelf .active) = no .noVolume := by decide +kernel

/-! ## Events of the cradle -/

theorem test_cameras :
    (after (.camReadyActive at0 .left) (cycling .prepare .waitCamera)).cycle.state = .expose ∧
    (after (.cameraReadyTimeout at0) { cycling .prepare .waitCamera with cycle :=
      { (cycling .prepare .waitCamera).cycle with camTimer := some 0 } }).cycle.state = .halted := by
  decide +kernel
/-- Channel 1 starts at ms 2 of the worked first exposure of spec/04; channel 4 is not needed. -/
theorem test_channelRampStart :
    ((after (.channelRampStart (later 2) 1) (lighting .rampUp)).light.channels.map Channel.state) =
      [.off, .rampUp, .off, .off, .off, .off] ∧
    ((after (.channelRampStart (later 1) 1) (lighting .rampUp)).light.channels.map Channel.state) =
      List.replicate 6 .off ∧
    ((after (.channelRampStart (later 2) 4) (lighting .rampUp)).light.channels.map Channel.state) =
      List.replicate 6 .off := by decide +kernel
/-- The exposure with channel 2 ramping up, its first step due at ms 1. -/
def rising : State :=
  after (.channelRampStart at0 2) (lighting .rampUp)
theorem test_lampRampStep :
    ((after (.lampRampStep (later 1)) rising).light.channels.map Channel.level) = [0, 0, 32, 0, 0, 0] ∧
    (after (.lampRampStep (later 22)) rising).light.exposure.phase = .warm := by decide +kernel
theorem test_lampOkInactive :
    ((after (.lampOkInactive (later 1) 2) rising).light.channels.map Channel.state) =
      [.off, .off, .failed, .off, .off, .off] ∧
    (after (.lampOkInactive (later 1) 2) rising).light.exposure.lampFault = true := by decide +kernel
/-- The exposure in WARM with the left slot armed. -/
def armed (p : Phase) : State :=
  { lighting p with intake := (taking .idle .armed 0 0).intake }
theorem test_warmEnd :
    (after (.warmEnd (later 62)) (armed .warm)).intake.cams.left.intakeRec.state = .waitFirst ∧
    (after (.warmEnd (later 62)) (armed .warm)).intake.cams.left.counter = 1 ∧
    (after (.warmEnd (later 61)) (armed .warm)).light.exposure.phase = .warm := by decide +kernel
theorem test_triggerFall_and_exposureCompletion :
    (let s := after (.warmEnd (later 62)) (armed .warm)
     (after (.triggerFall (later 100)) s).intake.cams.left.intakeRec.timer = some (ms 1162) ∧
     (after (.triggerFall (later 99)) s).light.exposure.phase = .capture) ∧
    (after (.exposureCompletion at0) (lighting .rampDown)).cycle.state = .turn := by decide +kernel
theorem test_frameTimeout :
    ((after (.frameTimeout at0 .left) (taking .receiving .filling 64 64)).intake.cams.left.slots.map fun x =>
      x.frame.map Frame.ending) = [some .lost, none, none, none] := by decide +kernel
theorem test_restLoss :
    (after (.restLoss at0 .platenDown) (lighting .warm)).light.exposure.phase = .ending ∧
    (after (.restLoss at0 .armParked) part).lines.armParked = false := by decide +kernel
/-- A channel that was lit for 10 ms at level 640, K 500, costs 640 * 500 * 10 / 1000 (R140); the exposure's
FRAME records will carry it after a rest loss (R142), its end keeping it. -/
theorem test_restLoss_charge :
    let s := lighting .rampDown
    let lit (k : Channel) : Channel := { k with k := 500, wasLit := true, onTime := 10 }
    let t := { s with light := { s.light with channels := s.light.channels.modify 0 lit } }
    (after (.restLoss at0 .platenDown) t).cycle.opening.map OpeningRecord.charge = some 3200 := by
  decide +kernel
theorem test_turn_up :
    (after (.platenUpActive at0) (turning .platenRise .none)).turner.stage = some .separate ∧
    (after (.armParkedActive at0) (turning .returning .none)).turner.stage = some .settle ∧
    (after (.knifePulseElapsed at0) (turning .separate .none)).turner.stage = some .grip ∧
    (after (.retryPauseElapsed at0) (turning .separate .retryPause)).turner.sub = .none := by decide +kernel
theorem test_turn_over :
    (after (.wandPressureSample at0 160#8) (turning .grip .none)).turner.stage = some .lift ∧
    (after (.wandPressureSample at0 159#8) (turning .grip .none)).turner.stage = some .grip ∧
    (after (.leafSenseActive at0) { turning .lift .none with lines :=
      { part.lines with wandPressure := 160 } }).turner.stage = some .sweep ∧
    (after (.armAtLeftActive at0) (turning .sweep .none)).turner.stage = some .release ∧
    (after (.releaseElapsed at0) (turning .release .none)).turner.stage = some .settle := by decide +kernel
theorem test_turn_down :
    (after (.platenDownActive at0) (turning .platenLower .none)).turner.stage = some .settle ∧
    (vol (after (.settleElapsed at0) (turning .settle .none))).cursor = 2 ∧
    (after (.settleElapsed at0) (turning .settle .none)).cycle.state = .expose := by decide +kernel
theorem test_turn_faults :
    (after (.platenTimeout at0) (turning .platenRise .none)).cycle.state = .halted ∧
    (after (.liftTimeout at0) (turning .lift .none)).turner.state = .faulted ∧
    (after (.sweepTimeout at0) (turning .sweep .none)).cycle.state = .halted ∧
    (after (.returnTimeout at0) (turning .returning .none)).cycle.state = .halted ∧
    (after (.leafSenseInactive at0) (turning .sweep .none)).cycle.state = .halted := by decide +kernel
theorem test_turn_retries :
    (after (.gripTimeout at0) (turning .grip .none)).turner.sub = .retryPause ∧
    (after (.doubleSenseActive at0) (turning .lift .none)).turner.doubles = 1 ∧
    (after (.holdTimeout at0) (holding .sweep)).turner.state = .faulted ∧
    (after (.wandPressureSample at0 128#8) (holding .sweep)).turner.state = .turning ∧
    (after (.wandPressureSample at0 127#8) (holding .sweep)).turner.state = .hold := by decide +kernel
theorem test_supplySenseSample :
    answers (.supplySenseSample at0 149#8) part = [(1, 7, 0)] ∧
    answers (.supplySenseSample at0 150#8) part = [] := by decide +kernel

/-! ## States that meet the statements' hypotheses, clause by clause -/

/-- The state at the moment a command is taken at once. -/
abbrev now (s : State) : State := arrive at0 s
/-- The part with another transit unit. -/
def path (f : Transit → Transit) : State := { part with transit := f part.transit }
/-- A stream of so many transactions. -/
def stream (n : Nat) : List Passed := List.replicate n ⟨0, true, false, line 0 .station zeros⟩

theorem witness_StepRunsFrontCommand :
    ({ part with pending := [.downstreamIssue at0] } : State).pending = .downstreamIssue at0 :: [] ∧
    part.pending = [] := by decide +kernel

/-- The same state with each status line composed before. -/
def written (s : State) : State := { s with req := { s.req with shown := List.replicate 4 (some zeros) } }
/-- With nothing queued or waiting, a state whose lines were composed is filed. -/
theorem filed_of {s : State} (hq : s.transit = part.transit) (hr : s.req = (written part).req) : s.filed := by
  have hw : ∀ k, s.lineWaits k = false := fun k => by rw [State.lineWaits, hq]; rfl
  refine ⟨by rw [hr]; decide, by rw [hq]; simp [part, State.reset],
      fun k _ => by rw [hq]; simp [part, State.reset],
    fun k hk => ?_, fun k hk _ _ => ⟨zeros, ?_, by rw [hq]; simp [part, State.reset]⟩⟩
  · rw [hw, hr]; rcases k with _ | _ | _ | _ | _ <;> rfl
  · rw [hr]; rcases k with _ | _ | _ | _ | _ <;> first | rfl | omega
/-- A state with the ACTIVE record at handle 0, its other laws shown, is sound. -/
theorem sound_of {s : State} (hv : s.vols = (shelf .active).vols) (hq : s.transit = part.transit)
    (hr : s.req = (written part).req) (h : s.steady) : s.sound := by
  refine ⟨?_, by rw [hq]; decide +kernel, by rw [hq]; decide +kernel, by rw [hq]; decide +kernel,
    filed_of hq hr, h⟩
  rw [hv]
  refine ⟨by decide +kernel, fun v hv => ?_, by decide +kernel⟩
  rcases List.mem_or_eq_of_mem_set hv with h | h
  · cases List.eq_of_mem_replicate h
  · cases h; exact ⟨by decide +kernel, by decide +kernel, by decide +kernel⟩
/-- The only record of the shelf. -/
theorem shelf_only {v : Volume} (h : some v ∈ (shelf .active).vols.table) : v = book .active := by
  rcases List.mem_or_eq_of_mem_set h with h | h
  · cases List.eq_of_mem_replicate h
  · cases h; rfl
theorem sound_shelf : (written (shelf .active)).sound :=
  sound_of rfl rfl rfl
    { cams := fun c => by cases c <;> exact lawful_fresh 4
      early := fun h => absurd rfl h
      active := fun h => absurd rfl h
      used := fun v h => by rw [shelf_only h]; decide +kernel
      opened := fun v h _ => by rw [shelf_only h]; decide +kernel
      exposing := fun h => absurd h (by decide +kernel)
      owing := fun h => absurd h (by decide +kernel)
      prepared := fun h => absurd h (by decide +kernel)
      review := fun _ h => absurd h (by simp [written, shelf, part, State.withVolume, State.reset])
      cal := fun h => absurd h (by decide +kernel) }
/-- A state with an exposure under way is sound. -/
theorem sound_lit : (written (lighting .warm)).sound :=
  sound_of rfl rfl rfl
    { cams := fun c => by cases c <;> exact lawful_fresh 4
      early := fun h => absurd rfl h
      active := fun _ _ => by decide +kernel
      used := fun v h => by rw [shelf_only h]; decide +kernel
      opened := fun v h _ => by rw [shelf_only h]; decide +kernel
      exposing := fun _ => rfl
      owing := fun _ => ⟨⟨by decide +kernel, fun k v h => by
          have e : (written (lighting .warm)).vols.active = some (0, book .active) := by decide +kernel
          rw [e] at h; cases h; decide +kernel⟩, fun i c h => by
          have e : ∀ c ∈ (written (lighting .warm)).light.channels, c.onTime = 0 := by decide +kernel
          rw [e c (List.mem_of_getElem? h)]; exact Nat.zero_le _⟩
      prepared := fun h => absurd h (by decide +kernel)
      review := fun _ h => absurd h (by simp [written, lighting, cycling, part, State.reset])
      cal := fun h => absurd h (by decide +kernel) }
theorem witness_StepKeepsSound :
    (written (shelf .active)).sound ∧ step (written (shelf .active)) = .next (written (shelf .active)) ∧
    (written (lighting .warm)).sound := ⟨sound_shelf, rfl, sound_lit⟩
theorem witness_EveryCommandAnswersAndKeepsQueues : (written (shelf .active)).sound := sound_shelf

/-- The lines composed, with these entries queued and these items waiting. -/
def filing (queue : List OwnEntry) (wait : List WaitItem) : State :=
  { written part with transit := { part.transit with queue := queue, wait := wait } }
/-- A write of status line 2 queued. -/
theorem filed_queued : (filing [own (.status 2) (some zeros)] []).filed := by
  refine ⟨⟨rfl, rfl⟩, fun w h => absurd h List.not_mem_nil, by decide, by decide,
      fun k hk _ _ => ⟨zeros, ?_, fun e he _ => ?_⟩⟩
  · rcases k with _ | _ | _ | _ | _ <;> first | rfl | omega
  · cases List.mem_singleton.1 he; rfl
/-- A write of status line 2 waiting, its dirty mark set. -/
def waiting : State :=
  let s := filing [] [⟨9, .status 2⟩]
  { s with req := { s.req with dirty := [false, false, true, false] } }
theorem filed_waiting : waiting.filed := by
  refine ⟨⟨rfl, rfl⟩, fun w h => by (cases List.mem_singleton.1 h; simp), by decide, by decide,
    fun k hk _ _ => ⟨zeros, ?_, fun e he _ => by cases he⟩⟩
  rcases k with _ | _ | _ | _ | _ <;> first | rfl | omega
/-- The queue at this length, and no status line in it. -/
theorem filed_entries (n : Nat) : (filing (List.replicate n (own .entry (some zeros))) []).filed := by
  refine ⟨⟨rfl, rfl⟩, fun w h => absurd h List.not_mem_nil, fun k _ => ?_,
    fun k hk => ?_, fun k hk _ _ => ⟨zeros, ?_, fun e he h => ?_⟩⟩
  · have : (List.replicate n (own .entry (some zeros))).countP (fun e => e.origin == .status k) = 0 := by
      rw [List.countP_eq_zero]; intro e he; cases List.eq_of_mem_replicate he; simp [own]
    simp [filing, this]
  · rcases k with _ | _ | _ | _ | _ <;> rfl
  · rcases k with _ | _ | _ | _ | _ <;> first | rfl | omega
  · cases List.eq_of_mem_replicate he; cases h
theorem witness_StatusLinesShowTheState :
    ((written (shelf .active)).sound ∧
      (after (.setRules at0 (head 0 0) 9#16 9#16 9#16) (written (shelf .active))).start.phase = .ready) ∧
    ((filing [own (.status 2) (some zeros)] []).filed ∧ (own (.status 2) (some zeros)).origin = .status 2) ∧
    (waiting.filed ∧ waiting.lineWaits 2 = true ∧ (filing [] []).lineWaits 2 = false) ∧
    ((filing (List.replicate 15 (own .entry (some zeros))) []).filed ∧
      (filing (List.replicate 16 (own .entry (some zeros))) []).filed) ∧
    ((filing (List.replicate 11 (own .entry (some zeros))) []).filed ∧
      (filing (List.replicate 11 (own .entry (some zeros))) []).start.phase = .ready) :=
  ⟨⟨sound_shelf, by decide +kernel⟩, ⟨filed_queued, rfl⟩,
    ⟨filed_waiting, by decide⟩, ⟨filed_entries 15, filed_entries 16⟩, filed_entries 11, rfl⟩

theorem witness_ResetEventsResetEveryBlock :
    (now State.reset).start.phase = .reset ∧ (now part).start.phase ≠ .reset := by decide +kernel
/-- The start-up state with this control word accepted. -/
def accepting (control : BitVec 16) : Start := { part.start with accept := control }
theorem witness_SignatureDecidesTheLoad :
    (let a := now (loading .signature)
     a.start.phase = .profileLoad ∧ a.start.waiting = .signature) ∧
    (signatureBytes = [0x52#8, 0x4D#8, 0x4B#8, 0x50#8] ∧ (0x1555#16).getLsbD 2 = true ∧
      (0x1555#16).getLsbD 3 = false) ∧
    ((accepting 0x1551#16).accepts 1 = false ∧ (accepting 0x1559#16).accepts 1 = false ∧
      (accepting 0x155D#16).accepts 1 = false ∧ (accepting 0x155D#16).accepts 0 = true ∧
      [1, 0, 2, 3, 4, 5, 6] = [1] ++ 0 :: [2, 3, 4, 5, 6]) ∧
    ((∀ x ∈ [1, 0], (accepting 0x1550#16).accepts x = false) ∧ (accepting 0x1550#16).accepts 2 = true) := by
  decide +kernel
theorem witness_GroupReadLoadsItsValues :
    (∀ g ∈ [1, 2, 3, 4, 5, 6], (now (loading (.group g))).start.phase = .profileLoad ∧
      (now (loading (.group g))).start.waiting = .group g) ∧
    ((∀ x ∈ [0], (accepting 0x1556#16).accepts x = false) ∧ (accepting 0x1556#16).accepts 2 = true) ∧
    ((∀ x ∈ [4, 5], (accepting 0x1855#16).accepts x = false) ∧
        (accepting 0x1855#16).accepts 6 = true) := by decide +kernel
theorem witness_MapIsLoadedOrRejected :
    ((now (loading (.group 0))).start.phase = .profileLoad ∧
      (now (loading (.group 0))).start.waiting = .group 0) ∧
    ((accepting 0x1555#16).accepts 2 = true ∧ (accepting 0x1545#16).accepts 2 = false ∧
      (accepting 0x1545#16).accepts 3 = true) ∧
    (let g := Geometry.default
     let m := readMap g zeros
     apart m.windows = false ∧ 2 * g.slots * g.frameBytes ≤ 402653184) ∧
    (let g : Geometry := ⟨8192, 8192, 16, 1000, 2000⟩
     402653184 < 2 * g.slots * g.frameBytes) := by decide +kernel
theorem witness_LastGroupMakesReady :
    ((now (loading .signature)).start.waiting = .signature ∧ (now (loading .signature)).cycle.state = .idle ∧
      ∀ x ∈ [1, 0, 2, 3, 4, 5, 6], (accepting 0x3FFE#16).accepts x = false ∧
        (accepting 0#16).accepts x = false) ∧
    ((now (loading (.group 6))).start.phase = .profileLoad ∧ (now (loading (.group 6))).start.waiting = .group 6) ∧
    ((now (loading (.group 0))).start.waiting = .group 0 ∧
      ∀ x ∈ [2, 3, 4, 5, 6], (accepting 0x1#16).accepts x = false) ∧
    ({ part.lines with supplySense := 149 }.supplySense < part.turner.g6.supplyLevel ∧
      ¬ { part.lines with supplySense := 150 }.supplySense < part.turner.g6.supplyLevel) := by decide +kernel
theorem witness_LoadedValuesAreTheBytesInRange :
    ((readClasses zeros)[3]?.isSome = true ∧ ClassEntry.defaults[3]?.isSome = true) ∧
    ((zeros.getD (24 * 1 + 22) 0xFF#8).toNat = 0 ∧
      ((List.replicate 96 1#8).getD (24 * 3 + 22) 0xFF#8).toNat = 1) ∧
    (part.light.channels[5]?).isSome = true := by decide +kernel

theorem witness_WriteIsForwardedOrRefused :
    ((now (loading .signature)).start.phase = .profileLoad ∧
      (now (loading .signature)).transit.stream.length < 32) ∧
    ((now (path fun t => { t with stream := stream 31 })).transit.stream.length < 32 ∧
      ∀ w ∈ (now part).transit.map.windows, w.holds 0x1000 = false) ∧
    (apart (now part).transit.map.windows = true ∧
      (now part).transit.map.slotPool.holds 0x200000000 = true ∧
      Requester.allowed .station (now part).transit.map.slotPool.mask = true ∧
      (now part).slotStateAt 0x200000000 = some .free) ∧
    ((now State.reset).start.phase = .reset ∧
      32 ≤ (now (path fun t => { t with stream := stream 32 })).transit.stream.length) := by decide +kernel
theorem witness_WriteIsForwardedOrRefused_refused :
    (let a := now (taking .waitFirst .armed 0 64)
     let f := now (taking .receiving .filling 64 64)
     let map := a.transit.map
     (a.start.phase = .ready ∧ a.transit.stream.length < 32 ∧ apart map.windows = true) ∧
     (map.reply.holds 0x3FFF01000 = true ∧ map.status.holds 0x3FFF021FF = true ∧
       map.log.holds 0x3FFF10000 = true) ∧
     (map.request.holds 0x3FFF00000 = true ∧ Requester.allowed .service map.request.mask = false) ∧
     (map.apertureL.holds 0x380000000 = true ∧ map.apertureR.holds 0x38FFFFFFF = true) ∧
     (map.slotPool.holds 0x200000000 = true ∧ Requester.allowed .camL map.slotPool.mask = false) ∧
     (a.slotStateAt 0x200000000 = some .armed ∧ f.slotStateAt (0x200000000 + 50331647) = some .filling)) := by
  decide +kernel
theorem witness_RequestLineIsItsRequest :
    (now part).start.phase = .ready ∧ (now part).transit.stream.length < 32 ∧
    (now part).transit.map.request.holds 0x3FFF00000 = true ∧
    Requester.allowed .station (now part).transit.map.request.mask = true ∧
    (line 0x3FFF00000 .station zeros).enables.all id = true := by decide +kernel
theorem witness_ApertureLineIsWrittenOrDropped :
    (let a := now (taking .waitFirst .armed 0 128)
     let b := now (taking .receiving .filling 64 128)
     (a.start.phase = .ready ∧ a.transit.stream.length < 32 ∧ apart a.transit.map.windows = true ∧
       0 < (a.transit.map.aperture .left).len ∧
       (a.transit.map.aperture .left).base + (a.transit.map.aperture .left).len ≤ 2 ^ 34 ∧
       a.intake.cams.left.intakeRec.state = .waitFirst ∧ a.intake.cams.left.intakeRec.armed = some 0 ∧
       dark.len = 64 ∧ dark.enables.all id = true ∧ a.intake.cams.left.intakeRec.expected = 0 ∧
       0 < a.intake.geo.frameBytes ∧ 64 < a.intake.cams.left.intakeRec.remaining) ∧
     b.intake.cams.left.intakeRec.state = .receiving ∧ b.intake.cams.left.intakeRec.expected = 64) := by
  decide +kernel
theorem witness_ApertureLineIsWrittenOrDropped_dropped :
    (let a := now part
     let b := now (taking .receiving .filling 64 64)
     (a.start.phase = .ready ∧ a.transit.stream.length < 32 ∧ apart a.transit.map.windows = true ∧
       50331648 < (a.transit.map.aperture .left).len ∧
       (a.transit.map.aperture .left).base + (a.transit.map.aperture .left).len ≤ 2 ^ 34 ∧
       a.intake.cams.left.intakeRec.state = .idle) ∧
     b.intake.cams.left.intakeRec.state = .receiving ∧ b.intake.geo.frameBytes ≤ 50331648) := by
  decide +kernel
theorem witness_FrameEndsOrBreaks :
    (let a := now (taking .receiving .filling 50331584 64)
     (a.start.phase = .ready ∧ apart a.transit.map.windows = true ∧
       50331584 < (a.transit.map.aperture .left).len ∧
       a.intake.cams.left.intakeRec.state = .receiving ∧ a.intake.cams.left.intakeRec.armed = some 0 ∧
       50331584 < a.intake.geo.frameBytes ∧
       a.intake.cams.left.slots[0]? = some ⟨.filling, some frame⟩) ∧
     (a.intake.cams.left.intakeRec.expected = 50331584 ∧ a.intake.cams.left.intakeRec.remaining = 64) ∧
     a.intake.cams.left.intakeRec.expected ≠ 0) := by decide +kernel
theorem witness_PortIsGrantedInTurn :
    (let q := [own .entry (some zeros)]
     (now (path fun t => { t with stream := stream 1, queue := q })).transit.mark = .own ∧
     (now (path fun t => { t with stream := stream 1 })).transit.queue = [] ∧
     (now (path fun t => { t with queue := q })).transit.stream = [] ∧
     (now (path fun t => { t with stream := stream 1, queue := q, mark := .forwarded })).transit.mark =
       .forwarded ∧
     (now part).transit.stream = [] ∧ (now part).transit.queue = []) := by decide +kernel

theorem witness_NoticeOutFollowsTheNewestEntry :
    (let a := now (path fun t => { t with queue := [own .entry (some zeros)] })
     a.transit.queue = own .entry (some zeros) :: [] ∧ a.transit.stream = []) ∧
    ((now part).transit.queue = [] ∧
      ¬ ((now (path fun t => { t with stream := stream 1 })).transit.stream = [] ∨
        (now (path fun t => { t with stream := stream 1 })).transit.mark = .forwarded)) := by decide +kernel
theorem witness_AnswerGoesToItsRequester :
    0 < (now (path fun t => { t with stale := 1 })).transit.stale ∧
    ((now part).transit.stale = 0 ∧ (now part).transit.outstanding = []) ∧
    (now (path fun t => { t with outstanding := (stream 1).map .forwarded })).transit.outstanding.length =
      1 ∧
    (own .entry (some zeros)).content.isSome = true := by decide +kernel
/-- A gain load with a read still out. -/
def gains (first second : Option (List Nat × Nat)) : State :=
  { part with
    transit := { part.transit with outstanding := [.own (own (.gainRead .left true) none)] }
    intake := { part.intake with cams := part.intake.cams.set .left { part.intake.cams.left with
      load := some ⟨⟨0x10#8, 7#16, 0#8⟩, 0x1000, first, second, false⟩ } } }
/-- The part with one item waiting. -/
def waitingFor (w : Waiting) : State := path fun t => { t with wait := [⟨3, w⟩] }
theorem witness_OldestWaitingItemJoins :
    (now (waitingFor (.write 0 zeros .entry))).transit.wait = [⟨3, .write 0 zeros .entry⟩] ∧
    (now (waitingFor (.status 1))).transit.wait = [⟨3, .status 1⟩] ∧
    (now (waitingFor .append)).transit.wait = [⟨3, .append⟩] ∧
    (let p : Snapshot := ⟨⟨0x08#8, 7#16, 0#8⟩, [(0x1000, zeros), (0x2000, zeros)], 0, false⟩
     let s := waitingFor .snapshotLine
     let a := now { s with vols := { s.vols with snapshot := some p } }
     a.transit.wait = [⟨3, .snapshotLine⟩] ∧ a.vols.snapshot = some p ∧
       p.lines = (0x1000, zeros) :: (0x2000, zeros) :: []) ∧
    (let s := waitingFor .verifyRead
     let v : Verify := ⟨⟨0x17#8, 7#16, 0#8⟩, 0, 3, 2, 0, 0, 0, 0, 0⟩
     let a := now { s with log := { s.log with verify := some v } }
     let b := now { s with log := { s.log with verify := some v, appended := 4100 } }
     (a.log.verify = some v ∧ v.next ≤ v.last ∧ max v.next (a.log.appended - a.cap + 1) ≤ v.last) ∧
       v.last < max v.next (b.log.appended - b.cap + 1)) ∧
    ((now (waitingFor (.gainRead .left false))).transit.wait = [⟨3, .gainRead .left false⟩] ∧
      (gains none none).intake.cams.left.load.isSome = true) ∧
    (now (path fun t => { t with queue := List.replicate 15 (own .entry none) })).transit.queue.length < 16 ∧
    16 ≤ (now (path fun t => { t with queue := List.replicate 16 (own .entry none) })).transit.queue.length := by
  decide +kernel
theorem witness_WaitingAppendIsAccepted :
    (let x : Append := .turn ⟨0, 1, 0, 0, true⟩
     let a := now { part with
       transit := { part.transit with wait := [⟨3, .append⟩] }, log := { part.log with appends := [x, x] } }
     a.transit.wait = [⟨3, .append⟩] ∧ a.transit.queue.length < 16 ∧ a.log.appends = [x, x]) := by
  decide +kernel

theorem witness_RequestHeaderIsChecked :
    requestOf (.stop at0 (head 1 0)) = some (at0, 0x0D#8, 0#8, head 1 0) ∧
    (now (loading .signature)).start.phase ≠ .ready ∧ (now part).start.phase = .ready ∧
    (head 1 0).flags &&& ~~~0#8 ≠ 0#8 := by decide +kernel
/-- A request whose header passes, for each set of flags a kind uses. -/
theorem witness_asked (s : State) (h : (now s).start.phase = .ready) :
    (now s).asked (head 0 0) 0#8 ∧ (now s).asked (head 1 0) 0x01#8 ∧ (now s).asked (head 7 0) 0x07#8 ∧
      (now s).asked (head 0x7F 0) 0x7F#8 :=
  ⟨⟨h, by decide⟩, ⟨h, by decide⟩, ⟨h, by decide⟩, ⟨h, by decide⟩⟩
theorem witness_RegisterVolumeMakesARecord : (now part).asked (head 7 0) 0x07#8 :=
  (witness_asked part (by decide +kernel)).2.2.1
theorem witness_SetVolumeChangesItsSettings : (now (shelf .active)).asked (head 0x7F 0) 0x7F#8 :=
  (witness_asked (shelf .active) (by decide +kernel)).2.2.2
theorem witness_VolumeEventsAreLogged : (now (shelf .active)).asked (head 0 0) 0#8 :=
  (witness_asked (shelf .active) (by decide +kernel)).1
theorem witness_SetOpeningMovesTheCursor : (now (shelf .active)).asked (head 0 0) 0#8 :=
  (witness_asked (shelf .active) (by decide +kernel)).1
theorem witness_RetireVolumeFreesTheHandle :
    (now (shelf .closed)).asked (head 0 0) 0#8 ∧ (now (shelf .closed)).vols.get 0 = some (book .closed) ∧
    (now (shelf .active)).vols.get 0 = some (book .active) ∧
    (∃ x ∈ (now (taking .idle .filled 0 0)).intake.cams.left.slots, x.state = .filled ∧
      ∃ f : Frame, x.frame = some f ∧ f.handle = some 0) :=
  ⟨(witness_asked (shelf .closed) (by decide +kernel)).1, by decide +kernel, by decide +kernel,
    ⟨.filled, some frame⟩, by decide +kernel, rfl, frame, rfl, rfl⟩
/-- The volume at handle 0 with this many entries queued. -/
def stocked (n : Nat) : State :=
  { shelf .active with transit := { part.transit with queue := List.replicate n (own .entry (some zeros)) } }
theorem witness_SnapshotQueuesItsLines :
    (now (shelf .active)).asked (head 1 0) 0x01#8 ∧
    (now (shelf .active)).vols.snapshot = none ∧ (now (shelf .active)).vols.get 0 = some (book .active) ∧
    (0x400000000#64).toNat = 2 ^ 34 ∧ (0x1000#64).toNat < 2 ^ 34 ∧ (now part).vols.get 0 = none :=
  ⟨(witness_asked (shelf .active) (by decide +kernel)).2.1, by decide +kernel⟩
/-- The clauses of room: with a map address the volume's six lines fit after five entries and not after six; its
five lines without one fit after six and not after seven. -/
theorem witness_SnapshotQueuesItsLines_room :
    (now (stocked 5)).asked (head 1 0) 0x01#8 ∧ (now (stocked 6)).asked (head 0 0) 0x01#8 ∧
    (∀ n ∈ [5, 6, 7], (now (stocked n)).vols.snapshot = none ∧
      (now (stocked n)).vols.get 0 = some (book .active) ∧ (now (stocked n)).transit.wait = []) ∧
    ((head 1 0).flag 0 = true ∧ mapLineCount (book .active) = 1 ∧
      (now (stocked 5)).transit.map.forbids 0x1000 1 = false ∧
      (now (stocked 5)).transit.map.forbids 0x3FFF01000 1 = true) ∧
    ((now (stocked 5)).transit.queue.length + 6 + 5 ≤ 16 ∧
      ¬ (now (stocked 6)).transit.queue.length + 6 + 5 ≤ 16) ∧
    ((head 0 0).flag 0 = false ∧ (now (stocked 6)).transit.queue.length + 5 + 5 ≤ 16 ∧
      ¬ (now (stocked 7)).transit.queue.length + 5 + 5 ≤ 16) := by
  have full : (now (stocked 6)).start.phase = .ready := by decide +kernel
  refine ⟨(witness_asked (stocked 5) (by decide +kernel)).2.1, ⟨full, ?_⟩, by decide +kernel⟩
  decide
theorem witness_ClassTableIsReplaced :
    ((now part).asked (head 0 0) 0#8 ∧ (List.replicate 16 3#8 : List Byte).length = 16) ∧
    ((fields 15).bad = false ∧ (fields 16).bad = true ∧ (fields 1).bad = false ∧ (fields 0).bad = true) :=
  ⟨⟨(witness_asked part (by decide +kernel)).1, rfl⟩, by decide +kernel⟩

theorem witness_RunBeginsOrMovesItsStop :
    (now (shelf .active)).asked (head 1 0) 0x01#8 ∧
    (now (halted .turn)).cycle.state = .halted ∧
    ((now (cycling .expose .none)).cycle.state.working = true ∧
      (now (cycling .expose .none)).cycle.run = some toThree ∧ toThree.kind = .run ∧
      (now (cycling .expose .none)).vols.cursor = 1) ∧
    ((now (cycling .turn .none)).cycle.state = .turn ∧ (now (cycling .turn .none)).cycle.sub ≠ .waitLog) ∧
    (now (cycling .turn .waitLog)).cycle.sub = .waitLog :=
  ⟨(witness_asked (shelf .active) (by decide +kernel)).2.1, by decide +kernel⟩
theorem witness_StepTurnAsksOneTurn :
    (now (shelf .active)).asked (head 0 0) 0#8 ∧
    ((now (shelf .active)).cycle.state = .idle ∧ (now (shelf .active)).vols.active = some (0, book .active) ∧
      1 < (book .active).leaves ∧ (now (shelf .active)).turner.state = .rest) ∧
    (now (shelf .registered)).vols.activeHandle = none ∧ (now (halted .turn)).cycle.state ≠ .idle :=
  ⟨(witness_asked (shelf .active) (by decide +kernel)).1, by decide +kernel⟩
theorem witness_PauseHoldsAndContinueCarriesOn : (now (cycling .prepare .none)).asked (head 0 0) 0#8 :=
  (witness_asked (cycling .prepare .none) (by decide +kernel)).1
theorem witness_PauseHoldsAndContinueCarriesOn_continue :
    (now (paused .prepare)).asked (head 0 0) 0#8 ∧
    ∀ p ∈ [ResumePoint.beginOpening, .prepare, .turn],
      (now (paused p)).cycle.run = some { toThree with resume := some p } ∧
      (now (paused p)).cycle.opening = some opened ∧ (now (paused p)).lines.haltIn = false ∧
      (now (paused p)).supplyShort = false :=
  ⟨(witness_asked (paused .prepare) (by decide +kernel)).1, by decide +kernel⟩
theorem witness_HaltedIsResolved :
    (now (halted .turn)).asked (head 0 0) 0#8 ∧
    ((now (halted .turn)).cycle.state = .halted ∧ (now (halted .turn)).lines.haltIn = false ∧
      (now (halted .turn)).supplyShort = false ∧ (now (halted .turn)).turner.sub ≠ .completing ∧
      (now (halted .turn)).cycle.fault.map FaultRecord.cls = some .turn ∧
      (now (halted .turn)).vols.activeHandle = some 0 ∧
      (now (halted .turn)).vols.get 0 = some (book .active)) ∧
    ((now (halted .capture)).cycle.fault.map FaultRecord.cls = some .capture ∧
      (now (halted .capture)).cycle.opening = some opened) ∧
    { (halted .capture).cycle with opening := none }.opening = none ∧
    (now part).cycle.state ≠ .halted :=
  ⟨(witness_asked (halted .turn) (by decide +kernel)).1, by decide +kernel⟩
theorem witness_StopEndsTheCycle :
    (now (cycling .expose .none)).asked (head 0 0) 0#8 ∧
    (now part).cycle.state = .idle ∧ (now (cycling .expose .none)).cycle.state.working = true ∧
    ((now (calibrating true)).cycle.state = .calibrate ∧
      (now (calibrating true)).cycle.cal.map Calibration.recorded = some true ∧
      (now (calibrating false)).cycle.cal.map Calibration.recorded = some false) :=
  ⟨(witness_asked (cycling .expose .none) (by decide +kernel)).1, by decide +kernel⟩
theorem witness_AbortLeavesNothingInFlight :
    ((cycling .expose .none).light.exposure.phase = .none ∧
      ∀ c ∈ (cycling .expose .none).light.channels, c.state = .off) ∧
    ((taking .receiving .filling 0 64).intake.cams.left.slots.countP
      fun x => x.state == .armed || x.state == .filling) ≤ 1 ∧
    ((turning .lift .none).turner.state = .turning ∧ (turning .lift .none).turner.sub ≠ .completing) ∧
    (turning .settle .completing).turner.sub = .completing ∧
    (after (.liftTimeout at0) (turning .lift .none)).turner.state = .faulted := by decide +kernel
theorem witness_SetRulesReplacesTheRules : (now part).asked (head 0 0) 0#8 :=
  (witness_asked part (by decide +kernel)).1
theorem witness_ClearFaultRestoresLamps : (now part).asked (head 0 0) 0#8 :=
  (witness_asked part (by decide +kernel)).1
theorem witness_ReleaseAndCorrectionActOnOneCamera :
    (now part).asked (head 0 0) 0#8 ∧
    (1 < (2#8).toNat ∧ 2 ^ (now part).intake.geo.slots ≤ (16#16).toNat) ∧
    ((1#8).toNat = cameraCode .right ∧ (15#16).toNat < 2 ^ (now part).intake.geo.slots) :=
  ⟨(witness_asked part (by decide +kernel)).1, by decide +kernel⟩
theorem witness_ReleaseAndCorrectionActOnOneCamera_correction :
    (now part).asked (head 0 0) 0#8 ∧ 1 < (2#8).toNat ∧ (0#8).toNat = cameraCode .left ∧ (1#8).toNat ≤ 1 :=
  ⟨(witness_asked part (by decide +kernel)).1, by decide⟩
theorem witness_GainLoadReadsTwoLines :
    ((now part).asked (head 0 0) 0#8 ∧
      (2 ^ 34 ≤ (0x400000000#64).toNat ∧ (now part).transit.map.forbids 0x3FFF01000 2 = true) ∧
      ((0x3FFFFFF80#64).toNat < 2 ^ 34 ∧ (now part).transit.map.forbids 0x1000 2 = false)) ∧
    ((now (gains (some ([], 0)) none)).transit.stale = 0 ∧
      (now (gains (some ([], 0)) none)).transit.outstanding = .own (own (.gainRead .left true) none) :: [] ∧
      (now (gains (some ([], 0)) none)).intake.cams.left.load.bind GainLoad.first = some ([], 0) ∧
      (now (gains none none)).intake.cams.left.load.bind GainLoad.first = none ∧ (false = true ∨ zeros.length = 64) ∧
      (true = true ∨ ([] : Line).length = 64)) :=
  ⟨⟨(witness_asked part (by decide +kernel)).1, by decide +kernel⟩, by decide +kernel⟩
theorem witness_CalibrateStarts :
    (now part).asked (head 0 0) 0#8 ∧
    (let s := calibrating false
     s.cycle.cal.isSome = true ∧ (∀ x ∈ s.light.channels, x.state ≠ .failed) ∧
     (s.lines.platenDown = true ∧ s.lines.armParked = true ∧ s.turner.state = .rest) ∧
     (∀ x ∈ s.intake.cams.left.slots, x.state ≠ .armed ∧ x.state ≠ .filling) ∧
     (s.intake.cams.left.slots.findIdx? fun x => x.state == .free) = some 0) ∧
    { part.lines with platenDown := false }.platenDown ≠ true ∧
    (let ch := { Channel.dark .left with state := .failed }
     [ch][0]? = some ch ∧ ch.state = .failed ∧
     ([ch].mapIdx fun i x => if x.sideMap = .none then 0 else [(700 : Nat)].getD i 0).getD 0 0 ≠ 0) :=
  ⟨(witness_asked part (by decide +kernel)).1, by decide +kernel⟩
/-- A calibration whose exposure is done, its frames ended so. -/
def calibrated (l r : FrameEnd) : State :=
  let s := calibrating false
  let c := s.intake.cams.left
  let held (e : FrameEnd) : CamState := { c with slots := c.slots.set 0 ⟨.filling,
      some { frame with ending := e }⟩ }
  { s with
    cycle := { s.cycle with cal := s.cycle.cal.map fun c => { c with exposureDone := true } }
    intake := { s.intake with cams := ⟨held l, held r⟩ } }
theorem witness_CalibrationEnds :
    (∀ p ∈ [(FrameEnd.complete, FrameEnd.complete), (.complete, .damaged), (.lost, .damaged), (.inFlight, .lost)],
      let s := calibrated p.1 p.2
      (s.cycle.cal.map Calibration.exposureDone) = some true ∧
      (s.cycle.cal.map Calibration.recorded) = some false ∧
      (s.intake.cams.left.slots.findIdx? fun x => x.state == .armed || x.state == .filling) = some 0 ∧
      (s.intake.cams.left.slots[0]?.bind Slot.frame) = some { frame with ending := p.1 } ∧
      (s.intake.cams.right.slots[0]?.bind Slot.frame) = some { frame with ending := p.2 }) ∧
    (calibrating true).cycle.cal.map Calibration.recorded = some true := by decide +kernel
theorem witness_LogTakenFreesRoom :
    (now part).asked (head 0 0) 0#8 ∧ (now part).cycle.sub ≠ .waitLog ∧
    ((now (cycling .prepare .waitLog)).cycle.sub = .waitLog ∧
      (now (cycling .prepare .waitLog)).cycle.state = .prepare) ∧
    (now (cycling .turn .waitLog)).cycle.state = .turn :=
  ⟨(witness_asked part (by decide +kernel)).1, by decide +kernel⟩
/-- A verification with a read still out. -/
def verifying : State :=
  { part with
    transit := { part.transit with outstanding := [.own (own .verifyRead none)] }
    log := { part.log with verify := some ⟨⟨0x17#8, 7#16, 0#8⟩, 0, 3, 2, 0, 0, 0, 0, 0⟩ } }
/-- The TURN record numbered 2 of handle 0. -/
def second : Line := recordLine (.turn ⟨0, 1, 0, 0, false⟩) 2 0
theorem witness_VerifyWalksTheRange :
    (now (shelf .active)).asked (head 0 0) 0#8 ∧
    ((now verifying).transit.stale = 0 ∧
      (now verifying).transit.outstanding = .own (own .verifyRead none) :: [] ∧
      (now verifying).log.verify.map Verify.next = some 2 ∧ (false = true ∨ second.length = 64) ∧
      (true = true ∨ ([] : Line).length = 64)) ∧
    (goodRecord second = true ∧ (lineWord 32 second 4 4).toNat = 2 ∧ (lineByte second 1).toNat = 0) ∧
    goodRecord zeros = false :=
  ⟨(witness_asked (shelf .active) (by decide +kernel)).1, by decide +kernel⟩
theorem witness_VerifyWalksTheRange_advance :
    (let v : Verify := ⟨⟨0x17#8, 7#16, 0#8⟩, 0, 3, 2, 0, 0, 0, 0, 0⟩
     let t := { verifying with log := { verifying.log with appended := 4100 } }
     verifying.log.verify = some v ∧ max v.next (verifying.log.appended - verifying.cap + 1) ≤ v.last ∧
     verifying.transit.wait = [] ∧ verifying.transit.queue.length ≤ 11 ∧
     v.last < max v.next (t.log.appended - t.cap + 1)) := by decide +kernel
/-- A TURN record's append. -/
def turned : Append := .turn ⟨0, 1, 0, 0, true⟩
/-- The own-traffic queue holding this many entries. -/
def entries (n : Nat) : State := filing (List.replicate n (own .entry (some zeros))) []
/-- The log with this many records, none taken. -/
def logged (n : Nat) : State := { part with log := { part.log with appended := n } }
theorem witness_AppendIsAcceptedOrListed :
    (part.log.appends = [] ∧ part.transit.wait = [] ∧ part.transit.queue.length ≤ 10 ∧
      part.log.appended + 1 < max32 ∧ part.log.taken ≤ part.log.appended) ∧
    ({ part.log with appends := [turned] } : CaptureLog).appends ≠ [] ∧ (logged max32).log.appended = max32 ∧
    ((logged 3583).freeRoom - 1 ≤ part.cap / 8 ∧ ¬ (logged 3582).freeRoom - 1 ≤ part.cap / 8) := by decide +kernel
theorem witness_AppendIsAcceptedOrListed_place :
    (16 ≤ (entries 16).transit.queue.length ∧ waiting.transit.wait ≠ [] ∧ (sync (entries 15)).transit.wait ≠ [] ∧
      (entries 10).transit.queue.length ≤ 10) ∧
    (entries 16).log.appends = [] ∧ (entries 16).log.appended < max32 ∧ waiting.log.appends = [] := by decide +kernel
/-- R146, R152, R155: the last record number accepted at once, with the mark ARMED and room before, and SPENT. -/
theorem witness_AppendIsAcceptedOrListed_last :
    (let s := { part with log := { part.log with appended := max32 - 1, taken := max32 - 1 } }
     s.log.appends = [] ∧ s.transit.wait = [] ∧ s.transit.queue.length ≤ 10 ∧ s.log.appended + 1 = max32 ∧
       s.log.lowMark = .armed ∧ ¬ s.freeRoom - 1 ≤ s.cap / 8) ∧
    ((logged (max32 - 1)).log.appended + 1 = max32 ∧ (logged (max32 - 1)).freeRoom - 1 ≤ part.cap / 8) := by
  decide +kernel
/-- R150, R168: with the queue full the append waits behind the status lines and nothing is numbered. -/
theorem test_append_waits_for_a_place :
    (let q := requestAppend turned (entries 16)
     q.2 = false ∧ q.1.log.appended = 0 ∧ q.1.log.appends = [turned] ∧
       q.1.transit.wait.getLast?.map WaitItem.what = some .append) ∧
    (requestAppend turned (entries 10)).2 = true := by decide +kernel

/-- A judged frame of the left camera. -/
def judged (v : Verdict) : Judged := ⟨.left, 0, v, .none, .settled⟩
theorem witness_AcceptedAppendIsHeard :
    (let r : Review := ⟨[judged .accepted, judged .lost], .finish⟩
     { (cycling .review .none).cycle with review := some r }.review = some r) ∧
    (cycling .review .none).cycle.review = none ∧
    (turning .settle .completing).vols.get (turning .settle .completing).turner.handle = some (book .active) ∧
    ((cycling .turn .none).cycle.run = some toThree ∧ toThree.kind ≠ .step ∧ toThree.pausePending = false) ∧
    ({ toThree with kind := .step }.kind = .step ∧ { toThree with pausePending := true }.pausePending = true) := by
  decide +kernel
theorem witness_OpeningBeginsAndIsFinished :
    ((cycling .turn .none).cycle.run = some toThree ∧
      (cycling .turn .none).vols.active = some (0, book .active)) ∧
    ((cycling .turn .none).vols.cursor ≠ toThree.stop ∧ toThree.pausePending = false) ∧
    ((cycling .turn .none).withVolume 0 (some { book .active with cursor := 3 })).vols.cursor =
      toThree.stop := by decide +kernel

theorem witness_TurnIsStarted :
    (let s := cycling .review .none
     s.cycle.run = some toThree ∧ s.vols.active = some (0, book .active) ∧
     (book .active).cursor < (book .active).leaves ∧ 5 ≤ s.freeRoom ∧ s.turner.state = .rest) ∧
    ({ part with log := { part.log with appended := 4092 } } : State).freeRoom < 5 ∧
    ((turning .settle .completing).turner.state ≠ .rest ∧
      (turning .settle .completing).turner.sub = .completing) ∧
    { book .active with cursor := 4 }.leaves ≤ { book .active with cursor := 4 }.cursor := by decide +kernel
theorem witness_PrepareChecksAndExposes :
    (let s := cycling .prepare .none
     s.cycle.opening = some opened ∧ s.vols.active = some (0, book .active) ∧ s.activeClass.isSome = true ∧
     opened.prepared.retake = none ∧ s.light.exposure.phase = .none ∧ s.lines.platenDown = true ∧
     s.lines.armParked = true ∧ s.turner.state = .rest ∧
     (0 < (s.planOf [640, 640, 700, 512, 0, 0] 100).span ∧
       (book .active).openingDose + 894528 ≤ 2000000 ∧ (book .active).doseUsed + 894528 ≤ 40000000) ∧
     ((∀ x ∈ s.intake.cams.left.slots, x.state ≠ .armed ∧ x.state ≠ .filling) ∧
       (s.intake.cams.left.slots.findIdx? fun x => x.state == .free) = some 0)) ∧
    ¬ (turning .grip .none).turner.state = .rest ∧
    ¬ ({ part.lines with armParked := false }.platenDown = true ∧
      { part.lines with armParked := false }.armParked = true) ∧
    { opened.prepared with retake := some (part.planOf [] 100) }.retake = some (part.planOf [] 100) ∧
    ((part.planOf [0, 0, 0, 0, 0, 0] 100).span = 0 ∧ { part.light with warm := 0 }.warm = 0) ∧
    ¬ ({ book .active with doseUsed := 40000000 }.doseUsed + 894528 ≤ 40000000) := by decide +kernel
theorem witness_HaltRecordsTheFault :
    part.freeRoom ≠ 0 ∧ ({ part with log := { part.log with appended := 4096 } } : State).freeRoom = 0 := by
  decide +kernel
theorem witness_RulesJudgeAFrame : ({ frame with ending := .complete } : Frame).ending = .complete := rfl
/-- The cycle in REVIEW, the frames of both cameras ended so. -/
def reviewing (l r : Frame) : State :=
  let s := cycling .review .none
  let c := s.intake.cams.left
  { s with intake := { s.intake with
    cams := ⟨{ c with slots := c.slots.set 0 ⟨.filling, some l⟩ },
      { c with slots := c.slots.set 0 ⟨.filling, some r⟩ }⟩ } }
/-- Frames ACCEPTED, REJECTED as low, DAMAGED and LOST under the rules after reset. -/
def ended : List Frame :=
  [{ frame with ending := .complete, mean := 3000 }, { frame with ending := .complete, mean := 2400 },
   { frame with ending := .damaged, reason := .sequence }, { frame with ending := .lost }]
theorem witness_ReviewJudgesAndDecides :
    (∀ f ∈ ended, ∀ g ∈ ended,
      let s := reviewing f g
      s.cycle.opening = some opened ∧ s.cycle.state = .review ∧ s.cycle.review = none ∧
      s.vols.active = some (0, book .active) ∧ s.activeClass.isSome = true ∧
      (s.intake.cams.left.slots.findIdx? fun x => x.state == .armed || x.state == .filling) = some 0 ∧
      (s.intake.cams.left.slots[0]?.bind Slot.frame) = some f ∧
      (s.intake.cams.right.slots[0]?.bind Slot.frame) = some g ∧
      (f.ending = .complete ∨ f.ending = .damaged ∨ f.ending = .lost)) ∧
    (let s := reviewing (ended.getD 1 frame) (ended.getD 0 frame)
     opened.lampFault = false ∧ s.light.exposure.phase = .none ∧
     (s.activeClass.map fun e => decide (opened.retakes < e.maxRetakes)) = some true ∧
     ∀ x ∈ s.light.channels, x.state ≠ .failed) ∧
    ((reviewing frame frame).activeClass.map fun e => decide (3 < e.maxRetakes)) = some false ∧
    { opened with lampFault := true }.lampFault = true ∧
    ((cycling .expose .none).cycle.state ≠ .review ∧
      (reviewing frame frame).intake.cams.left.flying = some frame ∧ frame.ending = .inFlight) := by
  decide +kernel
/-- What follows a review of these frames: the finish, a retake of the right side with the factor 1280 of
the worked case, CAPTURE_FAULT and CAMERA_TIMEOUT. -/
theorem witness_ReviewJudgesAndDecides_outcomes :
    (let next (l r : Nat) (o : OpeningRecord) : Option AfterReview :=
       let s := reviewing (ended.getD l frame) (ended.getD r frame)
       let s := { s with light := { s.light with exposure := { s.light.exposure with
         plan := ⟨[640, 640, 700, 512, 0, 0], 100, 22, 894528⟩ } } }
       s.activeClass.map fun e => (decideReview s o (book .active) e).2
     next 0 0 opened = some .finish ∧
     ((next 0 1 opened).map fun x => match x with
       | .retake d p => (d, p.levels)
       | .finish => (⟨false, false⟩, [])
       | .halt _ _ => (⟨false, false⟩, [])) = some (⟨false, true⟩, [0, 0, 875, 640, 0, 0]) ∧
     next 1 2 { opened with retakes := 3 } = some (.halt .captureFault ⟨false, true⟩) ∧
     next 3 2 opened = some (.halt .cameraTimeout ⟨true, false⟩)) := by decide +kernel
theorem witness_ReviewRecordsAndEnds :
    (let s := reviewing (ended.getD 0 frame) (ended.getD 3 frame)
     s.cycle.opening = some opened ∧ s.vols.active = some (0, book .active) ∧
     ((judged .accepted).verdict ≠ .lost ∧ (judged .lost).verdict = .lost) ∧
     (s.intake.cams.left.slots[0]?.bind Slot.frame) = some (ended.getD 0 frame) ∧
     s.vols.get 0 = some (book .active)) ∧
    (opened.exposed = false ∧ { opened with exposed := true }.exposed = true) := by decide +kernel
theorem witness_CamerasEndTheirWait :
    (let p := now (cycling .prepare .waitCamera)
     let c := now (calibrating false)
     (p.cycle.sub = .waitCamera ∧ p.cycle.state = .prepare ∧ p.cycle.camTimer = none) ∧
     (c.cycle.sub = .waitCamera ∧ c.cycle.state = .calibrate ∧ c.cycle.camTimer = some 0 ∧ 0 ≤ c.now)) ∧
    (now part).cycle.sub ≠ .waitCamera := by decide +kernel
theorem witness_LampsRampAndFail :
    (let a := arrive (later 2) (lighting .rampUp)
     let ch := Channel.dark .left
     a.light.channels[1]? = some ch ∧ a.light.exposure.phase = .rampUp ∧ ch.state = .off ∧
     ch.wasLit = false ∧ a.light.exposure.plan.levels.getD 1 0 ≠ 0 ∧
     ms (22 - rampTime a.light.rampRate 640) ≤ a.now ∧ ¬ ms (22 - rampTime a.light.rampRate 640) ≤ 1999) ∧
    ((now rising).light.channels.map Channel.lit) = [false, false, true, false, false, false] := by
  decide +kernel
theorem witness_TriggersRiseFallAndComplete :
    (let a := arrive (later 62) (armed .warm)
     let x := a.light.exposure
     let y := a.intake.cams.left
     (x.phase = .warm ∧ x.triggered = false ∧ x.startedAt + ms (22 + a.light.warm) ≤ a.now ∧
       x.sides.has .left = true ∧ y.inFlight = some 0 ∧ y.slots[0]? = some ⟨.armed, some frame⟩ ∧
       frame.ending = .inFlight ∧ frame.number = 0 ∧ y.intakeRec.state = .idle ∧
       a.intake.cams.right.inFlight = none)) ∧
    (let s := after (.warmEnd (later 62)) (armed .warm)
     s.intake.cams.left.intakeRec.trigger = some (ms 162) ∧ s.light.exposure.triggered = true ∧
     s.light.exposure.phase = .capture ∧
     s.light.exposure.startedAt + ms (s.light.exposure.plan.span + s.light.warm +
       s.light.exposure.plan.time) = ms 162) ∧
    ((now (lighting .rampDown)).light.exposure.phase = .rampDown ∧
      (now (lighting .rampDown)).light.channels.any Channel.lit = false ∧
      (now (lighting .rampDown)).light.exposure.charged = false) := by decide +kernel
theorem witness_FrameTimeoutAndRestLoss :
    (let y := (now (taking .receiving .filling 64 64)).intake.cams.left
     y.intakeRec.timer = some 0 ∧ y.intakeRec.state = .receiving ∧ y.intakeRec.armed = some 0 ∧
     y.slots[0]? = some ⟨.filling, some frame⟩) ∧
    (now (taking .draining .free 0 0)).intake.cams.left.intakeRec.state = .draining ∧
    ((now (lighting .warm)).light.exposure.phase = .warm ∧ (now part).light.exposure.phase = .none) := by
  decide +kernel
theorem witness_TurnAdvancesByStages :
    (∀ st ∈ [Stage.platenRise, .separate, .grip, .lift, .sweep, .release, .returning, .platenLower, .settle],
      (now (turning st .none)).turner.state = .turning ∧ (now (turning st .none)).turner.stage = some st ∧
      (now (turning st .none)).turner.sub = .none ∧ (now (turning st .none)).turner.stageTime = some 0 ∧
      0 ≤ (now (turning st .none)).now) ∧
    (now (turning .separate .retryPause)).turner.sub = .retryPause ∧
    ((now (shelf .active)).vols.active = some (0, book .active) ∧
      (now (shelf .active)).activeClass.isSome = true ∧ (now (shelf .active)).turner.state = .rest) ∧
    ((now (shelf .active)).vols.get 0 = some (book .active) ∧ (now (shelf .active)).cycle.state ≠ .turn ∧
      (now (shelf .active)).turner.pendingTurn = false) := by decide +kernel
theorem witness_TurnFaultsRetriesAndHolds :
    (∀ st ∈ [Stage.platenRise, .grip, .lift, .sweep, .returning, .platenLower],
      (now (turning st .none)).turner.stage = some st ∧
      (now (turning st .none)).turner.stageTimer = .running 0 0 ∧
      0 + ms 0 ≤ (now (turning st .none)).now ∧ (now (turning st .none)).cycle.state = .turn) ∧
    ((now (holding .sweep)).turner.state = .hold ∧ (now (holding .sweep)).turner.holdTimer = some 0) ∧
    (now (turning .separate .retryPause)).turner.sub = .retryPause ∧
    (now part).turner.state = .rest := by decide +kernel
theorem witness_SupplyMonitorWatches :
    ((now part).start.phase = .ready ∧ (now part).turner.supply = .ok ∧
      (149#8).toNat < (now part).turner.g6.supplyLevel) ∧
    (let s := { part with turner := { part.turner with supply := .low } }
     (now s).turner.supply = .low ∧ (now s).turner.g6.supplyLevel + 8 ≤ (158#8).toNat) ∧
    ((now part).turner.g6.supplyMode = .notice ∧
      { part.turner.g6 with supplyMode := SupplyMode.safeStop }.supplyMode = .safeStop) ∧
    (now (cycling .turn .none)).cycle.state.working = true ∧
    (now (calibrating false)).cycle.state = .calibrate ∧
    (cycling .expose .none).cycle.opening = some opened ∧
    (let s : State := { cycling .paused .none with cycle := { (cycling .paused .none).cycle with
       opening := none, run := some { toThree with resume := some .beginOpening } } }
     s.cycle.opening = none ∧ s.cycle.state = .paused ∧ s.cycle.state.working = true ∧
       (s.cycle.run.bind RunRecord.resume) ≠ some .turn ∧ (abortWork .supplyLow s).2.aborted = false) := by
  decide +kernel

end Sys2Proof.Tests
end

