-- ==== Sys2Proof/Proofs/Sound.lean ====
section
/-! PROOFS. Every step keeps `State.sound` (O2), and the state right after POWER_ON has it (O3): each command's
operation keeps the laws of the tables and queues (`Kept`) and those of the cycle, the lamps and the cameras. -/

namespace Sys2Proof.Machine

/-- No status line may be uncomposed once READY: the choice of `late` that `State.sound` makes. -/
def noneLate (_ : Nat) : Prop := False

/-- Soundness is the laws of the tables and queues together with those of the cycle, the lamps and the cameras. -/
theorem sound_iff (s : State) : s.sound ↔ Kept noneLate s.pending [] s ∧ s.steady := by
  have hl : (fun _ : Nat => s.start.phase = .ready ∧ ¬ False) = fun _ => s.start.phase = .ready := by simp
  constructor
  · rintro ⟨htable, hqueue, hholds, hmap, hfiled, hsteady⟩
    exact ⟨⟨rfl, htable, hqueue, hholds, hmap, List.nil_prefix, by
      unfold noneLate; rw [hl]; exact hfiled⟩, hsteady⟩
  · rintro ⟨⟨-, htable, hqueue, hholds, hmap, -, hfiled⟩, hsteady⟩
    refine ⟨htable, hqueue, hholds, hmap, ?_, hsteady⟩
    unfold noneLate at hfiled; rw [hl] at hfiled; exact hfiled

/-- An operation that keeps soundness. -/
def KeepsSound (f : State → State) : Prop := ∀ s : State, s.sound → (f s).sound

/-- An operation keeps soundness when it keeps both groups of laws. -/
theorem keepsSound_of {f : State → State}
    (hk : ∀ p s, Kept noneLate p [] s → Kept noneLate p [] (f s))
    (hs : ∀ s : State, s.steady → (f s).steady) : KeepsSound f := fun s h => by
  obtain ⟨hkept, hsteady⟩ := (sound_iff s).1 h
  have hkept' := hk _ _ hkept
  exact (sound_iff _).2 ⟨by rw [hkept'.pending]; exact hkept', hs s hsteady⟩

theorem keepsSound_id : KeepsSound fun s => s := fun _ h => h

theorem KeepsSound.comp {f g : State → State} (hf : KeepsSound f) (hg : KeepsSound g) :
    KeepsSound fun s => f (g s) := fun s h => hf _ (hg s h)

theorem KeepsSound.ite {f g : State → State} (c : State → Prop) [∀ s, Decidable (c s)]
    (hf : KeepsSound f) (hg : KeepsSound g) : KeepsSound fun s => if c s then f s else g s := fun s h => by
  dsimp only; split
  · exact hf s h
  · exact hg s h

/-- Input lines may change as they like. -/
theorem keepsSound_setLines (f : Lines → Lines) : KeepsSound (setLines f) :=
  keepsSound_of (fun _ _ => kept_setLines f) fun _ h => h.lines f

theorem keepsSound_arrive (m : Moment) : KeepsSound (arrive m) :=
  keepsSound_of (fun _ _ => kept_arrive m) fun _ h => h.congr rfl

theorem keepsSound_sync : KeepsSound sync :=
  keepsSound_of (fun _ _ => kept_sync) fun _ h => h.congr (sync_core _)

theorem keepsSound_refreshPark : KeepsSound refreshPark :=
  keepsSound_of (fun _ _ => kept_refreshPark) fun _ h => h.congr (refreshPark_core _)

/-- A command keeps soundness when its operation does. -/
theorem sound_takeCommand {m : Moment} {f : State → State} {s t : State} (hf : KeepsSound f)
    (hs : s.sound) (h : takeCommand m f s = .next t) : t.sound := by
  cases h
  exact keepsSound_sync _ (hf _ (keepsSound_arrive m s hs))

/-- A request keeps soundness when what is made of it once its header has passed does (R174). -/
theorem keepsSound_ask (c u : Byte) (d : Head) {f : Ticket → State → State}
    (hk : ∀ t p s, Kept noneLate p [] s → Kept noneLate p [] (f t s))
    (hs : ∀ t s, State.steady s → s.start.phase = .ready → (f t s).steady) : KeepsSound (ask c u d f) :=
  keepsSound_of (fun p _ => kept_ask c u d fun t u => hk t p u) fun _ => steady_ask c u d hs

/-! ## The operations of the commands that have no name of their own -/

theorem keepsSound_powerOn (resetIn : Bool) : KeepsSound fun s =>
    resetEvent .powerOn false (setLines (fun l => { l with power := false, resetIn := resetIn }) s) :=
  KeepsSound.comp (f := resetEvent .powerOn false)
    (keepsSound_of (fun _ _ => kept_resetEvent _ _) fun _ _ => steady_resetEvent _ _)
    (keepsSound_setLines _)

theorem keepsSound_lineReset : KeepsSound fun s =>
    if s.start.phase = .reset then s else resetEvent .lineReset (s.cycle.state != .idle) s :=
  keepsSound_id.ite _ (keepsSound_of (fun _ _ => kept_resetEvent _ _) fun _ _ => steady_resetEvent _ _)

theorem keepsSound_leaveReset : KeepsSound leaveReset :=
  keepsSound_of (fun _ _ => kept_leaveReset) fun _ => steady_leaveReset

theorem keepsSound_exposureCompletion : KeepsSound fun s =>
    if s.light.exposure.phase = .rampDown ∧ ¬ s.anyLit then exposureEnds s else s :=
  keepsSound_of (fun _ _ h => kept_ite (kept_exposureEnds h) h) fun _ h =>
    steady_ite (fun hc => steady_exposureEnds h (.inr (by rw [hc.1]; rfl))) fun _ => h

theorem keepsSound_restLoss : KeepsSound fun s =>
    if s.light.exposure.phase.running then lightsAtRestLoss s else s :=
  keepsSound_of (fun _ _ h => kept_ite (kept_lightsAtRestLoss h) h) fun _ h =>
    steady_ite (steady_lightsAtRestLoss h) fun _ => h

theorem keepsSound_lampFault (i : Nat) : KeepsSound (lampFault i) :=
  keepsSound_of (fun _ _ => kept_lampFault i) fun _ => steady_lampFault i

theorem keepsSound_checkRise : KeepsSound checkRise :=
  keepsSound_of (fun _ _ => kept_checkRise) fun _ => steady_checkRise

theorem keepsSound_checkRetryPause : KeepsSound checkRetryPause :=
  keepsSound_of (fun _ _ => kept_checkRetryPause) fun _ => steady_checkRetryPause

theorem keepsSound_enterPlatenLower : KeepsSound enterPlatenLower :=
  keepsSound_of (fun _ _ => kept_enterPlatenLower) fun _ => steady_enterPlatenLower

theorem keepsSound_endTurn (k : FaultKind) : KeepsSound (endTurn k) :=
  keepsSound_of (fun _ _ => kept_endTurn k) fun _ => steady_endTurn k

theorem keepsSound_stageExpires (a : Stage) (k : FaultKind) : KeepsSound (stageExpires a k) :=
  keepsSound_of (fun _ _ => kept_stageExpires a k) fun _ => steady_stageExpires a k

theorem keepsSound_admitOldest (q : WaitItem → Bool) : KeepsSound (admitOldest q) :=
  keepsSound_of (fun _ _ => kept_admitOldest q) fun _ => steady_admitOldest q

/-- No command breaks soundness. -/
theorem exec_keeps_sound (c : Instr) (s t : State) (hs : s.sound) (h : exec c s = .next t) : t.sound := by
  cases c with
  -- start-up
  | powerOn m b => exact sound_takeCommand (keepsSound_powerOn b) hs h
  | lineReset m => exact sound_takeCommand (keepsSound_lineReset.comp (keepsSound_setLines _)) hs h
  | resetEnd m => exact sound_takeCommand (keepsSound_leaveReset.comp (keepsSound_setLines _)) hs h
  | powerEstablished m => exact sound_takeCommand (keepsSound_leaveReset.comp (keepsSound_setLines _)) hs h
  | profileSignatureRead m x k =>
    exact sound_takeCommand (keepsSound_of (fun _ _ => kept_signatureRead x k) fun _ => steady_signatureRead x k)
      hs h
  | profileGroupRead m b =>
    exact sound_takeCommand (keepsSound_of (fun _ _ => kept_groupRead b) fun _ => steady_groupRead b) hs h
  -- the frame-store path
  | upstreamWrite m x =>
    exact sound_takeCommand (keepsSound_of (fun _ _ => kept_upWrite x) fun _ => steady_upWrite x) hs h
  | upstreamRead m x =>
    exact sound_takeCommand (keepsSound_of (fun _ _ => kept_upRead x) fun _ h => h.congr (upRead_core x _)) hs h
  | apertureWrite m cam o x =>
    exact sound_takeCommand (keepsSound_of (fun _ _ => kept_upWrite _) fun _ => steady_upWrite _) hs h
  | downstreamIssue m =>
    exact sound_takeCommand (keepsSound_of (fun _ _ => kept_grantPort) fun _ h => h.congr (grantPort_core _)) hs h
  | downstreamResponse m r d =>
    exact sound_takeCommand (keepsSound_of (fun _ _ => kept_answer r d) fun _ => steady_answer r d) hs h
  | ownTrafficWaitAdmit m => exact sound_takeCommand (keepsSound_admitOldest _) hs h
  | logAppendAccept m => exact sound_takeCommand (keepsSound_admitOldest _) hs h
  -- the requests
  | requestUnknownKind m k d =>
    exact sound_takeCommand (keepsSound_of (fun _ _ => kept_askUnknown k d) fun _ => steady_askUnknown k d) hs h
  | registerVolume m d q =>
    exact sound_takeCommand (keepsSound_ask _ _ _ (fun t _ _ => kept_takeRegister d q t)
      fun t _ h _ => steady_takeRegister d q t h) hs h
  | setVolume m d q =>
    exact sound_takeCommand (keepsSound_ask _ _ _ (fun t _ _ => kept_takeSetVolume d q t)
      fun t _ => steady_takeSetVolume d q t) hs h
  | activate m d o =>
    exact sound_takeCommand (keepsSound_ask _ _ _ (fun t _ _ => kept_takeActivate o t)
      fun t _ => steady_takeActivate o t) hs h
  | suspend m d =>
    exact sound_takeCommand (keepsSound_ask _ _ _ (fun t _ _ => kept_takeSuspend t)
      fun t _ => steady_takeSuspend t) hs h
  | setOpening m d o =>
    exact sound_takeCommand (keepsSound_ask _ _ _ (fun t _ _ => kept_takeSetOpening o t)
      fun t _ h _ => steady_takeSetOpening o t h) hs h
  | closeVolume m d a b =>
    exact sound_takeCommand (keepsSound_ask _ _ _ (fun t _ _ => kept_takeClose a b t)
      fun t _ => steady_takeClose a b t) hs h
  | retireVolume m d =>
    exact sound_takeCommand (keepsSound_ask _ _ _ (fun t _ _ => kept_takeRetire t)
      fun t _ h _ => steady_takeRetire t h) hs h
  | snapshotVolume m d a =>
    exact sound_takeCommand (keepsSound_ask _ _ _ (fun t _ _ => kept_takeSnapshot d a t)
      fun t _ h _ => steady_takeSnapshot d a t h) hs h
  | run m d n =>
    exact sound_takeCommand (keepsSound_ask _ _ _ (fun t _ _ => kept_takeRun d n t)
      fun t _ h _ => steady_takeRun d n t h) hs h
  | stepTurn m d =>
    exact sound_takeCommand (keepsSound_ask _ _ _ (fun t _ _ => kept_takeStepTurn t)
      fun t _ h _ => steady_takeStepTurn t h) hs h
  | pause m d =>
    exact sound_takeCommand (keepsSound_ask _ _ _ (fun t _ _ => kept_takePause t)
      fun t _ h _ => steady_takePause t h) hs h
  | resumeContinue m d =>
    exact sound_takeCommand (keepsSound_ask _ _ _ (fun t _ _ => kept_takeContinue t)
      fun t _ h _ => steady_takeContinue t h) hs h
  | resumeRetry m d =>
    exact sound_takeCommand (keepsSound_ask _ _ _ (fun t _ _ => kept_takeRetry t)
      fun t _ h _ => steady_takeRetry t h) hs h
  | resumeSkip m d =>
    exact sound_takeCommand (keepsSound_ask _ _ _ (fun t _ _ => kept_takeSkip t)
      fun t _ h _ => steady_takeSkip t h) hs h
  | resumeAbandon m d =>
    exact sound_takeCommand (keepsSound_ask _ _ _ (fun t _ _ => kept_takeAbandon t)
      fun t _ h _ => steady_takeAbandon t h) hs h
  | stop m d =>
    exact sound_takeCommand (keepsSound_ask _ _ _ (fun t _ _ => kept_takeStop t)
      fun t _ h _ => steady_takeStop t h) hs h
  | clearFault m d =>
    exact sound_takeCommand (keepsSound_ask _ _ _ (fun t _ _ => kept_takeClearFault t)
      fun t _ h _ => steady_takeClearFault t h) hs h
  | releaseSlots m d c k =>
    exact sound_takeCommand (keepsSound_ask _ _ _ (fun t _ _ => kept_takeRelease c k t)
      fun t _ h _ => steady_takeRelease c k t h) hs h
  | loadGains m d c a =>
    exact sound_takeCommand (keepsSound_ask _ _ _ (fun t _ _ => kept_takeLoadGains c a t)
      fun t _ h _ => steady_takeLoadGains c a t h) hs h
  | setCorrection m d c x =>
    exact sound_takeCommand (keepsSound_ask _ _ _ (fun t _ _ => kept_takeSetCorrection c x t)
      fun t _ h _ => steady_takeSetCorrection c x t h) hs h
  | calibrate m d q =>
    exact sound_takeCommand (keepsSound_ask _ _ _ (fun t _ _ => kept_takeCalibrate q t)
      fun t _ h _ => steady_takeCalibrate q t h) hs h
  | setRules m d a b c =>
    exact sound_takeCommand (keepsSound_ask _ _ _ (fun t _ _ => kept_takeSetRules a b c t)
      fun t _ h _ => steady_takeSetRules a b c t h) hs h
  | setClassEntry m d c f =>
    exact sound_takeCommand (keepsSound_ask _ _ _ (fun t _ _ => kept_takeSetClass c f t)
      fun t _ h _ => steady_takeSetClass c f t h) hs h
  | setMaterialMap m d l =>
    exact sound_takeCommand (keepsSound_ask _ _ _ (fun t _ _ => kept_takeSetMaterial l t)
      fun t _ h _ => steady_takeSetMaterial l t h) hs h
  | logTaken m d n =>
    exact sound_takeCommand (keepsSound_ask _ _ _ (fun t _ _ => kept_takeLogTaken n t)
      fun t _ h _ => steady_takeLogTaken n t h) hs h
  | verifyLog m d =>
    exact sound_takeCommand (keepsSound_ask _ _ _ (fun t _ _ => kept_takeVerify t)
      fun t _ h _ => steady_takeVerify t h) hs h
  -- the cameras and the lamps
  | haltInActive m =>
    have hstop : KeepsSound (stopBy .haltIn id) :=
      keepsSound_of (fun _ _ => kept_stopBy .haltIn fun _ h => h) fun _ => steady_stopBy .haltIn fun _ => rfl
    exact sound_takeCommand (hstop.comp (keepsSound_setLines _)) hs h
  | camReadyActive m cam =>
    have hcheck : KeepsSound recheckCameras :=
      keepsSound_of (fun _ _ => kept_recheckCameras) fun _ => steady_recheckCameras
    exact sound_takeCommand (hcheck.comp (keepsSound_setLines _)) hs h
  | cameraReadyTimeout m =>
    exact sound_takeCommand
      (keepsSound_of (fun _ _ => kept_cameraTimeoutExpires) fun _ => steady_cameraTimeoutExpires) hs h
  | channelRampStart m i =>
    exact sound_takeCommand (keepsSound_of (fun _ _ => kept_rampStart _) fun _ => steady_rampStart _) hs h
  | lampRampStep m =>
    exact sound_takeCommand (keepsSound_of (fun _ _ => kept_rampStep) fun _ => steady_rampStep) hs h
  | warmEnd m =>
    exact sound_takeCommand (keepsSound_of (fun _ _ h => kept_ite (kept_fireTriggers h) h) fun _ =>
      steady_warmEnd) hs h
  | triggerFall m =>
    exact sound_takeCommand (keepsSound_of (fun _ _ => kept_triggersFall) fun _ => steady_triggersFall) hs h
  | exposureCompletion m => exact sound_takeCommand keepsSound_exposureCompletion hs h
  | frameTimeout m cam =>
    exact sound_takeCommand (keepsSound_of (fun _ _ => kept_frameTimerExpires cam) fun _ =>
      steady_frameTimerExpires cam) hs h
  | restLoss m i =>
    exact sound_takeCommand
      (keepsSound_restLoss.comp (keepsSound_refreshPark.comp (keepsSound_setLines (RestInput.drop i)))) hs h
  | lampOkInactive m i =>
    exact sound_takeCommand (((keepsSound_lampFault i.val).ite
      (fun s => (s.light.channels[i.val]?.map Channel.lit).getD false = true) keepsSound_id).comp
        (keepsSound_setLines _)) hs h
  -- the leaf turner and the supply monitor
  | platenUpActive m =>
    exact sound_takeCommand ((keepsSound_checkRise.ite (fun s => s.turner.runsStage .platenRise = true)
      keepsSound_id).comp (keepsSound_setLines _)) hs h
  | platenDownActive m =>
    have henter : KeepsSound enterSettle := keepsSound_of (fun _ _ => kept_enterSettle) fun _ => steady_enterSettle
    exact sound_takeCommand ((henter.ite (fun s => s.turner.runsStage .platenLower = true)
      keepsSound_id).comp (keepsSound_setLines _)) hs h
  | armParkedActive m =>
    exact sound_takeCommand ((keepsSound_checkRise.ite (fun s => s.turner.runsStage .platenRise = true)
      (keepsSound_checkRetryPause.ite (fun s => s.turner.sub = .retryPause)
        (keepsSound_enterPlatenLower.ite (fun s => s.turner.runsStage .returning = true) keepsSound_id))).comp
          (keepsSound_refreshPark.comp (keepsSound_setLines _))) hs h
  | armAtLeftActive m =>
    have henter : KeepsSound enterRelease :=
      keepsSound_of (fun _ _ => kept_enterRelease) fun _ h => h.stage _ _ _ _ _
    exact sound_takeCommand ((henter.ite (fun s => s.turner.runsStage .sweep = true)
      keepsSound_id).comp (keepsSound_setLines _)) hs h
  | leafSenseActive m =>
    have henter : KeepsSound enterSweep := keepsSound_of (fun _ _ => kept_enterSweep) fun _ => steady_enterSweep
    exact sound_takeCommand ((henter.ite (fun s => s.turner.runsStage .lift = true)
      keepsSound_id).comp (keepsSound_setLines _)) hs h
  | leafSenseInactive m =>
    exact sound_takeCommand (((keepsSound_endTurn .leafDropped).ite (fun s => s.turner.atStage .sweep = true)
      keepsSound_id).comp (keepsSound_setLines _)) hs h
  | doubleSenseActive m =>
    have hdouble : KeepsSound doubleLeaf := keepsSound_of (fun _ _ => kept_doubleLeaf) fun _ => steady_doubleLeaf
    exact sound_takeCommand ((hdouble.ite (fun s => s.turner.atStage .lift = true)
      keepsSound_id).comp (keepsSound_setLines _)) hs h
  | wandPressureSample m x =>
    have hsample : KeepsSound samplePressure :=
      keepsSound_of (fun _ _ => kept_samplePressure) fun _ => steady_samplePressure
    exact sound_takeCommand (hsample.comp (keepsSound_setLines _)) hs h
  | holdTimeout m =>
    exact sound_takeCommand ((keepsSound_endTurn .vacuumLow).ite
      (fun s => s.turner.state = .hold ∧ s.turner.holdDue s.now = true) keepsSound_id) hs h
  | supplySenseSample m x =>
    have hsample : KeepsSound sampleSupply :=
      keepsSound_of (fun _ _ => kept_sampleSupply) fun _ => steady_sampleSupply
    exact sound_takeCommand ((hsample.ite (fun s => s.ready = true) keepsSound_id).comp
      (keepsSound_setLines _)) hs h
  | platenTimeout m =>
    exact sound_takeCommand ((keepsSound_stageExpires _ _).ite
      (fun s => s.turner.runsStage .platenRise = true) (keepsSound_stageExpires _ _)) hs h
  | gripTimeout m =>
    have hretry : KeepsSound (retryable .gripFail) :=
      keepsSound_of (fun _ _ => kept_retryable _) fun _ => steady_retryable _
    exact sound_takeCommand (hretry.ite
      (fun s => s.turner.runsStage .grip = true ∧ s.turner.timerDue s.now = true) keepsSound_id) hs h
  | liftTimeout m => exact sound_takeCommand (keepsSound_stageExpires _ _) hs h
  | sweepTimeout m => exact sound_takeCommand (keepsSound_stageExpires _ _) hs h
  | returnTimeout m =>
    exact sound_takeCommand ((keepsSound_endTurn .returnTimeout).ite
      (fun s => ((s.turner.runsStage .returning || s.turner.sub == .retryPause) &&
        s.turner.timerDue s.now) = true) keepsSound_id) hs h
  | knifePulseElapsed m =>
    have henter : KeepsSound enterGrip := keepsSound_of (fun _ _ => kept_enterGrip) fun _ => steady_enterGrip
    exact sound_takeCommand (henter.ite
      (fun s => s.turner.runsStage .separate = true ∧ s.turner.timeDue s.now = true) keepsSound_id) hs h
  | retryPauseElapsed m =>
    exact sound_takeCommand (keepsSound_checkRetryPause.ite (fun s => s.turner.sub = .retryPause)
      keepsSound_id) hs h
  | releaseElapsed m =>
    have henter : KeepsSound enterReturn := keepsSound_of (fun _ _ => kept_enterReturn) fun _ => steady_enterReturn
    exact sound_takeCommand (henter.ite
      (fun s => s.turner.runsStage .release = true ∧ s.turner.timeDue s.now = true) keepsSound_id) hs h
  | settleElapsed m =>
    have hdone : KeepsSound completeTurn :=
      keepsSound_of (fun _ _ => kept_completeTurn) fun _ => steady_completeTurn
    exact sound_takeCommand (hdone.ite
      (fun s => s.turner.runsStage .settle = true ∧ s.turner.timeDue s.now = true) keepsSound_id) hs h

/-- The commands that wait are no part of soundness. -/
theorem sound_pending {s : State} (h : s.sound) (rest : List Instr) :
    State.sound { s with pending := rest } := by
  obtain ⟨htable, hqueue, hholds, hmap, hfiled, hsteady⟩ := h
  exact ⟨htable, hqueue, hholds, hmap, hfiled.congr rfl rfl rfl rfl, hsteady.congr rfl⟩

/-- Settles O2: a step is the command in front, and no command breaks soundness. -/
theorem stepKeepsSound : Obligations.StepKeepsSound := by
  intro s t hs h
  unfold step at h
  split at h
  · cases h; exact hs
  · exact exec_keeps_sound _ _ t (sound_pending hs _) h

/-- Before READY, with nothing queued or waiting, no status line has been composed or waits (R187). -/
theorem filed_reset : State.reset.filed where
  marks := ⟨rfl, rfl⟩
  plain := fun _ hw => absurd hw List.not_mem_nil
  single := fun _ _ => Nat.zero_le _
  dirty := by decide
  composed := fun _ _ hr => absurd hr (by decide)

/-- Settles O3. -/
theorem resetIsSound : Obligations.ResetIsSound :=
  ⟨lawful_reset, Nat.zero_le _, Nat.zero_le _, apart_default, filed_reset, steady_reset⟩

end Sys2Proof.Machine
end

