-- ==== Sys2Proof/Proofs/Volumes.lean ====
section
/-! PROOFS. The requests of the volume table: REGISTER_VOLUME (O24), SET_VOLUME (O25), ACTIVATE, SUSPEND and
CLOSE_VOLUME (O26), SET_OPENING (O27), RETIRE_VOLUME (O28), SET_MATERIAL_MAP and SET_CLASS_ENTRY (O30). -/

namespace Sys2Proof.Machine

/-! ## A request and its checks, one after the other (R11, R174) -/

/-- The command is the request's checks `cs`, then `f`, on the state it is taken in. -/
def State.checks (s : State) (c : Instr) (m : Moment) (t : Ticket) (cs : List (Bool × Reason))
    (f : State → State) : Prop := exec c s = takeCommand m (fun _ => checked t cs f (arrive m s)) s

section
variable {c : Instr} {m : Moment} {h : Head} {code used : Byte} {s : State} {t : Ticket} {b : Bool} {r : Reason}
  {cs : List (Bool × Reason)} {f : State → State}

/-- A request whose header passes comes to its checks (R174). -/
theorem checks_of_asked {g : Ticket → State → State} (hx : exec c s = takeCommand m (ask code used h g) s)
    (ha : (arrive m s).asked h used)
    (hg : g (h.ticket code) (arrive m s) = checked (h.ticket code) cs f (arrive m s)) :
    s.checks c m (h.ticket code) cs f := by
  unfold State.checks takeCommand
  rw [hx, ← hg, ← ask_asked (f := g) (code := code) ha]
  rfl

/-- A check that fails refuses the request with its reason. -/
theorem State.checks.refused (hx : s.checks c m t ((b, r) :: cs) f) (hb : b = true) :
    s.completes c (arrive m s) [refusal t r] := refuse_completes hx (checked_refused hb)

/-- A check that passes leaves the ones behind it. -/
theorem State.checks.passed (hx : s.checks c m t ((b, r) :: cs) f) (hb : ¬ b = true) :
    s.checks c m t cs f := by
  unfold State.checks at hx ⊢
  simpa only [checked_next (Bool.eq_false_iff.2 hb)] using hx

/-- A check decides between its refusal and what comes behind it. -/
theorem State.checks.split {P Q : Prop} [Decidable P] (hx : s.checks c m t ((b, r) :: cs) f)
    (hb : b = true ↔ P) (hpass : ¬ P → s.checks c m t cs f → Q) :
    if P then s.completes c (arrive m s) [refusal t r] else Q := by
  split
  · exact hx.refused (hb.2 ‹_›)
  · exact hpass ‹_› (hx.passed (mt hb.1 ‹_›))

/-- With every check passed a request that replies DONE completes (R175). -/
theorem State.checks.done {e : State} {cl : Bool} {rs : Fields} (hx : s.checks c m t [] f)
    (he : f (arrive m s) = replyDone t cl rs e) (hn : e.req.newest = s.req.newest) :
    s.completes c e [doneReply t cl rs] := done_completes hx he hn

/-- With every check passed the request has its effect. -/
theorem State.checks.runs (hx : s.checks c m t [] f) : exec c s = .next (sync (f (arrive m s))) := hx

end

/-! ## What the checks read -/

theorem badHandle_iff {t : Ticket} : t.badHandle = true ↔ 31 < t.handle.toNat := by simp [Ticket.badHandle]

theorem not_idle_iff {a : State} : (!a.idle) = true ↔ a.cycle.state ≠ .idle := by
  rw [Bool.not_eq_true', Bool.eq_false_iff, ne_eq, idle_iff]

/-- A handle in range names the record at it (R11). -/
theorem named_eq_get {a : State} {t : Ticket} (hk : ¬ 31 < t.handle.toNat) :
    a.named t = a.vols.get t.handle.toNat := if_pos (by omega)

theorem named_isNone {a : State} {t : Ticket} (hk : ¬ 31 < t.handle.toNat)
    (hv : a.vols.get t.handle.toNat = none) : (a.named t).isNone = true := by rw [named_eq_get hk, hv]; rfl

theorem named_not_isNone {a : State} {t : Ticket} {v : Volume} (hn : a.named t = some v) :
    ¬ (a.named t).isNone = true := by simp [hn]

/-- A test of the named record is a test of the record there. -/
theorem namedIs_some {a : State} {t : Ticket} {v : Volume} (hn : a.named t = some v) (p : Volume → Bool) :
    a.namedIs t p = p v := by simp [State.namedIs, hn]

/-- A test of the state of the named record. -/
theorem namedIs_state {a : State} {t : Ticket} {v : Volume} (hn : a.named t = some v) (x : VolState) :
    a.namedIs t (fun v => v.state == x) = true ↔ v.state = x := by simp [namedIs_some hn]

theorem namedIs_not_state {a : State} {t : Ticket} {v : Volume} (hn : a.named t = some v) (x : VolState) :
    a.namedIs t (fun v => v.state != x) = true ↔ v.state ≠ x := by simp [namedIs_some hn]

theorem freeRoom_zero_iff {a : State} : (a.freeRoom == 0) = true ↔ a.freeRoom = 0 := by simp

theorem arrive_withVolume_newest (m : Moment) (s : State) (k : Nat) (v : Option Volume) :
    ((arrive m s).withVolume k v).req.newest = s.req.newest := rfl

/-- No record ACTIVE is no ACTIVE place in the table (R10). -/
theorem activeHandle_isSome_iff (t : VolumeTable) :
    t.activeHandle.isSome = true ↔ (t.table.any fun o => o.map Volume.state == some .active) = true := by
  have hp : isActive = fun o : Option Volume => o.map Volume.state == some .active := by
    funext o; cases o <;> simp [isActive]
  rw [VolumeTable.activeHandle, List.findIdx?_isSome, hp]

/-! ## REGISTER_VOLUME (R12) -/

theorem badRegister_iff (h : Head) (p : RegisterParams) : badRegister h p = true ↔
    validMark (padMark p.mark) = false ∨ 15 < p.material.toNat ∨ (h.flag 0 = true ∧ 3 < p.override.toNat) ∨
      p.leaves.toNat = 0 ∨ 4095 < p.leaves.toNat := by
  simp [badRegister, or_assoc]

theorem hasMark_eq (t : VolumeTable) (mark : List Byte) :
    t.hasMark mark = t.table.any fun o => o.map Volume.mark == some mark := by
  unfold VolumeTable.hasMark
  congr 1; funext o; cases o <;> simp

/-- Whether a value was brought into 1..2000 (R12, R13). -/
theorem clampTo_ne (e : Nat) : (clampTo 1 2000 e != e) = (e == 0 || decide (2000 < e)) := by
  rw [Bool.eq_iff_iff]; simp [clampTo]; omega

theorem max_one_ne (e : Nat) : (max 1 e != e) = (e == 0) := by
  rw [Bool.eq_iff_iff]; simp

/-- Settles O24: the three checks in their order, then the new record. -/
theorem registerVolumeMakesARecord : Obligations.RegisterVolumeMakesARecord := by
  intro m h p s a t c mark override cls ceiling levels exposure leaves clamped v hasked
  have hx : s.checks c m t _ _ := checks_of_asked (exec_registerVolume m h p s) hasked rfl
  refine hx.split (badRegister_iff h p) fun _ hx => ?_
  cases hfree : a.vols.table.findIdx? Option.isNone with
  | none => exact hx.refused (by simp [VolumeTable.firstFree, a, hfree])
  | some k =>
    have hfirst : (arrive m s).vols.firstFree = some k := hfree
    have hx := hx.passed (by simp [hfirst])
    refine hx.split (by rw [hasMark_eq]) fun _ hx => ?_
    have hmade : newVolume (arrive m s).vols h p = (v, clamped) := by
      simp only [newVolume, clampLevels, clampExposure, max_one_ne, clampTo_ne]
      rfl
    refine hx.done ?_ (arrive_withVolume_newest m s k _)
    simp only [hfirst, hmade]
    rfl

/-! ## SET_VOLUME (R13) -/

theorem setOverride_eq (h : Head) (p : SetVolumeParams) (v : Volume) : setOverride h p v = { v with
    override := if h.flag 3 then (if h.flag 6 then none else some p.override.toNat) else v.override } := by
  unfold setOverride; split <;> rfl

theorem setLevels_eq (ceiling : Nat) (h : Head) (p : SetVolumeParams) (v : Volume) :
    setLevels ceiling h p v = ({ v with baseLevels := if h.flag 1 then
      (if h.flag 4 then none else some ((sixLevels p.levels).map (min ceiling))) else v.baseLevels },
      h.flag 1 && !h.flag 4 && (sixLevels p.levels).any fun x => ceiling < x) := by
  unfold setLevels
  cases h.flag 1 <;> cases h.flag 4 <;> rfl

theorem setExposure_eq (h : Head) (p : SetVolumeParams) (v : Volume) :
    setExposure h p v = ({ v with exposureTime := if h.flag 2 then
      (if h.flag 5 then none else some (min 2000 (max 1 p.exposure.toNat))) else v.exposureTime },
      h.flag 2 && !h.flag 5 && min 2000 (max 1 p.exposure.toNat) != p.exposure.toNat) := by
  unfold setExposure
  cases h.flag 2 <;> cases h.flag 5 <;> rfl

theorem setBudget_eq (h : Head) (p : SetVolumeParams) (v : Volume) :
    setBudget h p v = ({ v with
      budget := if h.flag 0 then max 1 (max p.budget.toNat v.doseUsed) else v.budget },
      h.flag 0 && max 1 (max p.budget.toNat v.doseUsed) != p.budget.toNat) := by
  unfold setBudget
  cases h.flag 0 <;> rfl

/-- What SET_VOLUME makes of a record, its four settings each changed or kept. -/
theorem changeVolume_eq (t : VolumeTable) (h : Head) (p : SetVolumeParams) (v : Volume) :
    let override : Option Nat :=
      if h.flag 3 then (if h.flag 6 then none else some p.override.toNat) else v.override
    let ceiling := (t.entry (override.getD (t.material.getD v.material 0))).ceiling
    let levels := sixLevels p.levels
    let exposure := min 2000 (max 1 p.exposure.toNat)
    let budget := max 1 (max p.budget.toNat v.doseUsed)
    changeVolume t h p v =
      ({ v with
          override := override
          baseLevels := if h.flag 1 then
              (if h.flag 4 then none else some (levels.map (min ceiling))) else v.baseLevels
          exposureTime := if h.flag 2 then (if h.flag 5 then none else some exposure) else v.exposureTime
          budget := if h.flag 0 then budget else v.budget },
        (h.flag 1 && !h.flag 4 && levels.any fun x => ceiling < x) ||
          (h.flag 2 && !h.flag 5 && exposure != p.exposure.toNat) ||
          (h.flag 0 && budget != p.budget.toNat)) := by
  unfold changeVolume
  simp only [setOverride_eq, setLevels_eq, setExposure_eq, setBudget_eq]
  rfl

/-- Settles O25: the checks in their order, then the four settings. -/
theorem setVolumeChangesItsSettings : Obligations.SetVolumeChangesItsSettings := by
  intro m h p s a t c k alone hasked
  have hx : s.checks c m t _ _ := checks_of_asked (exec_setVolume m h p s) hasked rfl
  refine hx.split ?_ fun hfields hx => ?_
  · simp [badHandle_iff, or_assoc, and_assoc, Head.absentAlone, alone, k, Head.ticket]
  have hk : ¬ 31 < t.handle.toNat := fun q => hfields (.inr (.inr q))
  refine hx.split not_idle_iff fun _ hx => ?_
  cases hv : a.vols.get k with
  | none => exact hx.refused (named_isNone hk hv)
  | some v =>
    have hn : a.named t = some v := (named_eq_get hk).trans hv
    refine (hx.passed (named_not_isNone hn)).split (namedIs_state hn .closed) fun _ hx => ?_
    refine hx.split ?_ fun _ hx => ?_
    · rw [Bool.and_eq_true, namedIs_state hn .active]
    refine hx.done ?_ (arrive_withVolume_newest m s k _)
    dsimp only
    rw [show (arrive m s).named _ = some v from hn]
    dsimp only
    rw [changeVolume_eq]
    exact congrArg (replyDone t _ []) (updVol_withVolume (a := arrive m s) _ hv)

/-! ## ACTIVATE, SUSPEND and CLOSE_VOLUME (R14, R15, R22) -/

/-- Whether a request that changes the ACTIVE record comes at a bad moment (R15, R16, R22). -/
theorem busy_iff {a : State} : (!a.idle || a.completing) = true ↔
    (a.cycle.state != .idle || a.turner.sub == .completing) = true := Iff.rfl

/-- The named record is changed and the VOLUME record of its new values asked for (R148). -/
theorem changeAndLog_eq {a : State} {t : Ticket} {v : Volume} (hk : ¬ 31 < t.handle.toNat)
    (hv : a.vols.get t.handle.toNat = some v) (e : VolumeEvent) (cl : Bool) (f : Volume → Volume) :
    changeAndLog t e cl f a = appendForReply (.volume (volumeBody t e cl (f v)))
      (a.withVolume t.handle.toNat (some (f v))) := by
  unfold changeAndLog
  rw [named_eq_get hk, hv]
  dsimp only
  rw [updVol_withVolume f hv]

theorem activateIsLogged (m : Moment) (h : Head) (s : State) (opening : BitVec 16)
    (hasked : (arrive m s).asked h 0#8) :
    let a := arrive m s
    let k := h.handle.toNat
    let t := h.ticket 0x03#8
    let c : Instr := .activate m h opening
    if 31 < k then s.completes c a [refusal t .badField]
    else if a.cycle.state ≠ .idle then s.completes c a [refusal t .state]
    else match a.vols.get k with
      | none => s.completes c a [refusal t .noVolume]
      | some v =>
        if v.state = .closed then s.completes c a [refusal t .closed]
        else if v.state = .active then s.completes c a [refusal t .state]
        else if (a.vols.activeHandle.any fun j => j != k) = true then
          s.completes c a [refusal t .activeExists]
        else if a.freeRoom = 0 then s.completes c a [refusal t .logFull]
        else
          let cursor := min opening.toNat v.leaves
          exec c s = .next (sync (appendForReply
            (.volume ⟨k, .activate, cursor, v.doseUsed, v.sidesCovered, v.mark, t,
              decide (v.leaves < opening.toNat)⟩)
            (a.withVolume k (some { v with state := .active, cursor := cursor, openingDose := 0 })))) := by
  intro a k t c
  have hx : s.checks c m t _ _ := checks_of_asked (exec_activate m h opening s) hasked rfl
  refine hx.split badHandle_iff fun hk hx => hx.split not_idle_iff fun _ hx => ?_
  cases hv : a.vols.get k with
  | none => exact hx.refused (named_isNone hk hv)
  | some v =>
    have hn : a.named t = some v := (named_eq_get hk).trans hv
    refine (hx.passed (named_not_isNone hn)).split (namedIs_state hn .closed) fun _ hx => ?_
    refine hx.split (namedIs_state hn .active) fun _ hx => ?_
    refine hx.split (by unfold State.otherActive; cases a.vols.activeHandle <;> rfl) fun _ hx => ?_
    refine hx.split freeRoom_zero_iff fun _ hx => ?_
    rw [hx.runs, changeAndLog_eq hk hv, namedIs_some hn]
    rfl

theorem suspendIsLogged (m : Moment) (h : Head) (s : State) (hasked : (arrive m s).asked h 0#8) :
    let a := arrive m s
    let k := h.handle.toNat
    let t := h.ticket 0x04#8
    let c : Instr := .suspend m h
    if 31 < k then s.completes c a [refusal t .badField]
    else if (a.cycle.state != .idle || a.turner.sub == .completing) = true then
      s.completes c a [refusal t .state]
    else match a.vols.get k with
      | none => s.completes c a [refusal t .noVolume]
      | some v =>
        if v.state = .closed then s.completes c a [refusal t .closed]
        else if v.state ≠ .active then s.completes c a [refusal t .state]
        else if a.freeRoom = 0 then s.completes c a [refusal t .logFull]
        else exec c s = .next (sync (appendForReply
          (.volume ⟨k, .suspend, v.cursor, v.doseUsed, v.sidesCovered, v.mark, t, false⟩)
          (a.withVolume k (some { v with state := .suspended })))) := by
  intro a k t c
  have hx : s.checks c m t _ _ := checks_of_asked (exec_suspend m h s) hasked rfl
  refine hx.split badHandle_iff fun hk hx => hx.split busy_iff fun _ hx => ?_
  cases hv : a.vols.get k with
  | none => exact hx.refused (named_isNone hk hv)
  | some v =>
    have hn : a.named t = some v := (named_eq_get hk).trans hv
    refine (hx.passed (named_not_isNone hn)).split (namedIs_state hn .closed) fun _ hx => ?_
    refine hx.split (namedIs_not_state hn .active) fun _ hx => hx.split freeRoom_zero_iff fun _ hx => ?_
    rw [hx.runs, changeAndLog_eq hk hv]
    rfl

theorem closeIsLogged (m : Moment) (h : Head) (s : State) (claimed complement : BitVec 16)
    (hasked : (arrive m s).asked h 0#8) :
    let a := arrive m s
    let k := h.handle.toNat
    let t := h.ticket 0x06#8
    let c : Instr := .closeVolume m h claimed complement
    if 31 < k then s.completes c a [refusal t .badField]
    else if (a.cycle.state != .idle || a.turner.sub == .completing) = true then
      s.completes c a [refusal t .state]
    else match a.vols.get k with
      | none => s.completes c a [refusal t .noVolume]
      | some v =>
        if v.state = .closed then s.completes c a [refusal t .closed]
        else if v.state = .registered then s.completes c a [refusal t .state]
        else if complement.toNat ≠ 65535 - claimed.toNat ∨ v.sidesCovered ≠ claimed.toNat then
          s.completes c a [refusal t .mismatch]
        else if a.freeRoom = 0 then s.completes c a [refusal t .logFull]
        else exec c s = .next (sync (appendForReply
          (.volume ⟨k, .close, v.cursor, v.doseUsed, v.sidesCovered, v.mark, t, false⟩)
          (a.withVolume k (some { v with state := .closed })))) := by
  intro a k t c
  have hx : s.checks c m t _ _ := checks_of_asked (exec_closeVolume m h claimed complement s) hasked rfl
  refine hx.split badHandle_iff fun hk hx => hx.split busy_iff fun _ hx => ?_
  cases hv : a.vols.get k with
  | none => exact hx.refused (named_isNone hk hv)
  | some v =>
    have hn : a.named t = some v := (named_eq_get hk).trans hv
    refine (hx.passed (named_not_isNone hn)).split (namedIs_state hn .closed) fun _ hx => ?_
    refine hx.split (namedIs_state hn .registered) fun _ hx => ?_
    refine hx.split (by rw [namedIs_some hn]; simp) fun _ hx => hx.split freeRoom_zero_iff fun _ hx => ?_
    rw [hx.runs, changeAndLog_eq hk hv]
    rfl

/-- Settles O26: ACTIVATE, SUSPEND and CLOSE_VOLUME, each by its checks and its change. -/
theorem volumeEventsAreLogged : Obligations.VolumeEventsAreLogged := by
  intro m h s a k busy logged hasked
  exact ⟨fun opening => activateIsLogged m h s opening hasked, suspendIsLogged m h s hasked,
    fun claimed complement => closeIsLogged m h s claimed complement hasked⟩

/-! ## SET_OPENING and RETIRE_VOLUME (R16, R24) -/

/-- Settles O27: the checks in their order, then the cursor. -/
theorem setOpeningMovesTheCursor : Obligations.SetOpeningMovesTheCursor := by
  intro m h opening s a k t c hasked
  have hx : s.checks c m t _ _ := checks_of_asked (exec_setOpening m h opening s) hasked rfl
  refine hx.split badHandle_iff fun hk hx => ?_
  refine hx.split (by rw [Bool.or_eq_true, not_idle_iff, completing_iff]) fun _ hx => ?_
  cases hv : a.vols.get k with
  | none => exact hx.refused (named_isNone hk hv)
  | some v =>
    have hn : a.named t = some v := (named_eq_get hk).trans hv
    refine (hx.passed (named_not_isNone hn)).split (namedIs_state hn .closed) fun _ hx => ?_
    refine hx.split (namedIs_not_state hn .active) fun _ hx => ?_
    refine hx.done ?_ (arrive_withVolume_newest m s k _)
    rw [namedIs_some hn]
    exact congrArg (replyDone t _ []) (updVol_withVolume (a := arrive m s) _ hv)

/-- Whether a camera holds a frame of a handle in a FILLED slot (R24). -/
theorem holdsFrameOf_iff (y : CamState) (k : Nat) : y.holdsFrameOf k = true ↔
    ∃ x ∈ y.slots, x.state = .filled ∧ ∃ f : Frame, x.frame = some f ∧ f.handle = some k := by
  simp [CamState.holdsFrameOf]

/-- Settles O28: the checks in their order, then the free handle. -/
theorem retireVolumeFreesTheHandle : Obligations.RetireVolumeFreesTheHandle := by
  intro m h s a k t c held hasked
  have hx : s.checks c m t _ _ := checks_of_asked (exec_retireVolume m h s) hasked rfl
  refine hx.split badHandle_iff fun hk hx => ?_
  cases hv : a.vols.get k with
  | none => exact hx.refused (named_isNone hk hv)
  | some v =>
    have hn : a.named t = some v := (named_eq_get hk).trans hv
    have hx := hx.passed (named_not_isNone hn)
    refine ⟨fun hstate => hx.refused (by rw [namedIs_some hn]; simpa using hstate), fun hstate => ?_⟩
    have hx := hx.passed (by rw [namedIs_some hn]; rcases hstate with q | q <;> simp [q])
    have hheld : ((a.cam .left).holdsFrameOf k || (a.cam .right).holdsFrameOf k) = true ↔
        held a.intake.cams.left ∨ held a.intake.cams.right := by
      rw [Bool.or_eq_true, holdsFrameOf_iff, holdsFrameOf_iff]; rfl
    exact ⟨fun q => hx.refused (hheld.2 q), fun q => (hx.passed (mt hheld.1 q)).done rfl rfl⟩

/-! ## SET_MATERIAL_MAP and SET_CLASS_ENTRY (R7 to R9) -/

/-- Sixteen bytes are read one by one. -/
theorem map_getD_range {α β : Type} (l : List α) (d : α) (f : α → β) {n : Nat} (hl : l.length = n) :
    (List.range n).map (fun i => f (l.getD i d)) = l.map f := by
  subst hl
  refine List.ext_getElem (by simp) fun i h1 h2 => ?_
  simp only [List.length_map, List.length_range] at h1
  simp [List.getD_eq_getElem?_getD, h1]

theorem bad_iff (cls : Byte) (f : ClassFields) : (decide (3 < cls.toNat) || f.bad) = true ↔
    ¬ (cls.toNat ≤ 3 ∧ 1 ≤ f.vacuum.toNat ∧ f.vacuum.toNat ≤ 15 ∧ f.mode.toNat ≤ 1 ∧
      1 ≤ f.holdTimeout.toNat ∧ f.holdTimeout.toNat ≤ 10000 ∧ f.knife.toNat ≤ 1000 ∧
      f.maxRetries.toNat ≤ 7 ∧ f.maxRetakes.toNat ≤ 3 ∧ f.ceiling.toNat ≤ 1023 ∧
      1 ≤ f.doseLimit.toNat ∧ 1 ≤ f.exposure.toNat ∧ f.exposure.toNat ≤ 2000 ∧
      f.baseLevel.toNat ≤ 1023 ∧ f.settle.toNat ≤ 5000 ∧ f.haltMarginal.toNat ≤ 1) := by
  simp only [ClassFields.bad, Bool.or_eq_true, decide_eq_true_eq, beq_iff_eq]
  omega

/-- The entry of fields (R7), its yes/no and mode bytes read as bytes. -/
theorem entry_eq (f : ClassFields) : f.entry =
    { vacuum := f.vacuum.toNat, grip := f.grip.toNat, hold := f.hold.toNat
      mode := if f.mode = 0#8 then .abort else .hold, holdTimeout := f.holdTimeout.toNat
      knife := f.knife.toNat, maxRetries := f.maxRetries.toNat, maxRetakes := f.maxRetakes.toNat
      ceiling := f.ceiling.toNat, doseLimit := f.doseLimit.toNat, exposure := f.exposure.toNat
      baseLevel := f.baseLevel.toNat, settle := f.settle.toNat, haltMarginal := f.haltMarginal == 1#8 } := by
  have hmode : f.mode.toNat = 0 ↔ f.mode = 0#8 := by rw [← BitVec.toNat_inj]; rfl
  have hhalt : (f.haltMarginal.toNat == 1) = (f.haltMarginal == 1#8) := by
    rw [Bool.eq_iff_iff, beq_iff_eq, beq_iff_eq, ← BitVec.toNat_inj]; rfl
  simp only [ClassFields.entry, hmode, hhalt]

/-- Settles O30: the checks in their order, then the map or the entry. -/
theorem classTableIsReplaced : Obligations.ClassTableIsReplaced := by
  constructor
  · intro m h classes s a t c hasked hlen
    have hmap : (List.range 16).map (fun i => (classes.getD i 0#8).toNat) = classes.map BitVec.toNat :=
      map_getD_range classes 0#8 BitVec.toNat hlen
    have hx : s.checks c m t
        [((classes.map BitVec.toNat).any fun c => 3 < c, .badField), (a.vols.activeHandle.isSome, .state)]
        (fun s => replyDone t false [] { s with vols := { s.vols with material := classes.map BitVec.toNat } }) :=
      checks_of_asked (exec_setMaterialMap m h classes s) hasked (by unfold takeSetMaterial; rw [hmap])
    refine hx.split (by simp) fun _ hx => hx.split (activeHandle_isSome_iff _) fun _ hx => ?_
    exact hx.done rfl rfl
  · intro m h cls f s a t c good e hasked
    have hx : s.checks c m t _ _ := checks_of_asked (exec_setClassEntry m h cls f s) hasked rfl
    refine ⟨fun hbad => hx.refused ((bad_iff cls f).2 hbad), fun hgood => ?_⟩
    have hx := hx.passed (by rw [bad_iff]; exact not_not.2 hgood)
    refine hx.split (activeHandle_isSome_iff _) fun _ hx => ?_
    refine hx.done ?_ rfl
    rw [entry_eq]

end Sys2Proof.Machine
end

