-- ==== Sys2Proof/Proofs/Profile.lean ====
section
/-! PROOFS. The loaded values of every profile group are those of the profile bytes, brought into range (O12). -/

namespace Sys2Proof.Machine

/-! ## Bytes, halves, words -/

theorem flashLE_two (b : List Byte) (o : Nat) : flashLE b o 2 = flash8 b o + 256 * flash8 b (o + 1) := by
  simp [flashLE]

theorem flashLE_four (b : List Byte) (o : Nat) :
    flashLE b o 4 = flashLE b o 2 + 65536 * flashLE b (o + 2) 2 := by
  simp only [flashLE, Nat.add_assoc, Nat.reduceAdd]; omega

theorem flashLE_eight (b : List Byte) (o : Nat) :
    flashLE b o 8 = flashLE b o 4 + 4294967296 * flashLE b (o + 4) 4 := by
  simp only [flashLE, Nat.add_assoc, Nat.reduceAdd]; omega

/-- Rounding down to a line boundary (R185). -/
theorem div_mul_sixtyfour (n : Nat) : n / 64 * 64 = n - n % 64 := by omega

/-- A u16 field whose range begins at 0 is only bounded above. -/
theorem clampTo_zero (hi v : Nat) : clampTo 0 hi v = min hi v := by simp [clampTo]

theorem flashIn_zero (b : List Byte) (o hi : Nat) : flashIn b o 0 hi =
    min hi (flash8 b o + 256 * flash8 b (o + 1)) := by
  rw [flashIn, flashLE_two, clampTo_zero]

/-! ## The region map (R186, R195) -/

/-- A number of lines rounded down to a power of two, in 2^0..2^`k`. -/
theorem floorPow2_bounds {n : Nat} (h : 1 ≤ n) : ∀ k, n < 2 ^ (k + 1) →
    ∃ j, floorPow2 n k = 2 ^ j ∧ 2 ^ j ≤ n ∧ n < 2 ^ (j + 1)
  | 0, hk => ⟨0, by simp [floorPow2, h], by simpa using h, hk⟩
  | k + 1, hk => by
    unfold floorPow2
    split
    · exact ⟨k + 1, rfl, ‹_›, hk⟩
    · exact floorPow2_bounds h k (by omega)

/-- The LOG window's length in lines: the largest power of two that fits, in 2^8..2^16 (R185). -/
theorem log_lines {n : Nat} (hn : n < 2 ^ 32) : ∃ k, 8 ≤ k ∧ k ≤ 16 ∧
    clampTo 256 65536 (floorPow2 n 31) = 2 ^ k ∧ (2 ^ k ≤ n ∨ k = 8) ∧ (n < 2 ^ (k + 1) ∨ k = 16) := by
  rcases Nat.eq_zero_or_pos n with rfl | hpos
  · exact ⟨8, le_rfl, by omega, by decide, .inr rfl, .inl (by norm_num)⟩
  obtain ⟨j, hj, hle, hlt⟩ := floorPow2_bounds hpos 31 hn
  rw [hj]
  rcases lt_or_ge j 8 with hlow | hlow
  · have h1 : 2 ^ j ≤ 2 ^ 8 := Nat.pow_le_pow_right (by omega) hlow.le
    have h2 : 2 ^ (j + 1) ≤ 2 ^ 9 := Nat.pow_le_pow_right (by omega) (by omega)
    exact ⟨8, le_rfl, by omega, by simp only [clampTo]; omega, .inr rfl, .inl (by omega)⟩
  rcases lt_or_ge 16 j with hhigh | hhigh
  · have h1 : 2 ^ 16 ≤ 2 ^ j := Nat.pow_le_pow_right (by omega) hhigh.le
    exact ⟨16, by omega, le_rfl, by simp only [clampTo]; omega, .inl (by omega), .inr rfl⟩
  · have h1 : 2 ^ 8 ≤ 2 ^ j := Nat.pow_le_pow_right (by omega) hlow
    have h2 : 2 ^ j ≤ 2 ^ 16 := Nat.pow_le_pow_right (by omega) hhigh
    exact ⟨j, hlow, hhigh, by simp only [clampTo]; omega, .inl hle, .inl hlt⟩

/-- The STATION always writes REQUEST (R185); the others as the byte says. -/
theorem allowed_or_station (r : Requester) (x : BitVec 4) :
    Requester.allowed r (x ||| 0b0001#4) = (r == .station || Requester.allowed r x) := by
  cases r with
  | station => simp [Requester.allowed]
  | camL | camR | service => simp [Requester.allowed]

/-- A loaded geometry's frames are whole lines, at most 2^24 of them (R102, R185). -/
theorem readGeometry_frame (b : List Byte) :
    (readGeometry b).width % 64 = 0 ∧ 64 * ((readGeometry b).frameBytes / 64) = (readGeometry b).frameBytes ∧
      (readGeometry b).frameBytes / 64 ≤ 16777216 := by
  have hwidth : (readGeometry b).width % 64 = 0 := by
    simp only [readGeometry, clampTo]; omega
  have hw : (readGeometry b).width ≤ 8192 := by simp only [readGeometry, clampTo]; omega
  have hh : (readGeometry b).height ≤ 8192 := by simp only [readGeometry, flashIn, clampTo]; omega
  have hprod : (readGeometry b).width * (readGeometry b).height ≤ 8192 * 8192 := Nat.mul_le_mul hw hh
  have hdvd : 64 ∣ (readGeometry b).frameBytes := by
    unfold Geometry.frameBytes
    exact ((Nat.dvd_of_mod_eq_zero hwidth).mul_right _).mul_right _
  refine ⟨hwidth, Nat.mul_div_cancel' hdvd, ?_⟩
  unfold Geometry.frameBytes; omega

/-- An aperture holds a whole frame (R185). -/
theorem aperture_holds {n : Nat} (v : Nat) (h : n ≤ 16777216) : n ≤ clampTo n 16777216 v := by
  simp only [clampTo]; omega

/-! ## The groups -/

theorem readLighting_channel (b : List Byte) (l : Lighting) (i : Nat) (c : Channel)
    (h : l.channels[i]? = some c) : (readLighting b l).channels[i]? = some { c with
      k := flashIn b (2 * i) 0 4095, sideMap := sideMapOf c.sideMap (flash8 b (12 + i)) } := by
  simp [readLighting, List.getElem?_mapIdx, h]

theorem readClasses_get (b : List Byte) (i : Nat) (e d : ClassEntry) (he : (readClasses b)[i]? = some e)
    (hd : ClassEntry.defaults[i]? = some d) : e = readClass b i d := by
  simpa [readClasses, List.getElem?_mapIdx, hd, eq_comm] using he

/-- Settles O12, group by group. -/
theorem loadedValuesAreTheBytesInRange : Obligations.LoadedValuesAreTheBytesInRange := by
  intro b byte half word within
  have hhalf (o : Nat) : flashLE b o 2 = half o := flashLE_two b o
  have hword (o : Nat) : flashLE b o 4 = word o := by rw [flashLE_four, hhalf, hhalf]
  refine ⟨?_, fun l => ⟨?_, by simp [readLighting], fun i c hc => ?_⟩,
    ⟨by simp [readClasses, ClassEntry.defaults], fun i e d he hd => ?_⟩, rfl, ?_, ?_, fun g => ?_⟩
  · unfold readGeometry
    simp only [flashIn, hhalf, div_mul_sixtyfour]
    rfl
  · unfold readLighting
    simp only [flashIn_zero]
    simp only [flashIn, hhalf]
    rfl
  · rw [readLighting_channel b l i c hc, flashIn_zero]
    rfl
  · obtain rfl := readClasses_get b i e d he hd
    refine ⟨?_, fun hzero => ?_, fun hone => ?_⟩
    · unfold readClass
      simp only [flashIn_zero, flashByteIn, clampTo_zero, hword]
      simp only [flashIn, hhalf]
      rfl
    · have hzero : flash8 b (24 * i + 22) = 0 := hzero
      simp [readClass, hzero]
    · have hone : flash8 b (24 * i + 22) = 1 := hone
      simp [readClass, hone]
  · unfold readRules
    simp only [flashIn_zero, hhalf]
    rfl
  · unfold readTurner
    simp only [flashByteIn, clampTo_zero]
    simp only [flashIn, hhalf]
    rfl
  · intro m at0 base lines aperture
    have hbase (i : Nat) : windowBase b i = base i := by
      rw [windowBase, div_mul_sixtyfour, flashLE_eight, hword, hword]
    have hlines (i : Nat) : windowLines b i = lines i := hword _
    have haperture (i : Nat) :
        64 * clampTo (g.frameBytes / 64) 16777216 (windowLines b i) = aperture i := by rw [hlines]; rfl
    refine ⟨?_, fun r => allowed_or_station r _, ?_, ?_, ?_, ?_, ?_, ?_, fun b' hg => ?_⟩
    · rw [← hbase, ← hlines]; rfl
    · rw [← hbase]; rfl
    · rw [← hbase]; rfl
    · obtain ⟨k, hlow, hhigh, hk, hle, hlt⟩ := log_lines (flashLE_lt b 4 (12 * 3 + 8))
      refine ⟨k, hlow, hhigh, ?_, ?_, ?_⟩
      · rw [← hk, ← hbase]; rfl
      · rw [← hlines]; exact hle
      · rw [← hlines]; exact hlt
    · rw [← hbase, ← haperture]; rfl
    · rw [← hbase, ← haperture]; rfl
    · rw [← hbase, ← hlines]; rfl
    · subst hg
      obtain ⟨hwidth, hframe, hmax⟩ := readGeometry_frame b'
      have hfits (i : Nat) : (readGeometry b').frameBytes ≤ aperture i := by
        rw [← haperture]
        calc (readGeometry b').frameBytes = 64 * ((readGeometry b').frameBytes / 64) := hframe.symm
          _ ≤ _ := Nat.mul_le_mul_left 64 (aperture_holds _ hmax)
      exact ⟨hwidth, (hfits 4).trans_eq (haperture 4).symm, (hfits 5).trans_eq (haperture 5).symm⟩

end Sys2Proof.Machine
end

