-- ==== Sys2Proof/Proofs/Cycle.lean ====
section
/-! PROOFS. The opening cycle: a turn is started (O48), an accepted append is heard (O46), and a review's records
and its end (O53). -/

namespace Sys2Proof.Machine

/-! ## Turns and the ends of a run (R32, R45 to R47) -/

theorem active_get {t : VolumeTable} {k : Nat} {v : Volume} (h : t.active = some (k, v)) :
    t.activeHandle = some k ∧ t.get k = some v := by
  rcases active_cases t with ⟨-, hnone⟩ | ⟨j, w, hj, hactive, hget⟩
  · rw [hnone] at h; cases h
  · rw [hactive] at h; cases h; exact ⟨hj, hget⟩

/-- With room the turner is asked; it takes the turn at REST and holds the request while COMPLETING (R59). -/
theorem askTurn_completing {s : State} (hrest : s.turner.state ≠ .rest) (hsub : s.turner.sub = .completing) :
    askTurn s = { s with turner := { s.turner with pendingTurn := true } } := by
  unfold askTurn
  rw [if_neg hrest, if_pos hsub]
  rfl

/-- Settles O48: the run's end at opening L, else the room test and the turner's answer. -/
theorem turnIsStarted : Obligations.TurnIsStarted := by
  intro s r k v hrun hactive turning asked
  have hstart : startTurn s = if v.leaves ≤ v.cursor then runComplete s else tryTurn s := by
    unfold startTurn; rw [hactive]
  refine ⟨fun hlast => ?_, fun hmore => ?_⟩
  · rw [hstart, if_pos hlast]
    exact runComplete_came (came_self s) r hrun
  rw [hstart, if_neg (by omega)]
  refine ⟨fun hshort => if_pos hshort, fun hroom => ?_⟩
  have htry : tryTurn s = askTurn asked := if_neg (by omega)
  rw [htry]
  exact ⟨fun hrest => if_pos hrest, fun hrest hsub => askTurn_completing hrest hsub⟩

/-- PAUSED is entered with its notice (R47). -/
theorem enterPaused_came (p : ResumePoint) (s : State) :
    (enterPaused p s).cameTo s.req.newest (pausedState p s)
      [noticeFields .cyclePaused [(12, u8 (orFF s.vols.activeHandle)), (14, u16 s.vols.cursor),
        (16, u16 s.cycle.stop), (18, u8 p.code)]] := by
  have hpaused := (came_self s).clean (clean_pausedState p)
  have hvols : (pausedState p s).vols = s.vols := by rw [pausedState_eq]
  have hstop : (pausedState p s).cycle.stop = s.cycle.stop := by
    rw [pausedState_eq]; unfold Cycle.stop
    dsimp only
    rw [Option.map_map]
    rfl
  have hnotice := hpaused.notice .cyclePaused [(12, u8 (orFF s.vols.activeHandle)),
    (14, u16 s.vols.cursor), (16, u16 s.cycle.stop), (18, u8 p.code)]
  unfold enterPaused pausedNotice
  rw [hvols, hstop]
  exact hnotice

/-! ## An accepted append is heard (R42, R68, R125, R150) -/

/-- A turn counted leaves the turner at REST; the cycle goes on and a held request is taken (R59, R68). -/
theorem turnDone_eq {s : State} {w : Volume} (hw : s.vols.get s.turner.handle = some w) :
    let e : State := { s.withVolume s.turner.handle (some { w with
        cursor := min (w.cursor + 1) w.leaves, openingDose := 0, turnsDone := satSucc w.turnsDone }) with
      turner := { s.turner with
        state := .rest, stage := none, sub := .none, retry := 0, doubles := 0, stageTimer := .off
        stageTime := none, holdTimer := none, outputs := ⟨.off, false, 0, .off⟩ } }
    let t := if s.cycle.state = .turn then afterTurn e else e
    turnDone s = if t.turner.pendingTurn = true ∧ t.turner.state = .rest then
      takeTurn { t with turner := { t.turner with pendingTurn := false } } else t := by
  intro e t
  unfold turnDone
  rw [updVol_withVolume turnCounted hw]
  rfl

/-- Settles O46: each kind of record's asker, then the turn counted and the cycle after a turn. -/
theorem acceptedAppendIsHeard : Obligations.AcceptedAppendIsHeard := by
  intro s
  refine ⟨fun b j rest next hreview => ?_, fun b hreview => ?_, fun b => rfl, fun b => ?_, fun _ => rfl,
    fun _ => rfl, fun w hw => turnDone_eq hw, fun r hrun => ⟨fun hstep => ?_, fun hstep hpause => ?_,
    fun hstep hpause => ?_⟩⟩
  · unfold afterAccepted
    rw [hreview]
    rfl
  · unfold afterAccepted
    rw [hreview]
  · exact (came_self s).replyDone b.ticket b.clamped []
  · have hafter : afterTurn s = runComplete s := by unfold afterTurn; rw [hrun]; exact if_pos hstep
    rw [hafter, ← hstep]
    exact runComplete_came (came_self s) r hrun
  · have hafter : afterTurn s = enterPaused .beginOpening s := by
      unfold afterTurn; rw [hrun]; exact (if_neg hstep).trans (if_pos hpause)
    have hstop : s.cycle.stop = r.stop := by unfold Cycle.stop; rw [hrun]; rfl
    rw [hafter, ← hstop]
    exact enterPaused_came .beginOpening s
  · unfold afterTurn
    rw [hrun]
    exact (if_neg hstep).trans (if_neg (by simp [hpause]))

/-! ## The records of a review (R18 to R20, R42, R118) -/

theorem frameAt_of_slot {c : CamState} {k : Nat} {f : Frame} (h : (c.slots[k]?.bind Slot.frame) = some f) :
    c.frameAt k = some f := by
  unfold CamState.frameAt
  rw [List.getD_eq_getElem?_getD]
  cases hslot : c.slots[k]? with
  | none => rw [hslot] at h; cases h
  | some x => rw [hslot] at h; exact h

/-- The REPEAT flag (R19) as a test of the coverage before. -/
theorem repeatFlag_eq (v : Verdict) (before : Coverage) : repeatFlag v before =
    ((v == .accepted && before == .taken) || (v == .marginal && before != .absent)) := by
  cases v <;> cases before <;> rfl

/-- A recorded verdict applied to a record (R20): the coverage it leaves, and each counter it raises. -/
theorem applyVerdict_eq (side : Nat) (verdict : Verdict) (repeated : Bool) (w : Volume) :
    let before := w.coverage.getD side .absent
    let after : Coverage := if verdict = .accepted then .taken
      else if verdict = .marginal ∧ before = .absent then .marginal else before
    let counted (x : Nat) (p : Bool) : Nat := if p then satSucc x else x
    applyVerdict side verdict repeated w = { w with
      coverage := w.coverage.set side after
      sidesCovered := if before = .absent ∧ after ≠ .absent ∧ side < w.coverage.length then
        w.sidesCovered + 1 else w.sidesCovered
      framesAccepted := counted w.framesAccepted (verdict == .accepted)
      framesMarginal := counted w.framesMarginal (verdict == .marginal)
      framesRejected := counted w.framesRejected (verdict == .rejected)
      framesDamaged := counted w.framesDamaged (verdict == .damaged)
      repeatFrames := counted w.repeatFrames repeated } := by
  intro before after counted
  unfold applyVerdict
  simp only [after, before, counted]
  generalize w.coverage.getD side .absent = covered
  cases verdict <;> cases covered <;> rfl

/-- A side settled: its slot, its status and its last result (R28, R118). -/
def State.settled (j : Judged) (x : Slot) (last : Option Nat) (u : State) : State := { u with
  cycle := { u.cycle with opening := u.cycle.opening.map fun q =>
    { q with sides := q.sides.set j.cam ⟨j.status, some ⟨j.verdict, j.reason, last⟩⟩ } }
  intake := { u.intake with cams := u.intake.cams.set j.cam { u.intake.cams.get j.cam with
    slots := (u.intake.cams.get j.cam).slots.set j.slot x } } }

/-- A frame neither ACCEPTED nor MARGINAL leaves its slot FREE (R118). -/
theorem settleSide_freed {j : Judged} (u : State) (h1 : j.verdict ≠ .accepted) (h2 : j.verdict ≠ .marginal) :
    settleSide j u = State.settled j ⟨.free, none⟩ none u := by
  obtain ⟨cam, slot, verdict, reason, status⟩ := j
  cases verdict with
  | accepted => exact absurd rfl h1
  | marginal => exact absurd rfl h2
  | rejected | damaged | lost | aborted => rfl

/-- A frame ACCEPTED or MARGINAL leaves its slot FILLED, named in the side's last result (R28, R118). -/
theorem settleSide_filled {j : Judged} {u : State} {f : Frame}
    (h : j.verdict = .accepted ∨ j.verdict = .marginal)
    (hf : ((u.intake.cams.get j.cam).slots[j.slot]?.bind Slot.frame) = some f) :
    settleSide j u = State.settled j ⟨.filled, some { f with verdict := some (j.verdict, j.reason) }⟩
      (some j.slot) u := by
  have hframe : ((u.intake.cams.get j.cam).slots.getD j.slot Slot.empty).frame = some f := frameAt_of_slot hf
  have hcam : CamState.settleFrame j.slot j.verdict j.reason (u.intake.cams.get j.cam) =
      { u.intake.cams.get j.cam with
        slots := (u.intake.cams.get j.cam).slots.set j.slot
          (⟨.filled, some { f with verdict := some (j.verdict, j.reason) }⟩ : Slot) } := by
    rcases h with h | h <;> simp only [CamState.settleFrame, h, hframe] <;> rfl
  have hslot : filledSlot j.verdict j.slot = some j.slot := by rcases h with h | h <;> rw [h] <;> rfl
  unfold settleSide updCam
  rw [hcam, hslot]
  rfl

/-- An accepted FRAME record: the verdict applied to the record, the side settled (R20, R42). -/
theorem frameRecorded_eq {j : Judged} {b : FrameBody} {s : State} {w : Volume} {f : Frame}
    (hw : s.vols.get b.handle = some w)
    (hf : ((s.intake.cams.get j.cam).slots[j.slot]?.bind Slot.frame) = some f) :
    let kept : Prop := j.verdict = .accepted ∨ j.verdict = .marginal
    frameRecorded j b s = State.settled j
      (if kept then ⟨.filled, some { f with verdict := some (j.verdict, j.reason) }⟩ else ⟨.free, none⟩)
      (if kept then some j.slot else none)
      (s.withVolume b.handle (some (applyVerdict b.side b.verdict b.repeated w))) := by
  intro kept
  unfold frameRecorded
  rw [updVol_withVolume _ hw]
  by_cases hkept : kept
  · rw [if_pos hkept, if_pos hkept]
    exact settleSide_filled hkept hf
  · rw [if_neg hkept, if_neg hkept, settleSide_freed _ (fun q => hkept (.inl q)) fun q => hkept (.inr q)]

/-- The FRAME record asked for a judged frame (R42, R148), the REPEAT flag read before (R19). -/
theorem frameBody_eq {s : State} {o : OpeningRecord} {k : Nat} {v : Volume} {j : Judged} {f : Frame}
    (hf : ((s.intake.cams.get j.cam).slots[j.slot]?.bind Slot.frame) = some f) :
    let side := 2 * o.number + cameraCode j.cam
    let before := v.coverage.getD side .absent
    frameBody s o k v j =
      { handle := k, opening := o.number, side := side, cam := j.cam, slot := j.slot
        number := f.number, verdict := j.verdict, reason := j.reason, mean := f.mean, clip := f.clip
        retake := f.retake, corrected := f.corrected, charge := o.charge
        repeated := (j.verdict == .accepted && before == .taken) ||
          (j.verdict == .marginal && before != .absent) } := by
  have hframe : (s.cam j.cam).frameAt j.slot = some f := frameAt_of_slot hf
  unfold frameBody
  rw [hframe, repeatFlag_eq]
  rfl

/-- The next frame of a review but a LOST one: its record is asked for, and where its acceptance waits the
cycle waits with it (R42). -/
theorem recordAll_cons {s : State} {o : OpeningRecord} {k : Nat} {v : Volume} (ho : s.cycle.opening = some o)
    (hv : s.vols.active = some (k, v)) (next : AfterReview) (j : Judged) (rest : List Judged)
    (hj : j.verdict ≠ .lost) :
    let b := frameBody s o k v j
    let q := requestAppend (.frame b) s
    recordAll next (j :: rest) s =
      if q.2 then recordAll next rest (frameRecorded j b q.1)
      else { q.1 with cycle := { q.1.cycle with review := some ⟨j :: rest, next⟩ } } := by
  intro b q
  rw [recordAll, if_neg hj, ho, hv]
  rfl

/-! ## The end of a review (R40, R41, R43, R44) -/

/-- The end of a review, by what follows it. -/
theorem reviewEnds {s : State} {o : OpeningRecord} {k : Nat} {v : Volume} (ho : s.cycle.opening = some o)
    (hv : s.vols.active = some (k, v)) :
    let captured := noticeFields .openingCaptured
      ([(12, u8 (orFF s.vols.activeHandle)), (14, u16 o.number)] ++ sideFields 16 o.sides.left ++
        sideFields 20 o.sides.right)
    let e : State := sync { s with cycle := { s.cycle with review := none } }
    recordAll .finish [] s = finishOpening e ∧
    (o.exposed = false → finishOpening e = finish e) ∧
    (o.exposed = true → ∃ s1, s1.cameTo s.req.newest e [captured] ∧ finishOpening e = finish s1) ∧
    (∀ kind sides, ∃ s1, s1.cameTo s.req.newest e [captured] ∧
      recordAll (.halt kind sides) [] s = haltCapture kind sides s1) ∧
    ∀ sides p, recordAll (.retake sides p) [] s = enterPrepare
      { e.withVolume k (some { v with retakes := satSucc v.retakes }) with
        cycle := { s.cycle with
          review := none
          opening := some { o with retakes := o.retakes + 1, prepared := ⟨sides, some p⟩ } } } := by
  intro captured e
  have hcycle : e.cycle = { s.cycle with review := none } := by simp only [e, sync_cycle]
  have hvols : e.vols = s.vols := by simp only [e, sync_vols]
  have hopening : e.cycle.opening = some o := by rw [hcycle]; exact ho
  have hnewest : e.req.newest = s.req.newest := by simp only [e, sync_newest]
  have hcaptured : (openingCaptured e).cameTo s.req.newest e [captured] := by
    have h := openingCaptured_came (came_self e) o hopening
    rw [hnewest, hvols] at h
    exact h
  have hfinish : finishOpening e = finish (if o.exposed then openingCaptured e else e) := by
    unfold finishOpening; rw [hopening]; rfl
  refine ⟨rfl, fun hdark => ?_, fun hexposed => ⟨_, hcaptured, ?_⟩, fun kind sides => ⟨_, hcaptured, rfl⟩,
    fun sides p => ?_⟩
  · rw [hfinish, hdark]; rfl
  · rw [hfinish, hexposed]; rfl
  · obtain ⟨hhandle, hget⟩ := active_get hv
    have hend : recordAll (.retake sides p) [] s = enterPrepare (updOpening
        (fun o => { o with retakes := o.retakes + 1, prepared := ⟨sides, some p⟩ })
        (updActive (fun v => { v with retakes := satSucc v.retakes }) e)) := rfl
    rw [hend, updActive_withVolume (v := v) _ (by rw [hvols]; exact hhandle) (by rw [hvols]; exact hget)]
    unfold updOpening updCycle
    simp only [State.withVolume, hcycle, ho, Option.map_some]

/-- Settles O53: the review's end, then its frames one by one. -/
theorem reviewRecordsAndEnds : Obligations.ReviewRecordsAndEnds := by
  intro s o k v ho hv captured settled
  refine ⟨reviewEnds ho hv, fun j rest next => ⟨fun hlost => ?_, fun f hj hf => ?_, fun b w f hw hf => ?_⟩⟩
  · rw [recordAll, if_pos hlost, settleSide_freed s (by simp [hlost]) (by simp [hlost])]
    rfl
  · intro side before b q
    have hbody : frameBody s o k v j = b := frameBody_eq hf
    rw [recordAll_cons ho hv next j rest hj, hbody]
  · intro before after counted kept
    rw [frameRecorded_eq hw hf, applyVerdict_eq]
    rfl

end Sys2Proof.Machine
end

