-- ==== Sys2Proof/Proofs/Lamps.lean ====
section
/-! PROOFS. The lamps, the triggers and the frame timer: what cuts, charges and clears the channels, the end of
WARM, the trigger fall and the completion event (O56), the frame timer and a rest loss (O57). -/

namespace Sys2Proof.Machine

/-! ## Channels put out and cleared, and the charge made (R92 to R94, R143) -/

/-- The channels with every lit one put out now, its on-time never above the planned one (R93, R94). -/
def State.cutChannels (s : State) : List Channel :=
  s.light.channels.mapIdx fun i c => if c.lit then c.putOut .off s.now (s.plannedFor i) else c

/-- A channel as the completion event and an abort leave it (R92, R94). -/
def Channel.cleared (c : Channel) : Channel :=
  { c with
    target := 0, onTime := 0, litAt := none, wasLit := false, level := 0
    state := if c.state = .failed then .failed else .off }

/-- The charge of channels lit in an exposure of these levels (R143). -/
def lampCharge (channels : List Channel) (levels : List Nat) : Nat :=
  ((channels.zip levels).map fun q => if q.1.wasLit then dose q.2 q.1.k q.1.onTime else 0).sum

/-- The lighting unit with its channels replaced. -/
def State.withChannels (s : State) (l : List Channel) : State :=
  { s with light := { s.light with channels := l } }

theorem cutLit_eq (s : State) : cutLit s = s.withChannels s.cutChannels := rfl

theorem mapIdx_const {α β : Type} (f : α → β) (l : List α) : l.mapIdx (fun _ c => f c) = l.map f :=
  List.ext_getElem (by simp) fun _ _ _ => by simp

theorem clearChannels_eq (s : State) : clearChannels s = s.withChannels (s.light.channels.map Channel.cleared) := by
  rw [← mapIdx_const]
  rfl

theorem chargeNow_eq (s : State) :
    s.chargeNow = lampCharge s.light.channels s.light.exposure.plan.levels := chargeOf_eq _ _

/-- A charge is handed on whatever the channels are. -/
theorem paid_withChannels (s : State) (l : List Channel) (d : Nat) :
    (s.withChannels l).paid d = (s.paid d).withChannels l := by
  unfold State.paid State.withChannels
  dsimp only
  split
  · rfl
  · cases s.vols.activeHandle with
    | none => rfl
    | some k => dsimp only; cases s.vols.get k <;> rfl

/-- A charge leaves the exposure record as it is. -/
theorem paid_exposure (s : State) (d : Nat) : (s.paid d).light.exposure = s.light.exposure := by
  obtain ⟨cd, cl, vs, h⟩ := paid_eq_parts s d
  rw [h]

theorem paid_channels (s : State) (d : Nat) : (s.paid d).light.channels = s.light.channels := by
  obtain ⟨cd, cl, vs, h⟩ := paid_eq_parts s d
  rw [h]

/-- The charge of a volume exposure changes the volume table alone (R17). -/
theorem paid_of_volume {s : State} (h : s.light.exposure.kind ≠ .calibration) (d : Nat) :
    ∃ vs, s.paid d = { s with vols := vs } := by
  unfold State.paid
  rw [if_neg h]
  cases s.vols.activeHandle with
  | none => exact ⟨s.vols, rfl⟩
  | some k =>
    dsimp only
    cases s.vols.get k with
    | none => exact ⟨s.vols, rfl⟩
    | some v => exact ⟨_, rfl⟩

/-- An exposure ended: its record NONE, the channels as given. -/
def State.exposureOver (s e : State) (channels : List Channel) : State :=
  { e with light := { e.light with exposure := { s.light.exposure with phase := .none }, channels := channels } }

/-- The running exposure is cut, charged and cleared (R94). -/
theorem cutAndCharged_eq (s : State) :
    updExposure (fun e => { e with phase := .none })
      (clearChannels (makeCharge (cutLit s).chargeNow (cutLit s))) =
      s.exposureOver (s.paid (lampCharge s.cutChannels s.light.exposure.plan.levels))
        (s.cutChannels.map Channel.cleared) := by
  have hcharge : (cutLit s).chargeNow = lampCharge s.cutChannels s.light.exposure.plan.levels := chargeNow_eq _
  rw [hcharge, makeCharge_paid, clearChannels_eq, cutLit_eq, paid_withChannels]
  generalize hpaid : s.paid (lampCharge s.cutChannels s.light.exposure.plan.levels) = u
  have hexposure : u.light.exposure = s.light.exposure := by rw [← hpaid]; exact paid_exposure s _
  unfold updExposure State.withChannels State.exposureOver
  simp only [hexposure]

/-! ## Triggers (R91, R107, R108) -/

/-- A frame record changed is its slot modified. -/
theorem updFrame_slots (c : CamState) (k : Nat) (f : Frame → Frame) :
    c.updFrame k f = { c with slots := c.slots.modify k fun z => { z with frame := z.frame.map f } } := by
  have hslots (f : Slot → Slot) : c.slots.set k (f (c.slots.getD k Slot.empty)) = c.slots.modify k f := by
    refine List.ext_getElem? fun i => ?_
    rw [List.getElem?_set, List.getElem?_modify]
    by_cases hi : k = i
    · subst hi
      by_cases hk : k < c.slots.length <;> simp [hk]
    · simp [hi]
  rw [← hslots]
  rfl

/-- The slots after the frame a camera still awaited or received has ended DAMAGED (R107). -/
def CamState.brokenSlots (g : Geometry) (y : CamState) : List Slot :=
  if y.intakeRec.state = .waitFirst ∨ y.intakeRec.state = .receiving then
    match y.intakeRec.armed with
    | some j => y.slots.modify j fun z => { z with frame := z.frame.map fun f => { f with
        ending := .damaged, reason := .sequence, sum := y.intakeRec.sum, clip := y.intakeRec.clip
        mean := y.intakeRec.sum / (g.width * g.height) } }
    | none => y.slots
  else y.slots

theorem busy_iff_state {r : IntakeRecord} : r.busy = true ↔ r.state = .waitFirst ∨ r.state = .receiving := by
  simp [IntakeRecord.busy]

theorem endFrame_broken (g : Geometry) (y : CamState) :
    (if y.intakeRec.busy then y.endFrame g .damaged .sequence else y) =
      { y with slots := y.brokenSlots g } := by
  unfold CamState.brokenSlots
  by_cases hbusy : y.intakeRec.busy = true
  · rw [if_pos hbusy, if_pos (busy_iff_state.1 hbusy)]
    unfold CamState.endFrame
    cases harmed : y.intakeRec.armed with
    | none => rfl
    | some j => exact updFrame_slots y j _
  · rw [if_neg hbusy, if_neg (mt busy_iff_state.2 hbusy)]

/-- A camera triggered: its next frame number, its pending table and setting active, its intake waiting for a
first line (R107). -/
theorem trigger_eq (g : Geometry) (calibration lamp : Bool) (fall : Nat) (y : CamState) :
    y.trigger g calibration lamp fall = match y.awaiting with
      | none => y
      | some k =>
        let n := if y.counter = max32 then 1 else y.counter + 1
        let table := if y.pendingTableFlag then y.pendingTable else y.activeTable
        let setting := if y.pendingCorrectionFlag then y.pendingCorrection else y.activeCorrection
        let used := setting && !calibration
        { y with
          counter := n
          activeTable := table, pendingTableFlag := false
          activeCorrection := setting, pendingCorrectionFlag := false
          slots := (y.brokenSlots g).modify k fun z => { z with
            frame := z.frame.map fun f => { f with number := n, corrected := used } }
          intakeRec :=
            { state := .waitFirst, armed := some k, expected := 0
              remaining := g.width * g.height * 2, dataError := false
              lamp := lamp, table := table, corrected := used, sum := 0, clip := 0
              bands := List.replicate 64 0, trigger := some fall, timer := none } } := by
  unfold CamState.trigger
  cases y.awaiting with
  | none => rfl
  | some k =>
    dsimp only
    rw [endFrame_broken, updFrame_slots]
    rfl

theorem fireTrigger_cams (w : Camera) (s : State) : fireTrigger w s =
    if s.light.exposure.sides.has w then
      updCam w (CamState.trigger s.intake.geo (s.light.exposure.kind == .calibration)
        s.light.exposure.lampFault s.fallMoment) s
    else s := rfl

/-- WARM ends: both cameras of the exposure triggered (R91, R107). -/
theorem fireTriggers_eq (u : State) :
    let fired (y : CamState) : CamState := CamState.trigger u.intake.geo
      (u.light.exposure.kind == .calibration) u.light.exposure.lampFault u.fallMoment y
    fireTriggers u = { u with
      light := { u.light with exposure := { u.light.exposure with
        triggered := true, phase := if u.light.exposure.phase = .ending then .ending else .capture } }
      intake := { u.intake with cams :=
        ⟨if u.light.exposure.sides.left = true then fired u.intake.cams.left else u.intake.cams.left,
          if u.light.exposure.sides.right = true then fired u.intake.cams.right else u.intake.cams.right⟩ } } := by
  intro fired
  have hleft : fireTrigger .left u = { u with intake := { u.intake with cams :=
      ⟨if u.light.exposure.sides.left = true then fired u.intake.cams.left else u.intake.cams.left,
        u.intake.cams.right⟩ } } := by
    rw [fireTrigger_cams]
    cases hside : u.light.exposure.sides.left <;> simp only [Sides.has, hside] <;> rfl
  unfold fireTriggers
  rw [hleft, fireTrigger_cams]
  cases hside : u.light.exposure.sides.right <;> simp only [Sides.has, hside] <;> rfl

theorem warmEnds_iff (s : State) : s.warmEnds = true ↔
    (s.light.exposure.phase = .rampUp ∨ s.light.exposure.phase = .warm ∨ s.light.exposure.phase = .ending) ∧
      s.light.exposure.triggered = false ∧
      s.light.exposure.startedAt + ms (s.light.exposure.plan.span + s.light.warm) ≤ s.now := by
  simp [State.warmEnds, State.clockAt, and_assoc, or_assoc]

/-- The end of WARM when due (R91). -/
theorem warmEnd_completes (m : Moment) (s : State) :
    let a := arrive m s
    (¬ a.warmEnds = true → s.completes (.warmEnd m) a []) ∧
      (a.warmEnds = true → s.completes (.warmEnd m) (fireTriggers a) []) := by
  intro a
  refine ⟨fun h => completes_now (exec_warmEnd m s) (if_neg h), fun h => ?_⟩
  exact completes_exact (exec_warmEnd m s) (if_pos h) (by rw [fireTriggers_eq])

/-! ## The trigger fall (R91, R95, R108) -/

/-- A camera after a trigger fall at `now`: its trigger low if its hold has ended, the frame timer started unless
the frame has ended (R108, R113). -/
theorem triggerFalls_eq (now : Nat) (g : Geometry) (y : CamState)
    [Decidable (∃ t, y.intakeRec.trigger = some t ∧ t ≤ now)] :
    y.triggerFalls now g = if (∃ t, y.intakeRec.trigger = some t ∧ t ≤ now) then
      { y with intakeRec := { y.intakeRec with
        trigger := none
        timer := if y.intakeRec.state = .idle then y.intakeRec.timer
          else some (now + ms g.frameTimeout) } } else y := by
  unfold CamState.triggerFalls
  split
  next t htrigger =>
    by_cases hdue : t ≤ now
    · rw [if_pos hdue, if_pos ⟨t, htrigger, hdue⟩]
      rfl
    · have hlater : ¬ ∃ t, y.intakeRec.trigger = some t ∧ t ≤ now := by
        rintro ⟨x, hx, hle⟩
        exact hdue (by rw [htrigger, Option.some.injEq] at hx; omega)
      rw [if_neg hdue, if_neg hlater]
  next htrigger => rw [if_neg (by simp [htrigger])]

/-- The channels as a trigger fall leaves them, every lit one in RAMP_DOWN (R91). -/
def State.rampedDown (s : State) : List Channel := s.light.channels.map fun y =>
  if y.lit then { y with state := .rampDown, nextStep := s.fallMoment + ms 1 } else y

theorem beginRampDown_eq (s : State) : beginRampDown s.fallMoment s = { s with light := { s.light with
    exposure := { s.light.exposure with phase := .rampDown }, channels := s.rampedDown } } := by
  unfold State.rampedDown
  rw [← mapIdx_const]
  rfl

/-- Ramping down puts no channel out. -/
theorem rampedDown_lit (s : State) : s.rampedDown.any Channel.lit = s.anyLit := by
  unfold State.rampedDown State.anyLit
  rw [List.any_map]
  congr 1
  funext y
  by_cases hy : y.lit = true
  · simp only [Function.comp_apply, hy]; rfl
  · simp only [Function.comp_apply, if_neg hy]

/-- What the lighting unit does at a trigger fall, by the phase (R91, R95). -/
theorem lightsAtFall_due {s : State} (hfired : s.light.exposure.triggered = true) (hdue : s.fallMoment ≤ s.now) :
    (s.light.exposure.phase = .capture → lightsAtFall s =
      if s.anyLit = true then beginRampDown s.fallMoment s else exposureEnds (beginRampDown s.fallMoment s)) ∧
    (s.light.exposure.phase = .ending → lightsAtFall s = exposureEnds s) ∧
    (s.light.exposure.phase ≠ .capture → s.light.exposure.phase ≠ .ending → lightsAtFall s = s) := by
  unfold lightsAtFall
  rw [if_pos ⟨hfired, hdue⟩]
  refine ⟨fun hphase => ?_, fun hphase => ?_, fun h1 h2 => ?_⟩
  · rw [hphase]
    have hlit : (beginRampDown s.fallMoment s).anyLit = s.anyLit := by
      rw [beginRampDown_eq]; exact rampedDown_lit s
    dsimp only
    rw [hlit]
  · rw [hphase]
  · cases hphase : s.light.exposure.phase with
    | capture => exact absurd hphase h1
    | ending => exact absurd hphase h2
    | none | admitted | rampUp | warm | rampDown => rfl

theorem lightsAtFall_early {s : State} (h : s.light.exposure.triggered = false ∨ s.now < s.fallMoment) :
    lightsAtFall s = s := by
  refine if_neg fun hdue => ?_
  rcases h with h | h
  · rw [h] at hdue; exact absurd hdue.1 (by simp)
  · omega

/-- The cameras after a trigger fall (R108). -/
def State.triggersLow (s : State) : State := { s with intake := { s.intake with
  cams := ⟨s.intake.cams.left.triggerFalls s.now s.intake.geo,
    s.intake.cams.right.triggerFalls s.now s.intake.geo⟩ } }

/-- The trigger fall (R91, R108). -/
theorem triggerFall_completes (m : Moment) (s : State) :
    let a := arrive m s
    let x := a.light.exposure
    let c : Instr := .triggerFall m
    let e := a.triggersLow
    (x.triggered = false ∨ a.now < a.fallMoment → s.completes c e []) ∧
    (x.triggered = true → a.fallMoment ≤ a.now →
      (x.phase = .capture →
        let e1 : State := { e with light := { a.light with
          exposure := { x with phase := .rampDown }, channels := a.rampedDown } }
        if a.anyLit = true then s.completes c e1 [] else s.leads c exposureEnds e1 []) ∧
      (x.phase = .ending → s.leads c exposureEnds e []) ∧
      (x.phase ≠ .capture → x.phase ≠ .ending → s.completes c e [])) := by
  intro a x c e
  have hx := exec_triggerFall m s
  refine ⟨fun hearly => completes_now hx (lightsAtFall_early (s := e) hearly), fun hfired hdue => ?_⟩
  obtain ⟨hcapture, hending, hother⟩ := lightsAtFall_due (s := e) hfired hdue
  refine ⟨?_, fun hphase => leads_now hx (hending hphase), fun h1 h2 => completes_now hx (hother h1 h2)⟩
  intro hphase e1
  have hfall := hcapture hphase
  rw [beginRampDown_eq] at hfall
  split
  · exact completes_now hx (hfall.trans (if_pos ‹_›))
  · exact leads_now hx (hfall.trans (if_neg ‹_›))

/-! ## The completion of an exposure (R38, R92) -/

/-- The completion event (R91, R92). -/
theorem exposureCompletion_completes (m : Moment) (s : State) :
    let a := arrive m s
    let c : Instr := .exposureCompletion m
    (a.light.exposure.phase ≠ .rampDown ∨ a.anyLit = true → s.completes c a []) ∧
    (a.light.exposure.phase = .rampDown → a.anyLit = false → s.leads c exposureEnds a []) := by
  intro a c
  have hx := exec_exposureCompletion m s
  refine ⟨fun hnot => completes_now hx (if_neg fun hdue => ?_), fun hphase hdark =>
    leads_now hx (if_pos ⟨hphase, by simpa using hdark⟩)⟩
  exact hnot.elim (fun h => h hdue.1) fun h => hdue.2 h

/-- What the lighting unit leaves at the completion event: the charge made unless a rest loss made it, the
channels cleared, the record NONE (R92). -/
theorem completeExposure_eq (u : State) :
    let x := u.light.exposure
    let charge := if x.charged then 0 else lampCharge u.light.channels x.plan.levels
    let paid := if x.charged then u else u.paid charge
    completeExposure u = (u.exposureOver paid (u.light.channels.map Channel.cleared), charge) := by
  intro x charge paid
  unfold completeExposure
  rw [chargeNow_eq]
  by_cases hcharged : x.charged = true
  · have hpaid : paid = u := if_pos hcharged
    have hcharge : charge = 0 := if_pos hcharged
    rw [if_pos hcharged, hpaid, hcharge]
    dsimp only
    rw [if_pos hcharged, clearChannels_eq]
    rfl
  · have hcharge : charge = lampCharge u.light.channels x.plan.levels := if_neg hcharged
    have hpaid : paid = u.paid charge := if_neg hcharged
    rw [if_neg hcharged, hpaid, ← hcharge]
    dsimp only
    rw [if_neg hcharged, clearChannels_eq, makeCharge_paid]
    have hexposure : (u.paid charge).light.exposure = u.light.exposure := paid_exposure u charge
    have hchannels : (u.paid charge).light.channels = u.light.channels := paid_channels u charge
    unfold updExposure State.withChannels State.exposureOver
    simp only [hexposure, hchannels]

/-- The completion event reports to the calibration, or the cycle reviews (R38, R92, R124). -/
theorem exposureEnds_eq (u : State) :
    let x := u.light.exposure
    let charge := if x.charged then 0 else lampCharge u.light.channels x.plan.levels
    let paid := if x.charged then u else u.paid charge
    let e := u.exposureOver paid (u.light.channels.map Channel.cleared)
    exposureEnds u =
      if x.kind = .calibration then
        calCheck { e with cycle := { e.cycle with
          cal := e.cycle.cal.map fun y => { y with exposureDone := true } } }
      else if u.cycle.state = .expose then
        reviewCheck { sync e with cycle := { u.cycle with
          state := .review, sub := .none
          opening := if x.charged then u.cycle.opening
            else u.cycle.opening.map fun o => { o with charge := charge } } }
      else e := by
  intro x charge paid e
  unfold exposureEnds
  rw [completeExposure_eq u]
  by_cases hkind : x.kind = .calibration
  · rw [if_pos hkind, if_pos hkind]
    rfl
  rw [if_neg hkind, if_neg hkind]
  have hcycle : e.cycle = u.cycle := by
    show paid.cycle = u.cycle
    by_cases hcharged : x.charged = true
    · rw [show paid = u from if_pos hcharged]
    · obtain ⟨vs, hvs⟩ := paid_of_volume hkind charge
      rw [show paid = u.paid charge from if_neg hcharged, hvs]
  show (if e.cycle.state = .expose then reviewCheck (enterCycle .review .none
    (if x.charged then sync e else noteCharge charge (sync e))) else e) = _
  rw [hcycle]
  split
  · congr 1
    have hsync : (sync e).cycle = u.cycle := by rw [sync_cycle, hcycle]
    have hkind' : (sync e).light.exposure.kind ≠ .calibration := by rw [sync_light]; exact hkind
    by_cases hcharged : x.charged = true
    · rw [if_pos hcharged, if_pos hcharged]
      unfold enterCycle updCycle
      rw [hsync]
    · rw [if_neg hcharged, if_neg hcharged]
      unfold noteCharge enterCycle updCycle
      rw [if_neg hkind', hsync]
  · rfl

/-- Settles O56: the three events, then what firing and the completion make of the state. -/
theorem triggersRiseFallAndComplete : Obligations.TriggersRiseFallAndComplete := by
  refine ⟨fun m s => ?_, fun u => ?_⟩
  · intro a x lit
    refine ⟨?_, ?_, exposureCompletion_completes m s⟩
    · intro c due
      obtain ⟨hnot, hdue⟩ := warmEnd_completes m s
      exact ⟨fun q => hnot (mt (warmEnds_iff a).1 q), fun q => hdue ((warmEnds_iff a).2 q)⟩
    · intro c fallen e t
      have he : e = a.triggersLow := by
        have hfallen (y : CamState) : fallen y = y.triggerFalls a.now a.intake.geo :=
          (triggerFalls_eq a.now a.intake.geo y).symm
        simp only [e, hfallen]
        rfl
      rw [he]
      exact triggerFall_completes m s
  · refine ⟨?_, exposureEnds_eq u⟩
    intro awaits changed fired
    have hfired (y : CamState) : fired y = CamState.trigger u.intake.geo
        (u.light.exposure.kind == .calibration) u.light.exposure.lampFault u.fallMoment y := by
      have hawaits : awaits = Slot.awaits := by
        funext z
        simp only [awaits, Slot.awaits]
        cases z.frame <;> rfl
      rw [trigger_eq]
      simp only [fired, hawaits, CamState.awaiting]
      cases y.slots.findIdx? Slot.awaits <;> rfl
    rw [fireTriggers_eq]
    simp only [hfired]

/-! ## The frame timer (R115) -/

/-- The frame timer of a camera with no frame in flight ends draining (R115). -/
theorem expire_idle {y : CamState} (g : Geometry) (h1 : y.intakeRec.state ≠ .waitFirst)
    (h2 : y.intakeRec.state ≠ .receiving) :
    y.expire g = { y with intakeRec := { y.intakeRec with state := .idle, timer := none } } := by
  have hbusy : ¬ y.intakeRec.busy = true := by rw [busy_iff_state]; exact not_or.2 ⟨h1, h2⟩
  have hstate : (if y.intakeRec.state = .draining then IntakeState.idle else y.intakeRec.state) = .idle := by
    cases hstate : y.intakeRec.state with
    | waitFirst => exact absurd hstate h1
    | receiving => exact absurd hstate h2
    | idle | draining => rfl
  unfold CamState.expire CamState.setIntake
  rw [if_neg hbusy]
  dsimp only
  rw [hstate]

/-- The frame timer of a camera with a frame in flight ends the frame LOST (R115). -/
theorem expire_busy {y : CamState} (g : Geometry) {k : Nat} {st : SlotState} {f : Frame}
    (hbusy : y.intakeRec.busy = true) (harmed : y.intakeRec.armed = some k)
    (hslot : y.slots[k]? = some ⟨st, some f⟩) :
    y.expire g = { y with
      slots := y.slots.set k ⟨st, some { f with
        ending := .lost, reason := .timeout, sum := y.intakeRec.sum, clip := y.intakeRec.clip
        mean := y.intakeRec.sum / (g.width * g.height) }⟩
      intakeRec := { y.intakeRec with state := .idle, armed := none, timer := none } } := by
  have hget : y.slots.getD k Slot.empty = ⟨st, some f⟩ := by
    rw [List.getD_eq_getElem?_getD, hslot]; rfl
  unfold CamState.expire CamState.endFrame CamState.setIntake
  rw [if_pos hbusy, harmed]
  dsimp only [CamState.updFrame, CamState.putSlot]
  rw [hget]
  rfl

/-- The frame timer, not due (R115). -/
theorem frameTimerExpires_early {s : State} {cam : Camera}
    (h : ∀ t, (s.cam cam).intakeRec.timer = some t → s.now < t) : frameTimerExpires cam s = s := by
  unfold frameTimerExpires
  cases htimer : (s.cam cam).intakeRec.timer with
  | none => rfl
  | some t => exact if_neg (Nat.not_le.2 (h t htimer))

/-- The frame timer, due: a frame still in flight is reported (R115, R118). -/
theorem frameTimerExpires_due {s : State} {cam : Camera} {t : Nat}
    (htimer : (s.cam cam).intakeRec.timer = some t) (hdue : t ≤ s.now) :
    frameTimerExpires cam s =
      if (s.cam cam).intakeRec.busy then frameReported (updCam cam (CamState.expire s.intake.geo) s)
      else updCam cam (CamState.expire s.intake.geo) s := by
  unfold frameTimerExpires
  rw [htimer]
  exact if_pos hdue

/-! ## A rest loss (R95) -/

theorem refreshPark_eq (s : State) : refreshPark s = { s with
    turner := if s.turner.state = .turning ∧
        (s.turner.stage = some .platenRise ∨ s.turner.sub = .retryPause) then
      { s.turner with outputs := { s.turner.outputs with
        arm := if s.lines.armParked then .off else .toPark } } else s.turner } := by
  unfold refreshPark; split <;> rfl

theorem running_iff {p : Phase} : p.running = true ↔
    p = .rampUp ∨ p = .warm ∨ p = .capture ∨ p = .rampDown := by
  cases p <;> simp [Phase.running]

/-- The opening record after a rest loss, of a volume exposure with the fault and the charge noted (R38, R142). -/
def State.openingLost (e : State) (charge : Nat) : Option OpeningRecord :=
  if e.light.exposure.kind = .calibration then e.cycle.opening
  else e.cycle.opening.map fun o => { o with lampFault := true, charge := charge }

/-- A rest loss under the lamps, all but the end of an exposure whose triggers had fallen: every lamp put out, the
charge made and noted, the fault marked on the exposure and its frames (R95, R143). -/
def State.restLost (e : State) : State :=
  let charge := lampCharge e.cutChannels e.light.exposure.plan.levels
  let paid := e.paid charge
  { paid with
    light := { paid.light with
      channels := e.cutChannels
      exposure := { e.light.exposure with phase := .ending, lampFault := true, charged := true } }
    cycle := { paid.cycle with opening := e.openingLost charge }
    intake := { e.intake with cams := ⟨e.intake.cams.left.markLamp, e.intake.cams.right.markLamp⟩ } }

theorem restLost_req (e : State) : e.restLost.req = e.req := by
  obtain ⟨cd, cl, vs, hpaid⟩ := paid_eq_parts e (lampCharge e.cutChannels e.light.exposure.plan.levels)
  show (e.paid _).req = e.req
  rw [hpaid]

theorem lightsAtRestLoss_eq (e : State) : lightsAtRestLoss e =
    if e.light.exposure.phase = .rampDown then exposureEnds e.restLost else e.restLost := by
  have hcharge : (cutLit e).chargeNow = lampCharge e.cutChannels e.light.exposure.plan.levels := chargeNow_eq _
  have hlost : updExposure (fun x => { x with phase := .ending })
      (reportLampFault (updExposure (fun x => { x with charged := true })
        (noteCharge (cutLit e).chargeNow (makeCharge (cutLit e).chargeNow (cutLit e))))) = e.restLost := by
    rw [hcharge, makeCharge_paid, cutLit_eq, paid_withChannels]
    unfold State.restLost State.openingLost
    dsimp only
    obtain ⟨cd, cl, vs, hpaid⟩ := paid_eq_parts e (lampCharge e.cutChannels e.light.exposure.plan.levels)
    rw [hpaid]
    unfold reportLampFault noteLampFault noteCharge State.withChannels
    by_cases hkind : e.light.exposure.kind = .calibration
    · simp only [updExposure, if_pos hkind]
      rfl
    · simp only [updExposure, if_neg hkind, Option.map_map]
      rfl
  have hfallen : (e.light.exposure.phase == Phase.rampDown) = true ↔ e.light.exposure.phase = .rampDown := by simp
  unfold lightsAtRestLoss
  dsimp only
  rw [hlost]
  simp only [hfallen]

/-- Settles O57: the frame timer, then a rest loss. -/
theorem frameTimeoutAndRestLoss : Obligations.FrameTimeoutAndRestLoss := by
  refine ⟨fun m cam s => ?_, fun m input s => ?_⟩
  · intro a c y r with'
    have hx := exec_frameTimeout m cam s
    refine ⟨fun hearly => completes_now hx (frameTimerExpires_early hearly), fun t htimer hdue => ⟨?_, ?_⟩⟩
    · intro h1 h2
      have hbusy : ¬ (a.cam cam).intakeRec.busy = true := by rw [busy_iff_state]; exact not_or.2 ⟨h1, h2⟩
      refine completes_now hx ((frameTimerExpires_due htimer hdue).trans ((if_neg hbusy).trans ?_))
      exact congrArg with' (expire_idle _ h1 h2)
    · intro k st f hstate harmed hslot
      have hbusy : (a.cam cam).intakeRec.busy = true := busy_of_state hstate
      refine leads_now hx ((frameTimerExpires_due htimer hdue).trans ((if_pos hbusy).trans ?_))
      exact congrArg (fun z => frameReported (with' z)) (expire_busy _ hbusy harmed hslot)
  · intro a c x t lines e planned lit running
    have hx := exec_restLoss m input s
    have he : refreshPark (setLines (RestInput.drop input) a) = e := by
      rw [refreshPark_eq]
      cases input <;> rfl
    have hnewest : e.req.newest = (arrive m s).req.newest := rfl
    have hrunning : running ↔ e.light.exposure.phase.running = true := running_iff.symm
    refine ⟨fun hdark => completes_exact hx ?_ hnewest, fun hlit => ?_⟩
    · dsimp only
      rw [show refreshPark (setLines (RestInput.drop input) (arrive m s)) = e from he]
      exact if_neg (mt hrunning.2 hdark)
    · intro chans charge paid t
      have hlost : e.restLost.req.newest = (arrive m s).req.newest := congrArg RequestUnit.newest (restLost_req e)
      have hstart : (fun u : State => if u.light.exposure.phase.running then lightsAtRestLoss u else u)
          (refreshPark (setLines (RestInput.drop input) a)) =
          if x.phase = .rampDown then exposureEnds e.restLost else e.restLost := by
        rw [he]
        exact (if_pos (hrunning.1 hlit)).trans (lightsAtRestLoss_eq e)
      show if x.phase = .rampDown then s.leads c exposureEnds e.restLost [] else s.completes c e.restLost []
      split
      next hfall => exact leads_now hx (hstart.trans (if_pos hfall)) hlost
      next hstands => exact completes_exact hx (hstart.trans (if_neg hstands)) hlost

end Sys2Proof.Machine
end

