-- ==== Sys2Proof/Proofs/Log.lean ====
section
/-! PROOFS. The capture log's appends (O22, O45): what an append's request leaves, its acceptance, and how both
queues grow meanwhile. -/

namespace Sys2Proof.Machine

/-! ## Both queues grow at their ends (R168) -/

/-- The own-traffic queue and the wait list of `t` continue those of `s`, but for the contents of status
lines. -/
def State.grewTo (s t : State) : Prop :=
  s.transit.queue.map OwnEntry.fixed <+: t.transit.queue.map OwnEntry.fixed ∧ s.transit.wait <+: t.transit.wait

theorem State.grewTo.trans {s t u : State} (h : s.grewTo t) (g : t.grewTo u) : s.grewTo u :=
  ⟨h.1.trans g.1, h.2.trans g.2⟩

theorem grewTo_sync (s : State) : s.grewTo (sync s) := sync_fifo s

theorem grewTo_lowTest (s : State) : s.grewTo (lowTest s) := lowTest_fifo s

theorem grewTo_waitFor (w : Waiting) (id : Nat) (s : State) : s.grewTo (waitFor w id s) :=
  ⟨List.prefix_rfl, List.prefix_append _ _⟩

theorem grewTo_markNextAppend (s : State) : s.grewTo (markNextAppend s) := by
  rcases markNextAppend_eq s with h | ⟨j, h⟩ <;> rw [h]
  · exact ⟨List.prefix_rfl, List.prefix_rfl⟩
  · exact (grewTo_sync s).trans (grewTo_waitFor .append j (bumpId (sync s)))

/-- A place is what the queue's length and the wait list say (R168). -/
theorem hasPlace_iff (t : Transit) : t.hasPlace = true ↔ t.wait = [] ∧ t.queue.length < 16 := by
  simp [Transit.hasPlace, and_comm]

/-- Where something waits or the queue is full, no later item finds a place (R168). -/
theorem State.grewTo.no_place {s t : State} (h : s.grewTo t)
    (hs : s.transit.wait ≠ [] ∨ 16 ≤ s.transit.queue.length) : ¬ t.transit.hasPlace = true := by
  rw [hasPlace_iff]
  rintro ⟨hwait, hlength⟩
  have hle := h.1.length_le
  rw [List.length_map, List.length_map] at hle
  rcases hs with hs | hs
  · exact hs (List.prefix_nil.1 (hwait ▸ h.2))
  · omega

/-- An entry that is no status line's write is queued as it was fixed (R169). -/
theorem mem_of_mem_fixed {q : List OwnEntry} {e : OwnEntry} (h : e ∈ q.map OwnEntry.fixed)
    (he : ∀ k, e.origin ≠ .status k) : e ∈ q := by
  obtain ⟨y, hy, hfixed⟩ := List.mem_map.1 h
  have horigin : y.fixed.origin = y.origin := by unfold OwnEntry.fixed; split <;> rfl
  have hsame : y.fixed = y := by
    unfold OwnEntry.fixed
    split
    next k hk => exact absurd (by rw [← hfixed, horigin, hk]) (he k)
    all_goals rfl
  rw [← hfixed, hsame]
  exact hy

/-- An entry that joined at the end is still queued (R168, R169). -/
theorem queued_of_fixed {q : List OwnEntry} {l : List OwnEntry} {e : OwnEntry}
    (h : l ++ [e] <+: q.map OwnEntry.fixed) (he : ∀ k, e.origin ≠ .status k) : e ∈ q :=
  mem_of_mem_fixed (h.subset (by simp)) he

/-- A wait list item stays while the list grows. -/
theorem State.grewTo.waits {s t : State} (h : s.grewTo t) {w : WaitItem} (hw : w ∈ s.transit.wait) :
    w ∈ t.transit.wait := h.2.subset hw

/-! ## Acceptance of the head append (R150, R21) -/

/-- The record in use at an append's handle takes the record number (R21). -/
def State.touched (s : State) (handle : Option Nat) (n : Nat) : State :=
  match handle with
  | some h => updVol h (touchRecords n) s
  | none => s

theorem clean_touched (handle : Option Nat) (n : Nat) : Clean fun s => s.touched handle n := by
  cases handle with
  | none => exact clean_id
  | some h => exact clean_updVol h _

theorem touched_log (s : State) (handle : Option Nat) (n : Nat) : (s.touched handle n).log = s.log := by
  cases handle with
  | none => rfl
  | some h => unfold State.touched updVol; dsimp only; split <;> rfl

theorem touched_transit (s : State) (handle : Option Nat) (n : Nat) :
    (s.touched handle n).transit = s.transit := by
  cases handle with
  | none => rfl
  | some h => unfold State.touched updVol; dsimp only; split <;> rfl

theorem touched_setLog (s : State) (handle : Option Nat) (n : Nat) (l : CaptureLog) :
    ({ s.touched handle n with log := l } : State) = State.touched { s with log := l } handle n := by
  cases handle with
  | none => rfl
  | some h =>
    unfold State.touched updVol
    dsimp only
    cases s.vols.get h <;> rfl

/-- The record in use at the append's handle, with the number noted (R21). -/
theorem touched_eq (s : State) (handle : Option Nat) (n : Nat) : s.touched handle n =
    match handle with
    | none => s
    | some k => match s.vols.get k with
      | none => s
      | some v => s.withVolume k (some { v with
          firstRecord := if v.firstRecord = 0 then n else v.firstRecord, lastRecord := n }) := by
  cases handle with
  | none => rfl
  | some k =>
    show updVol k (touchRecords n) s = _
    dsimp only
    cases hv : s.vols.get k with
    | none => exact updVol_none _ hv
    | some v => exact updVol_withVolume _ hv

theorem touched_freeRoom (s : State) (handle : Option Nat) (n : Nat) :
    (s.touched handle n).freeRoom = s.freeRoom := by
  unfold State.freeRoom State.cap
  rw [touched_log, touched_transit]

theorem touched_cap (s : State) (handle : Option Nat) (n : Nat) : (s.touched handle n).cap = s.cap := by
  unfold State.cap
  rw [touched_transit]

/-- The LOG_LOW mark is spent (R155). -/
def State.lowSpent (s : State) : State := { s with log := { s.log with lowMark := .spent } }

theorem lowSpent_touched (s : State) (handle : Option Nat) (n : Nat) :
    (s.touched handle n).lowSpent = s.lowSpent.touched handle n := by
  unfold State.lowSpent
  rw [touched_log]
  exact touched_setLog s handle n _

/-- The list's head numbered: what its acceptance makes of the log (R150). -/
def State.numbered (s : State) (more : List Append) : State :=
  { s with log := { s.log with appended := s.log.appended + 1, appends := more } }

/-- The queue's entry of the append accepted next (R146). -/
def State.recordEntry (s : State) (x : Append) (id : Nat) : OwnEntry :=
  ⟨id, s.recordAddr (s.log.appended + 1), some (recordLine x (s.log.appended + 1) s.sinceReady), .record⟩

theorem recordEntry_came {s e : State} {k : Nat} {fs : List Fields} (h : s.cameTo k e fs) (x : Append) (id : Nat) :
    s.recordEntry x id = e.recordEntry x id := by
  unfold State.recordEntry State.recordAddr State.cap State.sinceReady
  rw [log_came h, map_came h, now_came h, start_came h]

/-- The head's acceptance before the next append is marked and the LOG_LOW test made. -/
def State.headQueued (s : State) (x : Append) (more : List Append) (id : Nat) : State :=
  State.touched { s.numbered more with transit := { s.transit with
    queue := s.transit.queue ++ [s.recordEntry x id] } } x.handle (s.log.appended + 1)

theorem acceptHead_eq {s : State} {x : Append} {more : List Append} (h : s.log.appends = x :: more) (id : Nat) :
    acceptHead id s = lowTest (markNextAppend (s.headQueued x more id)) := by
  unfold acceptHead
  rw [h]
  rfl

/-- What the acceptance of the head append leaves, but for paperwork (R150, R155). -/
theorem acceptHead_came {s e : State} {k : Nat} {fs : List Fields} {x : Append} {more : List Append}
    (h : s.cameTo k e fs) (happends : e.log.appends = x :: more) (id : Nat) :
    let noted := (e.numbered more).touched x.handle (e.log.appended + 1)
    let low : Bool := e.log.lowMark == .armed && noted.freeRoom ≤ e.cap / 8
    (acceptHead id s).cameTo k (if low then noted.lowSpent else noted)
      (fs ++ if low then [noticeFields .logLow [(12, u32 (e.log.appended + 1)), (16, u32 e.log.taken),
        (20, u32 noted.freeRoom)]] else []) := by
  intro noted low
  have hlog : s.log = e.log := log_came h
  rw [acceptHead_eq (hlog ▸ happends)]
  have hqueued : (s.headQueued x more id).cameTo k noted fs := by
    unfold State.headQueued
    rw [hlog]
    refine State.cameTo.clean (clean_touched x.handle (e.log.appended + 1)) ?_
    have hnumbered : (s.numbered more).cameTo k (e.numbered more) fs :=
      setLog_came (fun l => { l with appended := l.appended + 1, appends := more }) h
    exact enqueue_came _ _ _ _ hnumbered
  have hnoted : noted.log = (e.numbered more).log := touched_log _ _ _
  have hcap : noted.cap = e.cap := touched_cap _ _ _
  have htest : (lowTest (markNextAppend (s.headQueued x more id))).cameTo k
      (if noted.log.lowMark == .armed && noted.freeRoom ≤ noted.cap / 8 then noted.lowSpent else noted)
      (fs ++ if noted.log.lowMark == .armed && noted.freeRoom ≤ noted.cap / 8 then
        [noticeFields .logLow [(12, u32 noted.log.appended), (16, u32 noted.log.taken), (20, u32 noted.freeRoom)]]
        else []) := lowTest_came (markNextAppend_came hqueued)
  rw [hnoted, hcap] at htest
  exact htest

/-- The head's write joins the queue's end, and both queues only grow (R150, R168). -/
theorem acceptHead_grows {s : State} {x : Append} {more : List Append} (happends : s.log.appends = x :: more)
    (id : Nat) :
    s.transit.queue.map OwnEntry.fixed ++ [s.recordEntry x id] <+:
        (acceptHead id s).transit.queue.map OwnEntry.fixed ∧
      (more ≠ [] → s.log.appended + 1 < max32 →
        ∃ j, ⟨j, .append⟩ ∈ (acceptHead id s).transit.wait) := by
  rw [acceptHead_eq happends]
  have hgrown := (grewTo_markNextAppend (s.headQueued x more id)).trans (grewTo_lowTest _)
  have hqueue : (s.headQueued x more id).transit.queue = s.transit.queue ++ [s.recordEntry x id] :=
    congrArg Transit.queue (touched_transit _ _ _)
  refine ⟨?_, fun hmore hnumber => ?_⟩
  · have hfifo := hgrown.1
    rw [hqueue, List.map_append] at hfifo
    exact hfifo
  · have hlog : (s.headQueued x more id).log = (s.numbered more).log := touched_log _ _ _
    have hmarked : ¬ ((s.headQueued x more id).log.appends = [] ∨
        (s.headQueued x more id).log.appended = max32) := by
      rw [hlog]
      rintro (hnone | hlast)
      · exact hmore hnone
      · exact absurd hlast (Nat.ne_of_lt hnumber)
    have hmark : ∃ j, (⟨j, .append⟩ : WaitItem) ∈ (markNextAppend (s.headQueued x more id)).transit.wait := by
      unfold markNextAppend
      rw [if_neg hmarked]
      exact ⟨_, List.mem_append_right _ (List.mem_singleton_self _)⟩
    obtain ⟨j, hj⟩ := hmark
    exact ⟨j, (grewTo_lowTest _).waits hj⟩

/-! ## An append requested (R150, R152, R155) -/

/-- The status lines are made current and the append joins the list (R150). -/
def State.listing (s : State) (x : Append) : State :=
  { sync s with log := { s.log with appends := s.log.appends ++ [x] } }

/-- Bringing the status lines up to date leaves the log (R181). -/
theorem sync_setLog (f : CaptureLog → CaptureLog) (s : State) :
    ({ sync s with log := f (sync s).log } : State) = { sync s with log := f s.log } := by
  rw [sync_log]

/-- An append is requested, from the state in which it is listed and the LOG_LOW test made (R150). -/
theorem requestAppend_eq (x : Append) (s : State) : requestAppend x s =
    let w := lowTest (s.listing x)
    match w.log.appends with
    | [_] =>
      if w.transit.hasPlace ∧ w.log.appended < max32 then (acceptHead w.transit.nextId (bumpId w), true)
      else (markNextAppend w, false)
    | _ => (w, false) := by
  rw [show s.listing x = _ from (sync_setLog (fun l => { l with appends := l.appends ++ [x] }) s).symm]
  rfl

/-- The listed append, but for paperwork. -/
theorem listing_came (x : Append) (s : State) :
    (s.listing x).cameTo s.req.newest { s with log := { s.log with appends := s.log.appends ++ [x] } } [] := by
  have h := setLog_came (fun l => { l with appends := l.appends ++ [x] }) (came_self s).sync
  rw [sync_log] at h
  exact h

/-- The LOG_LOW test at an append's request: the notice, with the mark spent (R155). -/
theorem lowTest_listing (x : Append) (s : State) :
    let listed : State := { s with log := { s.log with appends := s.log.appends ++ [x] } }
    let low : Bool := s.log.lowMark == .armed && listed.freeRoom ≤ s.cap / 8
    let asked : State := { sync s with log := { listed.log with
      lowMark := if low then .spent else s.log.lowMark } }
    lowTest (s.listing x) = if low then writeEntry (noticeFields .logLow [(12, u32 s.log.appended),
      (16, u32 s.log.taken), (20, u32 listed.freeRoom)]) .entry asked else asked := by
  intro listed low asked
  obtain ⟨hroom, hcap⟩ : (s.listing x).freeRoom = listed.freeRoom ∧ (s.listing x).cap = s.cap :=
    freeRoom_came (listing_came x s)
  have hlow : low = true ↔
      (s.listing x).log.lowMark = .armed ∧ (s.listing x).freeRoom ≤ (s.listing x).cap / 8 := by
    rw [hroom, hcap]
    simp only [low, Bool.and_eq_true, beq_iff_eq, decide_eq_true_eq]
    rfl
  unfold lowTest
  by_cases h : low = true
  · have hasked : asked = (s.listing x).lowSpent := by simp only [asked, if_pos h]; rfl
    rw [if_pos (hlow.1 h), if_pos h, hasked, hroom]
    rfl
  · have hasked : asked = s.listing x := by simp only [asked, if_neg h]; rfl
    rw [if_neg (mt hlow.2 h), if_neg h, hasked]

theorem grewTo_listing (x : Append) (s : State) : s.grewTo (s.listing x) := grewTo_sync s

/-- With 10 entries queued and nothing waiting an append's write finds a place, the status lines and a notice
before it (R168). -/
theorem listing_place (x : Append) {s : State} (hwait : s.transit.wait = [])
    (hqueue : s.transit.queue.length ≤ 10) :
    (lowTest (s.listing x)).transit.hasPlace = true := by
  have hroom := roomy_weaken (n' := 14) (roomy_self hwait) (by omega)
  have hlisted : Roomy 14 (snapshotWrites s.transit.queue) [] (s.listing x) :=
    roomy_setLog _ (roomy_sync hroom (by omega))
  exact roomy_hasPlace (roomy_lowTest hlisted (by omega)) (by omega)

/-- Marking an append that can be accepted queues its wait item behind the status lines of what came before
(R150, R181). -/
theorem markNextAppend_waiting {s : State} (h : s.log.appends ≠ []) (hn : s.log.appended < max32) :
    markNextAppend s = { sync s with transit := { (sync s).transit with
      wait := (sync s).transit.wait ++ [⟨(sync s).transit.nextId, .append⟩]
      nextId := (sync s).transit.nextId + 1 } } := by
  unfold markNextAppend
  rw [if_neg (not_or.2 ⟨h, Nat.ne_of_lt hn⟩)]
  rfl

/-- The LOG_LOW test at the acceptance of the only append: the free room is what its request left, but for the
last number of all (R150, R155; notes/assumptions/50.md). -/
theorem lowAtAcceptance_iff {s listed accepted : State} (hlisted : listed.freeRoom =
      s.cap - (s.log.appended - s.log.taken) - 1)
    (haccepted : accepted.freeRoom = if s.log.appended + 1 = max32 then 0
      else s.cap - (s.log.appended + 1 - s.log.taken))
    (hn : s.log.taken ≤ s.log.appended ∨ s.log.appended + 1 = max32) (mark : LowMark)
    (hmark : mark = if s.log.lowMark == .armed && decide (listed.freeRoom ≤ s.cap / 8) then .spent
      else s.log.lowMark) :
    (mark == .armed && decide (accepted.freeRoom ≤ s.cap / 8)) =
      (s.log.appended + 1 == max32 && mark == .armed) := by
  by_cases hlast : s.log.appended + 1 = max32
  · rw [haccepted, if_pos hlast, hlast]
    cases mark <;> simp
  · have htaken : s.log.taken ≤ s.log.appended := hn.resolve_right hlast
    have hsame : accepted.freeRoom = listed.freeRoom := by
      rw [haccepted, if_neg hlast, hlisted]
      omega
    have hnot : (s.log.appended + 1 == max32) = false := beq_false_of_ne hlast
    rw [hnot, hsame, hmark, Bool.false_and]
    split
    next => rfl
    next hnotLow => simpa using hnotLow

/-- Settles O22: the oldest waiting item is the head append, so its acceptance runs. -/
theorem waitingAppendIsAccepted : Obligations.WaitingAppendIsAccepted := by
  intro m s id rest x more a n hwait hplace happends logged noted low
  let u : State := { a with transit := { a.transit with wait := rest } }
  have hrun : admitOldest WaitItem.isAppend a = afterAccepted x (acceptHead id u) := by
    unfold admitOldest
    rw [hwait]
    dsimp only
    rw [if_pos ⟨hplace, rfl⟩]
    show acceptWaiting id u = _
    unfold acceptWaiting
    rw [show u.log.appends = x :: more from happends]
  have hcame : u.cameTo s.req.newest a [] := ⟨rfl, rfl⟩
  have haccepted := acceptHead_came hcame happends id
  obtain ⟨hqueue, hmarked⟩ := acceptHead_grows (s := u) happends id
  refine ⟨acceptHead id u, ?_, ?_, hqueue, hmarked⟩
  · rw [exec_logAppendAccept]
    exact congrArg (fun t => Host.Outcome.next (sync t)) hrun
  · exact haccepted

/-- Settles O45: the listed append and the LOG_LOW test, then the three ways its acceptance can go. -/
theorem appendIsAcceptedOrListed : Obligations.AppendIsAcceptedOrListed := by
  intro x s q n listed low mark logLow notices after asked w place
  have hw : lowTest (s.listing x) = w := lowTest_listing x s
  have hcame : w.cameTo s.req.newest after notices := by
    have htest : (lowTest (s.listing x)).cameTo s.req.newest (if low then listed.lowSpent else listed) notices :=
      lowTest_came (listing_came x s)
    rw [hw] at htest
    refine htest.cast (congrArg State.bare ?_)
    by_cases h : low = true
    · simp only [after, mark, if_pos h]; rfl
    · simp only [after, mark, if_neg h]; rfl
  have hplace : place ↔ w.transit.hasPlace = true := (hasPlace_iff w.transit).symm
  have hlog : w.log = after.log := log_came hcame
  have hq : q = match w.log.appends with
      | [_] => if w.transit.hasPlace ∧ w.log.appended < max32 then (acceptHead w.transit.nextId (bumpId w), true)
        else (markNextAppend w, false)
      | _ => (w, false) := by rw [← hw]; exact requestAppend_eq x s
  have halone (h : s.log.appends = []) : w.log.appends = [x] := by
    rw [hlog]
    show s.log.appends ++ [x] = _
    rw [h]
    rfl
  have hgrown : s.grewTo w := hw ▸ (grewTo_listing x s).trans (grewTo_lowTest _)
  refine ⟨hcame, fun hwait hqueue => hplace.2 (hw ▸ listing_place x hwait hqueue),
    fun hfull => mt hplace.1 (hgrown.no_place hfull), ?_, ?_, ?_, ?_⟩
  · intro hlisted
    cases happends : s.log.appends with
    | nil =>
      have hlast : w.log.appended = max32 := by rw [hlog]; exact hlisted.resolve_left (fun h => h happends)
      have hmark : markNextAppend w = w := if_pos (.inr hlast)
      rw [hq, halone happends]
      dsimp only
      rw [if_neg (fun h => absurd hlast (Nat.ne_of_lt h.2)), hmark]
    | cons y l =>
      have hbehind : w.log.appends = y :: (l ++ [x]) := by
        rw [hlog]
        show s.log.appends ++ [x] = _
        rw [happends]
        rfl
      rw [hq, hbehind]
      cases l <;> rfl
  · intro hnone hnumber hnoplace v
    have hwaits : q = (markNextAppend w, false) := by
      rw [hq, halone hnone]
      exact if_neg fun h => hnoplace (hplace.2 h.1)
    rw [hwaits]
    refine ⟨?_, markNextAppend_came hcame⟩
    rw [markNextAppend_waiting (by rw [halone hnone]; simp) (by rw [hlog]; exact hnumber)]
  · intro hnone hhere hn htaken last logged
    have hnow : q = (acceptHead w.transit.nextId (bumpId w), true) := by
      rw [hq, halone hnone]
      exact if_pos ⟨hplace.1 hhere, by rw [hlog]; exact hn⟩
    rw [hnow]
    have happends : after.log.appends = [x] := hlog ▸ halone hnone
    let noted := (after.numbered []).touched x.handle n
    have haccepted := acceptHead_came (bumpId_came hcame) happends w.transit.nextId
    refine ⟨rfl, ?_, w.transit.nextId, ?_⟩
    · have hlast : last = (s.log.appended + 1 == max32 && mark == .armed) := rfl
      have hroom : noted.freeRoom = if s.log.appended + 1 = max32 then 0
          else s.cap - (s.log.appended + 1 - s.log.taken) := touched_freeRoom _ _ _
      have hlistedRoom : listed.freeRoom = s.cap - (s.log.appended - s.log.taken) - 1 := by
        unfold State.freeRoom
        rw [if_neg (by show s.log.appended ≠ max32; omega)]
        show _ - (s.log.appends ++ [x]).length = _
        rw [hnone]
        rfl
      have hkey : (mark == .armed && decide (noted.freeRoom ≤ s.cap / 8)) = last :=
        lowAtAcceptance_iff hlistedRoom hroom htaken mark rfl
      have hstate : (if last then noted.lowSpent else noted) = logged.touched x.handle n := by
        have hlogged : logged = { after.numbered [] with log := { (after.numbered []).log with
            lowMark := if last then .spent else mark } } := by
          simp only [logged, State.numbered, after, listed, hnone]
          rfl
        rw [hlogged]
        by_cases h : last = true
        · rw [if_pos h, if_pos h, lowSpent_touched]
          rfl
        · rw [if_neg h, if_neg h]
          rfl
      have hfields : (if last then [noticeFields .logLow [(12, u32 n), (16, u32 s.log.taken),
          (20, u32 noted.freeRoom)]] else []) = if last then
          [noticeFields .logLow [(12, u32 n), (16, u32 s.log.taken), (20, u32 0)]] else [] := by
        by_cases h : last = true
        · have hfull : s.log.appended + 1 = max32 := beq_iff_eq.1 (Bool.and_eq_true_iff.1 (hlast ▸ h)).1
          rw [hroom, if_pos hfull]
        · rw [if_neg h, if_neg h]
      refine State.cameTo.cast (s := logged.touched x.handle n) ?_
        (congrArg State.bare (touched_eq logged x.handle n))
      rw [← hfields, ← hstate, ← hkey]
      exact haccepted
    · have hqueued := queued_of_fixed (acceptHead_grows (s := bumpId w) (halone hnone) w.transit.nextId).1
        (fun k => by simp [State.recordEntry])
      rw [recordEntry_came (bumpId_came hcame)] at hqueued
      exact hqueued
  · exact congrArg (fun t => if s.freeRoom = 0 then t else q.1)
      (sync_setLog (fun l => { l with unloggedFaults := satSucc l.unloggedFaults }) s)

end Sys2Proof.Machine
end

