-- ==== Sys2Proof/Proofs/Waits.lean ====
section
/-! PROOFS. The wait list's oldest item (O21) and snapshots (O29): what each waiting item leaves in the queue, and
how its block goes on. -/

namespace Sys2Proof.Machine

/-! ## Growing queues -/

theorem State.grewTo.refl (s : State) : s.grewTo s := ⟨List.prefix_rfl, List.prefix_rfl⟩

theorem State.grewTo.of_transit {s t : State} (h : t.transit = s.transit) : s.grewTo t := by
  unfold State.grewTo
  rw [h]
  exact ⟨List.prefix_rfl, List.prefix_rfl⟩

theorem fixed_of_not_status {e : OwnEntry} (he : ∀ k, e.origin ≠ .status k) : e.fixed = e := by
  unfold OwnEntry.fixed
  split
  next k hk => exact absurd hk (he k)
  all_goals rfl

/-- An entry that is no status line's write stays queued (R169). -/
theorem State.grewTo.queued {s t : State} (h : s.grewTo t) {e : OwnEntry} (he : e ∈ s.transit.queue)
    (ho : ∀ k, e.origin ≠ .status k) : e ∈ t.transit.queue :=
  mem_of_mem_fixed (h.1.subset (List.mem_map.2 ⟨e, he, fixed_of_not_status ho⟩)) ho

theorem grewTo_enqueue (addr : Nat) (content : Option Line) (o : Origin) (id : Nat) (s : State) :
    s.grewTo (enqueue addr content o id s) :=
  ⟨by rw [show (enqueue addr content o id s).transit.queue = s.transit.queue ++ _ from rfl, List.map_append]
      exact List.prefix_append _ _, List.prefix_rfl⟩

theorem grewTo_writeEntry (f : Fields) (o : Origin) (s : State) : s.grewTo (writeEntry f o s) :=
  writeEntry_fifo f o s

theorem grewTo_placeGainRead (c : Camera) (second : Bool) (s : State) :
    s.grewTo (placeGainRead c second none s).1 := by
  unfold placeGainRead
  cases (s.cam c).load with
  | none => exact .refl s
  | some l =>
    dsimp only
    split
    next => exact (grewTo_sync s).trans (grewTo_enqueue _ _ _ _ (bumpId (sync s)))
    next => exact (grewTo_sync s).trans (grewTo_waitFor _ _ (bumpId (sync s)))

theorem grewTo_snapshotReply (s : State) : s.grewTo (snapshotReply s) := by
  unfold snapshotReply
  split
  next => exact .refl s
  next p _ =>
    have hwritten := grewTo_writeEntry (replyFields p.ticket .done 0 false false [(12, u8 p.mapLines)])
      .snapshotReply s
    generalize writeEntry _ .snapshotReply s = w at hwritten ⊢
    dsimp only
    split
    next => exact hwritten
    next => exact hwritten

theorem grewTo_snapshotPlace : ∀ (l : List (Nat × Line)) (s : State), s.grewTo (snapshotPlace l s)
  | [], s => grewTo_snapshotReply s
  | (a, x) :: l, s => by
    unfold snapshotPlace
    dsimp only
    split
    next =>
      exact ((grewTo_sync s).trans (grewTo_enqueue a (some x) .snapshotLine _ (bumpId (sync s)))).trans
        (grewTo_snapshotPlace l _)
    next => exact (grewTo_sync s).trans (grewTo_waitFor .snapshotLine _ (bumpId (sync s)))

/-- An entry that joins the queue stands behind what was queued, whatever joins later (R168). -/
theorem joined_of_grewTo {u t : State} {e : OwnEntry} (he : ∀ k, e.origin ≠ .status k)
    (h : (enqueue e.addr e.content e.origin e.id u).grewTo t) :
    u.transit.queue.map OwnEntry.fixed ++ [e] <+: t.transit.queue.map OwnEntry.fixed := by
  have hfifo := h.1
  rw [show (enqueue e.addr e.content e.origin e.id u).transit.queue = u.transit.queue ++ [e] from rfl,
    List.map_append, List.map_singleton, fixed_of_not_status he] at hfifo
  exact hfifo

/-- An entry that joined the queue is still in it (R168, R169). -/
theorem queued_of_grewTo {u t : State} {e : OwnEntry} (he : ∀ k, e.origin ≠ .status k)
    (h : (enqueue e.addr e.content e.origin e.id u).grewTo t) : e ∈ t.transit.queue :=
  queued_of_fixed (joined_of_grewTo he h) he

/-! ## The oldest waiting item (R168) -/

/-- The state with these items left waiting. -/
def State.waitRest (s : State) (rest : List WaitItem) : State :=
  { s with transit := { s.transit with wait := rest } }

theorem admitOldest_heads {a : State} {w : WaitItem} {rest : List WaitItem} {p : WaitItem → Bool}
    (hwait : a.transit.wait = w :: rest) (hplace : a.transit.queue.length < 16) (hp : p w = true) :
    admitOldest p a = joinQueue w (a.waitRest rest) := by
  unfold admitOldest
  rw [hwait]
  exact if_pos ⟨hplace, hp⟩

theorem admitOldest_stays {a : State} {p : WaitItem → Bool}
    (h : ∀ w rest, a.transit.wait = w :: rest → p w = true → 16 ≤ a.transit.queue.length) :
    admitOldest p a = a := by
  unfold admitOldest
  split
  next => rfl
  next w rest hwait =>
    refine if_neg fun hjoins => ?_
    have hfull := h w rest hwait hjoins.2
    omega

/-- The oldest waiting item joins the queue. -/
theorem exec_joins {m : Moment} {s : State} {w : WaitItem} {rest : List WaitItem}
    (hwait : (arrive m s).transit.wait = w :: rest) (hplace : (arrive m s).transit.queue.length < 16) :
    exec (.ownTrafficWaitAdmit m) s = .next (sync (joinQueue w ((arrive m s).waitRest rest))) := by
  rw [exec_ownTrafficWaitAdmit]
  exact congrArg (fun t => Host.Outcome.next (sync t)) (admitOldest_heads hwait hplace rfl)

/-! ## A status line that joins (R181) -/

/-- A write of status line `k` is queued that holds what the line shows now, and the line was composed so, or its
number has none. -/
def State.lineJoined (s : State) (id addr k : Nat) : Prop :=
  ⟨id, addr, some (statusLine k s), .status k⟩ ∈ s.transit.queue ∧
    (s.req.shown.getD k none = none ∨ s.req.shown.getD k none = some (statusLine k s))

theorem getD_set_ne {α : Type} (l : List α) (x d : α) {i j : Nat} (h : i ≠ j) :
    (l.set i x).getD j d = l.getD j d := by
  simp [List.getD_eq_getElem?_getD, List.getElem?_set_ne h]

/-- Bringing another status line up to date leaves a joined one. -/
theorem placeStatus_lineJoined {s : State} {id addr k j : Nat} (h : s.lineJoined id addr k) (hj : j ≠ k) :
    (placeStatus j s).lineJoined id addr k := by
  obtain ⟨hqueued, hshown⟩ := h
  have hline : statusLine k (placeStatus j s) = statusLine k s :=
    statusLine_congr (placeStatus_bare j s) (placeStatus_newest j s) k
  unfold State.lineJoined
  rw [hline]
  have hnew (x : Line) : (s.req.shown.set j (some x)).getD k none = s.req.shown.getD k none := getD_set_ne _ _ _ hj
  unfold placeStatus
  dsimp only
  split
  next =>
    refine ⟨List.mem_map.2 ⟨_, hqueued, ?_⟩, by rw [← hnew] at hshown; exact hshown⟩
    exact if_neg fun heq => hj (Origin.status.inj heq).symm
  next =>
    split
    next => exact ⟨hqueued, hshown⟩
    next =>
      split
      next => exact ⟨List.mem_append_left _ hqueued, by rw [← hnew] at hshown; exact hshown⟩
      next => exact ⟨hqueued, hshown⟩

theorem syncLine_lineJoined {s : State} {id addr k : Nat} (j : Nat) (h : s.lineJoined id addr k) :
    (syncLine j s).lineJoined id addr k := by
  unfold syncLine
  split
  next => exact h
  next l hl =>
    split
    next => exact h
    next hchanged =>
      refine placeStatus_lineJoined h fun hj => ?_
      subst hj
      rcases h.2 with hnone | hsame
      · rw [hnone] at hl
        exact absurd hl (by simp)
      · rw [hsame, Option.some.injEq] at hl
        exact hchanged hl.symm

theorem sync_lineJoined {s : State} {id addr k : Nat} (h : s.lineJoined id addr k) :
    (sync s).lineJoined id addr k :=
  syncLine_lineJoined 3 (syncLine_lineJoined 2 (syncLine_lineJoined 1 (syncLine_lineJoined 0 h)))

/-- A waiting status line is composed as it joins the queue (R181). -/
theorem joinQueue_status (id k : Nat) (u : State) :
    (joinQueue ⟨id, .status k⟩ u).lineJoined id (u.statusAddr k) k := by
  refine ⟨List.mem_append_right _ (List.mem_singleton_self _), ?_⟩
  show (u.req.shown.set k (some (statusLine k u))).getD k none = none ∨
    (u.req.shown.set k (some (statusLine k u))).getD k none = some (statusLine k u)
  by_cases hk : k < u.req.shown.length
  · exact .inr (by simp [List.getD_eq_getElem?_getD, hk])
  · exact .inl (by simp [List.getD_eq_getElem?_getD, hk])

/-! ## A snapshot's lines and its reply (R26) -/

/-- A write placed is queued or waits (R168). -/
theorem placeWrite_onItsWay (addr : Nat) (l : Line) (o : Origin) (s : State) :
    (∃ j, ⟨j, addr, some l, o⟩ ∈ (placeWrite addr l o s).transit.queue) ∨
      ∃ j, ⟨j, .write addr l o⟩ ∈ (placeWrite addr l o s).transit.wait := by
  unfold placeWrite
  dsimp only
  split
  next => exact .inl ⟨_, List.mem_append_right _ (List.mem_singleton_self _)⟩
  next => exact .inr ⟨_, List.mem_append_right _ (List.mem_singleton_self _)⟩

/-- An entry of the reply list of any origin is on its way to its line (R178). -/
theorem writeEntry_onItsWay (fs : Fields) {o : Origin} (s : State) (ho : ∀ k, o ≠ .status k) :
    let n := satSucc s.req.newest
    let line := compose ((0, u32 n) :: fs)
    (writeEntry fs o s).req.newest = n ∧
      ((∃ j, ⟨j, s.entryAddr n, some line, o⟩ ∈ (writeEntry fs o s).transit.queue) ∨
        ∃ j, ⟨j, .write (s.entryAddr n) line o⟩ ∈ (writeEntry fs o s).transit.wait) := by
  intro n line
  have hnumber : satSucc (sync s).req.newest = n := by rw [sync_newest]
  have haddr : (sync s).entryAddr n = s.entryAddr n := by unfold State.entryAddr; rw [sync_map]
  obtain ⟨u, hplaced, hu⟩ : ∃ u, placeEntry fs o (sync s) =
      placeWrite ((sync s).entryAddr (satSucc (sync s).req.newest))
        (compose ((0, u32 (satSucc (sync s).req.newest)) :: fs)) o u ∧
      u.req.newest = satSucc (sync s).req.newest := ⟨_, rfl, rfl⟩
  rw [hnumber, haddr] at hplaced
  rw [hnumber] at hu
  unfold writeEntry
  rw [hplaced]
  have hgrown := grewTo_sync (placeWrite (s.entryAddr n) line o u)
  refine ⟨by rw [sync_newest, placeWrite_req, hu], ?_⟩
  rcases placeWrite_onItsWay (s.entryAddr n) line o u with ⟨j, hj⟩ | ⟨j, hj⟩
  · exact .inl ⟨j, hgrown.queued hj ho⟩
  · exact .inr ⟨j, hgrown.waits hj⟩

/-! ## A verification's next record (R157) -/

/-- The held test at the record next to be read: either nothing is left, or the first record still held (R157). -/
theorem skipReused_eq {v : Verify} {limit : Nat} (h : v.next ≤ v.last) :
    let n := max v.next (limit + 1)
    (v.last < n → v.skipReused limit =
        { v with next := v.last + 1, notHeld := v.notHeld + (v.last + 1 - v.next) }) ∧
      (n ≤ v.last → v.skipReused limit = { v with next := n, notHeld := v.notHeld + (n - v.next) }) := by
  intro n
  unfold Verify.skipReused
  dsimp only
  refine ⟨fun hover => ?_, fun hheld => ?_⟩
  · have hall : min limit v.last = v.last := by omega
    rw [hall, if_pos h]
    congr 1
    omega
  · have hlimit : min limit v.last = limit := by omega
    rw [hlimit]
    split
    next hreused =>
      have hn : n = limit + 1 := by omega
      rw [hn]
      congr 1
      omega
    next hkept =>
      have hn : n = v.next := by omega
      rw [hn, Nat.sub_self]
      rfl

/-- A granted verify read ends the verification where no record is held any more (R157, R158). -/
theorem verifyAdvance_over {u : State} {v x : Verify} (grant : Option Nat) (hv : u.log.verify = some v)
    (hx : v.skipReused (u.log.appended - u.cap) = x) (hover : x.last < x.next) :
    verifyAdvance grant u =
      replyDone x.ticket false (verifyResults x) { u with log := { u.log with verify := none } } := by
  unfold verifyAdvance
  rw [hv]
  dsimp only
  rw [hx, if_pos hover]

/-- A granted verify read is that of the next record still held (R157). -/
theorem verifyAdvance_held {u : State} {v x : Verify} (id : Nat) (hv : u.log.verify = some v)
    (hx : v.skipReused (u.log.appended - u.cap) = x) (hheld : ¬ x.last < x.next) :
    verifyAdvance (some id) u = enqueue (u.recordAddr x.next) none .verifyRead id
      { u with log := { u.log with verify := some x } } := by
  unfold verifyAdvance
  rw [hv]
  dsimp only
  rw [hx, if_neg hheld]
  rfl

/-- A granted gain read is queued, and the second follows the first (R121). -/
theorem placeGainReads_granted {u : State} {w : Camera} {g : GainLoad} (second : Bool) (id : Nat)
    (hload : (u.cam w).load = some g) :
    placeGainReads w second (some id) u =
      let v := enqueue (g.addr + if second then 64 else 0) none (.gainRead w second) id u
      if second then v else (placeGainRead w true none v).1 := by
  unfold placeGainReads
  have hgranted : placeGainRead w second (some id) u =
      (enqueue (g.addr + if second then 64 else 0) none (.gainRead w second) id u, true) := by
    unfold placeGainRead
    rw [hload]
  rw [hgranted]
  cases second <;> rfl

/-- The second gain read waits where no place is free (R168). -/
theorem placeGainRead_waits {v : State} {w : Camera} {g : GainLoad} (second : Bool) (hload : (v.cam w).load = some g)
    (hfull : ¬ (sync v).transit.hasPlace = true) :
    (placeGainRead w second none v).1 = waitFor (.gainRead w second) (sync v).transit.nextId (bumpId (sync v)) := by
  unfold placeGainRead
  rw [hload]
  dsimp only
  rw [if_neg hfull]

/-- The snapshot's reply, but for the snapshot in flight, is an entry written (R26). -/
theorem snapshotReply_form {v : State} {p : Snapshot} (hp : v.vols.snapshot = some p) :
    ∃ q, snapshotReply v = setSnapshot q
      (writeEntry (doneReply p.ticket false [(12, u8 p.mapLines)]) .snapshotReply v) := by
  unfold snapshotReply
  rw [hp]
  dsimp only
  split
  next => exact ⟨_, rfl⟩
  next => exact ⟨none, rfl⟩

/-- The snapshot's reply is on its way to its line of the reply list (R26, R178). -/
theorem snapshotReply_onItsWay {v : State} {p : Snapshot} (hp : v.vols.snapshot = some p) :
    let n := satSucc v.req.newest
    let line := compose ((0, u32 n) :: doneReply p.ticket false [(12, u8 p.mapLines)])
    let t := sync (snapshotReply v)
    t.req.newest = n ∧
      ((∃ j, ⟨j, t.entryAddr n, some line, .snapshotReply⟩ ∈ t.transit.queue) ∨
        ∃ j, ⟨j, .write (t.entryAddr n) line .snapshotReply⟩ ∈ t.transit.wait) := by
  intro n line t
  obtain ⟨q, hreply⟩ := snapshotReply_form hp
  obtain ⟨hnewest, hway⟩ := writeEntry_onItsWay (doneReply p.ticket false [(12, u8 p.mapLines)])
    (o := .snapshotReply) v (by simp)
  have hbare : (writeEntry (doneReply p.ticket false [(12, u8 p.mapLines)]) .snapshotReply v).bare = v.bare :=
    writeEntry_bare _ _ v
  generalize writeEntry (doneReply p.ticket false [(12, u8 p.mapLines)]) .snapshotReply v = w
    at hreply hnewest hway hbare
  have hw : w.grewTo t := by
    show w.grewTo (sync (snapshotReply v))
    rw [hreply]
    exact .trans (.of_transit rfl) (grewTo_sync (setSnapshot q w))
  have hmap : t.transit.map = v.transit.map := by
    show (sync (snapshotReply v)).transit.map = _
    rw [hreply, sync_map]
    show w.transit.map = _
    exact bare_map hbare
  have haddr : t.entryAddr n = v.entryAddr n := by
    unfold State.entryAddr
    rw [hmap]
  refine ⟨?_, ?_⟩
  · show (sync (snapshotReply v)).req.newest = _
    rw [hreply, sync_newest]
    exact hnewest
  · rw [haddr]
    rcases hway with ⟨j, hj⟩ | ⟨j, hj⟩
    · exact .inl ⟨j, hw.queued hj (by simp)⟩
    · exact .inr ⟨j, hw.waits hj⟩

/-- A snapshot's next line waits where no place is free (R26, R168). -/
theorem snapshotPlace_waits {v : State} {b : Nat} {l : Line} {more : List (Nat × Line)}
    (hfull : ¬ (sync v).transit.hasPlace = true) :
    snapshotPlace ((b, l) :: more) v = setSnapshot (v.vols.snapshot.map fun p => { p with lines := (b, l) :: more })
      (waitFor .snapshotLine (sync v).transit.nextId (bumpId (sync v))) := by
  rw [← sync_vols (s := v)]
  exact if_neg hfull

/-- A snapshot's next line is queued where a place is free, and the snapshot goes on (R26, R168). -/
theorem snapshotPlace_places {v : State} {b : Nat} {l : Line} {more : List (Nat × Line)}
    (hplace : (sync v).transit.hasPlace = true) :
    snapshotPlace ((b, l) :: more) v = snapshotPlace more
      (enqueue b (some l) .snapshotLine (sync v).transit.nextId (bumpId (sync v))) := if_pos hplace

/-- Behind what waits a snapshot's next line waits too (R26, R168). -/
theorem snapshotPlace_nextWaits {v : State} {p : Snapshot} (b : Nat) (l : Line) (more : List (Nat × Line))
    (hp : v.vols.snapshot = some p) (hwait : v.transit.wait ≠ []) :
    let t := sync (snapshotPlace ((b, l) :: more) v)
    t.cameTo v.req.newest (setSnapshot (some { p with lines := (b, l) :: more }) v) [] ∧
      ∃ j, ⟨j, .snapshotLine⟩ ∈ t.transit.wait := by
  intro t
  have hfull : ¬ (sync v).transit.hasPlace = true := (grewTo_sync v).no_place (.inl hwait)
  have hcame := (waitFor_came .snapshotLine (sync v).transit.nextId
    (bumpId_came (came_self v).sync)).clean (clean_setSnapshot (some { p with lines := (b, l) :: more }))
  have ht : t = sync (setSnapshot (some { p with lines := (b, l) :: more })
      (waitFor .snapshotLine (sync v).transit.nextId (bumpId (sync v)))) := by
    show sync (snapshotPlace _ v) = _
    rw [snapshotPlace_waits hfull, hp]
    rfl
  rw [ht]
  exact ⟨hcame.sync, (sync v).transit.nextId,
    (grewTo_sync _).waits (List.mem_append_right _ (List.mem_singleton_self _))⟩

/-- A queue of at most 11 entries with nothing waiting has room for one more, the status lines before it (R168). -/
theorem sync_hasPlace {v : State} (hwait : v.transit.wait = []) (hqueue : v.transit.queue.length ≤ 11) :
    (sync v).transit.hasPlace = true := by
  have hroom := roomy_weaken (n' := 15) (roomy_self hwait) (by omega)
  exact roomy_hasPlace (roomy_sync hroom (by omega)) (by omega)

/-- With nothing waiting and room a snapshot's next line is queued (R26, R168). -/
theorem snapshotPlace_nextQueued {v : State} (b : Nat) (l : Line) (more : List (Nat × Line))
    (hwait : v.transit.wait = []) (hqueue : v.transit.queue.length ≤ 11) :
    ∃ j, ⟨j, b, some l, .snapshotLine⟩ ∈ (sync (snapshotPlace ((b, l) :: more) v)).transit.queue := by
  rw [snapshotPlace_places (sync_hasPlace hwait hqueue)]
  exact ⟨(sync v).transit.nextId, queued_of_grewTo (u := bumpId (sync v)) (e := ⟨_, b, some l, .snapshotLine⟩)
    (by simp) ((grewTo_snapshotPlace more _).trans (grewTo_sync _))⟩

/-- Settles O21: one case per kind of waiting item, then the cases where nothing joins. -/
theorem oldestWaitingItemJoins : Obligations.OldestWaitingItemJoins := by
  intro m s a c queued
  have hqueued {e : OwnEntry} {rest : List WaitItem} {t : State} (he : ∀ k, e.origin ≠ .status k)
      (h : (enqueue e.addr e.content e.origin e.id (a.waitRest rest)).grewTo t) : queued e rest t :=
    ⟨h.2, joined_of_grewTo (u := a.waitRest rest) he h⟩
  have hlength (e : OwnEntry) (h : a.transit.queue.length ≤ 10) : (a.transit.queue ++ [e]).length ≤ 11 := by
    rw [List.length_append]
    exact Nat.succ_le_succ h
  refine ⟨?_, ?_, ?_, ?_, ?_, ?_, ?_, ?_⟩
  · intro id addr line origin rest hwait horigin hplace
    let v := enqueue addr (some line) origin id (a.waitRest rest)
    have hjoin : joinQueue ⟨id, .write addr line origin⟩ (a.waitRest rest) =
      if origin = .snapshotReply then setSnapshot none v else v := rfl
    refine ⟨_, exec_joins hwait hplace, ?_, ?_, hqueued horigin ?_⟩
    · rw [sync_bare, hjoin]
      split <;> rfl
    · rw [sync_newest, hjoin]
      split <;> rfl
    · refine State.grewTo.trans (.of_transit ?_) (grewTo_sync _)
      rw [hjoin]
      split <;> rfl
  · intro id k rest hwait hplace
    let v := joinQueue ⟨id, .status k⟩ (a.waitRest rest)
    have hbare : (sync v).bare = a.bare := sync_bare v
    refine ⟨_, exec_joins hwait hplace, hbare, (grewTo_sync v).2, ?_⟩
    have hjoined := (sync_lineJoined (joinQueue_status id k (a.waitRest rest))).1
    rw [statusLine_congr (s := a) hbare (sync_newest v)] at hjoined
    exact hjoined
  · intro id rest hwait
    have hsame : admitOldest (fun _ => true) a = admitOldest WaitItem.isAppend a := by
      unfold admitOldest
      rw [hwait]
      rfl
    exact congrArg (fun t => Host.Outcome.next (sync t)) hsame
  · intro id p b l more rest hwait hplace hsnapshot hlines e
    let v := enqueue b (some l) .snapshotLine id (a.waitRest rest)
    have hjoin : joinQueue ⟨id, .snapshotLine⟩ (a.waitRest rest) = snapshotPlace more v := by
      show snapshotGranted id _ = _
      unfold snapshotGranted
      rw [show (a.waitRest rest).vols.snapshot = some p from hsnapshot]
      dsimp only
      rw [hlines]
    have hexec := exec_joins hwait hplace
    rw [hjoin] at hexec
    have hgrown := (grewTo_snapshotPlace more v).trans (grewTo_sync _)
    refine ⟨_, hexec, hqueued (e := e) (by simp [e]) hgrown, rfl, ?_, ?_, ?_⟩
    · intro hmore hrest
      obtain ⟨⟨b', l'⟩, r, rfl⟩ := List.exists_cons_of_ne_nil hmore
      obtain ⟨⟨hbare, hnewest⟩, hwaits⟩ := snapshotPlace_nextWaits (v := v) b' l' r hsnapshot hrest
      exact ⟨hnewest, hbare, hwaits⟩
    · rintro b' l' r rfl rfl hroom
      exact snapshotPlace_nextQueued (v := v) b' l' r rfl (hlength e hroom)
    · rintro rfl n line
      exact snapshotReply_onItsWay (v := v) hsnapshot
  · intro id v rest hwait hplace hverify hnext n
    obtain ⟨hover, hheld⟩ := skipReused_eq (limit := a.log.appended - a.cap) hnext
    refine ⟨fun h => ?_, fun h => ?_⟩
    · have hreply := verifyAdvance_over (u := a.waitRest rest) (some id) hverify (hover h) (Nat.lt_succ_self v.last)
      refine completes_by (exec_ownTrafficWaitAdmit m s)
        ((admitOldest_heads hwait hplace rfl).trans hreply) ?_
      exact State.cameTo.replyDone (fs := []) _ _ _ ⟨rfl, rfl⟩
    · have hread := verifyAdvance_held (u := a.waitRest rest) id hverify (hheld h) (Nat.not_lt.2 h)
      have hexec := exec_joins hwait hplace
      rw [show joinQueue ⟨id, .verifyRead⟩ (a.waitRest rest) = _ from hread] at hexec
      refine ⟨_, hexec, sync_newest _, sync_bare _, hqueued (e := ⟨id, _, none, .verifyRead⟩) (by simp) ?_⟩
      refine State.grewTo.trans ?_ (grewTo_sync _)
      exact .of_transit rfl
  · intro id w second g rest hwait hplace hload
    let v := enqueue (g.addr + if second then 64 else 0) none (.gainRead w second) id (a.waitRest rest)
    have hjoin : joinQueue ⟨id, .gainRead w second⟩ (a.waitRest rest) =
        if second then v else (placeGainRead w true none v).1 :=
      placeGainReads_granted (u := a.waitRest rest) second id hload
    have hexec := exec_joins hwait hplace
    rw [hjoin] at hexec
    have hsecond := placeGainRead_came w true (came_self v)
    have hgrown : v.grewTo (if second then v else (placeGainRead w true none v).1) := by
      split
      next => exact .refl v
      next => exact grewTo_placeGainRead w true v
    refine ⟨_, hexec, ?_, ?_, hqueued (e := ⟨id, _, none, .gainRead w second⟩) (by simp) ?_, ?_, ?_⟩
    · rw [sync_bare]
      split
      next => rfl
      next => exact hsecond.1
    · rw [sync_newest]
      split
      next => rfl
      next => exact hsecond.2
    · exact hgrown.trans (grewTo_sync _)
    · rintro rfl hrest
      have hfull : ¬ (sync v).transit.hasPlace = true := (grewTo_sync v).no_place (.inl hrest)
      refine ⟨(sync v).transit.nextId, (grewTo_sync _).waits ?_⟩
      show _ ∈ (placeGainRead w true none v).1.transit.wait
      rw [placeGainRead_waits (v := v) true hload hfull]
      exact List.mem_append_right _ (List.mem_singleton_self _)
    · rintro rfl rfl hroom
      have hroomy := roomy_weaken (n' := 15) (roomy_self (a := v) rfl)
        (Nat.add_le_add_right (hlength _ hroom) 4)
      obtain ⟨j, hread, -⟩ := roomy_placeGainRead (s := v) w true g hload hroomy (by omega)
      obtain ⟨-, hmem⟩ := hread.mem _ (List.mem_append_right _ (List.mem_singleton_self _))
      exact ⟨j, (grewTo_sync _).queued hmem (by simp)⟩
  · intro hnone
    refine same_completes (exec_ownTrafficWaitAdmit m s) (admitOldest_stays fun w rest hwait _ => ?_)
    rcases hnone with hnone | hfull
    · exact absurd (hwait.symm.trans hnone) (by simp)
    · exact hfull
  · intro hnone
    refine same_completes (exec_logAppendAccept m s) (admitOldest_stays fun w rest hwait happend => ?_)
    rcases hnone with hnone | hfull
    · have hwhat : w.what = .append := beq_iff_eq.1 happend
      exact absurd hwait (by rw [show w = ⟨w.id, .append⟩ from hwhat ▸ rfl]; exact hnone w.id rest)
    · exact hfull

end Sys2Proof.Machine
end

