-- ==== Sys2Proof/Proofs/Snapshot.lean ====
section
/-! PROOFS. SNAPSHOT_VOLUME (O29): with room for all of it, its lines and its reply are queued in order. -/

namespace Sys2Proof.Machine

/-! ## An entry between the snapshot lines queued before and after it -/

/-- The entry is queued with these snapshot lines before it and none behind it. -/
def State.splitAt (s : State) (e : OwnEntry) (lines : List (Nat × Option Line)) : Prop :=
  ∃ before after, s.transit.queue = before ++ e :: after ∧
    snapshotWrites before = lines ∧ snapshotWrites after = []

theorem snapshotWrites_append (q r : List OwnEntry) :
    snapshotWrites (q ++ r) = snapshotWrites q ++ snapshotWrites r := by
  simp [snapshotWrites]

/-- Bringing a status line up to date leaves an entry of another kind where it stands (R169, R181). -/
theorem placeStatus_splitAt {s : State} {e : OwnEntry} {lines : List (Nat × Option Line)} (k : Nat)
    (he : ∀ j, e.origin ≠ .status j) (h : s.splitAt e lines) : (placeStatus k s).splitAt e lines := by
  obtain ⟨before, after, hqueue, hbefore, hafter⟩ := h
  unfold placeStatus
  dsimp only
  split
  next =>
    refine ⟨before.map (coalesce k (statusLine k s)), after.map (coalesce k (statusLine k s)), ?_, ?_, ?_⟩
    · show s.transit.queue.map _ = _
      have hsame : coalesce k (statusLine k s) e = e := if_neg (he k)
      rw [hqueue, List.map_append, List.map_cons, hsame]
    · rw [snapshotWrites_coalesce, hbefore]
    · rw [snapshotWrites_coalesce, hafter]
  next =>
    split
    next => exact ⟨before, after, hqueue, hbefore, hafter⟩
    next =>
      split
      next =>
        refine ⟨before, after ++ [⟨s.transit.nextId, s.statusAddr k, some (statusLine k s), .status k⟩], ?_,
          hbefore, ?_⟩
        · show s.transit.queue ++ _ = _
          rw [hqueue, List.append_assoc]
          rfl
        · rw [snapshotWrites_append, hafter]
          rfl
      next => exact ⟨before, after, hqueue, hbefore, hafter⟩

theorem sync_splitAt {s : State} {e : OwnEntry} {lines : List (Nat × Option Line)}
    (he : ∀ j, e.origin ≠ .status j) (h : s.splitAt e lines) : (sync s).splitAt e lines := by
  have hline (k : Nat) {t : State} (ht : t.splitAt e lines) : (syncLine k t).splitAt e lines := by
    unfold syncLine
    split
    next => exact ht
    next =>
      split
      next => exact ht
      next => exact placeStatus_splitAt k he ht
  exact hline 3 (hline 2 (hline 1 (hline 0 h)))

theorem roomy_forget {n : Nat} {lines : List (Nat × Option Line)} {keep : List OwnEntry} {s : State}
    (h : Roomy n lines keep s) : Roomy n lines [] s := ⟨h.w, h.l, h.sn, by simp⟩

/-- An entry of the reply list is queued at once where a place is free (R168, R178). -/
theorem placeEntry_queued (fs : Fields) (o : Origin) {s : State} (hplace : s.transit.hasPlace = true) :
    ∃ id u, placeEntry fs o s = enqueue (s.entryAddr (satSucc s.req.newest))
        (some (compose ((0, u32 (satSucc s.req.newest)) :: fs))) o id u ∧
      u.transit.queue = s.transit.queue ∧ u.transit.wait = s.transit.wait := by
  refine ⟨s.transit.nextId, bumpId { s with req := { s.req with
    newest := satSucc s.req.newest, noticeOut := true, newestIssued := false
    newestId := some s.transit.nextId, newestLine := some (s.entryAddr (satSucc s.req.newest)) } }, ?_, rfl, rfl⟩
  exact if_pos hplace

/-- An entry of the reply list stands behind the snapshot lines queued before it (R26). -/
theorem writeEntry_room (fs : Fields) {o : Origin} {v : State} {n : Nat} {lines : List (Nat × Option Line)}
    (ho : ∀ k, o ≠ .status k) (hroom : Roomy n lines [] v) (hn : n ≤ 15) :
    (writeEntry fs o v).transit.wait = [] ∧
      ∃ id, (writeEntry fs o v).splitAt ⟨id, v.entryAddr (satSucc v.req.newest),
        some (compose ((0, u32 (satSucc v.req.newest)) :: fs)), o⟩ lines := by
  have hsynced : Roomy n lines [] (sync v) := roomy_sync hroom (by omega)
  obtain ⟨id, u, hplaced, hqueue, hwait⟩ := placeEntry_queued fs o (roomy_hasPlace hsynced hn)
  have haddr (k : Nat) : (sync v).entryAddr k = v.entryAddr k := by
    unfold State.entryAddr
    rw [sync_map]
  rw [sync_newest, haddr] at hplaced
  have hu : Roomy n lines [] u := ⟨hwait.trans hsynced.w, hqueue ▸ hsynced.l, hqueue ▸ hsynced.sn, by simp⟩
  unfold writeEntry
  rw [hplaced]
  exact ⟨(roomy_sync (roomy_enqueue _ _ o id hu ho) (by omega)).w, id,
    sync_splitAt ho ⟨u.transit.queue, [], rfl, hu.sn, rfl⟩⟩

/-- A reply that does not wait ends the snapshot (R25). -/
theorem snapshotReply_over {v w : State} {p : Snapshot} (hp : v.vols.snapshot = some p)
    (hw : writeEntry (replyFields p.ticket .done 0 false false [(12, u8 p.mapLines)]) .snapshotReply v = w)
    (hnone : w.transit.wait = []) : snapshotReply v = setSnapshot none w := by
  unfold snapshotReply
  rw [hp]
  dsimp only
  rw [hw, hnone]
  rfl

/-- The queue's entry of a snapshot's reply (R25, R178). -/
def State.snapshotEntry (v : State) (p : Snapshot) (id : Nat) : OwnEntry :=
  ⟨id, v.entryAddr (satSucc v.req.newest), some (compose ((0, u32 (satSucc v.req.newest)) ::
    doneReply p.ticket false [(12, u8 p.mapLines)])), .snapshotReply⟩

/-- From `v` on a snapshot is over: its reply is queued behind these snapshot lines, with no other entry written
and nothing else changed (R25, R26). -/
def State.snapshotOver (t v : State) (p : Snapshot) (lines : List (Nat × Option Line)) : Prop :=
  t.bare = (setSnapshot none v).bare ∧ t.req.newest = satSucc v.req.newest ∧
    ∃ id, t.splitAt (v.snapshotEntry p id) lines

theorem setSnapshot_bare {v w : State} (h : w.bare = v.bare) :
    (setSnapshot none w).bare = (setSnapshot none v).bare := by
  rw [(clean_setSnapshot none).bare w, h, ← (clean_setSnapshot none).bare v]

/-- The reply, with room for it (R25, R26). -/
theorem snapshotReply_room {v : State} {p : Snapshot} {n : Nat} {lines : List (Nat × Option Line)}
    (hp : v.vols.snapshot = some p) (hroom : Roomy n lines [] v) (hn : n ≤ 15) :
    (snapshotReply v).snapshotOver v p lines := by
  obtain ⟨hnone, id, hsplit⟩ := writeEntry_room (doneReply p.ticket false [(12, u8 p.mapLines)])
    (o := .snapshotReply) (by simp) hroom hn
  have hnewest := (writeEntry_onItsWay (doneReply p.ticket false [(12, u8 p.mapLines)])
    (o := .snapshotReply) v (by simp)).1
  have hbare := writeEntry_bare (doneReply p.ticket false [(12, u8 p.mapLines)]) .snapshotReply v
  generalize hw : writeEntry (doneReply p.ticket false [(12, u8 p.mapLines)]) .snapshotReply v = w
    at hnone hsplit hnewest hbare
  rw [snapshotReply_over hp hw hnone]
  exact ⟨setSnapshot_bare hbare, hnewest, id, hsplit⟩

/-- A snapshot's lines and its reply, with room for all of them (R26). -/
theorem snapshotPlace_room {p : Snapshot} (lines : List (Nat × Line)) : ∀ {v : State} {n : Nat}
    {queued : List (Nat × Option Line)}, v.vols.snapshot = some p →
    Roomy n queued [] v → n + lines.length ≤ 15 →
    (snapshotPlace lines v).snapshotOver v p (queued ++ lines.map fun q => (q.1, some q.2)) := by
  induction lines with
  | nil =>
    intro v n queued hp hroom hn
    rw [List.map_nil, List.append_nil]
    exact snapshotReply_room hp hroom hn
  | cons q lines ih =>
    intro v n queued hp hroom hn
    rw [List.length_cons] at hn
    have hsynced : Roomy n queued [] (sync v) := roomy_sync hroom (by omega)
    have hplaced := snapshotPlace_places (b := q.1) (l := q.2) (more := lines) (roomy_hasPlace hsynced (by omega))
    have hu := roomy_forget (roomy_enqueue q.1 (some q.2) .snapshotLine (sync v).transit.nextId
      (roomy_bumpId hsynced) (by simp))
    obtain ⟨hbare, hnewest⟩ := enqueue_came q.1 (some q.2) .snapshotLine (sync v).transit.nextId
      (bumpId_came (came_self v).sync)
    generalize enqueue q.1 (some q.2) .snapshotLine (sync v).transit.nextId (bumpId (sync v)) = u
      at hplaced hu hbare hnewest
    have hnewest : u.req.newest = v.req.newest := hnewest
    have hentry (id : Nat) : u.snapshotEntry p id = v.snapshotEntry p id := by
      unfold State.snapshotEntry State.entryAddr
      rw [bare_map hbare, hnewest]
    obtain ⟨hrest, hnumber, id, hsplit⟩ := ih (v := u) (n := n + 1)
      ((congrArg VolumeTable.snapshot (bare_vols hbare)).trans hp) hu (by omega)
    rw [if_pos rfl, List.append_assoc, hentry] at hsplit
    rw [hnewest] at hnumber
    rw [show snapshotPlace (q :: lines) v = _ from hplaced]
    exact ⟨hrest.trans (setSnapshot_bare hbare), hnumber, id, hsplit⟩

/-! ## SNAPSHOT_VOLUME (R25 to R27) -/

/-- The map address of a snapshot, where its flag gives one (R25). -/
def mapGiven (h : Head) (mapAddress : BitVec 64) : Option Nat := if h.flag 0 then some mapAddress.toNat else none

/-- A snapshot begins with its record's lines (R26). -/
def State.snapshotBegun (t : Ticket) (map : Option Nat) (s : State) : State :=
  match s.named t with
  | none => s
  | some v => snapshotPlace (snapshotLines s t map v)
      (setSnapshot (some ⟨t, [], if map.isSome then mapLineCount v else 0, false⟩) s)

theorem takeSnapshot_eq (h : Head) (mapAddress : BitVec 64) (t : Ticket) (s : State) :
    takeSnapshot h mapAddress t s = checked t
      [(t.badHandle || (h.flag 0 && 2 ^ 34 ≤ mapAddress.toNat), .badField),
       (s.vols.snapshot.isSome, .busy), ((s.named t).isNone, .noVolume),
       (h.flag 0 && s.namedIs t (fun v => s.transit.map.forbids mapAddress.toNat (mapLineCount v)), .badField)]
      (State.snapshotBegun t (mapGiven h mapAddress)) s := rfl

/-- Settles O29: the checks in their order, then the snapshot's lines with or without room. -/
theorem snapshotQueuesItsLines : Obligations.SnapshotQueuesItsLines := by
  intro m h mapAddress s a k t c snaps hasked
  have hx : s.checks c m t _ _ :=
    checks_of_asked (exec_snapshotVolume m h mapAddress s) hasked (takeSnapshot_eq h mapAddress t a)
  refine hx.split (by rw [Bool.or_eq_true, badHandle_iff]; simp [k, t, Head.ticket]) fun hfields hx => ?_
  refine hx.split Iff.rfl fun hfree hx => ?_
  have hk : ¬ 31 < k := fun hk => hfields (.inl hk)
  cases hv : a.vols.get k with
  | none => exact hx.refused (named_isNone hk hv)
  | some v =>
    have hn : a.named t = some v := (named_eq_get hk).trans hv
    have hx := hx.passed (named_not_isNone hn)
    dsimp -zeta only
    intro n at0 base cls lines
    have hmap : (h.flag 0 &&
        a.namedIs t (fun v => a.transit.map.forbids mapAddress.toNat (mapLineCount v))) = true ↔
        h.flag 0 = true ∧ a.transit.map.forbids mapAddress.toNat n = true := by
      rw [namedIs_some hn, Bool.and_eq_true]
      refine and_congr_right fun hflag => ?_
      rw [show n = mapLineCount v from if_pos hflag]
    refine hx.split hmap fun _ hx => ?_
    let u := setSnapshot (some ⟨t, [], n, false⟩) a
    have hgiven : (mapGiven h mapAddress).isSome = h.flag 0 ∧ (mapGiven h mapAddress).getD 0 = at0 := by
      unfold mapGiven
      simp only [at0]
      cases h.flag 0 <;> exact ⟨rfl, rfl⟩
    have hbegun : State.snapshotBegun t (mapGiven h mapAddress) a = snapshotPlace lines u := by
      unfold State.snapshotBegun snapshotLines
      rw [hn]
      dsimp only
      rw [hgiven.1, hgiven.2]
      rfl
    have hruns := hx.runs
    rw [show State.snapshotBegun t (mapGiven h mapAddress) (arrive m s) = _ from hbegun] at hruns
    split
    next hroom =>
      obtain ⟨hwait, hqueue⟩ := hroom
      obtain ⟨hbare, hnewest, id, hsplit⟩ := snapshotPlace_room (v := u) (p := ⟨t, [], n, false⟩) lines rfl
        (roomy_setSnapshot _ (roomy_self hwait)) (by omega)
      have hnone : a.vols.snapshot = none := by simpa using hfree
      have hover : setSnapshot none u = a := by
        show setSnapshot none a = a
        unfold setSnapshot
        rw [← hnone]
      have haddr (j : Nat) : (sync (snapshotPlace lines u)).entryAddr j = u.entryAddr j := by
        unfold State.entryAddr
        rw [sync_map, bare_map hbare]
        rfl
      obtain ⟨before, after, hplaced, hbefore, hafter⟩ := sync_splitAt (by simp [State.snapshotEntry]) hsplit
      refine ⟨_, hruns, ?_, ?_, id, before, after, ?_, hbefore, hafter⟩
      · rw [sync_bare, hbare, hover]
      · rw [sync_newest, hnewest]
        rfl
      · rw [haddr]
        exact hplaced
    next => exact hruns

end Sys2Proof.Machine
end

