-- ==== Sys2Proof/Proofs/Abort.lean ====
section
/-! PROOFS. What an abort leaves (O36): the lighting unit, the FRAME append withdrawn with the reads held for it, the
cameras and the turner. -/

namespace Sys2Proof.Machine

/-! ## The lighting unit's answer (R94) -/

/-- The lighting unit's answer to an abort, by the phase of its exposure (R93, R94). -/
theorem abortExposure_eq (s : State) : abortExposure s =
    let lit := s.exposureOver (s.paid (lampCharge s.cutChannels s.light.exposure.plan.levels))
      (s.cutChannels.map Channel.cleared)
    match s.light.exposure.phase with
    | .none => s
    | .admitted => s.exposureOver s s.light.channels
    | .ending => s.exposureOver s (s.light.channels.map Channel.cleared)
    | .rampUp => lit
    | .warm => lit
    | .capture => lit
    | .rampDown => lit := by
  unfold abortExposure
  cases hphase : s.light.exposure.phase with
  | none => rfl
  | admitted => exact if_pos hphase
  | ending => dsimp only; rw [clearChannels_eq]; rfl
  | rampUp | warm | capture | rampDown => exact cutAndCharged_eq s

/-- An abort of the lighting unit changes the volumes, the lighting unit and a calibration's charge alone (R94). -/
theorem abortExposure_parts (s : State) : ∃ vs l cl,
    abortExposure s = { s with vols := vs, light := l, cycle := { s.cycle with cal := cl } } := by
  have hlit : ∃ vs l cl, s.exposureOver (s.paid (lampCharge s.cutChannels s.light.exposure.plan.levels))
      (s.cutChannels.map Channel.cleared) =
      { s with vols := vs, light := l, cycle := { s.cycle with cal := cl } } := by
    obtain ⟨cd, cl, vs, hpaid⟩ := paid_eq_parts s (lampCharge s.cutChannels s.light.exposure.plan.levels)
    rw [hpaid]
    exact ⟨vs, _, cl, rfl⟩
  rw [abortExposure_eq]
  cases s.light.exposure.phase with
  | none => exact ⟨s.vols, s.light, s.cycle.cal, rfl⟩
  | admitted | ending => exact ⟨s.vols, _, s.cycle.cal, rfl⟩
  | rampUp | warm | capture | rampDown => exact hlit

/-- The camera timer stops. -/
def State.timerOff (s : State) : State := updCycle (fun c => { c with camTimer := none }) s

/-- A charge is handed on whatever the camera timer shows. -/
theorem paid_timerOff (s : State) (d : Nat) : s.timerOff.paid d = (s.paid d).timerOff := by
  unfold State.paid State.timerOff updCycle
  dsimp only
  split
  · rfl
  · cases s.vols.activeHandle with
    | none => rfl
    | some k => dsimp only; cases s.vols.get k <;> rfl

theorem abortExposure_timerOff (s : State) : abortExposure s.timerOff = (abortExposure s).timerOff := by
  rw [abortExposure_eq s, abortExposure_eq s.timerOff]
  have hlit : s.timerOff.paid (lampCharge s.timerOff.cutChannels s.timerOff.light.exposure.plan.levels) =
      (s.paid (lampCharge s.cutChannels s.light.exposure.plan.levels)).timerOff := paid_timerOff s _
  have hphase : s.timerOff.light.exposure.phase = s.light.exposure.phase := rfl
  rw [hlit, hphase]
  cases s.light.exposure.phase <;> rfl

/-! ## Held reads released (R171) -/

/-- The hold list and the stream once the reads held for these writes are released, one after the other (R171). -/
def releasedReads (ids : List Nat) (q : List Hold × List Passed) : List Hold × List Passed :=
  ids.foldl (fun q id => (q.1.filter fun h => h.waitsFor != id,
    ((q.1.filter fun h => h.waitsFor == id).map Hold.read).foldr insertReleased q.2)) q

/-- The state with the reads held for these writes released. -/
def State.released (s : State) (ids : List Nat) : State :=
  { s with transit := { s.transit with
    holds := (releasedReads ids (s.transit.holds, s.transit.stream)).1
    stream := (releasedReads ids (s.transit.holds, s.transit.stream)).2 } }

theorem releaseHolds_form (id : Nat) (s : State) : ∃ b,
    releaseHolds id s = { s.released [id] with req := { s.req with noticeOut := b } } :=
  readForwarded_fold ((s.transit.holds.filter fun h : Hold => h.waitsFor == id).map Hold.read) (s.released [id])

/-- Releasing reads moves them to the stream and can lower NOTICE_OUT (R171, R179). -/
theorem releaseHolds_foldl (ids : List Nat) : ∀ s : State, ∃ b,
    ids.foldl (fun s i => releaseHolds i s) s = { s.released ids with req := { s.req with noticeOut := b } } := by
  induction ids with
  | nil => exact fun s => ⟨s.req.noticeOut, rfl⟩
  | cons id ids ih =>
    intro s
    obtain ⟨b, hid⟩ := releaseHolds_form id s
    obtain ⟨b', hids⟩ := ih { s.released [id] with req := { s.req with noticeOut := b } }
    exact ⟨b', by rw [List.foldl_cons, hid, hids]; rfl⟩

theorem released_came (ids : List Nat) (s : State) :
    (ids.foldl (fun s i => releaseHolds i s) s).cameTo s.req.newest (s.released ids) [] := by
  obtain ⟨b, h⟩ := releaseHolds_foldl ids s
  rw [h]
  exact ⟨rfl, rfl⟩

/-! ## The FRAME append withdrawn (R151) -/

/-- The state with its FRAME append withdrawn, the reads held for these writes released, and LOG_LOW re-armed
where that makes room (R151, R155, R171). -/
def State.withdrawn (ids : List Nat) (s : State) : State :=
  let u := s.released ids
  rearm { u with log := { u.log with appends := u.log.appends.filter fun a => !a.isFrame } }

/-- The wait list's own items that carry the head append. -/
def State.appendItems (s : State) : List Nat := (s.transit.wait.filter WaitItem.isAppend).map WaitItem.id

/-- The writes whose held reads a withdrawal releases: that of the FRAME append where it heads the list (R171). -/
def State.freedWrites (s : State) : List Nat :=
  if (s.log.appends.head?.map Append.isFrame).getD false then s.appendItems else []

theorem clean_rearm : Clean rearm :=
  clean_ite (fun s => s.cap / 4 < s.freeRoom) (fun _ => Iff.rfl)
    ⟨fun _ => rfl, fun _ => rfl, fun _ => rfl, fun _ => rfl, fun _ => rfl⟩ clean_id

theorem clean_withdrawn (ids : List Nat) : Clean (State.withdrawn ids) :=
  clean_rearm.comp ⟨fun _ => rfl, fun _ => rfl, fun _ => rfl, fun _ => rfl, fun _ => rfl⟩

theorem clean_abortFrames : Clean abortFrames :=
  ⟨fun _ => rfl, fun _ => rfl, fun _ => rfl, fun _ => rfl, fun _ => rfl⟩

/-- What the withdrawal leaves, but for paperwork (R151; notes/assumptions/13.md). -/
theorem withdrawFrame_came (s : State) : (withdrawFrame s).cameTo s.req.newest
    (if s.log.appends.any Append.isFrame then
      s.withdrawn s.freedWrites else s) [] := by
  unfold withdrawFrame State.freedWrites
  by_cases hframe : s.log.appends.any Append.isFrame = true
  · rw [if_pos hframe, if_pos hframe]
    dsimp only
    refine State.cameTo.clean clean_rearm ?_
    by_cases hheads : (s.log.appends.head?.map Append.isFrame).getD false = true
    · rw [if_pos hheads, if_pos hheads]
      refine markNextAppend_came ?_
      exact (released_came s.appendItems { s with
        log := { s.log with appends := s.log.appends.filter fun a => !a.isFrame }
        transit := { s.transit with wait := s.transit.wait.filter fun w => !w.isAppend } }).cast rfl
    · rw [if_neg hheads, if_neg hheads]
      exact ⟨rfl, rfl⟩
  · rw [if_neg hframe, if_neg hframe]
    exact came_self s

/-- Bringing the status lines up to date adds no append to the wait list (R181). -/
theorem sync_appendItems (s : State) : (sync s).appendItems = s.appendItems := by
  have hline (k : Nat) (t : State) : (syncLine k t).appendItems = t.appendItems := by
    unfold syncLine
    split
    next => rfl
    next =>
      split
      next => rfl
      next =>
        unfold placeStatus
        dsimp only
        split
        next => rfl
        next =>
          split
          next => rfl
          next =>
            split
            next => rfl
            next =>
              unfold State.appendItems
              show ((t.transit.wait ++ [_]).filter _).map _ = _
              rw [List.filter_append]
              exact congrArg (List.map WaitItem.id) (List.append_nil _)
  unfold sync
  rw [hline, hline, hline, hline]

/-! ## The cameras (R117) -/

/-- The frame in flight leaves its slot FREE and its intake DRAINING where it was awaited or received (R117). -/
theorem abortFrame_eq (now : Nat) (g : Geometry) (y : CamState) : y.abortFrame now g =
    match y.slots.findIdx? Slot.flies with
    | none => y
    | some k => { y with
        slots := y.slots.set k ⟨.free, none⟩
        intakeRec := if y.intakeRec.state = .waitFirst ∨ y.intakeRec.state = .receiving then { y.intakeRec with
            state := .draining, armed := none, trigger := none
            timer := if y.intakeRec.trigger.isSome then some (now + ms g.frameTimeout) else y.intakeRec.timer }
          else { y.intakeRec with armed := none } } := by
  unfold CamState.abortFrame
  show (match y.slots.findIdx? Slot.flies with | none => _ | some k => _) = _
  cases y.slots.findIdx? Slot.flies with
  | none => rfl
  | some k =>
    unfold CamState.setIntake CamState.putSlot
    dsimp only
    by_cases hbusy : y.intakeRec.busy = true
    · rw [if_pos hbusy, if_pos (busy_iff_state.1 hbusy)]
      rfl
    · rw [if_neg hbusy, if_neg (mt busy_iff_state.2 hbusy)]
      rfl

/-- A camera with at most one frame in flight has none after an abort (R105, R117). -/
theorem abortFrame_lands (now : Nat) (g : Geometry) {y : CamState} (h : y.slots.countP Slot.flies ≤ 1) :
    ∀ x ∈ (y.abortFrame now g).slots, x.flies = false := by
  rw [abortFrame_eq]
  cases hfound : y.slots.findIdx? Slot.flies with
  | none => exact fun x hx => by simpa using List.findIdx?_eq_none_iff.1 hfound x hx
  | some k =>
    obtain ⟨hk, hflies, -⟩ := List.findIdx?_eq_some_iff_getElem.1 hfound
    have hnone : (y.slots.set k ⟨.free, none⟩).countP Slot.flies = 0 := by
      rw [List.countP_set hk, if_pos hflies, if_neg (by simp [Slot.flies])]
      omega
    intro x hx
    simpa using List.countP_eq_zero.1 hnone x hx

/-! ## The turner's answer (R77) -/

theorem inFlight_iff (t : Turner) : t.inFlight = true ↔
    (t.state = .turning ∨ t.state = .hold) ∧ t.sub ≠ .completing := by
  simp [Turner.inFlight]

/-- A turner in flight holds a leaf in LIFT and SWEEP (R77). -/
theorem holdsLeaf_iff {t : Turner} (h : t.inFlight = true) :
    t.holdsLeaf = true ↔ t.stage = some .lift ∨ t.stage = some .sweep := by
  obtain ⟨hstate, -⟩ := (inFlight_iff t).1 h
  unfold Turner.holdsLeaf
  rw [Bool.or_eq_true, atStage_iff, atStage_iff]
  exact or_congr (and_iff_right hstate) (and_iff_right hstate)

/-- With no turn in flight the turner keeps its state; a FAULTED one answers with its report (R77). -/
theorem abortTurn_idle (cause : StopCause) {s : State} (h : ¬ s.turner.inFlight = true) :
    abortTurn cause s = (s, if s.turner.state = .faulted then
      ⟨true, s.turner.report.bind TurnReport.stage, (s.turner.report.map TurnReport.held).getD false⟩
      else ⟨false, none, false⟩) := by
  unfold abortTurn
  rw [if_neg h]
  split <;> rfl

/-! ## The whole abort (R49, R77, R117, R151) -/

/-- What an abort leaves but for the turner: the state before the turner is asked (R49). -/
def State.abortedWork (s : State) : State :=
  sync (abortFrames (updCycle (fun c => { c with review := none })
    (withdrawFrame (sync (abortExposure s).timerOff))))

theorem abortWork_eq (cause : StopCause) (s : State) : abortWork cause s = abortTurn cause s.abortedWork := by
  unfold State.abortedWork
  rw [← abortExposure_timerOff]
  rfl

theorem freedWrites_none {s : State} (h : ¬ s.log.appends.any Append.isFrame = true) : s.freedWrites = [] := by
  unfold State.freedWrites
  refine if_neg fun hhead => h ?_
  cases happends : s.log.appends with
  | nil => rw [happends] at hhead; exact absurd hhead (by simp)
  | cons x l =>
    rw [happends] at hhead
    exact List.any_eq_true.2 ⟨x, List.mem_cons_self, hhead⟩

/-- The appends that are no FRAME record (R151). -/
def State.keptAppends (s : State) : List Append := s.log.appends.filter fun a => !a.isFrame

theorem keptAppends_ne {s : State} : s.keptAppends ≠ s.log.appends ↔ s.log.appends.any Append.isFrame = true := by
  unfold State.keptAppends
  rw [ne_eq, List.filter_eq_self, List.any_eq_true]
  push Not
  simp

/-- The log once its FRAME append is withdrawn (R151, R155). -/
def State.logWithdrawn (s : State) : CaptureLog :=
  { s.log with
    appends := s.keptAppends
    lowMark := if s.keptAppends ≠ s.log.appends ∧
        s.cap / 4 < State.freeRoom { s with log := { s.log with appends := s.keptAppends } } then .armed
      else s.log.lowMark }

theorem rearm_log (s : State) : rearm s = { s with log := { s.log with
    lowMark := if s.cap / 4 < s.freeRoom then .armed else s.log.lowMark } } := by
  unfold rearm
  split <;> rfl

/-- The withdrawal of the FRAME append, written out (R151, R155, R171). -/
theorem withdrawn_eq (s : State) :
    (if s.log.appends.any Append.isFrame then s.withdrawn s.freedWrites else s) =
      { s.released s.freedWrites with log := s.logWithdrawn } := by
  unfold State.logWithdrawn
  by_cases h : s.log.appends.any Append.isFrame = true
  · rw [if_pos h]
    refine (rearm_log _).trans ?_
    simp only [and_iff_right (keptAppends_ne.2 h)]
    rfl
  · have hkept : s.keptAppends = s.log.appends := by
      rw [← keptAppends_ne, not_not] at h
      exact h
    rw [if_neg h, freedWrites_none h, if_neg fun k => k.1 hkept, hkept]
    rfl

/-- The withdrawal after the status lines are brought up to date (R151, R181). -/
theorem withdrawFrame_sync (v : State) : (withdrawFrame (sync v)).cameTo v.req.newest
    { v.released v.freedWrites with log := v.logWithdrawn } [] := by
  have hfreed : (sync v).freedWrites = v.freedWrites := by
    unfold State.freedWrites
    rw [sync_log, sync_appendItems]
  have hcame := withdrawFrame_came (sync v)
  rw [hfreed, sync_newest, sync_log] at hcame
  rw [← withdrawn_eq]
  refine hcame.cast ?_
  split
  next => exact ((came_self v).sync.clean (clean_withdrawn v.freedWrites)).1
  next => exact sync_bare v

/-- What the cameras hold after an abort (R117). -/
def State.intakeAborted (s : State) : Intake :=
  { s.intake with cams := ⟨s.intake.cams.left.abortFrame s.now s.intake.geo,
    s.intake.cams.right.abortFrame s.now s.intake.geo⟩ }

theorem abortFrames_intake (s : State) : abortFrames s = { s with intake := s.intakeAborted } := rfl

/-- Before the turner is asked, but for paperwork (R49, R94, R117, R151). -/
theorem abortedWork_came (s : State) : s.abortedWork.cameTo s.req.newest
    { abortExposure s with
      cycle := { (abortExposure s).cycle with camTimer := none, review := none }
      intake := s.intakeAborted
      transit := (s.released s.freedWrites).transit
      log := s.logWithdrawn } [] := by
  obtain ⟨vs, l, cl, he⟩ := abortExposure_parts s
  unfold State.abortedWork
  rw [he]
  exact (State.cameTo.sync (State.cameTo.clean clean_abortFrames
    (State.cameTo.clean (clean_updCycle fun c => { c with review := none }) (withdrawFrame_sync _)))).cast rfl

/-- The LOG_LOW test of a withdrawal reads the log and the map alone (R155). -/
theorem logWithdrawn_of {s e : State} (htransit : e.transit = s.transit) {kept : List Append}
    (hkept : kept = s.keptAppends) :
    ({ s.log with
      appends := kept
      lowMark := if kept ≠ s.log.appends ∧
          s.cap / 4 < State.freeRoom { e with log := { s.log with appends := kept } } then .armed
        else s.log.lowMark } : CaptureLog) = s.logWithdrawn := by
  subst hkept
  unfold State.logWithdrawn State.freeRoom State.cap
  rw [htransit]

theorem keptAppends_match (s : State) : (s.log.appends.filter fun x => match x with
      | .frame _ => false
      | _ => true) = s.keptAppends := by
  unfold State.keptAppends
  congr 1
  funext x
  cases x <;> rfl

theorem freedWrites_match (s : State) : (match s.log.appends with
      | .frame _ :: _ => (s.transit.wait.filter fun w => w.what == .append).map WaitItem.id
      | _ => []) = s.freedWrites := by
  unfold State.freedWrites
  cases s.log.appends with
  | nil => rfl
  | cons x l => cases x <;> rfl

theorem bare_withTurner {u v : State} (h : u.bare = v.bare) (x : Turner) :
    State.bare { u with turner := x } = State.bare { v with turner := x } :=
  congrArg (fun w : State => { w with turner := x }) h

/-- Settles O36: the lighting unit's answer, then the cameras, the turner and the whole state. -/
theorem abortLeavesNothingInFlight : Obligations.AbortLeavesNothingInFlight := by
  refine ⟨abortExposure_eq, fun cause s => ?_⟩
  intro t answer e flies turning kept freed aborted released reads
  obtain ⟨w, habort, hwork⟩ : ∃ w, abortWork cause s = abortTurn cause w ∧ w.cameTo s.req.newest _ [] :=
    ⟨s.abortedWork, abortWork_eq cause s, abortedWork_came s⟩
  obtain ⟨hturner, hflight, hidle⟩ := abortTurn_spec cause w
  rw [← habort] at hturner hflight hidle
  have hbefore : w.turner = s.turner := (turner_came hwork).trans (abortExposure_spec s).2.2.2.1
  rw [hbefore] at hflight hidle
  have ht : t = { w with turner := t.turner } := hturner
  have hinFlight : turning ↔ s.turner.inFlight = true := (inFlight_iff s.turner).symm
  have hintake : ({ s.intake with cams := ⟨aborted s.intake.cams.left, aborted s.intake.cams.right⟩ } : Intake) =
      s.intakeAborted := by
    have haborted (y : CamState) : aborted y = y.abortFrame s.now s.intake.geo := (abortFrame_eq _ _ y).symm
    rw [haborted, haborted]
    rfl
  refine ⟨fun cam hone => ?_, fun hturning => ?_, fun hnot => ?_, ?_, ?_, ?_⟩
  · have hcams : t.intake = s.intakeAborted := (congrArg State.intake ht).trans (intake_came hwork)
    rw [hcams]
    cases cam <;> exact abortFrame_lands _ _ hone
  · obtain ⟨hfaulted, hanswer⟩ := hflight (hinFlight.1 hturning)
    have hanswer : answer = ⟨true, s.turner.stage, s.turner.holdsLeaf⟩ := hanswer
    rw [hanswer]
    exact ⟨hfaulted, rfl, rfl, holdsLeaf_iff (hinFlight.1 hturning)⟩
  · have hrest : ¬ s.turner.inFlight = true := mt hinFlight.2 hnot
    refine ⟨hidle (Bool.eq_false_iff.2 hrest), ?_⟩
    have hanswer := congrArg Prod.snd (habort.trans (abortTurn_idle cause (hbefore ▸ hrest)))
    rw [hbefore] at hanswer
    exact hanswer
  · have hnewest : w.req.newest = s.req.newest := hwork.2
    rw [ht]
    exact hnewest
  · rw [hintake]
    exact abortFrames_intake s
  · have hbare : t.bare = State.bare { e with
        cycle := { e.cycle with camTimer := none, review := none }
        intake := s.intakeAborted
        turner := t.turner
        transit := (s.released s.freedWrites).transit
        log := s.logWithdrawn } := (congrArg State.bare ht).trans (bare_withTurner hwork.1 t.turner)
    have htransit : e.transit = s.transit := by
      obtain ⟨vs, l, cl, he⟩ := abortExposure_parts s
      show (abortExposure s).transit = s.transit
      rw [he]
    have hreads : ({ s.transit with holds := reads.1, stream := reads.2 } : Transit) =
        (s.released s.freedWrites).transit :=
      congrArg (fun ids => (s.released ids).transit) (freedWrites_match s)
    rw [← hintake, ← hreads, ← logWithdrawn_of htransit (keptAppends_match s)] at hbare
    exact hbare

end Sys2Proof.Machine
end

