-- ==== Sys2Proof/Proofs/Ready.lean ====
section
/-! PROOFS. The last group settled makes the part READY (O11). -/

namespace Sys2Proof.Machine

/-! ## Groups settled DEFAULTED (R184, R186) -/

theorem checkDefaultMap_eq (s : State) : checkDefaultMap s =
    if 402653184 < 2 * s.intake.geo.slots * s.intake.geo.frameBytes then
      { s.defaultGeometry with start := { s.start with
        loadResult := s.start.loadResult.set 1 (some .rejected) } }
    else s := rfl

theorem defaultGroup_plain {g : Nat} (hg : g ≠ 0) (s : State) : defaultGroup g s = setResult g .defaulted s :=
  if_neg hg

theorem defaultGroup_map (s : State) : defaultGroup 0 s = checkDefaultMap (setResult 0 .defaulted s) := rfl

/-- Settling a group leaves the accept codes as they were read. -/
theorem defaultGroup_accepts (g : Nat) (s : State) : (defaultGroup g s).start.accepts = s.start.accepts := by
  by_cases hg : g = 0
  · subst hg
    rw [defaultGroup_map, checkDefaultMap_eq]
    split <;> rfl
  · rw [defaultGroup_plain hg]
    rfl

/-- The groups that are not accepted are DEFAULTED, one after the other, before the rest is looked at (R184). -/
theorem settleGroups_skip (rest : List Nat) : ∀ (skipped : List Nat) (s : State),
    (∀ x ∈ skipped, s.start.accepts x = false) →
    settleGroups (skipped ++ rest) s = settleGroups rest (skipped.foldl (fun u g => defaultGroup g u) s)
  | [], _, _ => rfl
  | g :: skipped, s, h => by
    have hg : ¬ s.start.accepts g = true := by simp [h g]
    have hrest : ∀ x ∈ skipped, (defaultGroup g s).start.accepts x = false := fun x hx => by
      rw [defaultGroup_accepts]
      exact h x (List.mem_cons_of_mem g hx)
    calc settleGroups (g :: skipped ++ rest) s = settleGroups (skipped ++ rest) (defaultGroup g s) := if_neg hg
      _ = _ := settleGroups_skip rest skipped _ hrest

/-- With no group accepted the part becomes READY, every group left DEFAULTED (R184, R187). -/
theorem settleGroups_none {order : List Nat} {s : State} (h : ∀ x ∈ order, s.start.accepts x = false) :
    settleGroups order s = becomeReady (order.foldl (fun u g => defaultGroup g u) s) := by
  rw [← List.append_nil order, settleGroups_skip [] order s h, List.append_nil]
  rfl

/-- The load results once these groups are DEFAULTED. -/
def defaultResults (groups : List Nat) (results : List (Option LoadResult)) : List (Option LoadResult) :=
  groups.foldl (fun r g => r.set g (some .defaulted)) results

theorem defaultResults_set {groups : List Nat} (h : 1 ∉ groups) (x : Option LoadResult) :
    ∀ results, defaultResults groups (results.set 1 x) = (defaultResults groups results).set 1 x := by
  induction groups with
  | nil => exact fun _ => rfl
  | cons g groups ih =>
    intro results
    obtain ⟨hg, hgroups⟩ : 1 ≠ g ∧ 1 ∉ groups := by simpa using h
    show defaultResults groups ((results.set 1 x).set g _) = (defaultResults groups (results.set g _)).set 1 x
    rw [List.set_comm _ _ hg, ih hgroups]

theorem defaulted_without_map {groups : List Nat} (h : 0 ∉ groups) (s : State) : s.defaulted groups =
    { s with start := { s.start with loadResult := defaultResults groups s.start.loadResult } } :=
  if_neg fun hmap => h hmap.1

theorem defaulted_with_map {groups : List Nat} (h : 0 ∈ groups) (s : State) : s.defaulted groups =
    if 402653184 < 2 * s.intake.geo.slots * s.intake.geo.frameBytes then
      { s.defaultGeometry with start := { s.start with
        loadResult := (defaultResults groups s.start.loadResult).set 1 (some .rejected) } }
    else { s with start := { s.start with loadResult := defaultResults groups s.start.loadResult } } := by
  unfold State.defaulted
  simp only [h, true_and]
  rfl

/-- Groups other than G0 keep what the reset gave them. -/
theorem defaultGroups_without_map {groups : List Nat} (h : 0 ∉ groups) : ∀ s : State,
    groups.foldl (fun u g => defaultGroup g u) s = s.defaulted groups := by
  induction groups with
  | nil => exact fun s => (defaulted_without_map h s).symm
  | cons g groups ih =>
    intro s
    obtain ⟨hg, hgroups⟩ : 0 ≠ g ∧ 0 ∉ groups := by simpa using h
    rw [List.foldl_cons, defaultGroup_plain hg.symm, ih hgroups, defaulted_without_map hgroups,
      defaulted_without_map h]
    rfl

/-- With G0 the default map is in force; the check of its pool against G1 changes no later group. -/
theorem defaultGroups_with_map {before after : List Nat} (hb : 0 ∉ before) (h0 : 0 ∉ after) (h1 : 1 ∉ after)
    (s : State) : (before ++ 0 :: after).foldl (fun u g => defaultGroup g u) s =
      s.defaulted (before ++ 0 :: after) := by
  have hresults : defaultResults (before ++ 0 :: after) s.start.loadResult = defaultResults after
      ((defaultResults before s.start.loadResult).set 0 (some .defaulted)) := by
    simp [defaultResults]
  rw [List.foldl_append, List.foldl_cons, defaultGroups_without_map hb, defaultGroup_map,
    checkDefaultMap_eq, defaultGroups_without_map h0, defaulted_without_map h0, defaulted_without_map hb,
    defaulted_with_map (by simp), hresults, ← defaultResults_set h1]
  by_cases hpool : 402653184 < 2 * s.intake.geo.slots * s.intake.geo.frameBytes
  · rw [if_pos (by exact hpool), if_pos hpool]
    rfl
  · rw [if_neg (by exact hpool), if_neg hpool]
    rfl

/-- The groups DEFAULTED in the orders that R184 gives: from G1, from G0, or from a later group on. -/
theorem defaultGroups_eq {order : List Nat}
    (h : order = [1, 0, 2, 3, 4, 5, 6] ∨ order = [0, 2, 3, 4, 5, 6] ∨ 0 ∉ order) (s : State) :
    order.foldl (fun u g => defaultGroup g u) s = s.defaulted order := by
  rcases h with rfl | rfl | h
  · exact defaultGroups_with_map (before := [1]) (by simp) (by simp) (by simp) s
  · exact defaultGroups_with_map (before := []) (by simp) (by simp) (by simp) s
  · exact defaultGroups_without_map h s

/-! ## What settling leaves as it was -/

/-- The loader waits for nothing while the groups are settled. -/
def State.waitless (s : State) : State := { s with start := { s.start with waiting := .nothing } }

theorem defaulted_waitless (groups : List Nat) (s : State) :
    s.waitless.defaulted groups = (s.defaulted groups).waitless := by
  unfold State.defaulted
  dsimp only
  rw [apply_ite State.waitless]
  rfl

theorem defaulted_keeps (groups : List Nat) (s : State) :
    (s.defaulted groups).req = s.req ∧ (s.defaulted groups).cycle = s.cycle := by
  unfold State.defaulted
  dsimp only
  split <;> exact ⟨rfl, rfl⟩

theorem groupLoaded_keeps (g : Nat) (bytes : List Byte) (s : State) :
    (s.groupLoaded g bytes).req = s.req ∧ (s.groupLoaded g bytes).cycle.state = s.cycle.state := by
  unfold State.groupLoaded
  split <;> exact ⟨rfl, rfl⟩

theorem mapSettled_keeps (bytes : List Byte) (s : State) :
    (s.mapSettled bytes).req = s.req ∧ (s.mapSettled bytes).cycle = s.cycle := by
  unfold State.mapSettled
  dsimp only
  split
  · exact ⟨rfl, rfl⟩
  · split <;> exact ⟨rfl, rfl⟩

/-! ## A group read (R185, R186) -/

theorem passes_iff (map : RegionMap) (g : Geometry) : map.passes g = true ↔
    apart map.windows = true ∧ (∀ w ∈ map.windows, w.base + w.len ≤ 0x400000000) ∧
      2 * g.slots * g.frameBytes ≤ map.slotPool.len := by
  simp only [RegionMap.passes, Bool.and_eq_true, List.all_eq_true, decide_eq_true_eq, and_assoc]
  rfl

theorem loadMap_eq (bytes : List Byte) (s : State) : loadMap bytes s = s.mapSettled bytes := by
  unfold loadMap State.mapSettled
  simp only [passes_iff]
  split
  · rfl
  · rw [checkDefaultMap_eq]
    rfl

theorem mapSettled_waitless (bytes : List Byte) (s : State) :
    s.waitless.mapSettled bytes = (s.mapSettled bytes).waitless := by
  unfold State.mapSettled
  dsimp only
  rw [apply_ite State.waitless, apply_ite State.waitless]
  rfl

/-- A group read takes the values of its bytes; nothing waits to be read until the next group is looked for. -/
theorem loadGroup_eq {g : Nat} (hg : g ≤ 6) (bytes : List Byte) (s : State) : loadGroup g bytes s.waitless =
    (if g = 0 then s.mapSettled bytes else s.groupLoaded g bytes).waitless :=
  match g with
  | 0 => (loadMap_eq bytes s.waitless).trans (mapSettled_waitless bytes s)
  | 1 | 2 | 3 | 4 | 5 | 6 => rfl

theorem groupsAfter_eq {g : Nat} (hg : g ≤ 6) :
    groupsAfter g = if g = 1 then [0, 2, 3, 4, 5, 6] else [2, 3, 4, 5, 6].filter fun x => g < x := by
  interval_cases g <;> rfl

theorem groupRead_eq {g : Nat} (hg : g ≤ 6) (bytes : List Byte) {a : State}
    (hp : a.start.phase = .profileLoad) (hw : a.start.waiting = .group g) :
    groupRead bytes a = settleGroups (groupsAfter g)
      (if g = 0 then a.mapSettled bytes else a.groupLoaded g bytes).waitless := by
  have hload : groupRead bytes a = settleGroups (groupsAfter g) (loadGroup g bytes a.waitless) := by
    unfold groupRead
    rw [hw]
    exact if_pos hp
  rw [hload, loadGroup_eq hg]

/-! ## Becoming READY (R187) -/

/-- A command that comes to settle groups none of which is accepted makes the part READY. -/
theorem readies_of {c : Instr} {m : Moment} {f : State → State} {s e : State} {order : List Nat}
    (hx : exec c s = takeCommand m f s) (hf : f (arrive m s) = settleGroups order e.waitless)
    (horder : order = [1, 0, 2, 3, 4, 5, 6] ∨ order = [0, 2, 3, 4, 5, 6] ∨ 0 ∉ order)
    (hreq : e.req = (arrive m s).req) (hidle : e.cycle.state = .idle) : s.readies c e order := by
  intro hnone d low
  have hready : f (arrive m s) = becomeReady d.waitless := by
    rw [hf, settleGroups_none (s := e.waitless) hnone, defaultGroups_eq horder, defaulted_waitless]
  obtain ⟨hdreq, hdcycle⟩ := defaulted_keeps order e
  have hcame := becomeReady_came (came_self d.waitless) (.inl ((congrArg Cycle.state hdcycle).trans hidle))
  have hnewest : d.waitless.req.newest = s.req.newest := congrArg RequestUnit.newest (hdreq.trans hreq)
  rw [hnewest] at hcame
  exact completes_by hx hready hcame

/-- Settles O11: the signature with no group accepted, or the read of the last accepted group. -/
theorem lastGroupMakesReady : Obligations.LastGroupMakesReady := by
  intro m s a hphase hidle
  refine ⟨fun sig control hwait => ?_, fun bytes g hwait hg => ?_⟩
  · exact readies_of (exec_profileSignatureRead m sig control s) (if_pos ⟨hphase, hwait⟩) (.inl rfl) rfl hidle
  · have horder : groupsAfter g = [1, 0, 2, 3, 4, 5, 6] ∨ groupsAfter g = [0, 2, 3, 4, 5, 6] ∨
        0 ∉ groupsAfter g := by
      interval_cases g <;> decide
    have hread := groupRead_eq hg bytes hphase hwait
    rw [← groupsAfter_eq hg]
    by_cases hmap : g = 0
    · rw [if_pos hmap] at hread ⊢
      obtain ⟨hreq, hcycle⟩ := mapSettled_keeps bytes a
      exact readies_of (exec_profileGroupRead m bytes s) hread horder hreq
        ((congrArg Cycle.state hcycle).trans hidle)
    · rw [if_neg hmap] at hread ⊢
      obtain ⟨hreq, hstate⟩ := groupLoaded_keeps g bytes a
      exact readies_of (exec_profileGroupRead m bytes s) hread horder hreq (hstate.trans hidle)

end Sys2Proof.Machine
end

