-- ==== Sys2Proof/Proofs/Turner.lean ====
section
/-! PROOFS. A turn advances through its stages (O58). -/

namespace Sys2Proof.Machine

/-! ## A command that goes on by a test -/

section
variable {c : Instr} {m : Moment} {f g : State → State} {s e e' x : State} {p q : Prop} [Decidable p]

/-- A command whose operation tests `p` and, where it holds, goes on into `g`. -/
theorem leads_or (hx : exec c s = takeCommand m f s) (h : f (arrive m s) = if p then g e else x)
    (hq : f (arrive m s) = x → q) (hn : e.req.newest = (arrive m s).req.newest := by rfl) :
    if p then s.leads c g e [] else q := by
  by_cases hp : p
  · rw [if_pos hp] at h ⊢
    exact leads_now hx h hn
  · rw [if_neg hp] at h ⊢
    exact hq h

theorem leads_or_completes (hx : exec c s = takeCommand m f s) (h : f (arrive m s) = if p then g e else e')
    (hn : e.req.newest = (arrive m s).req.newest := by rfl)
    (hn' : e'.req.newest = (arrive m s).req.newest := by rfl) :
    if p then s.leads c g e [] else s.completes c e' [] :=
  leads_or hx h (fun h => completes_now hx h hn') hn

/-- The knife pulse, or GRIP at once where it is 0 (R62). -/
theorem pulse_of (hx : exec c s = takeCommand m f s) (h : f (arrive m s) = enterPulse e)
    (hn : e.req.newest = (arrive m s).req.newest := by rfl) :
    if e.turner.vals.knife = 0 then s.leads c enterGrip e []
    else s.completes c { e with
      turner := e.turner.entered .separate ⟨.off, true, 0, .off⟩ .off
        (some (e.now + ms e.turner.vals.knife)) } [] :=
  leads_or_completes hx (h.trans (enterPulse_eq e)) hn hn

/-- A command that ends its stage with the knife pulse where `p` holds. -/
theorem pulse_or_completes (hx : exec c s = takeCommand m f s)
    (h : f (arrive m s) = if p then enterPulse e else e)
    (hn : e.req.newest = (arrive m s).req.newest := by rfl) :
    if p then
      if e.turner.vals.knife = 0 then s.leads c enterGrip e []
      else s.completes c { e with
        turner := e.turner.entered .separate ⟨.off, true, 0, .off⟩ .off
          (some (e.now + ms e.turner.vals.knife)) } []
    else s.completes c e [] := by
  by_cases hp : p
  · rw [if_pos hp] at h ⊢
    exact pulse_of hx h hn
  · rw [if_neg hp] at h ⊢
    exact completes_now hx h hn

end

/-! ## The stage that runs -/

theorem not_runsStage_of_sub {t : Turner} {st : Stage} (h : t.sub ≠ .none) : ¬ t.runsStage st = true :=
  fun hruns =>
    have ⟨_, _, hsub⟩ := (runsStage_iff t st).1 hruns
    h hsub

theorem not_runsStage_of_state {t : Turner} {st : Stage} (h : t.state ≠ .turning) :
    ¬ t.runsStage st = true := fun hruns => h ((runsStage_iff t st).1 hruns).1

theorem not_runsStage_of_stage {t : Turner} {st st' : Stage} (h : t.stage = some st') (hst : st' ≠ st) :
    ¬ t.runsStage st = true := fun hruns =>
  have ⟨_, hstage, _⟩ := (runsStage_iff t st).1 hruns
  hst (Option.some.inj (h.symm.trans hstage))

/-- PLATEN_RISE with the platen up: the arm decides (R61). -/
theorem checkRise_up {e : State} (hstage : e.turner.state = .turning ∧ e.turner.stage = some .platenRise ∧
    e.turner.sub = .none) (hup : e.lines.platenUp = true) :
    let r : State := { e with turner := { e.turner with outputs := { e.turner.outputs with
      platen := .off, arm := if e.lines.armParked then .off else .toPark } } }
    checkRise e = if e.lines.armParked = true then enterPulse r else r := by
  rw [checkRise_eq hstage]
  simp [hup]

/-- PLATEN_RISE with the arm parked: the platen decides (R61). -/
theorem checkRise_parked {e : State} (hstage : e.turner.state = .turning ∧ e.turner.stage = some .platenRise ∧
    e.turner.sub = .none) (hparked : e.lines.armParked = true) :
    let r : State := { e with turner := { e.turner with outputs := { e.turner.outputs with
      platen := if e.lines.platenUp then .off else e.turner.outputs.platen, arm := .off } } }
    checkRise e = if e.lines.platenUp = true then enterPulse r else r := by
  rw [checkRise_eq hstage]
  simp [hparked]

/-! ## The stages entered (R61 to R68) -/

/-- LIFT is entered: DOUBLE_SENSE, the monitor, LEAF_SENSE (R64, R72; notes/assumptions/19.md). -/
theorem enterLift_eq (u : State) :
    let lift : State := { u with
      turner := u.turner.entered .lift u.turner.carrying (.running u.now u.turner.g6.lift) none }
    enterLift u = if u.lines.doubleSense = true then doubleLeaf lift
      else if u.lines.wandPressure < u.turner.vals.hold then gripLoss lift
      else if u.lines.leafSense = true then enterSweep lift
      else lift := by
  simp only [enterLift, State.gripLost, decide_eq_true_eq]
  rfl

theorem enterSweep_eq (u : State) :
    let sweep : State := { u with
      turner := u.turner.entered .sweep u.turner.carrying (.running u.now u.turner.g6.sweep) none }
    enterSweep u = if u.lines.wandPressure < u.turner.vals.hold then gripLoss sweep
      else if u.lines.armAtLeft = true then enterRelease sweep
      else sweep := by
  simp only [enterSweep, State.gripLost, decide_eq_true_eq]
  rfl

/-- A turn is taken at REST with the class values copied (R59), PLATEN_RISE as its inputs stand (R61). -/
theorem takeTurn_eq {a : State} {k : Nat} {w : Volume} {e : ClassEntry} (hactive : a.vols.active = some (k, w))
    (hclass : a.activeClass = some e) :
    let taken : State := { a with turner := { a.turner with
      handle := k
      vals := ⟨e.vacuum, e.grip, e.hold, e.mode, e.holdTimeout, e.knife, e.maxRetries, e.settle⟩
      state := .turning, stage := some .platenRise, sub := .none, stageTime := none, holdTimer := none
      stageTimer := .running a.now a.turner.g6.platen
      outputs := ⟨if a.lines.platenUp then .off else .up, false, 0,
        if a.lines.armParked then .off else .toPark⟩ } }
    takeTurn a =
      if a.lines.platenUp = true ∧ a.lines.armParked = true then enterPulse taken else taken := by
  unfold takeTurn
  rw [hactive, hclass]
  exact checkRise_eq ⟨rfl, rfl, rfl⟩

/-- A turn done with nothing more asked leaves the turner at REST (R59, R68). -/
theorem turnDone_rests {s : State} {w : Volume} (hw : s.vols.get s.turner.handle = some w)
    (hstate : s.cycle.state ≠ .turn) (hpending : s.turner.pendingTurn = false) :
    turnDone s = { s.withVolume s.turner.handle (some { w with
        cursor := min (w.cursor + 1) w.leaves, openingDose := 0, turnsDone := satSucc w.turnsDone }) with
      turner := { s.turner with
        state := .rest, stage := none, sub := .none, retry := 0, doubles := 0, stageTimer := .off
        stageTime := none, holdTimer := none, outputs := ⟨.off, false, 0, .off⟩ } } := by
  rw [turnDone_eq hw]
  dsimp only
  rw [if_neg hstate, if_neg]
  simp [hpending]

/-! ## The arm parked (R61, R66, R70) -/

/-- What the parked arm ends, its drive refreshed: PLATEN_RISE, a retry pause or RETURN. -/
def armParks (s : State) : State :=
  let s := refreshPark s
  if s.turner.runsStage .platenRise then checkRise s
  else if s.turner.sub = .retryPause then checkRetryPause s
  else if s.turner.runsStage .returning then enterPlatenLower s
  else s

theorem exec_armParkedActive_parks (m : Moment) (s : State) : exec (.armParkedActive m) s =
    takeCommand m (fun s => armParks (setLines (fun l => { l with armParked := true }) s)) s := rfl

section
variable {e : State}

theorem armParks_rise (hstage : e.turner.state = .turning ∧ e.turner.stage = some .platenRise ∧
    e.turner.sub = .none) (hparked : e.lines.armParked = true) :
    let r : State := { e with turner := { e.turner with outputs := { e.turner.outputs with
      platen := if e.lines.platenUp then .off else e.turner.outputs.platen, arm := .off } } }
    armParks e = if e.lines.platenUp = true then enterPulse r else r := by
  unfold armParks
  rw [refreshPark_in ⟨hstage.1, .inl hstage.2.1⟩]
  exact (if_pos ((runsStage_iff e.turner .platenRise).2 hstage)).trans (checkRise_parked hstage hparked)

theorem armParks_pause (hstate : e.turner.state = .turning) (hsub : e.turner.sub = .retryPause)
    (hparked : e.lines.armParked = true) :
    armParks e = checkRetryPause { e with turner := { e.turner with
      outputs := { e.turner.outputs with arm := .off } } } := by
  unfold armParks
  rw [refreshPark_in ⟨hstate, .inr hsub⟩, if_pos hparked]
  exact (if_neg (not_runsStage_of_sub (by simp [hsub]))).trans (if_pos hsub)

/-- Outside PLATEN_RISE and a retry pause only RETURN hears of it. -/
theorem armParks_else (hrise : ¬ (e.turner.state = .turning ∧ e.turner.stage = some .platenRise))
    (hsub : e.turner.sub ≠ .retryPause) :
    armParks e = if e.turner.runsStage .returning = true then enterPlatenLower e else e := by
  have hout : ¬ e.turner.runsStage .platenRise = true := fun h =>
    have ⟨hstate, hstage, _⟩ := (runsStage_iff _ _).1 h
    hrise ⟨hstate, hstage⟩
  unfold armParks
  rw [refreshPark_out fun h => h.2.elim (fun hstage => hrise ⟨h.1, hstage⟩) hsub]
  exact (if_neg hout).trans (if_neg hsub)

end

/-- Settles O58: each ending event in its stage, then the turn taken and done, and each stage's entry. -/
theorem turnAdvancesByStages : Obligations.TurnAdvancesByStages := by
  intro m s a t v rest carry runs pausing due on pulse
  have hruns (st : Stage) : t.runsStage st = true ↔ runs st := runsStage_iff t st
  have hdue : t.timeDue a.now = true ↔ due := timeDue_iff t a.now
  have hboth (st : Stage) : t.runsStage st = true ∧ t.timeDue a.now = true ↔ runs st ∧ due :=
    and_congr (hruns st) hdue
  let parked : State := { a with lines := { a.lines with armParked := true } }
  refine ⟨⟨fun hnot => ?notRising, fun hstage => ?platenUp⟩,
    ⟨fun hstage => ?parkedRising, fun ⟨hstate, _, hsub⟩ => ?parkedPausing, fun hstage => ?parkedReturning,
      fun hrise hreturn hsub => ?parkedElse⟩,
    ⟨fun hstage htime => ?knife, fun hnot => ?notKnife⟩,
    ⟨fun hsub htime hparked => ?pauseEnds, fun hnot => ?pauseStays⟩, fun pressure hstage => ?grip,
    ⟨fun hnot => ?notLifting, fun hstage => ?leafSensed⟩, ⟨fun hnot => ?notSweeping, fun hstage => ?armLeft⟩,
    ⟨fun hstage htime => ?release, fun hnot => ?notRelease⟩,
    ⟨fun hnot => ?notLowering, fun hstage => ?platenDown⟩, ⟨fun hnot => ?notSettled, fun hstage htime => ?settled⟩,
    fun k w e hactive hclass _ => takeTurn_eq hactive hclass,
    fun w hw hcycle hpending => turnDone_rests hw hcycle hpending, fun u => ?entries⟩
  case notRising => exact completes_now (exec_platenUpActive m s) (if_neg (mt (hruns _).1 hnot))
  case platenUp =>
    let up : State := { a with lines := { a.lines with platenUp := true } }
    exact pulse_or_completes (exec_platenUpActive m s)
      ((if_pos ((hruns _).2 hstage)).trans (checkRise_up (e := up) hstage rfl))
  case parkedRising => exact pulse_or_completes (exec_armParkedActive_parks m s) (armParks_rise hstage rfl)
  case parkedPausing =>
    have hcheck := armParks_pause (e := parked) hstate hsub rfl
    exact ⟨fun htime => pulse_of (exec_armParkedActive_parks m s)
        (hcheck.trans (if_pos ⟨hdue.2 htime, rfl⟩)),
      fun hnot => completes_now (exec_armParkedActive_parks m s)
        (hcheck.trans (if_neg fun h => hnot (hdue.1 h.1)))⟩
  case parkedReturning =>
    have ⟨_, hreturning, hsub⟩ := hstage
    have hrise : ¬ (t.state = .turning ∧ t.stage = some .platenRise) := by simp [hreturning]
    exact leads_or_completes (exec_armParkedActive_parks m s)
      ((armParks_else (e := parked) hrise (hsub.trans_ne (by decide))).trans (if_pos ((hruns _).2 hstage)))
  case parkedElse =>
    exact completes_now (exec_armParkedActive_parks m s)
      ((armParks_else (e := parked) hrise hsub).trans (if_neg (mt (hruns _).1 hreturn)))
  case knife => exact leads_or_completes (exec_knifePulseElapsed m s) (if_pos ((hboth _).2 ⟨hstage, htime⟩))
  case notKnife => exact completes_now (exec_knifePulseElapsed m s) (if_neg (mt (hboth _).1 hnot))
  case pauseEnds =>
    exact pulse_of (exec_retryPauseElapsed m s) ((if_pos hsub).trans (if_pos ⟨hdue.2 htime, hparked⟩))
  case pauseStays =>
    by_cases hsub : t.sub = .retryPause
    · exact completes_now (exec_retryPauseElapsed m s)
        ((if_pos hsub).trans (if_neg fun h => hnot ⟨hsub, hdue.1 h.1, h.2⟩))
    · exact completes_now (exec_retryPauseElapsed m s) (if_neg hsub)
  case grip =>
    have hx := exec_wandPressureSample m pressure s
    by_cases hlow : pressure.toNat < v.grip
    · rw [if_pos hlow]
      exact completes_now hx ((if_pos ((hruns _).2 hstage)).trans (if_neg (Nat.not_le.2 hlow)))
    · rw [if_neg hlow]
      let e : State := { a with lines := { a.lines with wandPressure := pressure.toNat } }
      exact leads_or hx ((if_pos ((hruns _).2 hstage)).trans
          ((if_pos (Nat.not_lt.1 hlow)).trans (enterLift_eq e)))
        fun h => leads_or hx h fun h => leads_or_completes hx h
  case notLifting => exact completes_now (exec_leafSenseActive m s) (if_neg (mt (hruns _).1 hnot))
  case leafSensed =>
    have hx := exec_leafSenseActive m s
    let e : State := { a with lines := { a.lines with leafSense := true } }
    exact leads_or hx ((if_pos ((hruns _).2 hstage)).trans (enterSweep_eq e)) fun h => leads_or_completes hx h
  case notSweeping => exact completes_now (exec_armAtLeftActive m s) (if_neg (mt (hruns _).1 hnot))
  case armLeft => exact completes_now (exec_armAtLeftActive m s) (if_pos ((hruns _).2 hstage))
  case release => exact leads_or_completes (exec_releaseElapsed m s) (if_pos ((hboth _).2 ⟨hstage, htime⟩))
  case notRelease => exact completes_now (exec_releaseElapsed m s) (if_neg (mt (hboth _).1 hnot))
  case notLowering => exact completes_now (exec_platenDownActive m s) (if_neg (mt (hruns _).1 hnot))
  case platenDown => exact leads_or_completes (exec_platenDownActive m s) (if_pos ((hruns _).2 hstage))
  case notSettled => exact completes_now (exec_settleElapsed m s) (if_neg (mt (hboth _).1 hnot))
  case settled => exact leads_now (exec_settleElapsed m s) (if_pos ((hboth _).2 ⟨hstage, htime⟩))
  case entries => exact ⟨enterPulse_eq u, rfl, enterLift_eq u, enterSweep_eq u, rfl, rfl, rfl, rfl⟩

end Sys2Proof.Machine
end

