-- ==== Sys2Proof/Proofs/TurnFaults.lean ====
section
/-! PROOFS. A turn's faults, retries and holds (O59). -/

namespace Sys2Proof.Machine

/-! ## A change of the active record -/

/-- The active record changed, if there is one, as the statements write it. -/
def State.activeChanged (e : State) (g : Volume → Volume) : State :=
  match e.vols.activeHandle with
  | none => e
  | some k => match e.vols.get k with
    | none => e
    | some w => e.withVolume k (some (g w))

theorem updActive_changed (g : Volume → Volume) (e : State) : updActive g e = e.activeChanged g :=
  updActive_eq g e

theorem activeChanged_vols (g : Volume → Volume) (e : State) :
    e.activeChanged g = { e with vols := (e.activeChanged g).vols } := by
  unfold State.activeChanged
  split
  · rfl
  · split <;> rfl

theorem activeChanged_newest (g : Volume → Volume) (e : State) :
    (e.activeChanged g).req.newest = e.req.newest := by
  rw [activeChanged_vols]

/-! ## The end of a turn and its retry (R69 to R71) -/

/-- A turn's end: the report, and the halt of a cycle in TURN, the fault counted (R18, R46, R71). -/
theorem endTurn_eq (kind : FaultKind) (e : State) :
    endTurn kind e = if e.cycle.state = .turn then
      haltTurn kind e.turner.stage
        (State.activeChanged { e with turner := e.turner.failed kind } countTurnFault)
    else { e with turner := e.turner.failed kind } := by
  rw [← faulted_failed, ← updActive_changed]
  rfl

/-- The turner in a retry pause, one retry more counted (R70). -/
def State.retried (e : State) : Turner :=
  { e.turner.entered .separate ⟨.off, false, 0, if e.lines.armParked then .off else .toPark⟩
      (.running e.now e.turner.g6.goBack) (some (e.now + ms 200)) with
    sub := .retryPause, retry := e.turner.retry + 1 }

theorem retryable_eq (kind : FaultKind) (e : State) : retryable kind e =
    if e.turner.retry < e.turner.vals.maxRetries then { sync e with turner := e.retried }
    else endTurn kind e := by
  have hpause : enterRetryPause e = { sync e with turner := e.retried } := by
    simp only [enterRetryPause, setStage, updTurner, sync_turner]
    rfl
  unfold retryable
  rw [hpause]

/-- The command ends the turn in `e` with this fault (R46, R71). -/
def State.endsTurn (s : State) (c : Instr) (kind : FaultKind) (e : State) : Prop :=
  if e.cycle.state = .turn then
    s.leads c (haltTurn kind e.turner.stage)
      (State.activeChanged { e with turner := e.turner.failed kind } countTurnFault) []
  else s.completes c { e with turner := e.turner.failed kind } []

section
variable {c : Instr} {m : Moment} {f : State → State} {s e : State} {kind : FaultKind}
  {b q : Prop} [Decidable b]

theorem endsTurn_of (hx : exec c s = takeCommand m f s) (h : f (arrive m s) = endTurn kind e)
    (hn : e.req.newest = (arrive m s).req.newest := by rfl) : s.endsTurn c kind e :=
  leads_or_completes hx (h.trans (endTurn_eq kind e)) ((activeChanged_newest _ _).trans hn) hn

/-- A command that ends the turn exactly when `q` holds. -/
theorem endsTurn_iff (hx : exec c s = takeCommand m f s) (h : f (arrive m s) = if b then endTurn kind e else e)
    (hb : b ↔ q) (hn : e.req.newest = (arrive m s).req.newest := by rfl) :
    (q → s.endsTurn c kind e) ∧ (¬ q → s.completes c e []) :=
  ⟨fun hq => endsTurn_of hx (h.trans (if_pos (hb.2 hq))) hn,
    fun hq => completes_now hx (h.trans (if_neg (mt hb.1 hq))) hn⟩

/-- A retryable fault: a retry, which shows the stage left before it enters SEPARATE (R181), or the turn's end. -/
theorem retries_of (hx : exec c s = takeCommand m f s) (h : f (arrive m s) = retryable kind e)
    (hn : e.req.newest = (arrive m s).req.newest := by rfl) :
    if e.turner.retry < e.turner.vals.maxRetries then s.completes c { e with turner := e.retried } []
    else s.endsTurn c kind e := by
  rw [retryable_eq] at h
  by_cases hretry : e.turner.retry < e.turner.vals.maxRetries
  · rw [if_pos hretry] at h ⊢
    have hshown : (sync e).cameTo s.req.newest e [] := State.cameTo.sync ⟨rfl, wrote_self hn⟩
    exact completes_by hx h (hshown.clean (clean_updTurner fun _ => e.retried))
  · rw [if_neg hretry] at h ⊢
    exact endsTurn_of hx h hn

end

theorem doubleLeaf_eq (u : State) : doubleLeaf u = retryable .doubleLeaf
    (State.activeChanged { u with turner := { u.turner with doubles := min (u.turner.doubles + 1) 255 } }
      fun v => { v with doubleLeafEvents := satSucc v.doubleLeafEvents }) :=
  congrArg (retryable .doubleLeaf) (updActive_changed _ _)

/-! ## The vacuum monitor (R72 to R74) -/

theorem gripLoss_abort {e : State} (h : e.turner.vals.mode = .abort) : gripLoss e = endTurn .vacuumLow e := by
  unfold gripLoss
  rw [h]

theorem gripLoss_hold {e : State} (h : e.turner.vals.mode = .hold) : gripLoss e = { e with
    turner := { e.turner with
      state := .hold
      outputs := { e.turner.outputs with arm := .off }
      stageTimer := e.turner.stageTimer.suspend e.now
      holdTimer := some (e.now + ms e.turner.vals.holdTimeout) } } := by
  unfold gripLoss
  rw [h]
  rfl

/-- The turner back in TURNING from HOLD (R74). -/
def State.recovered (e : State) : State := { e with
  turner := { e.turner with
    state := .turning
    outputs := { e.turner.outputs with arm := .toLeft }
    stageTimer := e.turner.stageTimer.resume e.now
    holdTimer := none } }

/-- The grip recovered, the stage's ending condition is looked at at once (R74). -/
theorem recoverGrip_eq (e : State) : recoverGrip e =
    if e.turner.stage = some .lift ∧ e.turner.sub = .none ∧ e.lines.leafSense = true then
      enterSweep e.recovered
    else if e.turner.stage = some .sweep ∧ e.turner.sub = .none ∧ e.lines.armAtLeft = true then
      enterRelease e.recovered
    else e.recovered := by
  have hruns (st : Stage) : e.recovered.turner.runsStage st = true ↔
      e.turner.stage = some st ∧ e.turner.sub = .none := by simp [runsStage_iff, State.recovered]
  show checkCarry e.recovered = _
  unfold checkCarry
  simp only [Bool.and_eq_true, hruns, and_assoc]
  rfl

section
variable {e : State}

theorem samplePressure_carrying (h : e.turner.runsStage .lift = true ∨ e.turner.runsStage .sweep = true) :
    samplePressure e = if e.lines.wandPressure < e.turner.vals.hold then gripLoss e else e := by
  have hgrip : ¬ e.turner.runsStage .grip = true := by
    rcases h with h | h
    all_goals
      obtain ⟨_, hstage, _⟩ := (runsStage_iff _ _).1 h
      exact not_runsStage_of_stage hstage (by decide)
  unfold samplePressure
  rw [if_neg hgrip, if_pos (by simpa using h)]
  simp [State.gripLost]

theorem samplePressure_holding (h : e.turner.state = .hold) : samplePressure e =
    if e.turner.vals.hold + 8 ≤ e.lines.wandPressure then recoverGrip e else e := by
  have hruns (st : Stage) : ¬ e.turner.runsStage st = true := not_runsStage_of_state (by simp [h])
  unfold samplePressure
  rw [if_neg (hruns _), if_neg (by simp [hruns]), if_pos h]

theorem samplePressure_else (hgrip : ¬ e.turner.runsStage .grip = true)
    (hlift : ¬ e.turner.runsStage .lift = true) (hsweep : ¬ e.turner.runsStage .sweep = true)
    (hhold : e.turner.state ≠ .hold) : samplePressure e = e := by
  unfold samplePressure
  rw [if_neg hgrip, if_neg (by simp [hlift, hsweep]), if_neg hhold]

end

/-! ## The timeouts (R60, R61, R66, R67, R70, R74) -/

theorem holdDue_iff (t : Turner) (now : Nat) : t.holdDue now = true ↔ ∃ x, t.holdTimer = some x ∧ x ≤ now := by
  unfold Turner.holdDue
  cases t.holdTimer <;> simp

theorem platenExpires_eq (e : State) :
    (if e.turner.runsStage .platenRise then stageExpires .platenRise .platenTimeout e
      else stageExpires .platenLower .platenTimeout e) =
    if (e.turner.runsStage .platenRise = true ∨ e.turner.runsStage .platenLower = true) ∧
        e.turner.timerDue e.now = true then endTurn .platenTimeout e else e := by
  unfold stageExpires
  by_cases hrise : e.turner.runsStage .platenRise = true
  · simp only [hrise, if_true, true_or, true_and]
  · simp only [hrise, if_false, false_or, Bool.false_eq_true]

/-- Settles O59: the faults of the timeouts and inputs, the retries, the monitor's samples, and what a grip loss
and a double leaf do wherever they come from. -/
theorem turnFaultsRetriesAndHolds : Obligations.TurnFaultsRetriesAndHolds := by
  intro m s a t v runs at' expired on counted ends retries timeout
  have hruns (st : Stage) : t.runsStage st = true ↔ runs st := runsStage_iff t st
  have hexpired : t.timerDue a.now = true ↔ expired := timerDue_iff t a.now
  have hcounted (g : Volume → Volume) (e : State) : counted g e = e.activeChanged g := rfl
  have hexpires (st : Stage) : t.runsStage st = true ∧ t.timerDue a.now = true ↔ runs st ∧ expired :=
    and_congr (hruns st) hexpired
  refine ⟨?lift, ?sweep, ?platen, ?back, ⟨fun hstage hexp => ?retried, fun hnot => ?notRetried⟩, ?hold,
    ⟨fun hat => ?dropped, fun hnot => ?notDropped⟩, ⟨fun hat => ?double, fun hnot => ?notDouble⟩,
    fun pressure => ⟨fun hstage => ?carrying, fun hstate => ?holding, fun hstate hlift hsweep hgrip => ?other,
      fun u => ⟨?loss, ?leaf⟩⟩⟩
  case lift => exact (endsTurn_iff (exec_liftTimeout m s) rfl (hexpires .lift)).imp_left and_imp.1
  case sweep => exact (endsTurn_iff (exec_sweepTimeout m s) rfl (hexpires .sweep)).imp_left and_imp.1
  case platen =>
    exact (endsTurn_iff (exec_platenTimeout m s) (platenExpires_eq a)
      (and_congr (or_congr (hruns _) (hruns _)) hexpired)).imp_left and_imp.1
  case back =>
    have hback : ((t.runsStage .returning || t.sub == .retryPause) && t.timerDue a.now) = true ↔
        (runs .returning ∨ t.sub = .retryPause) ∧ expired := by
      simp only [Bool.and_eq_true, Bool.or_eq_true, beq_iff_eq, hruns, hexpired]
    exact (endsTurn_iff (exec_returnTimeout m s) rfl hback).imp_left and_imp.1
  case retried => exact retries_of (exec_gripTimeout m s) (if_pos ((hexpires .grip).2 ⟨hstage, hexp⟩))
  case notRetried => exact completes_now (exec_gripTimeout m s) (if_neg (mt (hexpires .grip).1 hnot))
  case hold => exact endsTurn_iff (exec_holdTimeout m s) rfl (and_congr_right fun _ => holdDue_iff t a.now)
  case dropped => exact endsTurn_of (exec_leafSenseInactive m s) (if_pos ((atStage_iff t _).2 hat))
  case notDropped => exact completes_now (exec_leafSenseInactive m s) (if_neg (mt (atStage_iff t _).1 hnot))
  case double =>
    rw [hcounted, activeChanged_vols]
    exact retries_of (exec_doubleSenseActive m s) ((if_pos ((atStage_iff t _).2 hat)).trans
      ((doubleLeaf_eq _).trans (congrArg (retryable .doubleLeaf) (activeChanged_vols _ _))))
  case notDouble => exact completes_now (exec_doubleSenseActive m s) (if_neg (mt (atStage_iff t _).1 hnot))
  case carrying =>
    let e : State := { a with lines := { a.lines with wandPressure := pressure.toNat } }
    have hx := exec_wandPressureSample m pressure s
    have hsample := samplePressure_carrying (e := e) (hstage.imp (hruns _).2 (hruns _).2)
    exact ⟨fun hkept => completes_now hx (hsample.trans (if_neg (Nat.not_lt.2 hkept))),
      fun hlost hmode => endsTurn_of hx (hsample.trans ((if_pos hlost).trans (gripLoss_abort hmode))),
      fun hlost hmode => completes_now hx (hsample.trans ((if_pos hlost).trans (gripLoss_hold hmode)))⟩
  case holding =>
    let e : State := { a with lines := { a.lines with wandPressure := pressure.toNat } }
    have hx := exec_wandPressureSample m pressure s
    have hsample := samplePressure_holding (e := e) hstate
    by_cases hlow : pressure.toNat < v.hold + 8
    · rw [if_pos hlow]
      exact completes_now hx (hsample.trans (if_neg (Nat.not_le.2 hlow)))
    · rw [if_neg hlow]
      exact leads_or hx (hsample.trans ((if_pos (Nat.not_lt.1 hlow)).trans (recoverGrip_eq e)))
        fun h => leads_or_completes hx h
  case other =>
    exact completes_now (exec_wandPressureSample m pressure s) (samplePressure_else
      (mt (hruns _).1 hgrip) (mt (hruns _).1 hlift) (mt (hruns _).1 hsweep) hstate)
  case loss =>
    cases hmode : u.turner.vals.mode with
    | abort => exact (gripLoss_abort hmode).trans (endTurn_eq .vacuumLow u)
    | hold => exact gripLoss_hold hmode
  case leaf =>
    rw [doubleLeaf_eq, retryable_eq, hcounted, activeChanged_vols, endTurn_eq]
    rfl

end Sys2Proof.Machine
end

