-- ==== Sys2Proof/Proofs/LampRamps.lean ====
section
/-! PROOFS. The lamp channels (O55): a channel's scheduled start, a lamp fault and its marks, the ramp steps. -/

namespace Sys2Proof.Machine

/-! ## One channel of the list changed -/

theorem mapIdx_only {α : Type} {l : List α} {i : Nat} {x : α} (f : Nat → α → α) (h : l[i]? = some x) :
    (l.mapIdx fun j c => if j = i then f j c else c) = l.set i (f i x) := by
  refine List.ext_getElem? fun j => ?_
  rw [List.getElem?_mapIdx, List.getElem?_set]
  by_cases hj : i = j
  · subst hj
    have hi : i < l.length := (List.getElem?_eq_some_iff.1 h).1
    rw [h, if_pos rfl, if_pos hi, Option.map_some, if_pos rfl]
  · simp [hj, Ne.symm hj]

/-! ## A lamp fault (R38, R96, R116) -/

/-- The lamp mark on a camera's frame in flight: at the intake while the frame is received, else on the frame
record of one that has ended (R116). -/
theorem markLamp_eq (y : CamState) : y.markLamp =
    match y.slots.findIdx? Slot.flies with
    | none => y
    | some k =>
      if (y.intakeRec.state = .waitFirst ∨ y.intakeRec.state = .receiving) ∧ y.intakeRec.armed = some k then
        { y with intakeRec := { y.intakeRec with lamp := true } }
      else { y with slots := y.slots.modify k fun z => { z with frame := z.frame.map fun f =>
        if f.ending = .complete ∨ f.ending = .damaged then { f with ending := .damaged, reason := .lamp }
        else f } } := by
  have hfly : y.inFlight = y.slots.findIdx? Slot.flies := rfl
  unfold CamState.markLamp
  rw [hfly]
  cases y.slots.findIdx? Slot.flies with
  | none => rfl
  | some k =>
    refine if_congr (by rw [busy_iff_state]) rfl ?_
    refine (congrArg (y.updFrame k) (funext fun f => ?_)).trans (updFrame_slots y k _)
    cases f.ending <;> simp

/-- The state after a lamp fault of channel `i`, which was `ch`: the channel FAILED, the exposure, the opening
record and the frames marked. -/
def State.lampFailed (s : State) (i : Nat) (ch : Channel) : State := { s with
  light := { s.light with
    exposure := { s.light.exposure with lampFault := true }
    channels := s.light.channels.set i (ch.putOut .failed s.now (s.plannedFor i)) }
  cycle := { s.cycle with opening := if s.light.exposure.kind = .calibration then s.cycle.opening
    else s.cycle.opening.map fun o => { o with lampFault := true } }
  intake := { s.intake with cams := ⟨s.intake.cams.left.markLamp, s.intake.cams.right.markLamp⟩ } }

theorem noteLampFault_eq (s : State) : noteLampFault s = { s with cycle := { s.cycle with
    opening := if s.light.exposure.kind = .calibration then s.cycle.opening
      else s.cycle.opening.map fun o => { o with lampFault := true } } } := by
  unfold noteLampFault
  split <;> rfl

theorem lampFault_eq {s : State} {i : Nat} {ch : Channel} (h : s.light.channels[i]? = some ch) :
    lampFault i s = s.lampFailed i ch := by
  unfold lampFault mapChannels
  rw [mapIdx_only (fun j c => c.putOut .failed s.now (s.plannedFor j)) h]
  unfold reportLampFault
  rw [noteLampFault_eq]
  rfl

/-! ## The scheduled start of a channel (R90, R96) -/

/-- The moment channel `i` leaves OFF, on the exposure's clock (R90). -/
def State.riseMoment (s : State) (i : Nat) : Nat :=
  s.light.exposure.startedAt +
    ms (s.light.exposure.plan.span - rampTime s.light.rampRate (s.light.exposure.level i))

/-- Channel `i`, which was `ch`, as its start leaves it (R90). -/
def State.risen (s : State) (i : Nat) (ch : Channel) : Channel := { ch with
  state := .rampUp, target := s.light.exposure.level i, wasLit := true
  litAt := some (s.riseMoment i), nextStep := s.riseMoment i + ms 1 }

section
variable {s : State} {i : Nat} {ch : Channel} (h : s.light.channels[i]? = some ch)
include h

theorem rampDue_iff : s.rampDue i = true ↔ s.light.exposure.phase = .rampUp ∧ ch.state = .off ∧
    ch.wasLit = false ∧ s.light.exposure.level i ≠ 0 ∧ s.riseMoment i ≤ s.now := by
  unfold State.rampDue
  rw [h]
  simp [State.clockAt, State.riseMoment, and_assoc]

theorem beginRamp_eq : beginRamp i s = s.withChannels (s.light.channels.set i (s.risen i ch)) := by
  rw [← mapIdx_only (fun _ c => s.risen i c) h]
  rfl

/-- A start that is due: the channel rises, or fails where its LAMP_OK is inactive (R90, R96). -/
theorem rampStart_due (hdue : s.rampDue i = true) : rampStart i s =
    let e := s.withChannels (s.light.channels.set i (s.risen i ch))
    if s.lines.lampOk.getD i false = true then e else e.lampFailed i (s.risen i ch) := by
  have hrisen : (s.withChannels (s.light.channels.set i (s.risen i ch))).light.channels[i]? =
      some (s.risen i ch) := List.getElem?_set_self (List.getElem?_eq_some_iff.1 h).1
  rw [rampStart, if_pos hdue, beginRamp_eq h]
  dsimp only
  rw [lampFault_eq hrisen]
  rfl

end

/-! ## The ramp steps (R90, R91) -/

/-- A channel's ramp step: up to its target, or down to OFF where its on-time stops (R90, R91). -/
theorem step_eq (now rate planned : Nat) (c : Channel) : c.step now rate planned =
    if now < c.nextStep then c
    else if c.state = .rampUp then { c with
      level := min c.target (c.level + rate)
      state := if c.target ≤ c.level + rate then .on else .rampUp
      nextStep := c.nextStep + ms 1 }
    else if c.state = .rampDown then
      if c.level ≤ rate then c.putOut .off c.nextStep planned
      else { c with level := c.level - rate, nextStep := c.nextStep + ms 1 }
    else c := by
  unfold Channel.step
  by_cases hdue : c.nextStep ≤ now
  · rw [if_pos hdue, if_neg (Nat.not_lt.2 hdue)]
    cases hstate : c.state with
    | rampUp => simp only [min_eq_left_iff, if_true]
    | rampDown => simp only [Nat.sub_eq_zero_iff_le, reduceCtorEq, if_false, if_true]
    | off | on | failed => rfl
  · rw [if_neg hdue, if_pos (Nat.not_le.1 hdue)]

/-- The channels after a ramp step (R90, R91). -/
def State.steppedChannels (s : State) : List Channel :=
  s.light.channels.mapIdx fun i c => c.step s.now s.light.rampRate (s.plannedFor i)

/-- WARM entered: a warm time of 0 fires the triggers at once (R91). -/
def State.warmed (s : State) : State :=
  let w := updExposure (fun x => { x with phase := .warm }) s
  if s.light.warm = 0 then fireTriggers w else w

theorem rampStep_eq (s : State) : rampStep s =
    let e := s.withChannels s.steppedChannels
    if s.light.exposure.phase = .rampUp ∧
        s.light.exposure.startedAt + ms s.light.exposure.plan.span ≤ s.now then e.warmed
    else e := by
  have hwarm (u : State) : warmOnEntry (updExposure (fun x => { x with phase := .warm }) u) = u.warmed := by
    simp [warmOnEntry, State.warmed, updExposure]
  unfold rampStep
  simp only [hwarm, State.clockAt, decide_eq_true_eq]
  rfl

theorem fireTriggers_newest (s : State) : (fireTriggers s).req.newest = s.req.newest := by
  rw [fireTriggers_eq]

/-- Settles O55: the lamp mark, then the scheduled start, LAMP_OK becoming inactive, and the ramp step. -/
theorem lampsRampAndFail : Obligations.LampsRampAndFail := by
  intro m s a x rate lit planned marked failed
  have hmarked (y : CamState) : y.markLamp = marked y := markLamp_eq y
  have hfailed (l : Lines) (cs : List Channel) (i : Nat) (ch : Channel) :
      let e : State := { a with lines := l, light := { a.light with channels := cs } }
      e.lampFailed i ch = failed e i ch := by
    intro e
    unfold State.lampFailed
    rw [hmarked, hmarked]
    rfl
  refine ⟨hmarked, ?start, ?lampOk, ?step⟩
  case start =>
    intro i ch hch c v start due risen e
    have hx := exec_channelRampStart m i s
    have hdue : a.rampDue i.val = true ↔ due := rampDue_iff hch
    refine ⟨fun hnot => completes_now hx (if_neg (mt hdue.1 hnot)), fun hyes => ?_⟩
    have hstart := rampStart_due hch (hdue.2 hyes)
    have hfault : e.lampFailed i.val risen = failed e i.val risen := hfailed a.lines _ i.val risen
    rw [← hfault]
    refine completes_exact hx hstart ?_
    split <;> rfl
  case lampOk =>
    intro i ch hch c e
    have hx := exec_lampOkInactive m i s
    have hfault : e.lampFailed i.val ch = failed e i.val ch := hfailed e.lines a.light.channels i.val ch
    have hlit : (e.light.channels[i.val]?.map Channel.lit).getD false = lit ch := by
      show (a.light.channels[i.val]?.map Channel.lit).getD false = _
      rw [hch]
      rfl
    rw [← hfault, ← hlit]
    refine completes_exact hx ?_ (by split <;> rfl)
    rw [← lampFault_eq (s := e) hch]
    rfl
  case step =>
    intro e warm
    have hsteps : a.withChannels a.steppedChannels = e := by
      unfold State.steppedChannels
      simp only [step_eq]
      rfl
    refine completes_exact (exec_lampRampStep m s) ((rampStep_eq a).trans ?_) ?_
    · rw [hsteps]
      rfl
    · split
      · split
        · exact fireTriggers_newest warm
        · rfl
      · rfl

end Sys2Proof.Machine
end

