-- ==== Sys2Proof/Proofs/Calibrate.lean ====
section
/-! PROOFS. CALIBRATE (O41): its checks, the wait for the cameras, and the start of its exposure. -/

namespace Sys2Proof.Machine

/-! ## What the calibration reads (R88, R90, R98, R105, R123) -/

/-- The lamp test fails where a needed channel is FAILED (R88, R98). -/
theorem lampTest_fails_iff (channels : List Channel) (levels : List Nat) :
    ¬ lampTest channels levels = true ↔
    ∃ (i : Nat) (x : Channel), channels[i]? = some x ∧ x.state = .failed ∧ levels.getD i 0 ≠ 0 := by
  have hneeded : (∃ q ∈ channels.zip levels, q.1.state = .failed ∧ q.2 ≠ 0) ↔
      ∃ (i : Nat) (x : Channel), channels[i]? = some x ∧ x.state = .failed ∧ levels.getD i 0 ≠ 0 := by
    constructor
    · rintro ⟨⟨x, v⟩, hq, hfailed, hv⟩
      obtain ⟨i, hi⟩ := List.mem_iff_getElem?.1 hq
      obtain ⟨hx, hlevel⟩ := List.getElem?_zip_eq_some.1 hi
      exact ⟨i, x, hx, hfailed, by rwa [List.getD_eq_getElem?_getD, hlevel]⟩
    · rintro ⟨i, x, hx, hfailed, hv⟩
      cases hlevel : levels[i]? with
      | none => simp [List.getD_eq_getElem?_getD, hlevel] at hv
      | some v =>
        have hpair : (channels.zip levels)[i]? = some (x, v) := List.getElem?_zip_eq_some.2 ⟨hx, hlevel⟩
        refine ⟨(x, v), List.mem_of_getElem? hpair, hfailed, ?_⟩
        simpa [List.getD_eq_getElem?_getD, hlevel] using hv
  rw [← hneeded]
  simp [lampTest, and_comm]

theorem cradleAtRest_iff (s : State) : s.cradleAtRest = true ↔
    s.lines.platenDown = true ∧ s.lines.armParked = true ∧ s.turner.state = .rest := by
  simp [State.cradleAtRest, and_assoc]

theorem calLevels_eq (channels : List Channel) (levels : List Nat) : calLevels channels levels =
    channels.mapIdx fun i x => if x.sideMap = .none then 0 else levels.getD i 0 := by
  unfold calLevels
  congr 1
  funext i x
  cases x.sideMap <;> rfl

theorem bothReady_iff (s : State) : s.camerasReady Sides.both = true ↔
    s.lines.camReady.left = true ∧ s.lines.camReady.right = true := by
  simp [State.camerasReady, Sides_list_eq, Sides.both, PerCam.get]

/-- A camera with no frame in flight and a FREE slot is armed there (R105). -/
theorem arm_eq {y : CamState} {k : Nat} (f : Frame)
    (hidle : ∀ x ∈ y.slots, x.state ≠ .armed ∧ x.state ≠ .filling) (hfree : y.firstFree = some k) :
    y.arm f = { y with slots := y.slots.set k ⟨.armed, some f⟩ } := by
  have hnone : y.inFlight = none := List.findIdx?_eq_none_iff.2 fun x hx => by simp [hidle x hx]
  unfold CamState.arm
  rw [hnone, hfree]
  rfl

theorem firstFree_isNone_iff (y : CamState) :
    y.firstFree.isNone = true ↔ (y.slots.any fun x => x.state == .free) = false := by
  rw [CamState.firstFree, Option.isNone_iff_eq_none, List.findIdx?_eq_none_iff, List.any_eq_false]
  simp

theorem newCalibration_eq (p : CalibrateParams) (t : Ticket) : newCalibration p t =
    { ticket := t, target := p.target.toNat, levels := (sixLevels p.levels).map (min 1023)
      exposure := min 2000 (max 1 p.exposure.toNat)
      clamped := (sixLevels p.levels).any (fun v => 1023 < v) || p.exposure.toNat == 0 ||
        2000 < p.exposure.toNat
      exposureDone := false, charge := 0, recorded := false } := by
  simp only [newCalibration, clampLevels, clampExposure, clampTo_ne, Bool.or_assoc]
  rfl

/-! ## The start of the calibration exposure (R98, R124) -/

/-- The calibration exposure started and both cameras armed, the triggers not yet fired (R90, R105, R124). -/
def State.calibrationStarted (s : State) (p : Plan) : State := { s with
  light := { s.light with
    channels := s.light.channels.map fun c => { c with wasLit := false, onTime := 0, target := 0 }
    exposure := ⟨if p.span = 0 then .warm else .rampUp, .calibration, ⟨true, true⟩, p, none, false,
      s.now, false, false⟩ }
  intake := { s.intake with cams := ⟨s.intake.cams.left.arm (Frame.fresh none 0 none 0),
    s.intake.cams.right.arm (Frame.fresh none 0 none 0)⟩ } }

theorem calibrationStarted_eq (s : State) (p : Plan) :
    updCam .right (fun x => x.arm (Frame.fresh none 0 none 0))
      (updCam .left (fun x => x.arm (Frame.fresh none 0 none 0))
        (startExposure .calibration Sides.both p none s)) = s.calibrationStarted p := by
  unfold startExposure mapChannels
  rw [mapIdx_const]
  rfl

/-- A started calibration whose span and warm time are 0 fires its triggers at once (R90, R91). -/
theorem warmOnEntry_calibrationStarted (s : State) (p : Plan) : warmOnEntry (s.calibrationStarted p) =
    if p.span = 0 ∧ s.light.warm = 0 then fireTriggers (s.calibrationStarted p)
    else s.calibrationStarted p := by
  have hphase : (s.calibrationStarted p).light.exposure.phase = .warm ↔ p.span = 0 := by
    unfold State.calibrationStarted
    by_cases hspan : p.span = 0 <;> simp [hspan]
  exact if_congr (and_congr_left' hphase) rfl rfl

/-- The calibration with no wait shown any more (R124). -/
def State.calibrationReady (s : State) : State := { s with
  cycle := { s.cycle with state := .calibrate, sub := .none, camTimer := none } }

/-- A calibration that goes on fails its lamp test, or its rest check, or starts its exposure (R98, R124). -/
theorem calGo_eq {s : State} {cal : Calibration} (hcal : s.cycle.cal = some cal) :
    let p := s.planOf (calLevels s.light.channels cal.levels) cal.exposure
    calGo s =
      if ¬ lampTest s.light.channels p.levels = true then calFail .refusedLamp s.calibrationReady
      else if ¬ s.cradleAtRest = true then calFail .notAtRest s.calibrationReady
      else warmOnEntry (s.calibrationReady.calibrationStarted p) := by
  intro p
  unfold calGo
  rw [hcal]
  simp only [calibrationStarted_eq]
  rfl

/-- The calibration looks at the cameras: it goes on, or waits for them (R124). -/
theorem calCameras_eq (s : State) : calCameras s =
    if s.lines.camReady.left = true ∧ s.lines.camReady.right = true then calGo s
    else { s with cycle := { s.cycle with
      state := .calibrate, sub := .waitCamera
      camTimer := some (s.now + ms s.intake.geo.camReadyTimeout) } } :=
  if_congr (bothReady_iff s) rfl rfl

/-- Settles O41: the checks of CALIBRATE in their order and the look at the cameras, then what going on does. -/
theorem calibrateStarts : Obligations.CalibrateStarts := by
  refine ⟨?request, ?goesOn⟩
  case request =>
    intro m h p s a t c free levels cal hasked
    have hfree (w : Camera) : (a.cam w).firstFree.isNone = true ↔ free w = false := firstFree_isNone_iff _
    have hx : s.checks c m t _ _ := checks_of_asked (exec_calibrate m h p s) hasked rfl
    refine hx.split (by simp) fun _ hx => hx.split not_idle_iff fun _ hx => hx.split Iff.rfl fun _ hx =>
      hx.split Iff.rfl fun _ hx => hx.split Iff.rfl fun _ hx => hx.split Bool.or_eq_true_iff fun _ hx =>
      hx.split (Bool.or_eq_true_iff.trans (or_congr (hfree .left) (hfree .right))) fun _ hx =>
      hx.split decide_eq_true_iff fun _ hx => ?_
    let e : State := { a with cycle := { a.cycle with state := .calibrate, sub := .none, cal := some cal } }
    have hlook : calCameras (enterCycle .calibrate .none
        (updCycle (fun c => { c with cal := some (newCalibration p t) }) a)) = calCameras e := by
      rw [newCalibration_eq]
      rfl
    split
    next hready => exact leads_now hx (hlook.trans ((calCameras_eq e).trans (if_pos hready)))
    next hwait => exact completes_now hx (hlook.trans ((calCameras_eq e).trans (if_neg hwait)))
  case goesOn =>
    intro s cal hcal ready levels p lampOut atRest fresh
    have hlevels : calLevels s.light.channels cal.levels = levels := calLevels_eq _ _
    have hgo := calGo_eq hcal
    rw [hlevels] at hgo
    have hlamp : ¬ lampTest s.light.channels p.levels = true ↔ lampOut := lampTest_fails_iff _ _
    have hrest : s.cradleAtRest = true ↔ atRest := cradleAtRest_iff s
    refine ⟨fun hout => hgo.trans (if_pos (hlamp.2 hout)), fun hlit hmoved => ?_, fun hlit hstill => ?_⟩
    · exact hgo.trans ((if_neg (mt hlamp.1 hlit)).trans (if_pos (mt hrest.1 hmoved)))
    · refine ⟨⟨s.intake.cams.left.arm fresh, s.intake.cams.right.arm fresh⟩, ?_, fun w j hidle hfree => ?_⟩
      · exact hgo.trans ((if_neg (mt hlamp.1 hlit)).trans ((if_neg (not_not.2 (hrest.2 hstill))).trans
          (warmOnEntry_calibrationStarted ready p)))
      · cases w <;> exact arm_eq fresh hidle hfree

end Sys2Proof.Machine
end

