-- ==== Sys2Proof/Proofs/FrameLines.lean ====
section
/-! PROOFS. The aperture writes of the camera receivers: a line written or dropped (O17), and a frame that ends or
breaks (O18). -/

namespace Sys2Proof.Machine

/-! ## A camera's write comes to its frame (R109, R162, R165) -/

/-- An address in a camera's aperture is in no other window (R161). -/
theorem classifyWrite_aperture {a : State} {cam : Camera} {x : Txn} (hapart : apart a.transit.map.windows = true)
    (hin : (a.transit.map.aperture cam).holds x.addr.toNat = true) :
    classifyWrite x a = apertureWrite cam (a.transit.map.aperture cam) x a := by
  have hat : cameraCode cam + 4 < 7 := by cases cam <;> decide
  have hhere : (a.transit.map.windows[cameraCode cam + 4]'hat).holds x.addr.toNat = true := by cases cam <;> exact hin
  have hother (j : Nat) (hj : j < 7) (hne : cameraCode cam + 4 ≠ j) :
      (a.transit.map.windows[j]'hj).holds x.addr.toNat = false := holds_only_one hapart hat hj hne hhere
  have hrequest : a.transit.map.request.holds x.addr.toNat = false := hother 0 (by decide) (by omega)
  have hreply : a.transit.map.reply.holds x.addr.toNat = false := hother 1 (by decide) (by omega)
  have hstatus : a.transit.map.status.holds x.addr.toNat = false := hother 2 (by decide) (by omega)
  have hlog : a.transit.map.log.holds x.addr.toNat = false := hother 3 (by decide) (by omega)
  unfold classifyWrite
  simp only [hrequest, hreply, hstatus, hlog, Bool.or_self, Bool.false_eq_true, if_false]
  cases cam with
  | left => exact if_pos hin
  | right =>
    have hleft : ¬ a.transit.map.apertureL.holds x.addr.toNat = true :=
      Bool.eq_false_iff.1 (hother 4 (by decide) (by decide))
    exact (if_neg hleft).trans (if_pos hin)

/-- A camera receiver's write into its own aperture is redirected to its frame (R109, R165). -/
theorem upWrite_aperture {a : State} {cam : Camera} {offset : Nat} {p : Payload} (hready : a.start.phase = .ready)
    (hroom : a.transit.stream.length < 32) (hapart : apart a.transit.map.windows = true)
    (hin : offset < (a.transit.map.aperture cam).len)
    (hend : (a.transit.map.aperture cam).base + (a.transit.map.aperture cam).len ≤ 2 ^ 34) :
    upWrite (a.apertureTxn cam offset p) a = redirect cam offset (a.apertureTxn cam offset p) a := by
  have hopen : a.portOpen = true := by simp [State.portOpen, hready, hroom]
  have haddr : (a.apertureTxn cam offset p).addr.toNat = (a.transit.map.aperture cam).base + offset :=
    (BitVec.toNat_ofNat _ _).trans (Nat.mod_eq_of_lt (by omega))
  have hholds : (a.transit.map.aperture cam).holds (a.apertureTxn cam offset p).addr.toNat = true := by
    rw [haddr]
    simp [Window.holds, hin]
  have hcamera : Requester.isCamera (a.apertureTxn cam offset p).requester cam = true := by cases cam <;> rfl
  unfold upWrite
  rw [if_pos hopen, if_pos (ready_of_phase hready), classifyWrite_aperture hapart hholds, apertureWrite,
    if_pos hcamera, haddr, Nat.add_sub_cancel_left]

/-! ## A line taken and a frame ended (R110 to R113, R127 to R130) -/

/-- A camera with its frame's next line taken: the armed slot no longer ARMED, the offset and the statistics
advanced by the line (R110, R127 to R129). -/
def CamState.lineTaken (c : CamState) (k : Nat) (px : List (Nat × Nat)) (dataError : Bool) : CamState :=
  let r := c.intakeRec
  { c with
    slots := if r.state = .waitFirst ∧ c.slots[k]?.map Slot.state = some .armed then
        c.slots.set k ⟨.filling, (c.slots.getD k Slot.empty).frame⟩ else c.slots
    intakeRec := { r with
      state := .receiving
      expected := r.expected + 64
      remaining := r.remaining - 64
      dataError := r.dataError || dataError
      sum := r.sum + pixelSum px
      clip := r.clip + pixelClips px
      bands := addBands r.bands px } }

/-- The slot a first line is for is FILLING, if it was ARMED (R110). -/
theorem fill_slots (slots : List Slot) (k : Nat) :
    slots.set k (slots.getD k Slot.empty).fill =
      if slots[k]?.map Slot.state = some .armed then
        slots.set k ⟨.filling, (slots.getD k Slot.empty).frame⟩ else slots := by
  rw [List.getD_eq_getElem?_getD]
  cases hslot : slots[k]? with
  | none => exact List.set_eq_of_length_le (List.getElem?_eq_none_iff.1 hslot)
  | some y =>
    by_cases harmed : y.state = .armed
    · simp [Slot.fill, harmed]
    · obtain ⟨hk, rfl⟩ := List.getElem?_eq_some_iff.1 hslot
      simp [Slot.fill, harmed]

/-- A frame's next line is taken and written, and the last one completes the frame (R110, R111). -/
theorem goodLine_eq {c : CamState} {k offset : Nat} (g : Geometry) (dataError : Bool) (data : List Byte)
    (hstate : c.intakeRec.state = .waitFirst ∨ c.intakeRec.state = .receiving)
    (harmed : c.intakeRec.armed = some k) :
    let px := correctLine g.width offset c.intakeRec.table c.intakeRec.corrected data
    c.goodLine g offset dataError data =
      if c.intakeRec.remaining ≤ 64 then
        ((c.lineTaken k px dataError).completeFrame g, .written offset (pixelBytes px) true)
      else (c.lineTaken k px dataError, .written offset (pixelBytes px) false) := by
  intro px
  rcases hstate with hfirst | hlater
  · have hslots : c.putSlot k (c.slots.getD k Slot.empty).fill =
        { c with slots := (c.lineTaken k px dataError).slots } := by
      simp only [CamState.putSlot, CamState.lineTaken, fill_slots, hfirst, true_and]
    unfold CamState.goodLine
    simp only [hfirst, harmed, Nat.sub_eq_zero_iff_le]
    rw [hslots]
    rfl
  · have hnot : ¬ (c.intakeRec.state = .waitFirst ∧ c.slots[k]?.map Slot.state = some .armed) :=
      fun h => absurd (hlater.symm.trans h.1) (by decide)
    simp only [CamState.lineTaken, if_neg hnot]
    unfold CamState.goodLine
    simp only [hlater, Nat.sub_eq_zero_iff_le]
    rfl

/-- The frame in flight ends with its statistics filled in (R130). -/
theorem endFrame_eq {c : CamState} {k : Nat} {st : SlotState} {f : Frame} (g : Geometry) (e : FrameEnd)
    (r : FrameReason) (harmed : c.intakeRec.armed = some k) (hslot : c.slots[k]? = some ⟨st, some f⟩) :
    c.endFrame g e r = { c with slots := c.slots.set k ⟨st, some { f with
      ending := e, reason := r, sum := c.intakeRec.sum, clip := c.intakeRec.clip
      mean := c.intakeRec.sum / (g.width * g.height) }⟩ } := by
  have hget : c.slots.getD k Slot.empty = ⟨st, some f⟩ := by
    rw [List.getD_eq_getElem?_getD, hslot]
    rfl
  unfold CamState.endFrame CamState.updFrame
  rw [harmed]
  dsimp only
  rw [hget]
  rfl

/-- A frame broken ends DAMAGED, by its lamps before the line (R113). -/
theorem breakFrame_eq {c : CamState} {k : Nat} {st : SlotState} {f : Frame} (g : Geometry) (r : FrameReason)
    (harmed : c.intakeRec.armed = some k) (hslot : c.slots[k]? = some ⟨st, some f⟩) :
    c.breakFrame g r = { c with
      slots := c.slots.set k ⟨st, some { f with
        ending := .damaged, reason := if c.intakeRec.lamp then .lamp else r
        sum := c.intakeRec.sum, clip := c.intakeRec.clip
        mean := c.intakeRec.sum / (g.width * g.height) }⟩
      intakeRec := { c.intakeRec with state := .draining, armed := none } } := by
  unfold CamState.breakFrame
  rw [endFrame_eq g _ _ harmed hslot]
  rfl

/-- A frame whose lines are all written ends COMPLETE, or DAMAGED by its lamps before its data (R111). -/
theorem completeFrame_eq {c : CamState} {k : Nat} {st : SlotState} {f : Frame} (g : Geometry)
    (hwritten : c.intakeRec.remaining = 0) (harmed : c.intakeRec.armed = some k)
    (hslot : c.slots[k]? = some ⟨st, some f⟩) :
    c.completeFrame g = { c with
      slots := c.slots.set k ⟨st, some { f with
        ending := if c.intakeRec.lamp || c.intakeRec.dataError then .damaged else .complete
        reason := if c.intakeRec.lamp then .lamp else if c.intakeRec.dataError then .dataError else .none
        sum := c.intakeRec.sum, clip := c.intakeRec.clip
        mean := c.intakeRec.sum / (g.width * g.height) }⟩
      intakeRec := { c.intakeRec with state := .idle, armed := none, remaining := 0, timer := none } } := by
  have hend : (if c.intakeRec.lamp = true then c.endFrame g .damaged .lamp
      else if c.intakeRec.dataError = true then c.endFrame g .damaged .dataError
      else c.endFrame g .complete .none) =
      c.endFrame g (if c.intakeRec.lamp || c.intakeRec.dataError then .damaged else .complete)
        (if c.intakeRec.lamp then .lamp else if c.intakeRec.dataError then .dataError else .none) := by
    cases c.intakeRec.lamp <;> cases c.intakeRec.dataError <;> rfl
  unfold CamState.completeFrame
  dsimp only
  rw [hend, endFrame_eq g _ _ harmed hslot]
  simp only [CamState.setIntake, hwritten]

/-- The slot of a frame whose line was taken holds the same frame (R110). -/
theorem lineTaken_slot {c : CamState} {k : Nat} {st : SlotState} {f : Frame} (px : List (Nat × Nat))
    (dataError : Bool) (hslot : c.slots[k]? = some ⟨st, some f⟩) :
    (c.lineTaken k px dataError).slots[k]? =
      some ⟨if c.intakeRec.state = .waitFirst ∧ st = .armed then .filling else st, some f⟩ := by
  obtain ⟨hk, -⟩ := List.getElem?_eq_some_iff.1 hslot
  unfold CamState.lineTaken
  dsimp only
  rw [hslot]
  simp only [Option.map_some, Option.some.injEq]
  split
  · rw [List.getElem?_set_self hk, List.getD_eq_getElem?_getD, hslot]
    rfl
  · exact hslot

/-- A slot put over one put before is as put last, whether or not the line changed it (R110). -/
theorem lineTaken_slots_set (c : CamState) (k : Nat) (px : List (Nat × Nat)) (dataError : Bool) (y : Slot) :
    (c.lineTaken k px dataError).slots.set k y = c.slots.set k y := by
  unfold CamState.lineTaken
  dsimp only
  split
  · exact List.set_set ..
  · rfl

/-- The last line of a frame completes it with the line's own share of the statistics (R111, R127 to R130). -/
theorem lineTaken_completeFrame {c : CamState} {k : Nat} {st : SlotState} {f : Frame} (g : Geometry)
    (px : List (Nat × Nat)) (dataError : Bool) (hlast : c.intakeRec.remaining = 64)
    (harmed : c.intakeRec.armed = some k) (hslot : c.slots[k]? = some ⟨st, some f⟩) :
    let r := c.intakeRec
    let bad := r.dataError || dataError
    let sum := r.sum + pixelSum px
    (c.lineTaken k px dataError).completeFrame g = { c with
      slots := c.slots.set k ⟨if r.state = .waitFirst ∧ st = .armed then .filling else st, some { f with
        ending := if r.lamp || bad then .damaged else .complete
        reason := if r.lamp then .lamp else if bad then .dataError else .none
        sum := sum, clip := r.clip + pixelClips px, mean := sum / (g.width * g.height) }⟩
      intakeRec := { r with
        state := .idle, armed := none, timer := none
        expected := r.expected + 64, remaining := 0, dataError := bad
        sum := sum, clip := r.clip + pixelClips px, bands := addBands r.bands px } } := by
  have hwritten : (c.lineTaken k px dataError).intakeRec.remaining = 0 := Nat.sub_eq_zero_of_le hlast.le
  rw [completeFrame_eq g hwritten harmed (lineTaken_slot px dataError hslot), lineTaken_slots_set]
  rfl

/-! ## The line's fate (R109) -/

section
variable {s : State} {cam : Camera} {offset : Nat} {x : Txn}

theorem takeLine_drop (hidle : ¬ (s.cam cam).intakeRec.busy = true) : takeLine cam offset x s =
    ({ s with intake := { s.intake with drops := satSucc s.intake.drops } }, .dropped) := if_pos hidle

theorem takeLine_excess (hbusy : (s.cam cam).intakeRec.busy = true) (hpast : s.intake.geo.frameBytes ≤ offset) :
    takeLine cam offset x s =
      ({ s with intake := { s.intake with excess := satSucc s.intake.excess } }, .dropped) :=
  (if_neg (not_not.2 hbusy)).trans (if_pos hpast)

/-- A line that is not full, or not the one expected, breaks its frame (R113). -/
theorem takeLine_breaks (hbusy : (s.cam cam).intakeRec.busy = true) (hin : offset < s.intake.geo.frameBytes)
    (hbad : ¬ (fullLine x.len x.enables = true ∧ offset = (s.cam cam).intakeRec.expected)) :
    takeLine cam offset x s =
      (updCam cam (CamState.breakFrame s.intake.geo
        (if fullLine x.len x.enables = true then .sequence else .partialLine)) s, .broke) := by
  unfold takeLine
  dsimp only
  rw [if_neg (not_not.2 hbusy), if_neg (Nat.not_le.2 hin)]
  by_cases hfull : fullLine x.len x.enables = true
  · rw [if_neg (not_not.2 hfull), if_pos (fun h => hbad ⟨hfull, h⟩), if_pos hfull]
  · rw [if_pos hfull, if_neg hfull]

/-- A full line at the expected offset is taken, and the last one completes its frame (R110, R111). -/
theorem takeLine_good {k : Nat}
    (hstate : (s.cam cam).intakeRec.state = .waitFirst ∨ (s.cam cam).intakeRec.state = .receiving)
    (harmed : (s.cam cam).intakeRec.armed = some k) (hin : offset < s.intake.geo.frameBytes)
    (hfull : fullLine x.len x.enables = true) (hnext : offset = (s.cam cam).intakeRec.expected) :
    let r := (s.cam cam).intakeRec
    let px := correctLine s.intake.geo.width offset r.table r.corrected x.data
    let taken := (s.cam cam).lineTaken k px x.dataError
    takeLine cam offset x s =
      if r.remaining ≤ 64 then
        (updCam cam (fun _ => taken.completeFrame s.intake.geo) s, .written offset (pixelBytes px) true)
      else (updCam cam (fun _ => taken) s, .written offset (pixelBytes px) false) := by
  intro r px taken
  unfold takeLine
  dsimp only
  rw [if_neg (not_not.2 (busy_of_state hstate)), if_neg (Nat.not_le.2 hin), if_neg (not_not.2 hfull),
    if_neg (not_not.2 hnext), goodLine_eq s.intake.geo x.dataError x.data hstate harmed]
  by_cases hlast : r.remaining ≤ 64
  · rw [if_pos hlast, if_pos hlast]
  · rw [if_neg hlast, if_neg hlast]

end

/-! ## What a redirected line leaves (R109, R118, R165) -/

section
variable {s t : State} {cam : Camera} {offset : Nat} {x : Txn}

theorem redirect_dropped (h : takeLine cam offset x (respond x .done s) = (t, .dropped)) :
    redirect cam offset x s = bumpSeq t := by
  unfold redirect
  dsimp only
  rw [h]

theorem redirect_broke (h : takeLine cam offset x (respond x .done s) = (t, .broke)) :
    redirect cam offset x s = frameReported (bumpSeq t) := by
  unfold redirect
  dsimp only
  rw [h]

theorem redirect_written {k : Nat} {data : Line} {ended : Bool} (harmed : (s.cam cam).intakeRec.armed = some k)
    (h : takeLine cam offset x (respond x .done s) = (t, .written offset data ended)) :
    redirect cam offset x s =
      let w := bumpSeq (forward
        (t.passed true true (correctedWrite x (s.slotBase cam k + offset) data)) t)
      if ended then frameReported w else w := by
  unfold redirect
  dsimp only
  rw [h, harmed]
  rfl

end

/-- Settles O17: the next line of a frame, not its last, and a line no frame takes. -/
theorem apertureLineIsWrittenOrDropped : Obligations.ApertureLineIsWrittenOrDropped := by
  refine ⟨?written, ?stray⟩
  case written =>
    intro m cam offset p k s a window c r px x slot after hready hroom hapart hin hend hstate harmed hlen henables
      hnext hpast hmore
    have hfull : fullLine p.len p.enables = true := by simp [fullLine, hlen, henables]
    have htaken := (takeLine_good (s := respond x .done a) (x := x) hstate harmed hpast hfull hnext).trans
      (if_neg (Nat.not_le.2 hmore))
    exact completes_now (exec_apertureWrite m cam offset p s)
      ((upWrite_aperture hready hroom hapart hin hend).trans (redirect_written harmed htaken))
  case stray =>
    intro m cam offset p s a window r hready hroom hapart hin hend e
    have hx := exec_apertureWrite m cam offset p s
    have hwrite := upWrite_aperture (p := p) hready hroom hapart hin hend
    refine ⟨fun hidle => ?_, fun hstate hpast => ?_⟩
    · have hbusy : ¬ r.busy = true := mt busy_iff_state.1 (not_or.2 hidle)
      exact completes_now hx (hwrite.trans (redirect_dropped (s := a) (takeLine_drop hbusy)))
    · have hbusy : r.busy = true := busy_of_state hstate
      exact completes_now hx (hwrite.trans (redirect_dropped (s := a) (takeLine_excess hbusy hpast)))

/-- Settles O18: the last line completes its frame, and a line that is not full or not expected breaks it. -/
theorem frameEndsOrBreaks : Obligations.FrameEndsOrBreaks := by
  intro m cam offset p k st f s a window g c r px x slot full after hready hroom hapart hin hend hstate harmed hpast
    hslot
  have hwrite := upWrite_aperture (p := p) hready hroom hapart hin hend
  have hexec {t : State} (h : redirect cam offset.toNat x a = t) :
      exec (.apertureWrite m cam offset p) s = .next (sync t) := by
    rw [exec_apertureWrite]
    exact congrArg (fun u => Host.Outcome.next (sync u)) (hwrite.trans h)
  refine ⟨?completes, ?breaks⟩
  case completes =>
    intro hfull hnext hlast bad sum
    have htaken := (takeLine_good (s := respond x .done a) (x := x) hstate harmed hpast hfull hnext).trans
      (if_pos hlast.le)
    have hended := lineTaken_completeFrame g px p.dataError hlast harmed hslot
    refine hexec ((redirect_written harmed htaken).trans ((if_pos rfl).trans ?_))
    exact congrArg (fun z => frameReported (after _ z)) hended
  case breaks =>
    intro hbad
    have hbroken := redirect_broke (takeLine_breaks (s := respond x .done a) (busy_of_state hstate) hpast hbad)
    refine hexec (hbroken.trans ?_)
    exact congrArg (fun z => frameReported (after a.transit.stream z)) (breakFrame_eq g _ harmed hslot)

end Sys2Proof.Machine
end

