-- ==== Sys2Proof/Proofs/GainLoads.lean ====
section
/-! PROOFS. LOAD_GAINS (O40): its checks and its two reads, and their answers in either order. -/

namespace Sys2Proof.Machine

/-! ## The gains of a line (R121) -/

/-- A u16 field of a line, read as a word (R121). -/
theorem lineWord_two_toNat (l : Line) (o : Nat) : (lineWord 16 l o 2).toNat = rd16 l o := by
  have hlow := (lineByte l o).isLt
  have hhigh := (lineByte l (o + 1)).isLt
  have hfold : (List.range 2).foldr (fun i acc => (lineByte l (o + i)).toNat + 256 * acc) 0 =
      (lineByte l o).toNat + 256 * ((lineByte l (o + 1)).toNat + 256 * 0) := rfl
  rw [lineWord, hfold, BitVec.toNat_ofNat, Nat.mod_eq_of_lt (by omega)]
  rfl

theorem clampGain_ne (v : Nat) : (v != clampGain v) = (decide (v < 512) || decide (4095 < v)) := by
  rw [Bool.eq_iff_iff]
  simp [clampGain, clampTo]
  omega

/-- The gains kept of an answer, of whatever length it is (R121; notes/assumptions/32.md). -/
theorem gainHalf_words (data : Line) :
    let raw := (List.range 32).map fun i => lineWord 16 data (2 * i) 2
    gainHalf data = (raw.map fun v => min 4095 (max 512 v.toNat),
      raw.countP fun v => v.toNat < 512 || 4095 < v.toNat) := by
  intro raw
  have hraw : rd16s data 0 32 = raw.map BitVec.toNat := by
    simp only [raw, rd16s, List.map_map, Nat.zero_add]
    exact List.map_congr_left fun i _ => (lineWord_two_toNat data (2 * i)).symm
  unfold gainHalf
  simp only [hraw, List.map_map, List.countP_map, Function.comp_def, clampGain_ne]
  rfl

/-! ## The request (R121, R168) -/

/-- LOAD_GAINS of a camera is its two checks, then its two reads (R121). -/
theorem takeLoadGains_camera {cam : Byte} {w : Camera} (hcam : cam.toNat = cameraCode w) (lineAddress : BitVec 64)
    (t : Ticket) (s : State) :
    takeLoadGains cam lineAddress t s =
      checked t [(2 ^ 34 ≤ lineAddress.toNat || s.transit.map.forbids lineAddress.toNat 2, .badField),
          ((s.cam w).load.isSome || s.cycle.cal.isSome, .busy)]
        (fun s => placeGainReads w false none
          (updCam w (fun x => { x with load := some ⟨t, lineAddress.toNat, none, none, false⟩ }) s)) s := by
  unfold takeLoadGains
  rw [cameraOf_some hcam]

/-- With nothing waiting and room both reads of a load are queued (R121, R168). -/
theorem placeGainReads_queued {u : State} {w : Camera} {g : GainLoad} (hload : (u.cam w).load = some g)
    (hwait : u.transit.wait = []) (hroom : u.transit.queue.length ≤ 10) :
    let t := placeGainReads w false none u
    ∃ i j, ⟨i, g.addr, none, .gainRead w false⟩ ∈ t.transit.queue ∧
      ⟨j, g.addr + 64, none, .gainRead w true⟩ ∈ t.transit.queue := by
  have hroomy := roomy_weaken (n' := 14) (roomy_self hwait) (by omega)
  obtain ⟨i, hfirst, hplaced⟩ := roomy_placeGainRead w false g hload hroomy (by omega)
  let v := (placeGainRead w false none u).1
  have hreads : placeGainReads w false none u = (placeGainRead w true none v).1 :=
    if_pos ⟨hplaced, by decide⟩
  have hkept : (v.cam w).load = some g := by
    unfold State.cam
    rw [intake_came (placeGainRead_came w false (came_self u))]
    exact hload
  obtain ⟨j, hsecond, -⟩ := roomy_placeGainRead w true g hkept hfirst (by omega)
  obtain ⟨-, hone⟩ := hsecond.mem ⟨i, g.addr, none, .gainRead w false⟩ (by simp)
  obtain ⟨-, htwo⟩ := hsecond.mem ⟨j, g.addr + 64, none, .gainRead w true⟩ (by simp)
  intro t
  rw [show t = (placeGainRead w true none v).1 from hreads]
  exact ⟨i, j, hone, htwo⟩

/-! ## The answers (R121, R160, R176) -/

/-- The answer to an own transaction goes to the block that placed it (R160). -/
theorem answer_own {s : State} {e : OwnEntry} {rest : List Issued} (refused : Bool) (data : List Byte)
    (hstale : s.transit.stale = 0) (hout : s.transit.outstanding = .own e :: rest) :
    answer refused data s =
      ownAnswer e refused data { s with transit := { s.transit with outstanding := rest } } := by
  unfold answer
  rw [if_neg (by omega), hout]

theorem ownAnswer_gainRead {e : OwnEntry} {w : Camera} {second : Bool} (refused : Bool) (data : List Byte) (s : State)
    (horigin : e.origin = .gainRead w second) :
    ownAnswer e refused data s = gainReturned w second refused data s := by
  unfold ownAnswer
  rw [horigin]

/-- The load with a read's answer kept (R121). -/
def GainLoad.returned (g : GainLoad) (second refused : Bool) (half : List Nat × Nat) : GainLoad :=
  if second then { g with second := some half, refused := g.refused || refused }
  else { g with first := some half, refused := g.refused || refused }

theorem returned_ticket (g : GainLoad) (second refused : Bool) (half : List Nat × Nat) :
    (g.returned second refused half).ticket = g.ticket := by
  cases second <;> rfl

/-- A camera's intake is changed twice. -/
theorem updCam_updCam (w : Camera) (f h : CamState → CamState) (s : State) :
    updCam w h (updCam w f s) = updCam w (fun x => h (f x)) s := by
  unfold updCam
  simp only [cams_get_set, cams_set_set]

/-- A read's answer is kept, and the load ends if it was the last one awaited (R121). -/
theorem gainReturned_eq {s : State} {w : Camera} {g : GainLoad} (second refused : Bool) (data : Line)
    (hload : (s.cam w).load = some g) :
    gainReturned w second refused data s =
      endLoad w (updCam w (fun x => { x with load := some (g.returned second refused (gainHalf data)) }) s) := by
  have hkept : (s.intake.cams.get w).load.map (fun g => if second then
      { g with second := some (gainHalf data), refused := g.refused || refused }
      else { g with first := some (gainHalf data), refused := g.refused || refused }) =
      some (g.returned second refused (gainHalf data)) := by
    rw [show (s.intake.cams.get w).load = some g from hload]
    rfl
  unfold gainReturned
  refine congrArg (endLoad w) ?_
  unfold updCam
  dsimp only
  rw [hkept]

section
variable {s : State} {w : Camera} {g : GainLoad}

theorem updCam_load (l : Option GainLoad) :
    ((updCam w (fun x => { x with load := l }) s).cam w).load = l :=
  congrArg CamState.load (cams_get_set _ _ _)

/-- A load that awaits an answer goes on. -/
theorem endLoad_awaits (hawaits : g.first = none ∨ g.second = none) :
    endLoad w (updCam w (fun x => { x with load := some g }) s) =
      updCam w (fun x => { x with load := some g }) s := by
  unfold endLoad
  rw [updCam_load]
  dsimp only
  rcases hawaits with h | h
  · rw [h]
  · rw [h]
    cases g.first <;> rfl

/-- A load with both answers ends: refused, or with the pending table made (R121; notes/assumptions/42.md). -/
theorem endLoad_ends {p q : List Nat × Nat} (hfirst : g.first = some p) (hsecond : g.second = some q) :
    endLoad w (updCam w (fun x => { x with load := some g }) s) =
      if g.refused then refuse g.ticket .badField (updCam w (fun x => { x with load := none }) s)
      else replyDone g.ticket (0 < p.2 + q.2 : Bool) [(12, u8 (p.2 + q.2))]
        (updCam w (fun x => { x with
          load := none, pendingTable := p.1 ++ q.1, pendingTableFlag := true }) s) := by
  unfold endLoad
  rw [updCam_load]
  dsimp only
  rw [hfirst, hsecond]
  simp only [updCam_updCam]

end

/-- Settles O40: the checks and the two reads of LOAD_GAINS, then each read's answer. -/
theorem gainLoadReadsTwoLines : Obligations.GainLoadReadsTwoLines := by
  refine ⟨?request, ?answers⟩
  case request =>
    intro m h cam lineAddress s a t c at0 hasked
    have hchecks {w : Camera} (hcam : cam.toNat = cameraCode w) : s.checks c m t _ _ :=
      checks_of_asked (exec_loadGains m h cam lineAddress s) hasked (takeLoadGains_camera hcam lineAddress t a)
    refine ⟨fun hbad => ?_, fun w hcam hin hfree => ?_⟩
    · by_cases hcam : 1 < cam.toNat
      · refine refuse_completes (exec_loadGains m h cam lineAddress s) ((ask_asked hasked).trans ?_)
        unfold takeLoadGains
        rw [cameraOf_none hcam]
      · obtain ⟨w, hw⟩ := cameraCode_of_le (Nat.le_of_not_lt hcam)
        refine (hchecks hw).refused ?_
        simpa using hbad.resolve_left hcam
    · intro x
      have hpassed := (hchecks hcam).passed (by simpa using ⟨hin, hfree⟩)
      refine hpassed.split Bool.or_eq_true_iff fun _ hrun => ?_
      let g : GainLoad := ⟨t, at0, none, none, false⟩
      let e : State := updCam w (fun x => { x with load := some g }) a
      have hcame := (placeGainReads_came w (came_self e)).sync
      refine ⟨_, hrun.runs, hcame.2, hcame.1, fun hwait hroom => ?_⟩
      obtain ⟨i, j, hone, htwo⟩ := placeGainReads_queued (u := e) (updCam_load _) hwait hroom
      exact ⟨i, j, (grewTo_sync _).queued hone (by simp), (grewTo_sync _).queued htwo (by simp)⟩
  case answers =>
    intro m refused second data w e g rest s a c x raw vals half got became hstale hout _ horigin hload _
    have hx := exec_downstreamResponse m refused data s
    let r : State := { a with transit := { a.transit with outstanding := rest } }
    have hhalf : gainHalf data = half := gainHalf_words data
    have hgot : g.returned second refused half = got := rfl
    have hticket : got.ticket = g.ticket := hgot ▸ returned_ticket g second refused half
    have hanswer : answer refused data a = endLoad w (updCam w (fun x => { x with load := some got }) r) := by
      rw [answer_own refused data hstale hout, ownAnswer_gainRead refused data _ horigin,
        gainReturned_eq (s := r) second refused data hload, hhalf, hgot]
    refine ⟨fun p q hfirst hsecond => ?_, fun hawaits => completes_now hx (hanswer.trans (endLoad_awaits hawaits))⟩
    have hends := hanswer.trans (endLoad_ends hfirst hsecond)
    rw [hticket] at hends
    by_cases hrefused : got.refused = true
    · rw [if_pos hrefused] at hends
      rw [if_pos hrefused, if_pos hrefused]
      exact completes_by hx hends (State.cameTo.refuse (fs := []) _ _ ⟨rfl, rfl⟩)
    · rw [if_neg hrefused] at hends
      rw [if_neg hrefused, if_neg hrefused]
      exact done_completes hx hends rfl

end Sys2Proof.Machine
end

