-- ==== Sys2Proof/Proofs/ExposureRules.lean ====
section
/-! PROOFS. The exposure rules: SET_RULES (O37) and the verdict on a COMPLETE frame (O51). -/

namespace Sys2Proof.Machine

/-! ## SET_RULES (R132) -/

/-- Settles O37: the two checks in their order, then the rules. -/
theorem setRulesReplacesTheRules : Obligations.SetRulesReplacesTheRules := by
  intro m h target tolerance clip s a t c hasked
  have hx : s.checks c m t _ _ :=
    checks_of_asked (exec_setRules m h target tolerance clip s) hasked rfl
  have hrange : (decide (4095 < target.toNat) || decide (2047 < tolerance.toNat)) = true ↔
      4095 < target.toNat ∨ 2047 < tolerance.toNat := by
    rw [Bool.or_eq_true, decide_eq_true_iff, decide_eq_true_iff]
  exact hx.split hrange fun _ hx => hx.split not_idle_iff fun _ hx => hx.done rfl rfl

/-! ## The tests of a frame (R133)

The model adds on the side where the spec subtracts, so its sums stay natural numbers; each test is the spec's
signed one. -/

/-- The clip test, over the pixels of the geometry. -/
theorem clipped_iff (limit clip : Nat) (g : Geometry) :
    limit * g.pixels < clip * 65536 ↔
      (clip : Int) * 65536 > (limit : Int) * ((g.width : Int) * (g.height : Int)) := by
  rw [Geometry.pixels]
  exact_mod_cast Iff.rfl

/-- The mean lies below the band around the target. -/
theorem meanLow_iff (mean target tolerance : Nat) :
    mean + tolerance < target ↔ (mean : Int) < (target : Int) - (tolerance : Int) := by omega

/-- The mean lies above the band around the target. -/
theorem meanHigh_iff (mean target tolerance : Nat) :
    target + tolerance < mean ↔ (mean : Int) > (target : Int) + (tolerance : Int) := by omega

/-- A COMPLETE frame with no lamp fault noted is judged by the exposure rules (R39). -/
theorem judgeFrame_complete (r : Rules) (g : Geometry) {f : Frame} (hf : f.ending = .complete) :
    judgeFrame r g false f = r.judge g.pixels f.mean f.clip := by
  unfold judgeFrame
  rw [hf]
  rfl

/-- Settles O51: the frame comes to the rules, whose tests are the spec's one by one. -/
theorem rulesJudgeAFrame : Obligations.RulesJudgeAFrame := by
  intro r g f hf N
  rw [judgeFrame_complete r g hf, Rules.judge]
  exact if_congr (clipped_iff r.clip f.clip g) rfl
    (if_congr (meanLow_iff f.mean r.target r.tolerance) rfl
      (if_congr (meanHigh_iff f.mean r.target r.tolerance) rfl rfl))

end Sys2Proof.Machine
end

