-- ==== Sys2Proof/Proofs/LogRequests.lean ====
section
/-! PROOFS. The requests of the capture log: LOG_TAKEN (O43), and VERIFY_LOG with the walk over its range and the
answers to its reads (O44). -/

namespace Sys2Proof.Machine

/-! ## LOG_TAKEN (R154, R155) -/

section
variable {s : State}

/-- A cycle that does not wait for log room stays as it is (R154). -/
theorem recheckRoom_other (h : s.cycle.sub ≠ .waitLog) : recheckRoom s = s := if_neg h

/-- A PREPARE that waits for log room looks at its waits again (R36, R154). -/
theorem recheckRoom_prepare (hsub : s.cycle.sub = .waitLog) (hstate : s.cycle.state = .prepare) :
    recheckRoom s = prepareWaits s := by
  unfold recheckRoom
  rw [if_pos hsub, hstate]

/-- A TURN that waits for log room is started if it can be (R45, R154). -/
theorem recheckRoom_turn (hsub : s.cycle.sub = .waitLog) (hstate : s.cycle.state = .turn) :
    recheckRoom s = startTurn s := by
  unfold recheckRoom
  rw [if_pos hsub, hstate]

end

/-- LOG_TAKEN replies, and after a rise the cycle looks again before the re-arm is tested (R154, R155). -/
theorem takeLogTaken_replies (n : BitVec 32) (t : Ticket) (s : State) :
    let taken := max s.log.taken (min n.toNat s.log.appended)
    let e : State := { s with log := { s.log with taken := taken } }
    ∃ x : State, x.cameTo s.req.newest e
        [doneReply t (decide (s.log.appended < n.toNat)) [(12, u32 taken), (16, u32 e.freeRoom)]] ∧
      takeLogTaken n t s = if s.log.taken < taken then rearm (recheckRoom x) else x :=
  ⟨_, State.cameTo.replyDone (fs := []) t _ _ ⟨rfl, rfl⟩, if_congr decide_eq_true_iff rfl rfl⟩

/-- Settles O43: the reply comes first; a rise then goes on as the cycle it finds does. -/
theorem logTakenFreesRoom : Obligations.LogTakenFreesRoom := by
  intro m h n s a t c taken e done rearmed hasked
  have hx := exec_logTaken m h n s
  have hrearmed : rearmed = rearm := rfl
  obtain ⟨x, hcame, htaken⟩ := takeLogTaken_replies n t a
  have hrun := (ask_asked hasked).trans htaken
  have hcycle : x.cycle = a.cycle := (cycle_came hcame).trans rfl
  rw [hrearmed]
  split
  next hrises =>
    rw [if_pos hrises] at hrun
    refine ⟨fun hsub => ?_, fun hsub hstate => ?_, fun hsub hstate => ?_⟩
    · rw [recheckRoom_other (hcycle ▸ hsub)] at hrun
      exact completes_by hx hrun (hcame.clean clean_rearm)
    · rw [recheckRoom_prepare (hcycle ▸ hsub) (hcycle ▸ hstate)] at hrun
      exact leads_of (g := fun x => rearm (prepareWaits x)) hx hrun hcame
    · rw [recheckRoom_turn (hcycle ▸ hsub) (hcycle ▸ hstate)] at hrun
      exact leads_of (g := fun x => rearm (startTurn x)) hx hrun hcame
  next hstays =>
    rw [if_neg hstays] at hrun
    exact completes_by hx hrun hcame

/-! ## The walk over the range (R157, R158) -/

/-- The number of the next record of a verification whose line has not been reused (R157). -/
def State.nextHeld (s : State) (v : Verify) : Nat := max v.next (s.log.appended - s.cap + 1)

/-- The verification at record `n`, those it passed over counted as not held (R157). -/
def Verify.passTo (v : Verify) (n : Nat) : Verify := { v with next := n, notHeld := v.notHeld + (n - v.next) }

/-- The state with the verification in flight replaced. -/
def State.withVerify (s : State) (v : Option Verify) : State := { s with log := { s.log with verify := v } }

/-- The held test of a verification with nothing left to read counts the rest of the range as not held, which is
nothing where the range was walked to its end already (R157, R158). -/
theorem skipReused_ends {v : Verify} {limit : Nat} (hover : v.last < max v.next (limit + 1)) :
    ∃ n, v.last < n ∧
      v.skipReused limit = { v with next := n, notHeld := v.notHeld + (v.last + 1 - v.next) } := by
  by_cases hpast : v.last < v.next
  · refine ⟨v.next, hpast, ?_⟩
    unfold Verify.skipReused
    rw [if_neg (by omega), Nat.sub_eq_zero_of_le hpast]
    rfl
  · exact ⟨v.last + 1, Nat.lt_succ_self _, (skipReused_eq (Nat.le_of_not_lt hpast)).1 hover⟩

section
variable {s : State} {v : Verify}

/-- With no record of its range held any more a verification ends with its DONE (R158). -/
theorem verifyAdvance_ends (grant : Option Nat) (hv : s.log.verify = some v) (hover : v.last < s.nextHeld v) :
    verifyAdvance grant s =
      replyDone v.ticket false (verifyResults { v with notHeld := v.notHeld + (v.last + 1 - v.next) })
        (s.withVerify none) := by
  obtain ⟨n, hn, hskip⟩ := skipReused_ends hover
  rw [verifyAdvance_over grant hv hskip hn]
  rfl

/-- A verification comes to the next record held, and its read is queued or waits (R157, R168). -/
theorem verifyAdvance_reads (hv : s.log.verify = some v) (hheld : s.nextHeld v ≤ v.last) :
    verifyAdvance none s =
      let u := sync (s.withVerify (some (v.passTo (s.nextHeld v))))
      if u.transit.hasPlace then
        enqueue (u.recordAddr (s.nextHeld v)) none .verifyRead u.transit.nextId (bumpId u)
      else waitFor .verifyRead u.transit.nextId (bumpId u) := by
  have hnext : v.next ≤ v.last := (Nat.le_max_left _ _).trans hheld
  have hskip : v.skipReused (s.log.appended - s.cap) = v.passTo (s.nextHeld v) :=
    (skipReused_eq hnext).2 hheld
  have hgoes : ¬ (v.passTo (s.nextHeld v)).last < (v.passTo (s.nextHeld v)).next := Nat.not_lt.2 hheld
  unfold verifyAdvance
  rw [hv]
  dsimp only
  rw [hskip, if_neg hgoes]
  rfl

/-- Coming to the next record held changes the verification alone (R157). -/
theorem verifyAdvance_reads_came (hv : s.log.verify = some v) (hheld : s.nextHeld v ≤ v.last) :
    (verifyAdvance none s).cameTo s.req.newest (s.withVerify (some (v.passTo (s.nextHeld v)))) [] := by
  have hcame : (s.withVerify (some (v.passTo (s.nextHeld v)))).cameTo s.req.newest _ [] := came_self _
  rw [verifyAdvance_reads hv hheld]
  dsimp only
  split
  · exact enqueue_came _ _ _ _ (bumpId_came hcame.sync)
  · exact waitFor_came _ _ (bumpId_came hcame.sync)

/-- With nothing waiting and room the read of the next record held is queued (R157, R168). -/
theorem verifyAdvance_reads_queued (hv : s.log.verify = some v) (hheld : s.nextHeld v ≤ v.last)
    (hwait : s.transit.wait = []) (hroom : s.transit.queue.length ≤ 11) :
    ∃ i, ⟨i, s.recordAddr (s.nextHeld v), none, .verifyRead⟩ ∈ (verifyAdvance none s).transit.queue := by
  let e := s.withVerify (some (v.passTo (s.nextHeld v)))
  have hroomy : Roomy 15 (snapshotWrites s.transit.queue) [] e :=
    roomy_setLog _ (roomy_weaken (roomy_self hwait) (by omega))
  have hplace := roomy_hasPlace (roomy_sync hroomy (by omega)) le_rfl
  have haddr : (sync e).recordAddr (s.nextHeld v) = s.recordAddr (s.nextHeld v) := by
    unfold State.recordAddr State.cap
    rw [sync_map]
    rfl
  have hread := verifyAdvance_reads hv hheld
  dsimp only at hread
  rw [if_pos hplace, haddr] at hread
  rw [hread]
  exact ⟨_, List.mem_append_right _ (List.mem_singleton.2 rfl)⟩

end

/-! ## The answer to a read (R157) -/

/-- A u32 field of a line, read as a word. -/
theorem lineWord_four_toNat (l : Line) (o : Nat) : (lineWord 32 l o 4).toNat = rd32 l o := by
  have h0 := (lineByte l o).isLt
  have h1 := (lineByte l (o + 1)).isLt
  have h2 := (lineByte l (o + 2)).isLt
  have h3 := (lineByte l (o + 3)).isLt
  have hfold : (List.range 4).foldr (fun i acc => (lineByte l (o + i)).toNat + 256 * acc) 0 =
      (lineByte l o).toNat + 256 * ((lineByte l (o + 1)).toNat + 256 * ((lineByte l (o + 2)).toNat +
        256 * ((lineByte l (o + 3)).toNat + 256 * 0))) := rfl
  have hread : rd32 l o = (lineByte l o).toNat + 256 * (lineByte l (o + 1)).toNat +
      65536 * ((lineByte l (o + 2)).toNat + 256 * (lineByte l (o + 3)).toNat) := rfl
  rw [lineWord, hfold, hread, BitVec.toNat_ofNat, Nat.mod_eq_of_lt (by omega)]
  omega

/-- The answer to the read of the verification's next record is that record, good and with its number (R157). -/
def Verify.finds (v : Verify) (refused : Bool) (l : Line) : Prop :=
  refused = false ∧ goodRecord l = true ∧ (lineWord 32 l 4 4).toNat = v.next

section
variable {v : Verify} {refused : Bool} {l : Line}

theorem classify_bad_iff :
    refused = true ∨ ¬ goodRecord l = true ∨ rd32 l 4 ≠ v.next ↔ ¬ v.finds refused l := by
  unfold Verify.finds
  rw [lineWord_four_toNat, not_and_or, not_and_or, Bool.not_eq_false]

theorem classify_bad (h : ¬ v.finds refused l) : v.classify refused l =
    { v with bad := v.bad + 1, firstBad := if v.firstBad = 0 then v.next else v.firstBad, next := v.next + 1 } :=
  if_pos (classify_bad_iff.2 h)

theorem classify_other (h : v.finds refused l) (hhandle : (lineByte l 1).toNat ≠ v.handle) :
    v.classify refused l = { v with other := v.other + 1, next := v.next + 1 } :=
  (if_neg (fun hbad => classify_bad_iff.1 hbad h)).trans (if_pos hhandle)

theorem classify_checked (h : v.finds refused l) (hhandle : (lineByte l 1).toNat = v.handle) :
    v.classify refused l = { v with checked := v.checked + 1, next := v.next + 1 } :=
  (if_neg (fun hbad => classify_bad_iff.1 hbad h)).trans (if_neg (not_not.2 hhandle))

end

/-- A verify read's answer goes to the verification in flight, which classifies it and walks on (R157, R160). -/
theorem ownAnswer_verifyRead {e : OwnEntry} {v : Verify} {s : State} (refused : Bool) (data : List Byte)
    (horigin : e.origin = .verifyRead) (hv : s.log.verify = some v) :
    ownAnswer e refused data s = verifyAdvance none (s.withVerify (some (v.classify refused data))) := by
  unfold ownAnswer verifyReturned
  rw [horigin]
  dsimp only
  rw [hv]
  rfl

/-! ## VERIFY_LOG (R156 to R158) -/

/-- With every check passed a request is known by what it makes of the state it is taken in. -/
theorem State.checks.makes {c : Instr} {m : Moment} {t : Ticket} {s x : State} {f : State → State}
    (hx : s.checks c m t [] f) (hf : f (arrive m s) = x) : s.checks c m t [] fun _ => x :=
  hx.trans (congrArg (fun x => takeCommand m (fun _ => x) s) hf)

/-- The verification of a record at the first number whose line is held (R156, R157). -/
theorem newVerify_passTo (t : Ticket) (v : Volume) (n : Nat) : (newVerify t v).passTo n =
    ⟨t, t.handle.toNat, v.lastRecord, n, 0, 0, 0, n - v.firstRecord, 0⟩ := by
  rw [Verify.passTo, newVerify, Nat.zero_add]

/-- Settles O44: the request's checks, the walk from any record on, and the classes of an answer. -/
theorem verifyWalksTheRange : Obligations.VerifyWalksTheRange := by
  refine ⟨?request, ?walk, ?answers⟩
  case request =>
    intro m h s a k t c results hasked
    have hx : s.checks c m t _ _ := checks_of_asked (exec_verifyLog m h s) hasked rfl
    refine hx.split badHandle_iff fun hk hx => hx.split Iff.rfl fun hfree hx => ?_
    have hnone : a.withVerify none = a := by
      rw [Option.not_isSome_iff_eq_none] at hfree
      unfold State.withVerify
      rw [← hfree]
    cases hv : a.vols.get k with
    | none => exact hx.refused (named_isNone hk hv)
    | some v =>
      have hn : (arrive m s).named (h.ticket 0x17#8) = some v := (named_eq_get hk).trans hv
      let b := a.withVerify (some (newVerify t v))
      have hx : s.checks c m t [] fun _ =>
          if v.firstRecord = 0 then replyDone t false (verifyResults (newVerify t v)) a
          else verifyAdvance none b :=
        (hx.passed (named_not_isNone hn)).makes (by simp only [hn]; rfl)
      dsimp only
      split
      next hempty => exact hx.done (if_pos hempty) rfl
      next hrecords =>
        intro _
        have hb : b.log.verify = some (newVerify t v) := rfl
        have hwalk : s.checks c m t [] fun _ => verifyAdvance none b := hx.makes (if_neg hrecords)
        split
        next hover =>
          have hends := verifyAdvance_ends none hb hover
          rw [show b.withVerify none = a from hnone] at hends
          refine hwalk.done (hends.trans ?_) rfl
          simp only [verifyResults, newVerify, Nat.zero_add]
          rfl
        next hheld =>
          have hheld := Nat.le_of_not_lt hheld
          have hcame := (verifyAdvance_reads_came hb hheld).sync
          rw [newVerify_passTo] at hcame
          refine ⟨_, hwalk.runs, hcame.2, hcame.1, fun hwait hroom => ?_⟩
          obtain ⟨i, hread⟩ := verifyAdvance_reads_queued hb hheld hwait hroom
          exact ⟨i, (grewTo_sync _).queued hread (by simp)⟩
  case walk =>
    intro s v hv held t
    refine ⟨fun hover => ?_, fun hheld => ⟨verifyAdvance_reads_came hv hheld, verifyAdvance_reads_queued hv hheld⟩⟩
    rw [show t = _ from verifyAdvance_ends none hv hover]
    exact State.cameTo.replyDone (fs := []) _ _ _ ⟨rfl, rfl⟩
  case answers =>
    intro m refused data e v rest s a good hstale hout _ horigin hverify _ on
    have hx := exec_downstreamResponse m refused data s
    have hanswer := (answer_own refused data hstale hout).trans (ownAnswer_verifyRead refused data horigin hverify)
    have hon {w : Verify} (hw : v.classify refused data = { w with next := v.next + 1 }) : on w := by
      rw [hw] at hanswer
      exact leads_now hx hanswer
    exact ⟨fun hbad => hon (classify_bad hbad), fun hgood hother => hon (classify_other hgood hother),
      fun hgood hown => hon (classify_checked hgood hown)⟩

end Sys2Proof.Machine
end

