-- ==== Sys2Proof/Proofs/Queues.lean ====
section
/-! PROOFS. The part's paperwork: both queues through every command (O4), status lines 0 to 3 and the entries of
the reply list placed among them (O5), and the reset events, which discard it all (O6). -/

namespace Sys2Proof.Machine

/-! ## Every command answers, and leaves what is queued in its place (R168, R169) -/

/-- The commands that take entries out of the own-traffic queue: the port's grant and the resets (R168, R172). -/
def takesQueued : Instr → Bool
  | .downstreamIssue _ | .lineReset _ | .powerOn _ _ => true
  | _ => false

/-- The own-traffic entries a command leaves in their places, as far as they are fixed (R169). -/
def State.standing (s : State) (c : Instr) : List OwnEntry :=
  if takesQueued c then [] else s.transit.queue.map OwnEntry.fixed

/-- A sound state keeps, from there on, every entry its queue begins with. -/
theorem kept_of_sound {s : State} (h : s.sound) {ids : List OwnEntry}
    (hids : ids <+: s.transit.queue.map OwnEntry.fixed) : Kept noneLate s.pending ids s :=
  { ((sound_iff s).1 h).1 with fifo := hids }

theorem standing_prefix (s : State) (c : Instr) : s.standing c <+: s.transit.queue.map OwnEntry.fixed := by
  unfold State.standing
  split
  · exact List.nil_prefix
  · exact List.prefix_rfl

/-- Every command brings the status lines up to date at a state that keeps the laws, the commands that wait and
the entries that stand. -/
theorem exec_kept (c : Instr) {s : State} (hs : s.sound) :
    ∃ u, exec c s = .next (sync u) ∧ Kept noneLate s.pending (s.standing c) u := by
  have arrived (m : Moment) := kept_arrive m (kept_of_sound hs (standing_prefix s c))
  have lined (m : Moment) (f : Lines → Lines) := kept_setLines f (arrived m)
  cases c with
  -- start-up
  | powerOn m b => exact ⟨_, rfl, kept_resetEvent _ _ (lined m _)⟩
  | lineReset m => exact ⟨_, rfl, kept_ite (lined m _) (kept_resetEvent _ _ (lined m _))⟩
  | resetEnd m => exact ⟨_, rfl, kept_leaveReset (lined m _)⟩
  | powerEstablished m => exact ⟨_, rfl, kept_leaveReset (lined m _)⟩
  | profileSignatureRead m x k => exact ⟨_, rfl, kept_signatureRead x k (arrived m)⟩
  | profileGroupRead m b => exact ⟨_, rfl, kept_groupRead b (arrived m)⟩
  -- the frame-store path
  | upstreamWrite m x => exact ⟨_, rfl, kept_upWrite x (arrived m)⟩
  | upstreamRead m x => exact ⟨_, rfl, kept_upRead x (arrived m)⟩
  | apertureWrite m cam o x => exact ⟨_, rfl, kept_upWrite _ (arrived m)⟩
  | downstreamIssue m => exact ⟨_, rfl, kept_grantPort (arrived m)⟩
  | downstreamResponse m r d => exact ⟨_, rfl, kept_answer r d (arrived m)⟩
  | ownTrafficWaitAdmit m => exact ⟨_, rfl, kept_admitOldest _ (arrived m)⟩
  | logAppendAccept m => exact ⟨_, rfl, kept_admitOldest _ (arrived m)⟩
  -- the requests
  | requestUnknownKind m k d => exact ⟨_, rfl, kept_askUnknown k d (arrived m)⟩
  | registerVolume m d q => exact ⟨_, rfl, kept_ask _ _ _ (fun t _ => kept_takeRegister d q t) (arrived m)⟩
  | setVolume m d q => exact ⟨_, rfl, kept_ask _ _ _ (fun t _ => kept_takeSetVolume d q t) (arrived m)⟩
  | activate m d o => exact ⟨_, rfl, kept_ask _ _ _ (fun t _ => kept_takeActivate o t) (arrived m)⟩
  | suspend m d => exact ⟨_, rfl, kept_ask _ _ _ (fun t _ => kept_takeSuspend t) (arrived m)⟩
  | setOpening m d o => exact ⟨_, rfl, kept_ask _ _ _ (fun t _ => kept_takeSetOpening o t) (arrived m)⟩
  | closeVolume m d a b => exact ⟨_, rfl, kept_ask _ _ _ (fun t _ => kept_takeClose a b t) (arrived m)⟩
  | retireVolume m d => exact ⟨_, rfl, kept_ask _ _ _ (fun t _ => kept_takeRetire t) (arrived m)⟩
  | snapshotVolume m d a => exact ⟨_, rfl, kept_ask _ _ _ (fun t _ => kept_takeSnapshot d a t) (arrived m)⟩
  | run m d n => exact ⟨_, rfl, kept_ask _ _ _ (fun t _ => kept_takeRun d n t) (arrived m)⟩
  | stepTurn m d => exact ⟨_, rfl, kept_ask _ _ _ (fun t _ => kept_takeStepTurn t) (arrived m)⟩
  | pause m d => exact ⟨_, rfl, kept_ask _ _ _ (fun t _ => kept_takePause t) (arrived m)⟩
  | resumeContinue m d => exact ⟨_, rfl, kept_ask _ _ _ (fun t _ => kept_takeContinue t) (arrived m)⟩
  | resumeRetry m d => exact ⟨_, rfl, kept_ask _ _ _ (fun t _ => kept_takeRetry t) (arrived m)⟩
  | resumeSkip m d => exact ⟨_, rfl, kept_ask _ _ _ (fun t _ => kept_takeSkip t) (arrived m)⟩
  | resumeAbandon m d => exact ⟨_, rfl, kept_ask _ _ _ (fun t _ => kept_takeAbandon t) (arrived m)⟩
  | stop m d => exact ⟨_, rfl, kept_ask _ _ _ (fun t _ => kept_takeStop t) (arrived m)⟩
  | clearFault m d => exact ⟨_, rfl, kept_ask _ _ _ (fun t _ => kept_takeClearFault t) (arrived m)⟩
  | releaseSlots m d c k => exact ⟨_, rfl, kept_ask _ _ _ (fun t _ => kept_takeRelease c k t) (arrived m)⟩
  | loadGains m d c a => exact ⟨_, rfl, kept_ask _ _ _ (fun t _ => kept_takeLoadGains c a t) (arrived m)⟩
  | setCorrection m d c x => exact ⟨_, rfl, kept_ask _ _ _ (fun t _ => kept_takeSetCorrection c x t) (arrived m)⟩
  | calibrate m d q => exact ⟨_, rfl, kept_ask _ _ _ (fun t _ => kept_takeCalibrate q t) (arrived m)⟩
  | setRules m d a b c => exact ⟨_, rfl, kept_ask _ _ _ (fun t _ => kept_takeSetRules a b c t) (arrived m)⟩
  | setClassEntry m d c f => exact ⟨_, rfl, kept_ask _ _ _ (fun t _ => kept_takeSetClass c f t) (arrived m)⟩
  | setMaterialMap m d l => exact ⟨_, rfl, kept_ask _ _ _ (fun t _ => kept_takeSetMaterial l t) (arrived m)⟩
  | logTaken m d n => exact ⟨_, rfl, kept_ask _ _ _ (fun t _ => kept_takeLogTaken n t) (arrived m)⟩
  | verifyLog m d => exact ⟨_, rfl, kept_ask _ _ _ (fun t _ => kept_takeVerify t) (arrived m)⟩
  -- the cameras and the lamps
  | haltInActive m => exact ⟨_, rfl, kept_stopBy .haltIn (fun _ h => h) (lined m _)⟩
  | camReadyActive m cam => exact ⟨_, rfl, kept_recheckCameras (lined m _)⟩
  | cameraReadyTimeout m => exact ⟨_, rfl, kept_cameraTimeoutExpires (arrived m)⟩
  | channelRampStart m i => exact ⟨_, rfl, kept_rampStart _ (arrived m)⟩
  | lampRampStep m => exact ⟨_, rfl, kept_rampStep (arrived m)⟩
  | warmEnd m => exact ⟨_, rfl, kept_ite (kept_fireTriggers (arrived m)) (arrived m)⟩
  | triggerFall m => exact ⟨_, rfl, kept_triggersFall (arrived m)⟩
  | exposureCompletion m => exact ⟨_, rfl, kept_ite (kept_exposureEnds (arrived m)) (arrived m)⟩
  | frameTimeout m cam => exact ⟨_, rfl, kept_frameTimerExpires cam (arrived m)⟩
  | restLoss m i =>
    have parked := kept_refreshPark (lined m (RestInput.drop i))
    exact ⟨_, rfl, kept_ite (kept_lightsAtRestLoss parked) parked⟩
  | lampOkInactive m i => exact ⟨_, rfl, kept_ite (kept_lampFault i.val (lined m _)) (lined m _)⟩
  -- the leaf turner and the supply monitor
  | platenUpActive m => exact ⟨_, rfl, kept_ite (kept_checkRise (lined m _)) (lined m _)⟩
  | platenDownActive m => exact ⟨_, rfl, kept_ite (kept_enterSettle (lined m _)) (lined m _)⟩
  | armParkedActive m =>
    have parked := kept_refreshPark (lined m fun l => { l with armParked := true })
    exact ⟨_, rfl, kept_ite (kept_checkRise parked) (kept_ite (kept_checkRetryPause parked)
      (kept_ite (kept_enterPlatenLower parked) parked))⟩
  | armAtLeftActive m => exact ⟨_, rfl, kept_ite (kept_enterRelease (lined m _)) (lined m _)⟩
  | leafSenseActive m => exact ⟨_, rfl, kept_ite (kept_enterSweep (lined m _)) (lined m _)⟩
  | leafSenseInactive m => exact ⟨_, rfl, kept_ite (kept_endTurn .leafDropped (lined m _)) (lined m _)⟩
  | doubleSenseActive m => exact ⟨_, rfl, kept_ite (kept_doubleLeaf (lined m _)) (lined m _)⟩
  | wandPressureSample m x => exact ⟨_, rfl, kept_samplePressure (lined m _)⟩
  | holdTimeout m => exact ⟨_, rfl, kept_ite (kept_endTurn .vacuumLow (arrived m)) (arrived m)⟩
  | supplySenseSample m x => exact ⟨_, rfl, kept_ite (kept_sampleSupply (lined m _)) (lined m _)⟩
  | platenTimeout m =>
    exact ⟨_, rfl, kept_ite (kept_stageExpires _ _ (arrived m)) (kept_stageExpires _ _ (arrived m))⟩
  | gripTimeout m => exact ⟨_, rfl, kept_ite (kept_retryable .gripFail (arrived m)) (arrived m)⟩
  | liftTimeout m => exact ⟨_, rfl, kept_stageExpires _ _ (arrived m)⟩
  | sweepTimeout m => exact ⟨_, rfl, kept_stageExpires _ _ (arrived m)⟩
  | returnTimeout m => exact ⟨_, rfl, kept_ite (kept_endTurn .returnTimeout (arrived m)) (arrived m)⟩
  | knifePulseElapsed m => exact ⟨_, rfl, kept_ite (kept_enterGrip (arrived m)) (arrived m)⟩
  | retryPauseElapsed m => exact ⟨_, rfl, kept_ite (kept_checkRetryPause (arrived m)) (arrived m)⟩
  | releaseElapsed m => exact ⟨_, rfl, kept_ite (kept_enterReturn (arrived m)) (arrived m)⟩
  | settleElapsed m => exact ⟨_, rfl, kept_ite (kept_completeTurn (arrived m)) (arrived m)⟩

/-- Settles O4: a command takes entries off the queue only as the port's grant or a reset. -/
theorem everyCommandAnswersAndKeepsQueues : Obligations.EveryCommandAnswersAndKeepsQueues := by
  intro c s hs
  obtain ⟨u, hexec, hkept⟩ := exec_kept c hs
  refine ⟨sync u, hexec, (sync_pending u).trans hkept.pending, ?_⟩
  have hstands : s.standing c <+: (sync u).transit.queue.map OwnEntry.fixed := hkept.fifo.trans (sync_fifo u).1
  by_cases htakes : takesQueued c = true
  case pos =>
    refine .inl ?_
    unfold takesQueued at htakes
    split at htakes
    next m => exact ⟨m, .inl rfl⟩
    next m => exact ⟨m, .inr (.inl rfl)⟩
    next m b => exact ⟨m, .inr (.inr ⟨b, rfl⟩)⟩
    next => exact absurd htakes (by decide)
  case neg =>
    rw [State.standing, if_neg htakes] at hstands
    exact .inr hstands

/-! ## Status lines 0 to 3 (R169, R180, R181) -/

/-- After every command in READY each line is current: the lines are brought up to date last (R181). -/
theorem exec_lineCurrent {c : Instr} {s t : State} (hs : s.sound) (hexec : exec c s = .next t)
    (hready : t.start.phase = .ready) {k : Nat} (hk : k < 4) : t.lineCurrent k := by
  obtain ⟨u, hu, hkept⟩ := exec_kept c hs
  obtain rfl : sync u = t := Host.Outcome.next.inj (hu.symm.trans hexec)
  rw [sync_start] at hready
  exact hkept.filed.current hk ⟨hready, id⟩

/-- Where one element satisfies a test, changing what satisfies it changes that element. -/
theorem map_ite_eq_set {α : Type} (p : α → Prop) [DecidablePred p] (f : α → α) :
    ∀ {l : List α} {i : Nat} {a : α}, (l.countP fun x => p x) ≤ 1 → l[i]? = some a → p a →
      (l.map fun x => if p x then f x else x) = l.set i (f a)
  | x :: l, 0, a, hone, hat, ha => by
    obtain rfl : x = a := Option.some.inj hat
    have hnone : (l.countP fun x => p x) = 0 := by
      rw [List.countP_cons, if_pos (decide_eq_true ha)] at hone
      omega
    have hrest : (l.map fun x => if p x then f x else x) = l :=
      (List.map_congr_left fun y hy => if_neg fun hpy => List.countP_eq_zero.1 hnone y hy (decide_eq_true hpy)).trans
        (List.map_id l)
    rw [List.map_cons, if_pos ha, hrest, List.set_cons_zero]
  | x :: l, i + 1, a, hone, hat, ha => by
    have hat : l[i]? = some a := hat
    have hpos : 0 < l.countP fun x => p x :=
      List.countP_pos_iff.2 ⟨a, List.mem_of_getElem? hat, decide_eq_true ha⟩
    rw [List.countP_cons] at hone
    have hx : ¬ p x := fun hpx => by
      rw [if_pos (decide_eq_true hpx)] at hone
      omega
    rw [List.map_cons, if_neg hx, List.set_cons_succ, map_ite_eq_set p f (by omega) hat ha]

section
variable {k : Nat} {s : State}

/-- A line's queued write is replaced in its place (R169). -/
theorem placeStatus_queued (hsingle : (s.transit.queue.countP fun e => e.origin == .status k) ≤ 1) {i : Nat}
    {e : OwnEntry} (hat : s.transit.queue[i]? = some e) (he : e.origin = .status k) :
    placeStatus k s = { s with
      transit := { s.transit with queue := s.transit.queue.set i { e with content := some (statusLine k s) } }
      req := { s.req with shown := s.req.shown.set k (some (statusLine k s)) } } := by
  have hqueued : (s.transit.queue.any fun e => e.origin == .status k) = true :=
    List.any_eq_true.2 ⟨e, List.mem_of_getElem? hat, beq_iff_eq.2 he⟩
  have hset : s.transit.queue.map (coalesce k (statusLine k s)) =
      s.transit.queue.set i { e with content := some (statusLine k s) } :=
    map_ite_eq_set (fun e : OwnEntry => e.origin = .status k) _ hsingle hat he
  unfold placeStatus
  dsimp only
  rw [if_pos hqueued, hset]
  rfl

theorem not_queued (h : ∀ e ∈ s.transit.queue, e.origin ≠ .status k) :
    ¬ (s.transit.queue.any fun e => e.origin == .status k) = true := fun hany => by
  obtain ⟨e, he, horigin⟩ := List.any_eq_true.1 hany
  exact h e he (beq_iff_eq.1 horigin)

/-- A line that waits is marked dirty (R181). -/
theorem placeStatus_waits (h : ∀ e ∈ s.transit.queue, e.origin ≠ .status k) (hwaits : s.lineWaits k = true) :
    placeStatus k s = { s with req := { s.req with dirty := s.req.dirty.set k true } } :=
  (if_neg (not_queued h)).trans (if_pos hwaits)

/-- A line neither queued nor waiting is placed as a new write, or waits (R168, R181). -/
theorem placeStatus_new (h : ∀ e ∈ s.transit.queue, e.origin ≠ .status k) (hwaits : s.lineWaits k = false) :
    placeStatus k s = if s.transit.wait = [] ∧ s.transit.queue.length < 16 then
        { s with
          transit := { s.transit with
            queue := s.transit.queue ++ [⟨s.transit.nextId, s.statusAddr k, some (statusLine k s), .status k⟩]
            nextId := s.transit.nextId + 1 }
          req := { s.req with shown := s.req.shown.set k (some (statusLine k s)) } }
      else
        { s with
          transit := { s.transit with
            wait := s.transit.wait ++ [⟨s.transit.nextId, .status k⟩], nextId := s.transit.nextId + 1 }
          req := { s.req with dirty := s.req.dirty.set k true } } := by
  have hwaits : ¬ (s.transit.wait.any fun w => w.what == .status k) = true := Bool.eq_false_iff.1 hwaits
  unfold placeStatus
  simp only [if_neg (not_queued h), if_neg hwaits, hasPlace_iff]
  split <;> rfl

/-- Where a line waits, the laws leave no write of it queued (R169). -/
theorem State.filedFor.unqueued {lines : Nat → Prop} (h : s.filedFor lines) (hk : k < 4)
    (hwaits : s.lineWaits k = true) : ∀ e ∈ s.transit.queue, e.origin ≠ .status k := fun e he horigin => by
  have hqueue : 0 < s.transit.queue.countP fun e => e.origin == .status k :=
    List.countP_pos_iff.2 ⟨e, he, beq_iff_eq.2 horigin⟩
  have hwait : 0 < s.transit.wait.countP fun w => w.what == .status k :=
    List.countP_pos_iff.2 (List.any_eq_true.1 hwaits)
  have := h.single k hk
  omega

end

/-! ## An entry among the status lines (R178) -/

/-- An entry placed takes the next number, and its write the end of the queue or of the wait list (R168, R178). -/
theorem placeEntry_eq (fs : Fields) (o : Origin) (s : State) :
    let n := satSucc s.req.newest
    let l := compose ((0, u32 n) :: fs)
    let id := s.transit.nextId
    let numbered (tr : Transit) : State := { s with
      transit := { tr with nextId := id + 1 }
      req := { s.req with
        newest := n, noticeOut := true, newestIssued := false, newestId := some id
        newestLine := some (s.entryAddr n) } }
    placeEntry fs o s = if s.transit.wait = [] ∧ s.transit.queue.length < 16
      then numbered { s.transit with queue := s.transit.queue ++ [⟨id, s.entryAddr n, some l, o⟩] }
      else numbered { s.transit with wait := s.transit.wait ++ [⟨id, .write (s.entryAddr n) l o⟩] } := by
  intro n l id numbered
  unfold placeEntry placeWrite
  simp only [hasPlace_iff]
  split <;> rfl

/-- With nothing waiting and at most 11 entries queued the four lines and one more entry find their places (R168). -/
theorem roomy_sync_of_short {s : State} (hwait : s.transit.wait = []) (hroom : s.transit.queue.length ≤ 11) :
    Roomy 15 (snapshotWrites s.transit.queue) [] (sync s) :=
  roomy_sync (roomy_weaken (roomy_self hwait) (by omega)) (by omega)

/-- With nothing waiting after it, bringing the lines up to date leaves each holding the values of now (R181). -/
theorem sync_lineHolds {s : State} (hfiled : s.filed) (hready : s.start.phase = .ready)
    (hwait : (sync s).transit.wait = []) {k : Nat} (hk : k < 4) : (sync s).lineHolds k (statusLine k (sync s)) := by
  rcases hfiled.current hk hready with hwaits | hholds
  · rw [State.lineWaits, hwait] at hwaits
    exact absurd hwaits Bool.false_ne_true
  · exact hholds

/-- Settles O5: each command ends by bringing the lines up to date; one line's cases are those of `placeStatus`,
and an entry is placed between two rounds of them. -/
theorem statusLinesShowTheState : Obligations.StatusLinesShowTheState := by
  refine ⟨fun c s t hs hexec hready k hk => exec_lineCurrent hs hexec hready hk, ?line, ?entry⟩
  case line =>
    intro k s hk hfiled l shown new
    refine ⟨fun i e hat he => placeStatus_queued ?_ hat he,
      fun hwaits => placeStatus_waits (hfiled.unqueued hk hwaits) hwaits, placeStatus_new⟩
    exact le_trans (Nat.le_add_right _ _) (hfiled.single k hk)
  case entry =>
    intro s line current u
    have hcurrent (r : State) : sync r = current r := rfl
    have hu : sync s = u := rfl
    clear_value u current
    subst hu
    refine ⟨rfl, sync_bare s, sync_newest s, (sync_fifo s).1, (sync_fifo s).2,
      fun hfiled hready k hk => hfiled.current hk hready, ?_⟩
    intro fs n l addr id entry numbered w
    have hplaced := placeEntry_eq fs .entry (sync s)
    have haddr (j : Nat) : (sync s).entryAddr j = s.entryAddr j := by
      unfold State.entryAddr
      rw [sync_map]
    simp only [sync_newest, haddr] at hplaced
    refine ⟨(congrArg sync hplaced).trans (hcurrent _), fun hfiled hready hwait hroom => ?_⟩
    have hroomy := roomy_sync_of_short hwait hroom
    refine ⟨fun k hk => sync_lineHolds hfiled hready hroomy.w hk, ?_⟩
    rw [if_pos ((hasPlace_iff _).1 (roomy_hasPlace hroomy (by omega)))] at hplaced
    have hqueue : (placeEntry fs .entry (sync s)).transit.queue = (sync s).transit.queue ++ [entry] := by
      rw [hplaced]
    have hw : w = sync (placeEntry fs .entry (sync s)) := rfl
    rw [← hqueue, hw]
    exact (sync_fifo (placeEntry fs .entry (sync s))).1

/-! ## Reset events (R172, R182, R183) -/

/-- No status line has been composed after a reset, so none is brought up to date (R181, R187). -/
theorem sync_resetEvent (cause : ResetCause) (mark : Bool) (s : State) :
    sync (resetEvent cause mark s) = resetEvent cause mark s := rfl

/-- Settles O6. -/
theorem resetEventsResetEveryBlock : Obligations.ResetEventsResetEveryBlock := by
  refine ⟨fun m resetIn s => congrArg Host.Outcome.next (sync_resetEvent _ _ _), ?line⟩
  case line =>
    intro m s a
    split
    next hreset => exact completes_now (exec_lineReset m s) (if_pos hreset)
    next hrunning =>
      exact congrArg Host.Outcome.next ((congrArg sync (if_neg hrunning)).trans (sync_resetEvent _ _ _))

end Sys2Proof.Machine
end

