-- ==== Sys2Proof/Proofs/Port.lean ====
section
/-! PROOFS. The frame-store path: upstream writes (O13) and reads (O15), NOTICE_OUT (O16), the grant of the downstream
port (O19) and the memory controller's answers (O20). -/

namespace Sys2Proof.Machine

/-! ## Upstream writes (R162, R164, R166, R167) -/

section
variable {a : State} {x : Txn}

theorem portOpen_iff (a : State) : a.portOpen = true ↔ a.start.phase ≠ .reset ∧ a.transit.stream.length < 32 := by
  simp [State.portOpen]

/-- A write the port does not take leaves the state as it is (R167, R172). -/
theorem upWrite_closed (x : Txn) (h : a.start.phase = .reset ∨ 32 ≤ a.transit.stream.length) : upWrite x a = a := by
  refine if_neg fun hopen => ?_
  obtain ⟨hphase, hroom⟩ := (portOpen_iff a).1 hopen
  rcases h with h | h
  · exact hphase h
  · omega

/-- In PROFILE_LOAD a write is forwarded unclassified (R172). -/
theorem upWrite_loading (x : Txn) (hphase : a.start.phase = .profileLoad) (hroom : a.transit.stream.length < 32) :
    upWrite x a = forwardWrite x a := by
  have hopen : a.portOpen = true := (portOpen_iff a).2 ⟨by rw [hphase]; decide, hroom⟩
  exact (if_pos hopen).trans (if_neg (not_ready (by rw [hphase]; decide)))

/-- While READY a write is classified (R162). -/
theorem upWrite_ready (x : Txn) (hphase : a.start.phase = .ready) (hroom : a.transit.stream.length < 32) :
    upWrite x a = classifyWrite x a := by
  have hopen : a.portOpen = true := (portOpen_iff a).2 ⟨by rw [hphase]; decide, hroom⟩
  exact (if_pos hopen).trans (if_pos (ready_of_phase hphase))

/-- Outside every window a write is forwarded (R162). -/
theorem classifyWrite_outside (h : ∀ w ∈ a.transit.map.windows, w.holds x.addr.toNat = false) :
    classifyWrite x a = forwardWrite x a := by
  simp only [RegionMap.windows, List.forall_mem_cons] at h
  obtain ⟨hrequest, hreply, hstatus, hlog, hleft, hright, hpool, -⟩ := h
  simp [classifyWrite, hrequest, hreply, hstatus, hlog, hleft, hright, hpool]

/-- A write into REQUEST needs the window's mask (R162). -/
theorem classifyWrite_request_refused (hin : a.transit.map.request.holds x.addr.toNat = true)
    (hmask : Requester.allowed x.requester a.transit.map.request.mask = false) :
    classifyWrite x a = refuseWrite x a :=
  (if_pos hin).trans (if_neg (Bool.eq_false_iff.1 hmask))

/-- Nobody writes into REPLY, STATUS or LOG from upstream (R162). -/
theorem classifyWrite_ownWindow (hapart : apart a.transit.map.windows = true) {j : Nat} (hlow : 0 < j) (hhigh : j < 4)
    (hin : (a.transit.map.windows[j]'(show j < 7 by omega)).holds x.addr.toNat = true) :
    classifyWrite x a = refuseWrite x a := by
  have hrequest : a.transit.map.request.holds x.addr.toNat = false :=
    holds_only_one hapart (i := j) (j := 0) (show j < 7 by omega) (show 0 < 7 by decide) (by omega) hin
  have hown : (a.transit.map.reply.holds x.addr.toNat || a.transit.map.status.holds x.addr.toNat ||
      a.transit.map.log.holds x.addr.toNat) = true := by
    rcases (by omega : j = 1 ∨ j = 2 ∨ j = 3) with rfl | rfl | rfl
    · exact Bool.or_eq_true_iff.2 (.inl (Bool.or_eq_true_iff.2 (.inl hin)))
    · exact Bool.or_eq_true_iff.2 (.inl (Bool.or_eq_true_iff.2 (.inr hin)))
    · exact Bool.or_eq_true_iff.2 (.inr hin)
  exact (if_neg (Bool.eq_false_iff.1 hrequest)).trans (if_pos hown)

/-- An aperture is its own camera receiver's alone (R162). -/
theorem classifyWrite_aperture_refused {cam : Camera} (hapart : apart a.transit.map.windows = true)
    (hin : (a.transit.map.aperture cam).holds x.addr.toNat = true) (hother : x.requester ≠ cameraRequester cam) :
    classifyWrite x a = refuseWrite x a := by
  have hcamera : ¬ Requester.isCamera x.requester cam = true := by
    cases cam with
    | left => exact fun h => hother (beq_iff_eq.1 h)
    | right => exact fun h => hother (beq_iff_eq.1 h)
  exact (classifyWrite_aperture hapart hin).trans (if_neg hcamera)

/-- In the slot pool the mask and the slot at the address decide (R162, R164). -/
theorem classifyWrite_pool (hapart : apart a.transit.map.windows = true)
    (hin : a.transit.map.slotPool.holds x.addr.toNat = true) :
    classifyWrite x a =
      if Requester.allowed x.requester a.transit.map.slotPool.mask then poolWrite x a else refuseWrite x a := by
  have hother (j : Nat) (hj : j < 6) :
      (a.transit.map.windows[j]'(show j < 7 by omega)).holds x.addr.toNat = false :=
    holds_only_one hapart (i := 6) (show 6 < 7 by decide) (show j < 7 by omega) (by omega) hin
  have hrequest : a.transit.map.request.holds x.addr.toNat = false := hother 0 (by decide)
  have hreply : a.transit.map.reply.holds x.addr.toNat = false := hother 1 (by decide)
  have hstatus : a.transit.map.status.holds x.addr.toNat = false := hother 2 (by decide)
  have hlog : a.transit.map.log.holds x.addr.toNat = false := hother 3 (by decide)
  have hleft : a.transit.map.apertureL.holds x.addr.toNat = false := hother 4 (by decide)
  have hright : a.transit.map.apertureR.holds x.addr.toNat = false := hother 5 (by decide)
  simp [classifyWrite, hrequest, hreply, hstatus, hlog, hleft, hright, hin]

/-- A slot ARMED or FILLING takes no write from upstream (R164). -/
theorem poolWrite_refused (h : a.slotStateAt x.addr.toNat = some .armed ∨ a.slotStateAt x.addr.toNat = some .filling) :
    poolWrite x a = refuseWrite x a := by
  unfold poolWrite
  rcases h with h | h <;> rw [h]

/-- Any other line of the pool takes it (R164). -/
theorem poolWrite_forwarded (harmed : a.slotStateAt x.addr.toNat ≠ some .armed)
    (hfilling : a.slotStateAt x.addr.toNat ≠ some .filling) : poolWrite x a = forwardWrite x a := by
  unfold poolWrite
  split
  next h => exact absurd h harmed
  next h => exact absurd h hfilling
  all_goals rfl

end

/-- A write that R162 or R164 does not permit: into a window of the part's own, from a requester the window does
not allow, or into a slot that is ARMED or FILLING. -/
def State.forbidsWrite (a : State) (x : Txn) : Prop :=
  let map := a.transit.map
  let at' := x.addr.toNat
  map.reply.holds at' = true ∨ map.status.holds at' = true ∨ map.log.holds at' = true ∨
    (map.request.holds at' = true ∧ Requester.allowed x.requester map.request.mask = false) ∨
    (map.apertureL.holds at' = true ∧ x.requester ≠ .camL) ∨
    (map.apertureR.holds at' = true ∧ x.requester ≠ .camR) ∨
    (map.slotPool.holds at' = true ∧ (Requester.allowed x.requester map.slotPool.mask = false ∨
      a.slotStateAt at' = some .armed ∨ a.slotStateAt at' = some .filling))

/-- A write that is not permitted is refused (R162, R164). -/
theorem classifyWrite_forbidden {a : State} {x : Txn} (hapart : apart a.transit.map.windows = true)
    (h : a.forbidsWrite x) : classifyWrite x a = refuseWrite x a := by
  rcases h with hin | hin | hin | ⟨hin, hmask⟩ | ⟨hin, hother⟩ | ⟨hin, hother⟩ | ⟨hin, hwhy⟩
  · exact classifyWrite_ownWindow hapart (j := 1) (by decide) (by decide) hin
  · exact classifyWrite_ownWindow hapart (j := 2) (by decide) (by decide) hin
  · exact classifyWrite_ownWindow hapart (j := 3) (by decide) (by decide) hin
  · exact classifyWrite_request_refused hin hmask
  · exact classifyWrite_aperture_refused (cam := .left) hapart hin hother
  · exact classifyWrite_aperture_refused (cam := .right) hapart hin hother
  · rw [classifyWrite_pool hapart hin]
    split
    next hmask => exact poolWrite_refused (hwhy.resolve_left (by simp [hmask]))
    next => rfl

/-- Settles O13. -/
theorem writeIsForwardedOrRefused : Obligations.WriteIsForwardedOrRefused := by
  refine ⟨?permitted, ?forbidden⟩
  case permitted =>
    intro m x s a map
    have hx := exec_upstreamWrite m x s
    refine ⟨fun _ hroom hpermitted => ?_, fun hclosed => completes_now hx (upWrite_closed x hclosed)⟩
    have hforwarded : upWrite x a = forwardWrite x a := by
      rcases hpermitted with hloading | ⟨hready, houtside⟩ | ⟨hready, hapart, hin, hmask, harmed, hfilling⟩
      · exact upWrite_loading x hloading hroom
      · exact (upWrite_ready x hready hroom).trans (classifyWrite_outside houtside)
      · exact (upWrite_ready x hready hroom).trans ((classifyWrite_pool hapart hin).trans
          ((if_pos hmask).trans (poolWrite_forwarded harmed hfilling)))
    exact completes_now hx hforwarded
  case forbidden =>
    intro m x s a map at' hready hroom hapart hforbidden
    exact completes_now (exec_upstreamWrite m x s)
      ((upWrite_ready x hready hroom).trans (classifyWrite_forbidden hapart hforbidden))

/-! ## NOTICE_OUT and the reads of the newest entry (R179) -/

/-- The newest entry's line is the line at this address. -/
def RequestUnit.newestAt (r : RequestUnit) (addr : Nat) : Bool :=
  match r.newestLine with
  | some l => l / 64 == addr / 64
  | none => false

/-- A read that lowers NOTICE_OUT as it is forwarded: the STATION's, while READY, of the newest entry's line once
the entry's write has been issued (R179). -/
def State.lowers (s : State) (x : Txn) : Bool :=
  s.ready && (x.requester == .station && s.req.newestIssued && s.req.newestAt x.addr.toNat)

/-- A read forwarded changes NOTICE_OUT alone, and lowers it where R179 says so. -/
theorem readForwarded_lowers (x : Txn) (s : State) :
    readForwarded x s = { s with req := { s.req with noticeOut := s.req.noticeOut && !(s.lowers x) } } := by
  unfold readForwarded
  cases hline : s.req.newestLine with
  | none =>
    have hnone : s.lowers x = false := by simp [State.lowers, RequestUnit.newestAt, hline]
    simp [hnone]
  | some l =>
    have hiff : (x.requester = .station ∧ s.req.newestIssued = true ∧ sameLine l x.addr.toNat = true ∧
        s.ready = true) ↔ s.lowers x = true := by
      simp only [State.lowers, RequestUnit.newestAt, hline, sameLine, Bool.and_eq_true, beq_iff_eq]
      tauto
    simp only [hiff]
    split
    next hlowers => simp [hlowers]
    next hnot => simp [hnot]

/-- Of several reads forwarded, one that lowers NOTICE_OUT is enough (R179). -/
theorem foldl_readForwarded (l : List Passed) : ∀ s : State,
    l.foldl (fun s r => readForwarded r.txn s) s =
      { s with req := { s.req with noticeOut := s.req.noticeOut && !(l.any fun r => s.lowers r.txn) } } := by
  induction l with
  | nil => intro s; simp
  | cons r l ih =>
    intro s
    rw [List.foldl_cons, ih, readForwarded_lowers]
    simp only [List.any_cons, Bool.not_or, ← Bool.and_assoc]
    rfl

/-- The reads held for an own write enter the stream; one of the newest entry's line lowers NOTICE_OUT, also
where it was held (R171, R179). -/
theorem releaseHolds_lowers (id : Nat) (s : State) :
    releaseHolds id s = { s.released [id] with req := { s.req with
      noticeOut := s.req.noticeOut && !(s.transit.holds.any fun h => h.waitsFor == id && s.lowers h.read.txn) } } := by
  have hany : ((s.transit.holds.filter fun h => h.waitsFor == id).map Hold.read).any (fun r => s.lowers r.txn) =
      s.transit.holds.any fun h => h.waitsFor == id && s.lowers h.read.txn := by
    rw [List.any_map, List.any_filter]
    rfl
  rw [← hany]
  exact foldl_readForwarded _ (s.released [id])

/-! ## Upstream reads (R163, R171, R172) -/

/-- A transaction's address is in one of the two apertures (R161). -/
def State.inAperture (a : State) (x : Txn) : Prop :=
  a.transit.map.apertureL.holds x.addr.toNat = true ∨ a.transit.map.apertureR.holds x.addr.toNat = true

/-- A read that is forwarded as it arrives while READY: taken, into no aperture, of no line an own write is for. -/
def State.forwardsRead (a : State) (x : Txn) : Bool :=
  a.start.phase == .ready && a.transit.stream.length < 32 && a.transit.holds.length < 16 &&
    !(a.transit.map.apertureL.holds x.addr.toNat) && !(a.transit.map.apertureR.holds x.addr.toNat) &&
    (a.ownWritesTo x.addr.toNat).isEmpty

section
variable {a : State} {x : Txn}

/-- The port takes no read in RESET, with the stream full or with no place to hold it (R167, R171, R172). -/
theorem readOpen_iff (a : State) : a.readOpen = true ↔
    ¬ (a.start.phase = .reset ∨ 32 ≤ a.transit.stream.length ∨ 16 ≤ a.transit.holds.length) := by
  simp only [State.readOpen, Bool.and_eq_true, portOpen_iff, decide_eq_true_eq, not_or, not_le, and_assoc, ne_eq]

theorem upRead_closed (hclosed : ¬ a.readOpen = true) : upRead x a = a := if_neg hclosed

/-- Before READY a read is forwarded unclassified (R172). -/
theorem upRead_loading (hopen : a.readOpen = true) (hphase : a.start.phase ≠ .ready) :
    upRead x a = bumpSeq (forward (a.passed false false x) a) :=
  (if_pos hopen).trans (if_neg (not_ready hphase))

theorem upRead_ready (hopen : a.readOpen = true) (hphase : a.start.phase = .ready) :
    upRead x a = classifyRead x a :=
  (if_pos hopen).trans (if_pos (ready_of_phase hphase))

/-- A read of an aperture is refused (R163). -/
theorem classifyRead_aperture (hin : a.inAperture x) : classifyRead x a = respond x .refused a :=
  if_pos (Bool.or_eq_true_iff.2 hin)

/-- A read of a line an own write is for is held against the newest such write (R171). -/
theorem classifyRead_held {id : Nat} (hin : ¬ a.inAperture x)
    (hown : (a.ownWritesTo x.addr.toNat).getLast? = some id) :
    classifyRead x a = bumpSeq { a with transit := { a.transit with
      holds := a.transit.holds ++ [⟨a.passed false false x, id⟩] } } := by
  refine (if_neg fun h => hin (Bool.or_eq_true_iff.1 h)).trans ?_
  simp only [hown]

/-- Any other read is forwarded (R163, R179). -/
theorem classifyRead_forwarded (hin : ¬ a.inAperture x) (hown : (a.ownWritesTo x.addr.toNat).getLast? = none) :
    classifyRead x a = readForwarded x (bumpSeq (forward (a.passed false false x) a)) := by
  refine (if_neg fun h => hin (Bool.or_eq_true_iff.1 h)).trans ?_
  simp only [hown]

theorem forwardsRead_iff : a.forwardsRead x = true ↔ a.readOpen = true ∧ a.start.phase = .ready ∧
    ¬ a.inAperture x ∧ (a.ownWritesTo x.addr.toNat).getLast? = none := by
  simp only [State.forwardsRead, State.readOpen, State.inAperture, Bool.and_eq_true, portOpen_iff, beq_iff_eq,
    decide_eq_true_eq, Bool.not_eq_true', List.isEmpty_iff, List.getLast?_eq_none_iff, not_or, Bool.not_eq_true]
  constructor
  · rintro ⟨⟨⟨⟨⟨hready, hroom⟩, hheld⟩, hleft⟩, hright⟩, hown⟩
    exact ⟨⟨⟨by rw [hready]; decide, hroom⟩, hheld⟩, hready, ⟨hleft, hright⟩, hown⟩
  · rintro ⟨⟨⟨-, hroom⟩, hheld⟩, hready, ⟨hleft, hright⟩, hown⟩
    exact ⟨⟨⟨⟨⟨hready, hroom⟩, hheld⟩, hleft⟩, hright⟩, hown⟩

/-- A read that is not forwarded while READY changes nothing of the request unit (R179). -/
theorem upRead_req (h : a.forwardsRead x = false) : (upRead x a).req = a.req := by
  by_cases hopen : a.readOpen = true
  case neg => rw [upRead_closed hopen]
  by_cases hready : a.start.phase = .ready
  case neg => rw [upRead_loading hopen hready]; rfl
  rw [upRead_ready hopen hready]
  by_cases hin : a.inAperture x
  case pos => rw [classifyRead_aperture hin]; rfl
  cases hown : (a.ownWritesTo x.addr.toNat).getLast? with
  | some id => rw [classifyRead_held hin hown]; rfl
  | none => exact absurd (forwardsRead_iff.2 ⟨hopen, hready, hin, hown⟩) (Bool.eq_false_iff.1 h)

/-- What a read makes of NOTICE_OUT (R179). -/
theorem upRead_noticeOut (x : Txn) (a : State) : (upRead x a).req.noticeOut = (a.req.noticeOut &&
    !(a.forwardsRead x && x.requester == .station && a.req.newestIssued && a.req.newestAt x.addr.toNat)) := by
  by_cases h : a.forwardsRead x = true
  case neg =>
    rw [Bool.not_eq_true] at h
    simp [upRead_req h, h]
  case pos =>
    obtain ⟨hopen, hready, hin, hown⟩ := forwardsRead_iff.1 h
    have hlowers : (bumpSeq (forward (a.passed false false x) a)).lowers x =
        (x.requester == .station && a.req.newestIssued && a.req.newestAt x.addr.toNat) :=
      (congrArg (· && _) (ready_of_phase hready)).trans (Bool.true_and _)
    rw [upRead_ready hopen hready, classifyRead_forwarded hin hown, readForwarded_lowers, hlowers, h, Bool.true_and]
    rfl

end

/-- Settles O15: the cases of the port, of the apertures and of the own writes in turn. -/
theorem readIsForwardedHeldOrRefused : Obligations.ReadIsForwardedHeldOrRefused := by
  intro m x s a map p
  have hx := exec_upstreamRead m x s
  split
  next hclosed => exact completes_now hx (upRead_closed fun hopen => (readOpen_iff a).1 hopen hclosed)
  next hopen =>
    have hopen := (readOpen_iff a).2 hopen
    split
    next hin => exact completes_now hx ((upRead_ready hopen hin.1).trans (classifyRead_aperture hin.2))
    next hin =>
      by_cases hready : a.start.phase = .ready
      case neg =>
        rw [if_neg hready]
        exact completes_now hx (upRead_loading hopen hready)
      case pos =>
        rw [if_pos hready]
        have hin := fun h => hin ⟨hready, h⟩
        have hread := upRead_ready (x := x) hopen hready
        cases hown : (a.ownWritesTo x.addr.toNat).getLast? with
        | some id => exact completes_now hx (hread.trans (classifyRead_held hin hown))
        | none =>
          exact completes_by hx (hread.trans (classifyRead_forwarded hin hown))
            ⟨readForwarded_bare _ _, readForwarded_newest _ _⟩

/-! ## The downstream port's grant (R160, R167, R168, R170) -/

section
variable {a : State}

/-- The stream's head is issued when own traffic is empty or had the last grant (R170). -/
theorem grantPort_stream {p : Passed} {rest : List Passed} (hstream : a.transit.stream = p :: rest)
    (hturn : a.transit.queue = [] ∨ a.transit.mark = .own) :
    grantPort a = issue .forwarded (.forwarded p) { a with transit := { a.transit with stream := rest } } := by
  refine (if_pos ⟨by simp [hstream], hturn⟩).trans ?_
  unfold issueForwarded
  rw [hstream]

/-- Own traffic's head is issued when the stream is empty or had the last grant (R168, R170). -/
theorem grantPort_own {e : OwnEntry} {rest : List OwnEntry} (hqueue : a.transit.queue = e :: rest)
    (hturn : a.transit.stream = [] ∨ a.transit.mark = .forwarded) :
    grantPort a = releaseHolds e.id (markIssued e.id
      (issue .own (.own e) { a with transit := { a.transit with queue := rest } })) := by
  refine (if_neg ?_).trans ?_
  · rintro ⟨hstream, hother | hother⟩
    · rw [hqueue] at hother
      exact absurd hother (by simp)
    · rcases hturn with hturn | hturn
      · exact hstream hturn
      · rw [hturn] at hother
        exact absurd hother (by decide)
  · unfold issueOwn
    rw [hqueue]

/-- With nothing to issue the port does nothing (R170). -/
theorem grantPort_idle (hstream : a.transit.stream = []) (hqueue : a.transit.queue = []) : grantPort a = a := by
  refine (if_neg fun h => h.1 hstream).trans ?_
  unfold issueOwn
  rw [hqueue]

/-- The newest entry's issue is noted (R179). -/
theorem markIssued_eq (id : Nat) (s : State) : markIssued id s =
    { s with req := { s.req with newestIssued := s.req.newestIssued || s.req.newestId == some id } } := by
  unfold markIssued
  split
  next hnewest => simp [hnewest]
  next hother => rw [beq_eq_false_iff_ne.2 hother, Bool.or_false]

/-- What the issue of an own entry makes of NOTICE_OUT and of the newest entry's mark (R171, R179). -/
theorem grantPort_own_req {e : OwnEntry} {rest : List OwnEntry} (hqueue : a.transit.queue = e :: rest)
    (hturn : a.transit.stream = [] ∨ a.transit.mark = .forwarded) :
    let issued := a.req.newestIssued || a.req.newestId == some e.id
    let read := a.start.phase == .ready && a.transit.holds.any fun h =>
      h.waitsFor == e.id && h.read.txn.requester == .station && a.req.newestAt h.read.txn.addr.toNat
    (grantPort a).req = { a.req with newestIssued := issued, noticeOut := a.req.noticeOut && !(issued && read) } := by
  intro issued read
  have hreads : (a.transit.holds.any fun h => h.waitsFor == e.id &&
      (a.start.phase == .ready && (h.read.txn.requester == .station && issued &&
        a.req.newestAt h.read.txn.addr.toNat))) = (issued && read) := by
    simp only [read, List.and_any_distrib_left]
    exact congrArg (a.transit.holds.any ·) (funext fun h => by ac_rfl)
  rw [grantPort_own hqueue hturn, releaseHolds_lowers, markIssued_eq, ← hreads]
  rfl

end

/-- An entry placed raises NOTICE_OUT, and its write has not been issued (R179). -/
theorem placeEntry_notice (fs : Fields) (o : Origin) (s : State) :
    (placeEntry fs o s).req.noticeOut = true ∧ (placeEntry fs o s).req.newestIssued = false := by
  unfold placeEntry
  simp only [placeWrite_req, and_self]

/-- Settles O16: an entry raises NOTICE_OUT as it is placed; a read lowers it as it is forwarded, on arrival or on
release. -/
theorem noticeOutFollowsTheNewestEntry : Obligations.NoticeOutFollowsTheNewestEntry := by
  refine ⟨?entry, ?read, ?issue⟩
  case entry =>
    intro fs origin s
    obtain ⟨hnotice, hissued, -, -⟩ := sync_req (placeEntry fs origin (sync s))
    unfold writeEntry
    rw [hnotice, hissued]
    exact placeEntry_notice fs origin (sync s)
  case read =>
    intro m x s a read
    obtain ⟨hnotice, -, -, -⟩ := sync_req (upRead x a)
    exact ⟨sync (upRead x a), exec_upstreamRead m x s, hnotice.trans (upRead_noticeOut x a)⟩
  case issue =>
    intro m s a c own
    have answers {issued notice : Bool} (hi : (grantPort a).req.newestIssued = issued)
        (hn : (grantPort a).req.noticeOut = notice) :
        ∃ t, exec c s = .next t ∧ t.req.newestIssued = issued ∧ t.req.noticeOut = notice := by
      obtain ⟨hnotice, hissued, -, -⟩ := sync_req (grantPort a)
      exact ⟨sync (grantPort a), exec_downstreamIssue m s, hissued.trans hi, hnotice.trans hn⟩
    refine ⟨?own, fun hother => ?stream⟩
    case own =>
      intro e rest hqueue hown issued read
      have hreq := grantPort_own_req hqueue hown
      exact answers (congrArg RequestUnit.newestIssued hreq) (congrArg RequestUnit.noticeOut hreq)
    case stream =>
      have hreq : (grantPort a).req = a.req := by
        cases hstream : a.transit.stream with
        | nil => rw [grantPort_idle hstream (hother.resolve_right (not_not.2 (.inl hstream)))]
        | cons p rest =>
          have hturn : a.transit.queue = [] ∨ a.transit.mark = .own := hother.imp_right fun hown => by
            cases hmark : a.transit.mark with
            | own => rfl
            | forwarded => exact absurd (.inr hmark) hown
          rw [grantPort_stream hstream hturn]
          rfl
      exact answers (congrArg RequestUnit.newestIssued hreq) (congrArg RequestUnit.noticeOut hreq)

/-- Settles O19. -/
theorem portIsGrantedInTurn : Obligations.PortIsGrantedInTurn := by
  intro m s a
  have hx := exec_downstreamIssue m s
  refine ⟨fun p rest hstream hturn => completes_now hx (grantPort_stream hstream hturn),
    fun e rest hqueue hturn => ?own, fun hstream hqueue => completes_now hx (grantPort_idle hstream hqueue)⟩
  case own =>
    have hgranted := grantPort_own hqueue hturn
    rw [markIssued_eq, releaseHolds_lowers] at hgranted
    refine ⟨sync (grantPort a), hx, (sync_bare _).trans ?_, ?_, fun hnewest => ?_⟩
    · rw [hgranted]
      rfl
    · have hqueued : (grantPort a).transit.queue = rest := by rw [hgranted]; rfl
      exact hqueued ▸ (sync_fifo (grantPort a)).1
    · have hissued : (grantPort a).req.newestIssued = (s.req.newestIssued || s.req.newestId == some e.id) := by
        rw [hgranted]
        rfl
      rw [(sync_req _).2.1, hissued, hnewest, beq_self_eq_true, Bool.or_true]

/-! ## The memory controller's answers (R159, R160, R165, R172) -/

section
variable {s : State} (refused : Bool) (data : List Byte)

/-- An answer to a transaction of before the reset is discarded (R172). -/
theorem answer_stale (h : 0 < s.transit.stale) :
    answer refused data s = { s with transit := { s.transit with stale := s.transit.stale - 1 } } := if_pos h

/-- With nothing outstanding an answer has no effect (notes/assumptions/30.md). -/
theorem answer_none (hstale : s.transit.stale = 0) (hout : s.transit.outstanding = []) :
    answer refused data s = s := by
  unfold answer
  rw [if_neg (by omega), hout]

/-- A forwarded transaction's answer goes to its requester, a redirected line's nowhere (R159, R165). -/
theorem answer_forwarded {p : Passed} {rest : List Issued} (hstale : s.transit.stale = 0)
    (hout : s.transit.outstanding = .forwarded p :: rest) :
    answer refused data s = { s with
      transit := { s.transit with outstanding := rest }
      out := if p.redirected then s.out else s.out ++ [(p.txn, passedResponse p refused data)] } := by
  unfold answer
  rw [if_neg (by omega), hout]
  dsimp only
  split <;> rfl

/-- An own write's answer is needed by nobody (R160). -/
theorem ownAnswer_write {e : OwnEntry} (hgain : ∀ c b, e.origin ≠ .gainRead c b) (hverify : e.origin ≠ .verifyRead) :
    ownAnswer e refused data s = s := by
  unfold ownAnswer
  split
  next c second h => exact absurd h (hgain c second)
  next h => exact absurd h hverify
  all_goals rfl

end

/-- Settles O20. -/
theorem answerGoesToItsRequester : Obligations.AnswerGoesToItsRequester := by
  intro m refused data s a
  have hx := exec_downstreamResponse m refused data s
  exact ⟨fun hstale => completes_now hx (answer_stale refused data hstale),
    fun hstale hout => completes_now hx (answer_none refused data hstale hout),
    fun p rest hstale hout => completes_now hx (answer_forwarded refused data hstale hout),
    fun e rest hstale hout _ hgain hverify => completes_now hx
      ((answer_own refused data hstale hout).trans (ownAnswer_write refused data hgain hverify))⟩

end Sys2Proof.Machine
end

