-- ==== Sys2Proof/Proofs/Headers.lean ====
section
/-! PROOFS. The check of a request's header before its owner sees it (O23). -/

namespace Sys2Proof.Machine

/-! ## The header's tests (R173, R174) -/

theorem Head.fits_iff (h : Head) (used : Byte) : h.fits used = true ↔
    h.zero5 = 0#8 ∧ h.zero6 = 0#8 ∧ h.zero7 = 0#8 ∧ h.flags &&& ~~~used = 0#8 := by
  simp [Head.fits, and_assoc]

section
variable {a : State}

theorem ask_notReady (code used : Byte) (h : Head) (f : Ticket → State → State) (hphase : a.start.phase ≠ .ready) :
    ask code used h f a = a := if_neg (not_ready hphase)

/-- The owner of a request whose header does not fit never sees it. -/
theorem ask_unfit {used : Byte} {h : Head} (code : Byte) (f : Ticket → State → State)
    (hphase : a.start.phase = .ready) (hunfit : ¬ h.fits used = true) :
    ask code used h f a = refuse (h.ticket code) .badField a :=
  (if_pos (ready_of_phase hphase)).trans (if_neg hunfit)

theorem askUnknown_notReady (kind : Byte) (h : Head) (hphase : a.start.phase ≠ .ready) :
    askUnknown kind h a = a := if_neg (not_ready hphase)

theorem askUnknown_ready (kind : Byte) (h : Head) (hphase : a.start.phase = .ready) :
    askUnknown kind h a = refuse (h.ticket kind) .unknownKind a := if_pos (ready_of_phase hphase)

end

/-! ## The request refused at its header -/

/-- Settles O23: a line of no known kind, then a known kind, whose owner is asked only where the header fits. -/
theorem requestHeaderIsChecked : Obligations.RequestHeaderIsChecked := by
  constructor
  case left =>
    intro m kind h s a
    have hx := exec_requestUnknownKind m kind h s
    split
    next hready => exact refuse_completes hx (askUnknown_ready kind h hready)
    next hphase => exact same_completes hx (askUnknown_notReady kind h hphase)
  case right =>
    intro c m code used h s hrequest a
    obtain ⟨f, hx⟩ := requestOf_ask hrequest
    refine ⟨fun hphase => same_completes (hx s) (ask_notReady code used h f hphase), fun hready hbad => ?_⟩
    exact refuse_completes (hx s) (ask_unfit code f hready (mt (Head.fits_iff h used).1 hbad))

end Sys2Proof.Machine
end

