-- ==== Sys2Proof/Proofs/StartUp.lean ====
section
/-! PROOFS. RESET ends into PROFILE_LOAD (O7), and the flash reads that lead on to a next group: the signature (O8),
a read of G1 to G6 (O9) and of G0 (O10). -/

namespace Sys2Proof.Machine

/-! ## The end of RESET (R182) -/

/-- What leaving RESET makes of the start-up state: the load begins with the signature. -/
theorem leaveReset_eq (s : State) : leaveReset s = { s with
    start := if s.start.phase = .reset ∧ s.lines.power ∧ ¬ s.lines.resetIn then
      { s.start with phase := .profileLoad, waiting := .signature } else s.start } := by
  unfold leaveReset
  split <;> rfl

/-- Settles O7: each event sets its line, and RESET ends where the other line already allows it. -/
theorem resetEndsIntoProfileLoad : Obligations.ResetEndsIntoProfileLoad := by
  intro m s a loading
  refine ⟨completes_now (exec_resetEnd m s) ?resetEnd, completes_now (exec_powerEstablished m s) ?established⟩
  case resetEnd => simp [leaveReset_eq, setLines, a, loading]
  case established => simp [leaveReset_eq, setLines, a, loading]

/-! ## The next group that is read (R184) -/

/-- Groups settled DEFAULTED in the settling order, some of them left out: no other group than G1 stands before G0,
so the check of the default map's pool (R186) is the last word on G1. -/
theorem defaultGroups_sublist {groups : List Nat} (h : groups.Sublist [1, 0, 2, 3, 4, 5, 6]) (s : State) :
    groups.foldl (fun u g => defaultGroup g u) s = s.defaulted groups := by
  by_cases h0 : 0 ∈ groups
  · obtain ⟨before, after, rfl⟩ := List.append_of_mem h0
    have hnodup : (before ++ 0 :: after).Nodup := h.nodup (by decide)
    have hbefore : 0 ∉ before := fun hmem => List.disjoint_of_nodup_append hnodup hmem List.mem_cons_self
    have hafter : 0 ∉ after := (List.nodup_cons.1 hnodup.of_append_right).1
    have hgeometry : 1 ∉ after := fun hmem => by
      have hlate : [0, 1].Sublist (before ++ 0 :: after) :=
        ((List.singleton_sublist.2 hmem).cons_cons 0).trans (List.sublist_append_right _ _)
      exact absurd (hlate.trans h) (by decide)
    exact defaultGroups_with_map hbefore hafter hgeometry s
  · exact defaultGroups_without_map h0 s

theorem defaulted_accepts (groups : List Nat) (s : State) : (s.defaulted groups).start.accepts = s.start.accepts := by
  unfold State.defaulted
  dsimp only
  split <;> rfl

/-- Settling stops at the first accepted group, which is then waited for. -/
theorem settleGroups_next {skipped rest : List Nat} {g : Nat} {e : State}
    (hsub : skipped.Sublist [1, 0, 2, 3, 4, 5, 6]) (hskipped : ∀ x ∈ skipped, e.start.accepts x = false)
    (hg : e.start.accepts g = true) :
    settleGroups (skipped ++ g :: rest) e.waitless =
      updStart (fun x => { x with waiting := .group g }) (e.defaulted skipped) := by
  have haccepts : (e.defaulted skipped).waitless.start.accepts g = true := by
    rw [← defaulted_waitless, defaulted_accepts]
    exact hg
  calc settleGroups (skipped ++ g :: rest) e.waitless
      = settleGroups (g :: rest) (skipped.foldl (fun u x => defaultGroup x u) e.waitless) :=
        settleGroups_skip _ _ _ hskipped
    _ = settleGroups (g :: rest) (e.defaulted skipped).waitless := by
        rw [defaultGroups_sublist hsub, defaulted_waitless]
    _ = _ := if_pos haccepts

/-- A command that comes to settle groups one of which is accepted goes on to read the first such. -/
theorem readsNext_of {c : Instr} {m : Moment} {f : State → State} {s e : State} {order : List Nat}
    (hx : exec c s = takeCommand m f s) (hf : f (arrive m s) = settleGroups order e.waitless)
    (horder : order.Sublist [1, 0, 2, 3, 4, 5, 6]) (hreq : e.req = (arrive m s).req) : s.readsNext c e order := by
  rintro skipped g rest rfl hskipped hg d
  have hsub := (List.sublist_append_left skipped (g :: rest)).trans horder
  have hnewest : d.req.newest = (arrive m s).req.newest :=
    congrArg RequestUnit.newest ((defaulted_keeps skipped e).1.trans hreq)
  exact completes_now hx (hf.trans (settleGroups_next hsub hskipped hg)) hnewest

/-! ## The signature (R184) -/

/-- Code 01 of the control word where the signature is good, and of none where it is not. -/
theorem accepts_iff {good : Prop} [Decidable good] (x : Start) (control : BitVec 16) (g : Nat) :
    { x with accept := if good then control else 0#16 }.accepts g = true ↔
      good ∧ control.getLsbD (2 * g) = true ∧ control.getLsbD (2 * g + 1) = false := by
  by_cases h : good <;> simp [Start.accepts, h]

/-- Settles O8. -/
theorem signatureDecidesTheLoad : Obligations.SignatureDecidesTheLoad := by
  intro m sig control s a good e hphase hwait
  exact ⟨accepts_iff a.start control,
    readsNext_of (exec_profileSignatureRead m sig control s) (if_pos ⟨hphase, hwait⟩) (.refl _) rfl⟩

/-! ## A group read (R184 to R186) -/

theorem groupsAfter_sublist {g : Nat} (hg : g ≤ 6) : (groupsAfter g).Sublist [1, 0, 2, 3, 4, 5, 6] := by
  interval_cases g <;> decide

/-- Settles O9. -/
theorem groupReadLoadsItsValues : Obligations.GroupReadLoadsItsValues := by
  intro m bytes g s a hphase hwait hlow hg
  have hread := groupRead_eq hg bytes hphase hwait
  rw [if_neg (Nat.one_le_iff_ne_zero.1 hlow)] at hread
  rw [← groupsAfter_eq hg]
  exact readsNext_of (exec_profileGroupRead m bytes s) hread (groupsAfter_sublist hg) (groupLoaded_keeps g bytes a).1

section
variable {bytes : List Byte} {s : State}

/-- A map that passes its check is in force (R186). -/
theorem mapSettled_passes (h : (readMap s.intake.geo bytes).passes s.intake.geo = true) :
    s.mapSettled bytes = { s with
      start := { s.start with loadResult := s.start.loadResult.set 0 (some .loaded) }
      transit := { s.transit with map := readMap s.intake.geo bytes } } :=
  if_pos ((passes_iff _ _).1 h)

/-- A map that fails its check is discarded whole; the default map is then checked against G1 (R186). -/
theorem mapSettled_fails (h : ¬ (readMap s.intake.geo bytes).passes s.intake.geo = true) :
    s.mapSettled bytes = checkDefaultMap (setResult 0 .rejected s) :=
  (if_neg (mt (passes_iff _ _).2 h)).trans (checkDefaultMap_eq (setResult 0 .rejected s)).symm

theorem checkDefaultMap_map (s : State) : (checkDefaultMap s).transit.map = s.transit.map := by
  rw [checkDefaultMap_eq]
  split <;> rfl

/-- The default pool holds G1's slots. -/
theorem checkDefaultMap_fits (h : 2 * s.intake.geo.slots * s.intake.geo.frameBytes ≤ 402653184) :
    checkDefaultMap s = s :=
  (checkDefaultMap_eq s).trans (if_neg (not_lt.2 h))

/-- The default pool is too small for G1's slots: G1 is REJECTED, its defaults back in force (R186). -/
theorem checkDefaultMap_small (h : 402653184 < 2 * s.intake.geo.slots * s.intake.geo.frameBytes) :
    checkDefaultMap s = { s.defaultGeometry with
      start := { s.start with loadResult := s.start.loadResult.set 1 (some .rejected) } } :=
  (checkDefaultMap_eq s).trans (if_pos h)

end

theorem not_passes_iff (map : RegionMap) (g : Geometry) : ¬ map.passes g = true ↔
    apart map.windows = false ∨ (∃ w ∈ map.windows, 0x400000000 < w.base + w.len) ∨
      map.slotPool.len < 2 * g.slots * g.frameBytes := by
  rw [passes_iff]
  simp only [not_and_or, Bool.not_eq_true, not_forall, not_le, exists_prop]

/-- Settles O10: the read leads on to G2 and later groups; the map passes its check, or fails it with a default pool
that holds G1's slots or does not. -/
theorem mapIsLoadedOrRejected : Obligations.MapIsLoadedOrRejected := by
  intro m bytes s a map pool e hphase hwait
  refine ⟨?next, fun hapart hbelow hpool => ?loaded, fun hbad => ?rejected⟩
  case next =>
    exact readsNext_of (exec_profileGroupRead m bytes s) (groupRead_eq (Nat.zero_le 6) bytes hphase hwait)
      (groupsAfter_sublist (Nat.zero_le 6)) (mapSettled_keeps bytes a).1
  case loaded =>
    have he : e = _ := mapSettled_passes ((passes_iff _ _).2 ⟨hapart, hbelow, hpool⟩)
    rw [he]
    exact ⟨rfl, rfl, rfl⟩
  case rejected =>
    have he : e = checkDefaultMap (setResult 0 .rejected a) := mapSettled_fails ((not_passes_iff _ _).2 hbad)
    rw [he]
    refine ⟨checkDefaultMap_map _, fun hfits => ?_, fun hsmall => ?_⟩
    · rw [checkDefaultMap_fits (s := setResult 0 .rejected a) hfits]
      exact ⟨rfl, rfl⟩
    · rw [checkDefaultMap_small (s := setResult 0 .rejected a) hsmall]
      exact ⟨rfl, rfl⟩

end Sys2Proof.Machine
end

