-- ==== Sys2Proof/Proofs/Step.lean ====
section
/-! PROOFS. A step is the command in front of the queue, and idles on an empty queue (O1). -/

namespace Sys2Proof.Machine

variable {s : State}

/-- With a command in front, a step takes it from the queue and runs it. -/
theorem step_of_pending_cons {c : Instr} {rest : List Instr} (hfront : s.pending = c :: rest) :
    step s = exec c { s with pending := rest } := by
  rw [step, hfront]

/-- On an empty queue a step idles (notes/assumptions/3.md). -/
theorem step_of_pending_nil (hempty : s.pending = []) : step s = .next s := by
  rw [step, hempty]

/-- Settles O1: the two cases of the queue. -/
theorem stepRunsFrontCommand : Obligations.StepRunsFrontCommand :=
  ⟨fun _ _ _ hfront => step_of_pending_cons hfront, fun _ hempty => step_of_pending_nil hempty⟩

end Sys2Proof.Machine
end

