-- ==== Sys2Proof/Proofs/CycleFacts.lean ====
section
/-! PROOFS. What the requests and the flow of the cycle read, and how a checked request leads on: the facts the proofs
about the cycle (O14, O31 to O35, O38, O39, O42, O47, O49, O50, O52, O54, O60) share. -/

namespace Sys2Proof.Machine

/-! ## Readings of the cycle (R28, R30, R31, R37) -/

/-- The cursor of the active record. -/
theorem cursor_active {t : VolumeTable} {k : Nat} {v : Volume} (h : t.active = some (k, v)) : t.cursor = v.cursor := by
  unfold VolumeTable.cursor
  rw [h]
  rfl

theorem leaves_active {s : State} {k : Nat} {v : Volume} (h : s.vols.active = some (k, v)) : s.leaves = v.leaves := by
  unfold State.leaves
  rw [h]
  rfl

theorem turnInFlight_iff (c : Cycle) : c.turnInFlight = true ↔ c.state = .turn ∧ c.sub ≠ .waitLog := by
  simp [Cycle.turnInFlight]

theorem stop_of_run {c : Cycle} {r : RunRecord} (hrun : c.run = some r) : c.stop = r.stop := by
  unfold Cycle.stop
  rw [hrun]
  rfl

theorem point_run {c : Cycle} {r : RunRecord} (hrun : c.run = some r) : c.point = r.resume := by
  unfold Cycle.point
  rw [hrun]
  rfl

/-- The sides prepared are those of the opening record (R28). -/
theorem preparedSides_eq (c : Cycle) : c.preparedSides = match c.opening with
    | some o => o.prepared.sides
    | none => ⟨false, false⟩ := by
  unfold Cycle.preparedSides
  cases c.opening <;> rfl

theorem camerasReady_iff (s : State) (sides : Sides) : s.camerasReady sides = true ↔
    (sides.left = true → s.lines.camReady.left = true) ∧ (sides.right = true → s.lines.camReady.right = true) := by
  obtain ⟨left, right⟩ := sides
  cases left <;> cases right <;> simp [State.camerasReady, Sides_list_eq, PerCam.get]

/-- A cycle at work with an active record below opening L comes to the room test of a turn (R45). -/
theorem startTurn_below {s : State} {k : Nat} {v : Volume} (hactive : s.vols.active = some (k, v))
    (hbelow : v.cursor < v.leaves) : startTurn s = tryTurn s := by
  unfold startTurn
  rw [hactive]
  exact if_neg (by omega)

/-- The room test, and the turner at REST asked (R45, R59). -/
theorem tryTurn_room {s : State} (hroom : ¬ s.freeRoom < 5) (hrest : s.turner.state = .rest) :
    tryTurn s = takeTurn (enterCycle .turn .none s) := (if_neg hroom).trans (if_pos hrest)

/-! ## Requests that lead on -/

section
variable {c : Instr} {m : Moment} {t : Ticket} {s u e : State} {f g : State → State} {fs : List Fields}

/-- With every check passed a request whose operation goes on into `g` from a state that came to `e` leads on. -/
theorem State.checks.leads (hx : s.checks c m t [] f) (hf : f (arrive m s) = g u)
    (hu : u.cameTo s.req.newest e fs) : s.leads c g e fs :=
  ⟨u, by rw [hx.runs, hf], hu⟩

/-- With every check passed a request completes as its operation comes out. -/
theorem State.checks.completes (hx : s.checks c m t [] f) (hf : f (arrive m s) = u)
    (hu : u.cameTo s.req.newest e fs) : s.completes c e fs :=
  ⟨_, hx.runs, hf ▸ hu.sync.1, hf ▸ hu.sync.2⟩

end

end Sys2Proof.Machine
end

