-- ==== Sys2Proof/Proofs/RunRequests.lean ====
section
/-! PROOFS. STEP_TURN (O32), RUN (O31), PAUSE and RESUME with CONTINUE (O33). -/

namespace Sys2Proof.Machine

/-! ## STEP_TURN (R33) -/

theorem takeStepTurn_idle {s : State} (hidle : s.cycle.state = .idle) (t : Ticket) : takeStepTurn t s = checked t
      [(s.vols.activeHandle.isNone, .noVolume), (s.lines.haltIn, .haltActive),
       (s.supplyShort, .supplyLow), (s.vols.cursor == s.leaves, .endOfVolume), (s.completing, .state)]
      (fun s => startTurn (replyDone t false [] (makeRun .step (s.vols.cursor + 1) false s))) s :=
  if_pos (idle_iff.2 hidle)

/-- Settles O32: refused but in IDLE, then the checks in order and the turn asked for. -/
theorem stepTurnAsksOneTurn : Obligations.StepTurnAsksOneTurn := by
  intro m h s a t c cur run hasked
  refine ⟨fun hbusy => ?_, fun hidle => ?_⟩
  · exact refuse_completes (exec_stepTurn m h s) ((ask_asked hasked).trans (if_neg (mt idle_iff.1 hbusy)))
  have hx : s.checks c m t _ _ := checks_of_asked (exec_stepTurn m h s) hasked (takeStepTurn_idle hidle t)
  split
  next => exact fun hnone => hx.refused (Option.isNone_iff_eq_none.2 hnone)
  next k v hactive =>
    obtain ⟨hhandle, -⟩ := active_get hactive
    have hcur : a.vols.cursor = v.cursor := cursor_active hactive
    have hx := hx.passed (by rw [Option.isNone_iff_eq_none]; exact fun hnone => by rw [hnone] at hhandle; cases hhandle)
    refine hx.split Iff.rfl fun _ hx => hx.split Iff.rfl fun _ hx => hx.split ?_ fun _ hx =>
      hx.split completing_iff fun _ hx hbelow => ?_
    · rw [beq_iff_eq, leaves_active hactive]
    let e : State := makeRun .step (cur + 1) false a
    have hu : (replyDone t false [] e).cameTo s.req.newest e [doneReply t false []] :=
      replyDone_came (m := m) t false [] rfl
    have hturn : startTurn (replyDone t false [] e) = tryTurn (replyDone t false [] e) :=
      startTurn_below (v := v) (by rw [vols_came hu]; exact hactive) (hcur ▸ hbelow)
    have hfree : (replyDone t false [] e).freeRoom = a.freeRoom := (freeRoom_came hu).1
    split
    next hshort =>
      exact hx.completes (hturn.trans (if_pos (by rwa [hfree]))) (hu.clean (clean_enterCycle .turn .waitLog))
    next hroom =>
      intro hrest
      exact hx.leads (hturn.trans (tryTurn_room (by rwa [hfree]) (by rw [turner_came hu]; exact hrest)))
        (hu.clean (clean_enterCycle .turn .none))

/-! ## RUN (R30, R31) -/

/-- The stop opening moved during a run, with what it reaches (R31, R32). -/
def moveStop (stop : Nat) (t : Ticket) (s : State) : State :=
  let u := replyAccepted t (s.cycle.stop < stop : Bool)
    (updRun (fun r => { r with stop := stop, stopReached := false }) s)
  if stop = u.currentOpening ∧ ¬ u.cycle.turnInFlight then
    if (stopReached u).cycle.state = .turn then runComplete (stopReached u) else stopReached u
  else u

theorem runReplace_eq (stop : Nat) (t : Ticket) (s : State) : runReplace stop t s = checked t
    [(!((s.cycle.run.map RunRecord.kind) == some .run), .state),
     (stop < s.currentOpening || s.leaves < stop, .range)] (moveStop stop t) s := rfl

/-- A moved stop replied to: with nothing reached that is all; else STOP_OPENING_REACHED follows, and a run that
waits in TURN is complete (R31). -/
theorem moveStop_eq {s : State} {r : RunRecord} (hrun : s.cycle.run = some r) (stop : Nat) (t : Ticket) :
    let e : State := { s with cycle := { s.cycle with run := some { r with stop := stop, stopReached := false } } }
    let u := replyAccepted t (decide (r.stop < stop)) e
    moveStop stop t s = if stop = s.currentOpening ∧ ¬ s.cycle.turnInFlight = true then
        if s.cycle.state = .turn then runComplete (stopReached u) else stopReached u
      else u := by
  intro e u
  have hmoved : updRun (fun r => { r with stop := stop, stopReached := false }) s = e := updRun_some _ hrun
  have hvols : u.vols = s.vols := writeEntry_vols _ _ _
  have hcycle : u.cycle = e.cycle := writeEntry_cycle _ _ _
  have hflight : u.cycle.turnInFlight = s.cycle.turnInFlight := by rw [hcycle]; rfl
  have hopening : u.currentOpening = s.currentOpening := by unfold State.currentOpening; rw [hflight, hvols]
  have hstate : (stopReached u).cycle.state = s.cycle.state := by
    simp only [stopReached, updRun, updCycle, notice_cycle, hcycle, e]
  have hstop : s.cycle.stop = r.stop := stop_of_run hrun
  rw [← hstate, ← hflight, ← hopening]
  unfold moveStop
  rw [hmoved, hstop]

theorem takeRun_working {s : State} (h : s.cycle.state.working = true) (d : Head) (stop : BitVec 16) (t : Ticket) :
    takeRun d stop t s = runReplace stop.toNat t s := by
  unfold takeRun
  cases hstate : s.cycle.state <;> simp_all [CycleState.working]

/-- The run's current opening: the next one while a turn is in flight (R28). -/
theorem currentOpening_eq (s : State) {opening : Nat}
    (hturn : s.cycle.state = .turn ∧ s.cycle.sub ≠ .waitLog → opening = s.vols.cursor + 1)
    (hstill : ¬ (s.cycle.state = .turn ∧ s.cycle.sub ≠ .waitLog) → opening = s.vols.cursor) :
    s.currentOpening = opening := by
  unfold State.currentOpening
  split
  next h => exact (hturn ((turnInFlight_iff _).1 h)).symm
  next h => exact (hstill (mt (turnInFlight_iff _).2 h)).symm

/-- Settles O31: RUN in IDLE, where it is refused, and during a run. -/
theorem runBeginsOrMovesItsStop : Obligations.RunBeginsOrMovesItsStop := by
  intro m h stopOpening s a t c n cur leaves with' turning hasked
  have hask {g : State → State} {cs} (hg : takeRun h stopOpening t a = checked t cs g a) : s.checks c m t cs g :=
    checks_of_asked (exec_run m h stopOpening s) hasked hg
  have hleaves : a.leaves = leaves := leaves_eq a
  refine ⟨fun hidle => ?idle, fun hstate => ?refused, fun r hworking hrun => ⟨fun hkind => ?step, ?run⟩⟩
  case idle =>
    have hx := hask (by unfold takeRun; rw [hidle]; rfl)
    refine hx.split Option.isNone_iff_eq_none fun _ hx => hx.split Iff.rfl fun _ hx => hx.split Iff.rfl fun _ hx =>
      hx.split ?_ fun _ hx => hx.split completing_iff fun _ hx => ?_
    · rw [Bool.or_eq_true_iff, decide_eq_true_iff, decide_eq_true_iff, ← hleaves]
    · exact hx.leads rfl (replyAccepted_came (m := m) t false rfl)
  case refused =>
    refine refuse_completes (exec_run m h stopOpening s) ((ask_asked hasked).trans ?_)
    unfold takeRun
    rcases hstate with hstate | hstate <;> rw [hstate]
  case step =>
    exact (hask ((takeRun_working hworking _ _ _).trans (runReplace_eq _ _ _))).refused (by simp [hrun, hkind])
  case run =>
    intro opening hturning hstill hkind
    have hopening : a.currentOpening = opening := currentOpening_eq a hturning hstill
    have hx := (hask ((takeRun_working hworking _ _ _).trans (runReplace_eq _ _ _))).passed (by simp [hrun, hkind])
    refine ⟨fun hrange => hx.refused (by simpa [hopening, hleaves] using hrange), ?_⟩
    intro hlow hhigh reply reached
    have hx := hx.passed (by simp only [hopening, hleaves, Bool.or_eq_true_iff, decide_eq_true_iff]; omega)
    let e : State := with' { a.cycle with run := some { r with stop := n, stopReached := false } }
    have hu : (replyAccepted t (decide (r.stop < n)) e).cameTo s.req.newest e [reply] :=
      replyAccepted_came (m := m) t _ rfl
    have hflight := turnInFlight_iff a.cycle
    have hreached := stopReached_came hu { r with stop := n, stopReached := false } rfl
    refine ⟨fun hother => ?_, fun hn hturn hstate => ?_, fun hn hturn hstate => ?_⟩
    · refine hx.completes ((moveStop_eq hrun n t).trans (if_neg ?_)) hu
      rw [hopening, hflight]
      exact fun ⟨hn, hturn⟩ => hother.elim (fun hne => hne hn) hturn
    · refine hx.completes ((moveStop_eq hrun n t).trans ((if_pos ?_).trans (if_neg hstate))) hreached
      rw [hopening, hflight]
      exact ⟨hn, hturn⟩
    · refine hx.completes ((moveStop_eq hrun n t).trans ((if_pos ?_).trans (if_pos hstate))) ?_
      · rw [hopening, hflight]
        exact ⟨hn, hturn⟩
      · rw [← hkind]
        exact runComplete_came hreached { r with stop := n, stopReached := true } rfl

/-! ## PAUSE and RESUME with CONTINUE (R47, R48, R53) -/

theorem not_turnInFlight_of_waitLog {c : Cycle} (h : c.sub = .waitLog) : ¬ c.turnInFlight = true := fun hflight =>
  ((turnInFlight_iff c).1 hflight).2 h

section
variable {m : Moment} {h : Head} {s : State}

/-- A PAUSE that finds nothing in its way (R47). -/
theorem pause_pauses (hasked : (arrive m s).asked h 0#8) {p : ResumePoint}
    (hpause : takePause (h.ticket 0x0B#8) (arrive m s) = pauseNow p (h.ticket 0x0B#8) (arrive m s)) :
    s.completes (.pause m h) (pausedState p (arrive m s)) [doneReply (h.ticket 0x0B#8) false [],
      noticeFields .cyclePaused [(12, u8 (orFF (arrive m s).vols.activeHandle)), (14, u16 (arrive m s).vols.cursor),
        (16, u16 (((arrive m s).cycle.run.map RunRecord.stop).getD 0)), (18, u8 p.code)]] :=
  completes_of (exec_pause m h s) (by rw [ask_asked hasked, hpause]; exact pauseNow_came _ p rfl)

/-- A PAUSE that is answered DONE, its mark set or nothing changed (R47; notes/assumptions/39.md). -/
theorem pause_done (hasked : (arrive m s).asked h 0#8) {e : State}
    (hpause : takePause (h.ticket 0x0B#8) (arrive m s) = replyDone (h.ticket 0x0B#8) false [] e)
    (hn : e.req.newest = s.req.newest := by rfl) :
    s.completes (.pause m h) e [doneReply (h.ticket 0x0B#8) false []] :=
  done_completes (exec_pause m h s) ((ask_asked hasked).trans hpause) hn

theorem pause_refused (hasked : (arrive m s).asked h 0#8)
    (hpause : takePause (h.ticket 0x0B#8) (arrive m s) = refuse (h.ticket 0x0B#8) .state (arrive m s)) :
    s.completes (.pause m h) (arrive m s) [refusal (h.ticket 0x0B#8) .state] :=
  refuse_completes (exec_pause m h s) ((ask_asked hasked).trans hpause)

end

/-- A pause left with a held exposure to prepare: PREPARE again, a retake held again (R48, R89). -/
theorem leavePause_prepare {s : State} {r : RunRecord} {o : OpeningRecord} (hrun : s.cycle.run = some r)
    (ho : s.cycle.opening = some o) :
    let e : State := { s with cycle := { s.cycle with
      state := .prepare, sub := .none, run := some { r with resume := none } } }
    leavePause (some .prepare) s = match o.prepared.retake with
      | some p => { e with light := { s.light with exposure :=
          ⟨.admitted, .retake, o.prepared.sides, p, s.vols.activeHandle, false, 0, false, false⟩ } }
      | none => e := by
  intro e
  let left : State := updRun (fun r => { r with resume := none }) s
  have hopening : left.cycle.opening = some o := ho
  have hleft : left = { s with cycle := { s.cycle with run := some { r with resume := none } } } := updRun_some _ hrun
  have hleave : leavePause (some .prepare) s = enterCycle .prepare .none (match o.prepared.retake with
      | some p => holdAdmitted o.prepared.sides p left
      | none => left) := by
    show (match (some ResumePoint.prepare), left.cycle.opening with
      | some .prepare, some o => enterCycle .prepare .none (match o.prepared.retake with
        | some p => holdAdmitted o.prepared.sides p left
        | none => left)
      | _, _ => left) = _
    rw [hopening]
  rw [hleave, hleft]
  cases o.prepared.retake <;> rfl

/-- A pause left for the cursor opening or a turn: only the resume point goes (R48). -/
theorem leavePause_other {s : State} {r : RunRecord} {p : ResumePoint} (hrun : s.cycle.run = some r)
    (hp : p ≠ .prepare) :
    leavePause (some p) s = { s with cycle := { s.cycle with run := some { r with resume := none } } } := by
  unfold leavePause
  rw [updRun_some _ hrun]
  cases p with
  | prepare => exact absurd rfl hp
  | beginOpening | turn => rfl

theorem carryOn_beginOpening (s : State) : carryOn (some .beginOpening) s = beginOpening s := rfl

theorem carryOn_prepare (s : State) : carryOn (some .prepare) s = enterPrepare s := rfl

theorem carryOn_turn (s : State) : carryOn (some .turn) s =
    if s.vols.cursor = s.cycle.stop then runComplete s else startTurn s := rfl

/-- Settles O33: PAUSE by the cycle's state, then CONTINUE with its checks by the resume point. -/
theorem pauseHoldsAndContinueCarriesOn : Obligations.PauseHoldsAndContinueCarriesOn := by
  refine ⟨?pause, ?resume⟩
  case pause =>
    intro m h s a t c x paused pended hasked
    have hpaused {p : ResumePoint} (hpause : takePause t a = pauseNow p t a) : paused p := by
      have hdone := pause_pauses hasked hpause
      rwa [pausedState_eq] at hdone
    have htake : takePause t a = match a.cycle.state with
      | .idle | .halted | .calibrate => refuse t .state a
      | .paused => replyDone t false [] a
      | .prepare => if a.cycle.pausePending then replyDone t false [] a else pauseNow .prepare t a
      | .turn => if a.cycle.turnInFlight then
          replyDone t false [] (updRun (fun r => { r with pausePending := true }) a) else pauseNow .turn t a
      | .expose | .review => replyDone t false [] (updRun (fun r => { r with pausePending := true }) a) := rfl
    cases hstate : a.cycle.state with
    | idle | halted | calibrate => exact pause_refused hasked (by rw [htake, hstate])
    | paused => exact pause_done hasked (by rw [htake, hstate])
    | expose | review => exact pause_done hasked (by rw [htake, hstate]; rfl)
    | prepare =>
      rw [hstate] at htake
      show ite _ _ _
      split
      next hpending => exact pause_done hasked (htake.trans (if_pos hpending))
      next hpending => exact hpaused (htake.trans (if_neg hpending))
    | turn =>
      rw [hstate] at htake
      show ite _ _ _
      split
      next hwait => exact hpaused (htake.trans (if_neg (not_turnInFlight_of_waitLog hwait)))
      next hwait => exact pause_done hasked (htake.trans (if_pos ((turnInFlight_iff _).2 ⟨hstate, hwait⟩)))
  case resume =>
    intro m h s a t c hasked
    split
    next hstate =>
      exact refuse_completes (exec_resumeContinue m h s) ((ask_asked hasked).trans (if_neg hstate))
    next hstate =>
    have hx : s.checks c m t _ _ := checks_of_asked (exec_resumeContinue m h s) hasked (if_pos (not_not.1 hstate))
    refine hx.split Iff.rfl fun _ hx => hx.split Iff.rfl fun _ hx => ?_
    intro r hrun e
    have hreply (u : State) (hn : u.req.newest = s.req.newest) :
        (replyDone t false [] u).cameTo s.req.newest u [doneReply t false []] := replyDone_came (m := m) t false [] hn
    have hcarry {p : ResumePoint} (hp : r.resume = some p) : carryOn a.cycle.point
        (replyDone t false [] (leavePause a.cycle.point a)) =
          carryOn (some p) (replyDone t false [] (leavePause (some p) a)) := by rw [point_run hrun, hp]
    have hother {p : ResumePoint} (hp : r.resume = some p) (hne : p ≠ .prepare) : carryOn a.cycle.point
        (replyDone t false [] (leavePause a.cycle.point a)) = carryOn (some p) (replyDone t false [] e) := by
      rw [hcarry hp, leavePause_other hrun hne]
    refine ⟨fun hp => ?_, fun o hp ho => ?_, fun hp => ?_⟩
    · exact hx.leads ((hother hp nofun).trans (carryOn_beginOpening _)) (hreply e rfl)
    · have hleft := leavePause_prepare hrun ho
      intro e1
      refine hx.leads ((hcarry hp).trans (carryOn_prepare _)) ?_
      rw [hleft]
      exact hreply _ (by cases o.prepared.retake <;> rfl)
    · have hturn := (hother hp nofun).trans (carryOn_turn _)
      have hatStop : (replyDone t false [] e).vols.cursor = (replyDone t false [] e).cycle.stop ↔
          a.vols.cursor = r.stop := by rw [replyDone_vols, replyDone_cycle]; rfl
      split
      next hlast =>
        exact hx.completes (hturn.trans (if_pos (hatStop.2 hlast)))
          (runComplete_came (hreply e rfl) { r with resume := none } rfl)
      next hmore => exact hx.leads (hturn.trans (if_neg (mt hatStop.1 hmore))) (hreply e rfl)

end Sys2Proof.Machine
end

