-- ==== Sys2Proof/Proofs/Resolutions.lean ====
section
/-! PROOFS. RESUME with RETRY, SKIP and ABANDON (O34), and CLEAR_FAULT (O38). -/

namespace Sys2Proof.Machine

/-! ## RESUME with RETRY, SKIP and ABANDON (R53 to R56) -/

/-- A resolution of a halt: refused but in HALTED, and there checked, HALT_IN first (R53). -/
def resolves (take : Ticket → State → State) (cs : State → List (Bool × Reason)) (f : Ticket → State → State) : Prop :=
  ∀ t s, take t s = if s.cycle.state = .halted then checked t ((s.lines.haltIn, .haltActive) :: cs s) (f t) s
    else refuse t .state s

/-- The checks of RETRY and SKIP behind HALT_IN (R53). -/
def State.stepChecks (s : State) : List (Bool × Reason) := [(s.supplyShort, .supplyLow), (s.completing, .state)]

theorem takeRetry_resolves : resolves takeRetry State.stepChecks
    (fun t s => retryGoOn (replyDone t false [] (retryStep s))) := fun _ _ => rfl

theorem takeSkip_resolves : resolves takeSkip State.stepChecks
    (fun t s => skipGoOn (replyDone t false [] (skipStep s))) := fun _ _ => rfl

theorem takeAbandon_resolves : resolves takeAbandon (fun _ => [])
    (fun t s => replyDone t false [] (abandonRun s)) := fun _ _ => rfl

section
variable {c : Instr} {m : Moment} {h : Head} {s : State} {take f : Ticket → State → State}
  {cs : State → List (Bool × Reason)}

theorem resolution_checks (hx : exec c s = takeCommand m (ask 0x0C#8 0#8 h take) s) (hr : resolves take cs f)
    (hasked : (arrive m s).asked h 0#8) (hstate : (arrive m s).cycle.state = .halted) :
    s.checks c m (h.ticket 0x0C#8) (((arrive m s).lines.haltIn, .haltActive) :: cs (arrive m s))
      (f (h.ticket 0x0C#8)) :=
  checks_of_asked hx hasked ((hr _ _).trans (if_pos hstate))

/-- What refuses every resolution: a cycle not HALTED, and HALT_IN (R53). -/
theorem resolution_refused (hx : exec c s = takeCommand m (ask 0x0C#8 0#8 h take) s) (hr : resolves take cs f)
    (hasked : (arrive m s).asked h 0#8) :
    ((arrive m s).cycle.state ≠ .halted →
      s.completes c (arrive m s) [refusal (h.ticket 0x0C#8) .state]) ∧
    ((arrive m s).cycle.state = .halted → (arrive m s).lines.haltIn = true →
      s.completes c (arrive m s) [refusal (h.ticket 0x0C#8) .haltActive]) :=
  ⟨fun hstate => refuse_completes hx ((ask_asked hasked).trans ((hr _ _).trans (if_neg hstate))),
    fun hstate hhalt => (resolution_checks hx hr hasked hstate).refused hhalt⟩

/-- What refuses RETRY and SKIP besides: a short supply and a turn COMPLETING (R53). -/
theorem step_refused (hx : exec c s = takeCommand m (ask 0x0C#8 0#8 h take) s)
    (hr : resolves take State.stepChecks f) (hasked : (arrive m s).asked h 0#8)
    (hstate : (arrive m s).cycle.state = .halted) (hhalt : (arrive m s).lines.haltIn = false) :
    ((arrive m s).supplyShort = true →
      s.completes c (arrive m s) [refusal (h.ticket 0x0C#8) .supplyLow]) ∧
    ((arrive m s).supplyShort = false → (arrive m s).turner.sub = .completing →
      s.completes c (arrive m s) [refusal (h.ticket 0x0C#8) .state]) := by
  have hx := (resolution_checks hx hr hasked hstate).passed (by simp [hhalt])
  exact ⟨hx.refused, fun hsupply hsub => (hx.passed (by simp [hsupply])).refused (completing_iff.2 hsub)⟩

/-- RETRY and SKIP with every check passed. -/
theorem step_checked (hx : exec c s = takeCommand m (ask 0x0C#8 0#8 h take) s)
    (hr : resolves take State.stepChecks f) (hasked : (arrive m s).asked h 0#8)
    (hstate : (arrive m s).cycle.state = .halted) (hhalt : (arrive m s).lines.haltIn = false)
    (hsupply : (arrive m s).supplyShort = false) (hsub : (arrive m s).turner.sub ≠ .completing) :
    s.checks c m (h.ticket 0x0C#8) [] (f (h.ticket 0x0C#8)) :=
  (((resolution_checks hx hr hasked hstate).passed (by simp [hhalt])).passed (by simp [hsupply])).passed
    (mt completing_iff.1 hsub)

end

/-! ### What each resolution does (R54 to R56) -/

theorem isTurn_iff (f : FaultRecord) : f.isTurn = true ↔ f.cls = .turn := beq_iff_eq

theorem not_isTurn {f : FaultRecord} (h : f.cls = .capture) : ¬ f.isTurn = true := by
  rw [isTurn_iff, h]
  exact nofun

section
variable {s : State} {f : FaultRecord} (hfault : s.cycle.fault = some f)
include hfault

theorem retryStep_turn (h : f.cls = .turn) : retryStep s = resolveRepeat s := by
  unfold retryStep
  rw [hfault]
  exact if_pos ((isTurn_iff f).2 h)

theorem retryGoOn_turn (h : f.cls = .turn) : retryGoOn s = startTurn s := by
  unfold retryGoOn
  rw [hfault]
  exact if_pos ((isTurn_iff f).2 h)

theorem skipStep_turn (h : f.cls = .turn) : skipStep s = skipTurn s := by
  unfold skipStep
  rw [hfault]
  exact if_pos ((isTurn_iff f).2 h)

theorem skipGoOn_turn (h : f.cls = .turn) : skipGoOn s = afterTurn s := by
  unfold skipGoOn
  rw [hfault]
  exact if_pos ((isTurn_iff f).2 h)

theorem retryStep_capture (h : f.cls = .capture) : retryStep s = retryCapture f s := by
  unfold retryStep
  rw [hfault]
  exact if_neg (not_isTurn h)

theorem retryGoOn_capture (h : f.cls = .capture) : retryGoOn s = retriedCapture s := by
  unfold retryGoOn
  rw [hfault]
  exact if_neg (not_isTurn h)

theorem skipStep_capture (h : f.cls = .capture) : skipStep s = skipCapture s := by
  unfold skipStep
  rw [hfault]
  exact if_neg (not_isTurn h)

theorem skipGoOn_capture (h : f.cls = .capture) : skipGoOn s = finish (openingCaptured s) := by
  unfold skipGoOn
  rw [hfault]
  exact if_neg (not_isTurn h)

end

/-- The run given up: the cycle IDLE with nothing of it left, and a faulted turn abandoned (R56). -/
theorem abandonRun_came (s : State) [Decidable (∃ f, s.cycle.fault = some f ∧ f.cls = .turn)] :
    (abandonRun s).cameTo s.req.newest { s with
      turner := if ∃ f, s.cycle.fault = some f ∧ f.cls = .turn then (resolveClear s).turner else s.turner
      cycle := s.cycle.over } [] := by
  have hturn : (s.cycle.fault.map FaultRecord.isTurn).getD false = true ↔
      ∃ f, s.cycle.fault = some f ∧ f.cls = .turn := by
    cases s.cycle.fault <;> simp [isTurn_iff]
  have hover {u e : State} (h : u.cameTo s.req.newest e []) := (h.clean (clean_updCycle fun c =>
    { c with run := none, opening := none })).clean (clean_enterCycle .idle .none)
  unfold abandonRun
  by_cases hof : ∃ f, s.cycle.fault = some f ∧ f.cls = .turn
  · rw [if_pos (hturn.2 hof), if_pos hof]
    exact hover ((came_self s).clean clean_resolveClear).sync
  · rw [if_neg (mt hturn.1 hof), if_neg hof]
    exact hover (came_self s)

/-- SKIP of a turn fault: the turner cleared, the turn counted, its record asked for (R55, R59, R80). -/
theorem skipTurn_eq {s : State} {k : Nat} {v : Volume} (hk : s.vols.activeHandle = some k)
    (hv : s.vols.get k = some v) :
    skipTurn s = appendOrCount (.turn ⟨k, (turnCounted v).cursor, s.turner.retry, s.turner.doubles, true⟩)
      ((sync (resolveClear s)).withVolume k (some (turnCounted v))) := by
  have hvols : (sync (resolveClear s)).vols = s.vols := sync_vols _
  have hactive : s.vols.active = some (k, v) := by
    unfold VolumeTable.active
    rw [hk, Option.bind_some, hv]
    rfl
  unfold skipTurn handBody
  rw [updActive_withVolume turnCounted (by rw [hvols]; exact hk) (by rw [hvols]; exact hv), hk,
    cursor_active hactive, leaves_active hactive]
  rfl

/-- A side as RETRY makes it (R54). -/
theorem retrySide_eq (f : FaultRecord) (c : Camera) (r : SideRecord) :
    retrySide ((if f.kind = .marginalHalt then f.sides else Sides.empty).has c) r =
      if r.status = .wanted ∨ r.status = .pending ∨ (f.kind = .marginalHalt ∧ f.sides.has c = true) then
        { r with status := .wanted } else r := by
  refine if_congr ?_ rfl rfl
  rw [Bool.or_eq_true_iff, owed_iff, or_assoc]
  split <;> cases c <;> simp_all [Sides.has, Sides.empty]

/-- A side as SKIP leaves it (R55). -/
theorem skipSide_eq (r : SideRecord) : skipSide r =
    if r.status = .wanted ∨ r.status = .pending then { r with status := .passed } else r :=
  if_congr (owed_iff r.status) rfl rfl

theorem skipCapture_some {s : State} {o : OpeningRecord} (ho : s.cycle.opening = some o) :
    skipCapture s = { s with cycle := { s.cycle with
      opening := some { o with sides := ⟨skipSide o.sides.left, skipSide o.sides.right⟩ } } } := by
  unfold skipCapture
  rw [ho]
  rfl

/-- The opening record as RETRY makes it, for a halt with this fault record (R54). -/
def OpeningRecord.again (o : OpeningRecord) (f : FaultRecord) : OpeningRecord :=
  o.retried (if f.kind = .marginalHalt then f.sides else Sides.empty)

theorem retryCapture_some {s : State} {o : OpeningRecord} (f : FaultRecord) (ho : s.cycle.opening = some o) :
    let e : State := { s with cycle := { s.cycle with opening := some (o.again f) } }
    retryCapture f s = if (o.again f).wants then enterCycle .prepare .none e else e := by
  unfold retryCapture
  rw [ho]
  rfl

theorem retriedCapture_some {s : State} {o : OpeningRecord} (ho : s.cycle.opening = some o) :
    retriedCapture s = if o.wants then enterPrepare s else finishOpening s := by
  unfold retriedCapture
  rw [ho]

/-- RETRY of a capture fault with an opening record: PREPARE, or the opening is finished (R54). -/
theorem retry_captured {s : State} {f : FaultRecord} {o : OpeningRecord} (hfault : s.cycle.fault = some f)
    (hcls : f.cls = .capture) (ho : s.cycle.opening = some o) (t : Ticket) :
    let e : State := { s with cycle := { s.cycle with opening := some (o.again f) } }
    retryGoOn (replyDone t false [] (retryStep s)) = if (o.again f).wants then
        enterPrepare (replyDone t false [] (enterCycle .prepare .none e))
      else finishOpening (replyDone t false [] e) := by
  intro e
  have hgo (u : State) (hu : u.cycle.fault = some f) (hopening : u.cycle.opening = some (o.again f)) :
      retryGoOn (replyDone t false [] u) = if (o.again f).wants then enterPrepare (replyDone t false [] u)
        else finishOpening (replyDone t false [] u) :=
    (retryGoOn_capture (by rw [replyDone_cycle]; exact hu) hcls).trans
      (retriedCapture_some (by rw [replyDone_cycle]; exact hopening))
  rw [retryStep_capture hfault hcls, retryCapture_some f ho]
  split
  next hwants => exact (hgo (enterCycle .prepare .none e) hfault rfl).trans (if_pos hwants)
  next hsettled => exact (hgo e hfault rfl).trans (if_neg hsettled)

theorem wants_iff (l r : SideStatus) :
    (Sides.size ⟨l == .wanted, r == .wanted⟩ != 0) = true ↔ l = .wanted ∨ r = .wanted := by
  cases l <;> cases r <;> decide

/-- Settles O34: what refuses a resolution, then ABANDON, and RETRY and SKIP by the class of the fault. -/
theorem haltedIsResolved : Obligations.HaltedIsResolved := by
  intro m h s a t done rest clear repeated cleared ofTurn hasked
  have hretry := exec_resumeRetry m h s
  have hskip := exec_resumeSkip m h s
  have habandon := exec_resumeAbandon m h s
  have hreply (u : State) (hn : u.req.newest = s.req.newest := by rfl) :
      (replyDone t false [] u).cameTo s.req.newest u [done] := replyDone_came (m := m) t false [] hn
  refine ⟨fun c hc => ?refused, fun hstate hhalt => ⟨?abandon, ?_⟩⟩
  case refused =>
    rcases hc with rfl | rfl | rfl
    · have href := resolution_refused hretry takeRetry_resolves hasked
      exact ⟨href.1, href.2, fun hstate hhalt _ => step_refused hretry takeRetry_resolves hasked hstate hhalt⟩
    · have href := resolution_refused hskip takeSkip_resolves hasked
      exact ⟨href.1, href.2, fun hstate hhalt _ => step_refused hskip takeSkip_resolves hasked hstate hhalt⟩
    · have href := resolution_refused habandon takeAbandon_resolves hasked
      exact ⟨href.1, href.2, fun _ _ hne => absurd rfl hne⟩
  case abandon =>
    have hx := (resolution_checks habandon takeAbandon_resolves hasked hstate).passed (Bool.eq_false_iff.1 hhalt)
    have hover := (abandonRun_came a).replyDone t false []
    rw [resolveClear_eq] at hover
    exact hx.completes rfl hover
  intro f hsupply hsub hfault
  have hretry := step_checked hretry takeRetry_resolves hasked hstate hhalt hsupply hsub
  have hskip := step_checked hskip takeSkip_resolves hasked hstate hhalt hsupply hsub
  refine ⟨fun hcls => ⟨?retryTurn, fun k v hk hv => ?skipTurn⟩, fun o hcls ho => ⟨?retryCapture, ?skipCapture⟩,
    fun hcls ho => ⟨?retryNone, ?skipNone⟩⟩
  case retryTurn =>
    have hstep : retryStep a = { a with turner := repeated } :=
      (retryStep_turn hfault hcls).trans (resolveRepeat_eq a)
    refine hretry.leads ?_ (hreply { a with turner := repeated })
    show retryGoOn (replyDone t false [] (retryStep a)) = _
    rw [hstep]
    exact retryGoOn_turn (by rw [replyDone_cycle]; exact hfault) hcls
  case skipTurn =>
    intro w e
    have hstep : skipStep a = e := by
      rw [skipStep_turn hfault hcls, skipTurn_eq hk hv, resolveClear_eq]
      rfl
    have he : e.cycle = a.cycle := (appendOrCount_cycle _ _).trans (sync_cycle _)
    refine ⟨replyDone t false [] e, hskip.runs.trans ?_, (came_self e).replyDone t false []⟩
    show Host.Outcome.next (sync (skipGoOn (replyDone t false [] (skipStep a)))) = _
    rw [hstep, skipGoOn_turn (by rw [replyDone_cycle, he]; exact hfault) hcls]
  case retryCapture =>
    intro again l r cycle
    let o' : OpeningRecord :=
      { o with sides := ⟨l, r⟩, prepared := ⟨⟨l.status == .wanted, r.status == .wanted⟩, none⟩ }
    have hagain : o.again f = o' := by
      have hl : retrySide ((if f.kind = .marginalHalt then f.sides else Sides.empty).has .left) o.sides.left = l :=
        retrySide_eq f .left o.sides.left
      have hr : retrySide ((if f.kind = .marginalHalt then f.sides else Sides.empty).has .right) o.sides.right = r :=
        retrySide_eq f .right o.sides.right
      simp only [o']
      rw [← hl, ← hr]
      rfl
    have hwants : o'.wants = true ↔ l.status = .wanted ∨ r.status = .wanted := wants_iff l.status r.status
    have hgo := retry_captured hfault hcls ho t
    rw [hagain] at hgo
    split
    next hwanted => exact hretry.leads (hgo.trans (if_pos (hwants.2 hwanted))) (hreply _)
    next hsettled => exact hretry.leads (hgo.trans (if_neg (mt hwants.1 hsettled))) (hreply _)
  case skipCapture =>
    intro passed l r
    let e : State := { a with cycle := { a.cycle with opening := some { o with sides := ⟨l, r⟩ } } }
    have hstep : skipStep a = e := by
      rw [skipStep_capture hfault hcls]
      rw [skipCapture_some ho, skipSide_eq, skipSide_eq]
    refine hskip.leads ?_ (openingCaptured_came (hreply e) { o with sides := ⟨l, r⟩ } rfl)
    show skipGoOn (replyDone t false [] (skipStep a)) = _
    rw [hstep, skipGoOn_capture (by rw [replyDone_cycle]; exact hfault) hcls]
  case retryNone =>
    have hstep : retryStep a = a := by
      rw [retryStep_capture hfault hcls]
      unfold retryCapture
      rw [ho]
    refine hretry.leads ?_ (hreply a)
    show retryGoOn (replyDone t false [] (retryStep a)) = _
    rw [hstep, retryGoOn_capture (by rw [replyDone_cycle]; exact hfault) hcls]
    unfold retriedCapture
    rw [replyDone_cycle, ho]
  case skipNone =>
    intro passed opened
    let e : State := { a with cycle := { a.cycle with opening := some opened } }
    have hstep : skipStep a = e := by
      rw [skipStep_capture hfault hcls]
      unfold skipCapture
      rw [ho]
      rfl
    refine hskip.leads ?_ (openingCaptured_came (hreply e) opened rfl)
    show skipGoOn (replyDone t false [] (skipStep a)) = _
    rw [hstep, skipGoOn_capture (by rw [replyDone_cycle]; exact hfault) hcls]

/-! ## CLEAR_FAULT (R56, R97) -/

/-- FAILED channels return to OFF, the rest of each channel unchanged (R97). -/
theorem restoreFailed_eq (s : State) : restoreFailed s =
    s.withChannels (s.light.channels.map fun x => if x.state = .failed then { x with state := .off } else x) := by
  unfold restoreFailed mapChannels
  rw [mapIdx_const]
  rfl

/-- Settles O38: the one check, then the fault record emptied and the channels restored. -/
theorem clearFaultRestoresLamps : Obligations.ClearFaultRestoresLamps := by
  intro m h s a t c hasked
  have hx : s.checks c m t _ _ := checks_of_asked (exec_clearFault m h s) hasked rfl
  refine hx.split not_idle_iff fun _ hx => hx.done ?_ rfl
  rw [restoreFailed_eq]
  rfl

end Sys2Proof.Machine
end

