-- ==== Sys2Proof/Proofs/SlotRequests.lean ====
section
/-! PROOFS. RELEASE_SLOTS and SET_CORRECTION (O39). -/

namespace Sys2Proof.Machine

/-! ## RELEASE_SLOTS and SET_CORRECTION (R119, R122) -/

/-- The slots of a camera a RELEASE_SLOTS of this mask frees (R119). -/
def CamState.freedBy (c : CamState) (mask : Nat) : Nat :=
  maskFrom (fun k x => mask.testBit k && x.state == .filled) 0 c.slots

/-- The slots freed are the FILLED ones the mask names. -/
theorem freedBy_testBit (c : CamState) (mask k : Nat) :
    (c.freedBy mask).testBit k = (mask.testBit k && (c.slots[k]?.map Slot.state == some .filled)) := by
  have h := (maskFrom_spec (fun k x => mask.testBit k && x.state == .filled) c.slots 0).2 k
  rw [Nat.zero_add] at h
  rw [CamState.freedBy, h]
  cases c.slots[k]? <;> simp

/-- RELEASE_SLOTS of a camera, its check and its effect (R119). -/
theorem takeRelease_camera {cam : Byte} {w : Camera} (hcam : cam.toNat = cameraCode w) (mask : BitVec 16)
    (t : Ticket) (s : State) :
    takeRelease cam mask t s = checked t [(2 ^ s.intake.geo.slots ≤ mask.toNat, .badField)]
      (fun s => recheckSlots (replyDone t false
        [(12, u16 ((s.cam w).freedBy mask.toNat)), (14, u16 (mask.toNat - (s.cam w).freedBy mask.toNat))]
        (updCam w (CamState.release mask.toNat) s))) s := by
  unfold takeRelease
  rw [cameraOf_some hcam]
  rfl

/-- SET_CORRECTION of a camera, its checks and its effect (R122). -/
theorem takeSetCorrection_camera {cam : Byte} {w : Camera} (hcam : cam.toNat = cameraCode w) (setting : Byte)
    (t : Ticket) (s : State) :
    takeSetCorrection cam setting t s =
      checked t [(1 < setting.toNat, .badField), (s.cycle.state == .calibrate, .busy)]
        (fun s => replyDone t false [] (updCam w (fun x =>
          { x with pendingCorrection := setting.toNat == 1, pendingCorrectionFlag := true }) s)) s := by
  unfold takeSetCorrection
  rw [cameraOf_some hcam]

/-- A camera byte above 1 names no camera. -/
theorem takeRelease_none {cam : Byte} (hcam : 1 < cam.toNat) (mask : BitVec 16) (t : Ticket) (s : State) :
    takeRelease cam mask t s = refuse t .badField s := by
  unfold takeRelease
  rw [cameraOf_none hcam]

theorem takeSetCorrection_none {cam : Byte} (hcam : 1 < cam.toNat) (setting : Byte) (t : Ticket) (s : State) :
    takeSetCorrection cam setting t s = refuse t .badField s := by
  unfold takeSetCorrection
  rw [cameraOf_none hcam]

/-- A request refused for its fields alone is one check that fails (R11). -/
theorem badField_checks {t : Ticket} (f : State → State) (s : State) :
    refuse t .badField s = checked t [(true, .badField)] f s := rfl

theorem camera_byte (cam : Byte) : 1 < cam.toNat ∨ ∃ w : Camera, cam.toNat = cameraCode w := by
  rcases Nat.lt_or_ge 1 cam.toNat with h | h
  · exact .inl h
  · exact .inr (cameraCode_of_le h)

theorem toNat_beq_one (b : Byte) : (b.toNat == 1) = (b == 1#8) := by
  rw [Bool.eq_iff_iff, beq_iff_eq, beq_iff_eq, BitVec.toNat_eq]
  rfl

/-- A PREPARE that shows WAIT_SLOT looks again (R36). -/
theorem recheckSlots_waiting {u e : State} {n : Nat} {fs : List Fields} (hu : u.cameTo n e fs)
    (hwaits : e.cycle.state = .prepare ∧ e.cycle.sub = .waitSlot) : recheckSlots u = prepareWaits u :=
  if_pos (by rwa [cycle_came hu])

theorem recheckSlots_else {u e : State} {n : Nat} {fs : List Fields} (hu : u.cameTo n e fs)
    (hwaits : ¬ (e.cycle.state = .prepare ∧ e.cycle.sub = .waitSlot)) : recheckSlots u = u :=
  if_neg (by rwa [cycle_came hu])

/-- Settles O39: both requests by the camera they name. -/
theorem releaseAndCorrectionActOnOneCamera : Obligations.ReleaseAndCorrectionActOnOneCamera := by
  refine ⟨?release, ?correct⟩
  case release =>
    intro m h cam mask s a t c hasked
    refine ⟨fun hbad => ?_, ?_⟩
    · rcases camera_byte cam with hcam | ⟨w, hcam⟩
      · exact State.checks.refused (checks_of_asked (exec_releaseSlots m h cam mask s) hasked
          ((takeRelease_none hcam mask _ _).trans (badField_checks id a))) rfl
      · refine State.checks.refused (checks_of_asked (exec_releaseSlots m h cam mask s) hasked
          (takeRelease_camera hcam mask _ _)) (decide_eq_true ?_)
        have hle : cam.toNat ≤ 1 := by cases w <;> simp [hcam, cameraCode]
        exact hbad.resolve_left (by omega)
    · intro w hcam hmask x e
      refine ⟨x.freedBy mask.toNat, freedBy_testBit x mask.toNat, ?_⟩
      have hx : s.checks c m t [] _ := (checks_of_asked (exec_releaseSlots m h cam mask s) hasked
        (takeRelease_camera hcam mask _ _)).passed (by simpa using hmask)
      have hreply : (replyDone t false [(12, u16 (x.freedBy mask.toNat)),
          (14, u16 (mask.toNat - x.freedBy mask.toNat))] e).cameTo s.req.newest e _ :=
        replyDone_came (m := m) t false _ rfl
      split
      next hwaits => exact hx.leads (recheckSlots_waiting hreply hwaits) hreply
      next hwaits => exact hx.completes (recheckSlots_else hreply hwaits) hreply
  case correct =>
    intro m h cam setting s a t c hasked
    refine ⟨fun hbad => ?_, fun w hcam hmask => ?_⟩
    · rcases camera_byte cam with hcam | ⟨w, hcam⟩
      · exact State.checks.refused (checks_of_asked (exec_setCorrection m h cam setting s) hasked
          ((takeSetCorrection_none hcam setting _ _).trans (badField_checks id a))) rfl
      · refine State.checks.refused (checks_of_asked (exec_setCorrection m h cam setting s) hasked
          (takeSetCorrection_camera hcam setting _ _)) (decide_eq_true ?_)
        have hle : cam.toNat ≤ 1 := by cases w <;> simp [hcam, cameraCode]
        exact hbad.resolve_left (by omega)
    · have hx : s.checks c m t _ _ := (checks_of_asked (exec_setCorrection m h cam setting s) hasked
        (takeSetCorrection_camera hcam setting _ _)).passed (by simpa using hmask)
      refine hx.split beq_iff_eq fun _ hx => hx.done ?_ rfl
      rw [toNat_beq_one]
      rfl

end Sys2Proof.Machine
end

