-- ==== Sys2Proof/Proofs/RequestLines.lean ====
section
/-! PROOFS. A write into the REQUEST window (O14). -/

namespace Sys2Proof.Machine

/-! ## A write into REQUEST (R173, R174, R190) -/

theorem fullLine_iff (x : Txn) : fullLine x.len x.enables = true ↔ x.len = 64 ∧ x.enables.all id = true := by
  simp [fullLine]

/-- A permitted write into REQUEST is forwarded and handed to the request unit (R162, R173). -/
theorem classifyWrite_request {x : Txn} {a : State} (hin : a.transit.map.request.holds x.addr.toNat = true)
    (hmask : Requester.allowed x.requester a.transit.map.request.mask = true) :
    classifyWrite x a = handWrite x (forwardWrite x a) := (if_pos hin).trans (if_pos hmask)

theorem upWrite_request {x : Txn} {a : State} (hphase : a.start.phase = .ready)
    (hroom : a.transit.stream.length < 32) (hin : a.transit.map.request.holds x.addr.toNat = true)
    (hmask : Requester.allowed x.requester a.transit.map.request.mask = true) :
    upWrite x a = handWrite x (forwardWrite x a) :=
  (upWrite_ready x hphase hroom).trans (classifyWrite_request hin hmask)

/-- A state that has just been arrived at is arrived at again in no time. -/
theorem arrive_at_once {s : State} (h : s.out = []) : arrive ⟨0, []⟩ s = s := by
  unfold arrive
  rw [← h]
  rfl

/-- A RESUME line is the RESUME its resolution byte names (R53, R190). -/
theorem resumeLine_command {l : Line} (h : lineByte l 0 = 0x0C#8) (hres : (lineByte l 8).toNat ≤ 3) (s : State) :
    exec (lineCommand l) s = takeCommand ⟨0, []⟩ (askLine l) s := by
  have hcode : (lineByte l 0).toNat = 12 := by rw [h]; rfl
  unfold lineCommand askLine askResume
  rw [hcode]
  generalize (lineByte l 8).toNat = res at hres ⊢
  match res, hres with
  | 0, _ => rfl
  | 1, _ => rfl
  | 2, _ => rfl
  | 3, _ => rfl

/-- A full line of another kind is the request its kind code names (R174, R190). -/
theorem plainLine_command {l : Line} (h : (lineByte l 0).toNat ≠ 12) (s : State) :
    exec (lineCommand l) s = takeCommand ⟨0, []⟩ (askLine l) s := by
  unfold lineCommand askLine
  generalize (lineByte l 0).toNat = code at h ⊢
  rcases Nat.lt_or_ge code 24 with hlt | hge
  · interval_cases code
    pick_goal 13
    · exact absurd rfl h
    all_goals rfl
  · obtain ⟨k, rfl⟩ := Nat.exists_eq_add_of_le' hge
    rfl

/-- A full line but a RESUME of an unknown resolution is taken as the command it spells (R174, R190). -/
theorem askLine_command {l : Line} {s : State} (hout : s.out = [])
    (hresume : ¬ (lineByte l 0 = 0x0C#8 ∧ 3 < (lineByte l 8).toNat)) :
    exec (lineCommand l) s = .next (sync (askLine l s)) := by
  have hcommand : exec (lineCommand l) s = takeCommand ⟨0, []⟩ (askLine l) s := by
    by_cases h : lineByte l 0 = 0x0C#8
    · exact resumeLine_command h (not_lt.1 fun hres => hresume ⟨h, hres⟩) s
    · exact plainLine_command (fun hcode => h (BitVec.eq_of_toNat_eq hcode)) s
  rw [hcommand, takeCommand, arrive_at_once hout]

/-- A RESUME line with a resolution above 3 is refused with BAD_FIELD (R53, R174; notes/assumptions/40.md). -/
theorem askLine_badResume {l : Line} {s : State} (hphase : s.start.phase = .ready)
    (hresume : lineByte l 0 = 0x0C#8 ∧ 3 < (lineByte l 8).toNat) :
    askLine l s = refuse ((lineHead l).ticket 0x0C#8) .badField s := by
  have hcode : (lineByte l 0).toNat = 12 := by rw [hresume.1]; rfl
  have hask : askLine l s = ask 0x0C#8 0#8 (lineHead l) takeBadResolution s := by
    unfold askLine
    rw [hcode]
    obtain ⟨k, hk⟩ := Nat.exists_eq_add_of_le' (show 4 ≤ (lineByte l 8).toNat from hresume.2)
    unfold askResume
    rw [hk]
    rfl
  rw [hask]
  by_cases hfits : (lineHead l).fits 0#8 = true
  · exact ask_asked ⟨hphase, hfits⟩
  · exact ask_unfit _ _ hphase hfits

/-- Settles O14: the line by its enables, and a RESUME by its resolution. -/
theorem requestLineIsItsRequest : Obligations.RequestLineIsItsRequest := by
  intro m x s a forwarded hphase hroom hin hmask
  have hx := exec_upstreamWrite m x s
  have hwrite : upWrite x a = handWrite x forwarded := upWrite_request hphase hroom hin hmask
  split
  next hfull =>
    have hline : upWrite x a = askLine x.data forwarded :=
      hwrite.trans (if_pos ((fullLine_iff x).2 hfull))
    split
    next hbad =>
      exact completes_by hx (hline.trans (askLine_badResume hphase hbad))
        (State.cameTo.refuse (fs := []) _ .badField ⟨rfl, rfl⟩)
    next hgood =>
      rw [askLine_command rfl hgood, hx, takeCommand, hline]
  next hpart => exact completes_now hx (hwrite.trans (if_neg (mt (fullLine_iff x).1 hpart)))

end Sys2Proof.Machine
end

