-- ==== Sys2Proof/Proofs/Halts.lean ====
section
/-! PROOFS. The halt (O50), STOP and HALT_IN (O35), and the supply monitor (O60). -/

namespace Sys2Proof.Machine

/-! ## The halt (R52) -/

/-- The fault record noted, a held retake dropped (R52, R89). -/
def State.noted (s : State) (f : FaultRecord) : State :=
  dropAdmitted (updCycle (fun c => { c with fault := some f }) s)

theorem noted_eq (s : State) (f : FaultRecord) : s.noted f = { s with
    cycle := { s.cycle with fault := some f }
    light := { s.light with exposure := if s.light.exposure.phase = .admitted then
        { s.light.exposure with phase := .none } else s.light.exposure } } := dropAdmitted_eq _

theorem noted_freeRoom (s : State) (f : FaultRecord) : (s.noted f).freeRoom = s.freeRoom := by
  rw [noted_eq]
  rfl

/-- A record without room is counted as unlogged (R153). -/
theorem appendOrCount_full {s : State} (x : Append) (hfull : s.freeRoom = 0) : (appendOrCount x s).cameTo s.req.newest
    { s with log := { s.log with unloggedFaults := satSucc s.log.unloggedFaults } } [] := by
  unfold appendOrCount
  rw [if_pos hfull]
  exact setLog_came (fun l => { l with unloggedFaults := satSucc l.unloggedFaults }) (came_self s).sync

theorem appendOrCount_room {s : State} (x : Append) (hroom : s.freeRoom ≠ 0) :
    appendOrCount x s = (requestAppend x s).1 := if_neg hroom

/-- Settles O50: the two classes' halts, then the halt by the log's free room. -/
theorem haltRecordsTheFault : Obligations.HaltRecordsTheFault := by
  refine ⟨fun _ _ _ => rfl, fun _ _ _ => rfl, ?_⟩
  intro kind cls stage sides s f x noted halted told
  have hnoted : s.noted f = noted := noted_eq s f
  have hfree : noted.freeRoom = s.freeRoom := hnoted ▸ noted_freeRoom s f
  have hhalted : Cycle.halted (cls := cls) = halted := funext fun c => halted_eq c cls
  have hhalt : halt kind cls stage sides s =
      writeEntry told .entry (updCycle halted (appendOrCount (.fault f) noted)) := by
    rw [← hnoted, ← hhalted]
    rfl
  refine ⟨fun hfull => ?_, fun hroom s1 hs1 => ?_⟩
  · rw [hhalt]
    have happend := appendOrCount_full (s := noted) (.fault f) (hfree.trans hfull)
    exact (happend.clean (clean_updCycle halted)).entry told
  · have hlisted : appendOrCount (.fault f) noted = s1 :=
      (appendOrCount_room (.fault f) (hfree.symm ▸ hroom)).trans hs1.symm
    rw [hhalt, hlisted]
    exact ⟨hs1 ▸ requestAppend_cycle _ _, rfl⟩

/-! ## STOP and HALT_IN (R49, R50) -/

/-- The same books have the same cursor. -/
theorem SameBooks.cursor {s t : State} (h : SameBooks s t) : t.vols.cursor = s.vols.cursor := by
  unfold VolumeTable.cursor VolumeTable.active
  rw [h.act]
  cases hk : s.vols.activeHandle with
  | none => rfl
  | some k =>
    have hget := congrArg (Option.map Prod.fst) (h.get k)
    simp only [Option.map_map, Option.bind_some] at hget ⊢
    exact congrArg (·.getD 0) hget

theorem abortTurn_keeps (cause : StopCause) (s : State) :
    (abortTurn cause s).1.req = s.req ∧ (abortTurn cause s).1.vols = s.vols := by
  rw [(abortTurn_spec cause s).1]
  exact ⟨rfl, rfl⟩

theorem newest_vols_came {s e : State} {n : Nat} (h : s.cameTo n e []) : s.req.newest = n ∧ s.vols = e.vols :=
  ⟨h.2, vols_came h⟩

/-- An abort writes no entry, and leaves the volume table but for doses (R17, R49). -/
theorem abortWork_keeps (cause : StopCause) (s : State) :
    (abortWork cause s).1.req.newest = s.req.newest ∧ SameBooks s (abortWork cause s).1 := by
  have hbooks : SameBooks s (abortExposure s) := (abortExposure_spec s).1.v
  obtain ⟨hnewest, hvols⟩ := newest_vols_came (abortedWork_came s)
  obtain ⟨hreq, hkept⟩ := abortTurn_keeps cause s.abortedWork
  rw [abortWork_eq, hreq]
  exact ⟨hnewest, hbooks.trans (.of_eq (hkept.trans hvols))⟩

/-- What a stop writes where its reply comes (R177): these entries, and nothing else. -/
def replies (reply : State → State) (fs : List Fields) : Prop :=
  ∀ (u e : State) (n : Nat) (gs : List Fields), u.cameTo n e gs → (reply u).cameTo n e (gs ++ fs)

theorem replies_done (t : Ticket) : replies (replyDone t false []) [doneReply t false []] :=
  fun _ _ _ _ h => h.replyDone t false []

theorem replies_none : replies id [] := fun _ _ _ _ h => by
  rw [List.append_nil]
  exact h

/-- CYCLE_STOPPED written (R49, R50). -/
theorem cycleStopped_came (cause : StopCause) (former : CycleState) {v e : State} {n : Nat} {gs : List Fields}
    (h : v.cameTo n e gs) : (cycleStopped cause former v).cameTo n e (gs ++ [noticeFields .cycleStopped
      [(12, u8 cause.code), (13, u8 (orFF e.vols.activeHandle)), (14, u16 e.vols.cursor), (16, u8 former.code)]]) := by
  unfold cycleStopped
  rw [vols_came h]
  exact h.notice _ _

section
variable {cause : StopCause} {reply : State → State} {b : State} {fs : List Fields}

theorem replies.from (hreply : replies reply fs) {u : State} {n : Nat} (hn : u.req.newest = n) :
    (reply u).cameTo n u fs := hreply u u n [] ⟨rfl, hn⟩

/-- In IDLE and HALTED a stop is answered and nothing more (R49). -/
theorem stopBy_resting (h : b.cycle.state = .idle ∨ b.cycle.state = .halted) : stopBy cause reply b = reply b := by
  unfold stopBy
  rcases h with h | h <;> rw [h] <;> rfl

theorem stopBy_working (h : b.cycle.state.working = true) : stopBy cause reply b =
    stopTail cause b.cycle.state (abortWork cause b).2 (reply (abortWork cause b).1) := if_pos h

theorem stopBy_calibrating (h : b.cycle.state = .calibrate) : stopBy cause reply b = calStop cause reply b := by
  unfold stopBy
  rw [h]
  rfl

/-- The abort of a cycle at work, its reply and CYCLE_STOPPED (R49). -/
theorem stopped_came (hreply : replies reply fs) :
    (cycleStopped cause b.cycle.state (reply (abortWork cause b).1)).cameTo b.req.newest (abortWork cause b).1
      (fs ++ [noticeFields .cycleStopped
        [(12, u8 cause.code), (13, u8 (orFF b.vols.activeHandle)), (14, u16 b.vols.cursor),
         (16, u8 b.cycle.state.code)]]) := by
  obtain ⟨hn, hbooks⟩ := abortWork_keeps cause b
  rw [← hbooks.act, ← hbooks.cursor]
  exact cycleStopped_came cause b.cycle.state (hreply.from hn)

theorem resolveClear_came {u e : State} {n : Nat} {gs : List Fields} (h : u.cameTo n e gs) :
    (resolveClear u).cameTo n { e with
      turner := if e.turner.state = .faulted then
          { e.turner with
            retry := 0, doubles := 0, state := .rest, stage := none, sub := .none
            stageTimer := .off, stageTime := none, holdTimer := none
            outputs := ⟨.off, false, 0, .off⟩ }
        else { e.turner with retry := 0, doubles := 0 } } gs := by
  have hclear := h.clean clean_resolveClear
  rwa [resolveClear_eq e] at hclear

/-- Behind CYCLE_STOPPED a cycle that aborted no held leaf is IDLE, the turner's counts 0 (R49, R59). -/
theorem stopTail_came {former : CycleState} {a : AbortAnswer} {v e : State} {n : Nat} {gs : List Fields}
    (hheld : ¬ a.held = true) (h : (cycleStopped cause former v).cameTo n e gs) :
    (stopTail cause former a v).cameTo n { e with
      cycle := e.cycle.over
      turner := if e.turner.state = .faulted then
          { e.turner with
            retry := 0, doubles := 0, state := .rest, stage := none, sub := .none
            stageTimer := .off, stageTime := none, holdTimer := none
            outputs := ⟨.off, false, 0, .off⟩ }
        else { e.turner with retry := 0, doubles := 0 } } gs := by
  have hcleared := (resolveClear_came h).sync
  have hend : stopTail cause former a v = enterCycle .idle .none (updCycle (fun c =>
      { c with run := none, opening := none }) (sync (resolveClear (cycleStopped cause former v)))) := if_neg hheld
  rw [hend]
  exact (hcleared.clean (clean_updCycle fun c => { c with run := none, opening := none })).clean
    (clean_enterCycle .idle .none)

theorem stopTail_held {former : CycleState} {a : AbortAnswer} {v : State} (hheld : a.held = true) :
    stopTail cause former a v = haltTurn .turnAborted a.stage (cycleStopped cause former v) := if_pos hheld

/-- A calibration whose record waits has ended: the stop is answered (notes/assumptions/23.md). -/
theorem calStop_recorded {cal : Calibration} (hcal : b.cycle.cal = some cal) (hrec : cal.recorded = true) :
    calStop cause reply b = reply b := by
  unfold calStop
  rw [hcal]
  exact if_pos hrec

/-- A calibration under way ends with the cause of the stop (R50). -/
theorem calStop_ends {cal : Calibration} (hcal : b.cycle.cal = some cal) (hrec : cal.recorded = false) :
    calStop cause reply b = calEnd false cause.calCause none
      ⟨calCamera (b.cam .left) 0 0, calCamera (b.cam .right) 0 0⟩ (some cause)
      (reply (abortFrames (abortExposure b))) := by
  unfold calStop
  rw [hcal]
  exact if_neg (by simp [hrec])

theorem abortedFrames_newest (b : State) : (abortFrames (abortExposure b)).req.newest = b.req.newest :=
  (abortExposure_spec b).1.req

theorem calCause_eq (cause : StopCause) : cause.calCause = match cause with
    | .stop => .stop
    | .haltIn => .haltIn
    | .supplyLow => .supplyLow := by cases cause <;> rfl

end

/-- Settles O35: the three kinds of state a stop comes in, of STOP and of HALT_IN alike. -/
theorem stopEndsTheCycle : Obligations.StopEndsTheCycle := by
  intro m h s a stops
  have hstops {c : Instr} {cause : StopCause} {b : State} {f reply : State → State} {fs : List Fields}
      (hx : exec c s = takeCommand m f s) (hf : f a = stopBy cause reply b) (hreply : replies reply fs)
      (hn : b.req.newest = s.req.newest) (hcycle : b.cycle = a.cycle) (hvols : b.vols = a.vols) :
      stops c cause b fs := by
    refine ⟨fun hrest => ?rest, fun hwork => ?work, fun cal hstate hcal => ⟨fun hrec => ?recorded, fun hrec => ?cal⟩⟩
    case rest =>
      exact completes_by hx (hf.trans (stopBy_resting (hcycle ▸ hrest))) (hreply.from hn)
    case work =>
      have hstopped := stopped_came (cause := cause) (b := b) hreply
      rw [hn, hcycle, hvols] at hstopped
      have htail := hf.trans (stopBy_working (hcycle ▸ hwork))
      rw [hcycle] at htail
      generalize abortWork cause b = q at hstopped htail ⊢
      intro _ gs
      split
      next hheld => exact leads_of hx (htail.trans (stopTail_held hheld)) hstopped
      next hheld => exact completes_by hx htail (stopTail_came hheld hstopped)
    all_goals rw [← hcycle] at hstate hcal
    case recorded =>
      exact completes_by hx (hf.trans ((stopBy_calibrating hstate).trans (calStop_recorded hcal hrec)))
        (hreply.from hn)
    case cal =>
      intro e
      have hend := hf.trans ((stopBy_calibrating hstate).trans (calStop_ends hcal hrec))
      rw [calCause_eq] at hend
      exact leads_of hx hend (hreply.from ((abortedFrames_newest b).trans hn))
  refine ⟨fun hasked => ?_, ?_⟩
  · exact hstops (exec_stop m h s) (ask_asked hasked) (replies_done _) rfl rfl rfl
  · exact hstops (exec_haltInActive m s) rfl replies_none rfl rfl rfl

/-! ## The supply monitor (R51, R75, R76) -/

/-- The fall noted and reported (R75, R76). -/
def State.supplyFell (s : State) : State :=
  notice .supplyLow (supplyFields s) (updTurner (fun t => { t with supply := .low }) s)

theorem supplyFell_came {s : State} {n : Nat} (hn : s.req.newest = n) : s.supplyFell.cameTo n
    { s with turner := { s.turner with supply := .low } } [noticeFields .supplyLow (supplyFields s)] :=
  State.cameTo.notice (fs := []) .supplyLow (supplyFields s) ⟨rfl, hn⟩

/-- What follows the notice of a fall (R51, R76). -/
theorem supplyFall_eq (s : State) : supplyFall s =
    if s.turner.g6.supplyMode = .safeStop then
      if s.cycle.state.working then safeStopFall s.supplyFell
      else if s.cycle.state = .calibrate then calStop .supplyLow id s.supplyFell
      else s.supplyFell
    else s.supplyFell := by
  have hmode : s.supplyFell.turner.g6 = s.turner.g6 := by
    rw [State.supplyFell, notice_turner]
    rfl
  have hcycle : s.supplyFell.cycle = s.cycle := notice_cycle _ _ _
  have htold : notice .supplyLow (supplyFields (updTurner (fun t => { t with supply := .low }) s))
      (updTurner (fun t => { t with supply := .low }) s) = s.supplyFell := rfl
  unfold supplyFields at htold
  unfold supplyFall
  simp only [htold, hmode, hcycle]

/-- A sample that makes no fall and no return to OK changes nothing (R75). -/
theorem sampleSupply_stays {s : State}
    (hfall : ¬ (s.turner.supply = .ok ∧ s.lines.supplySense < s.turner.g6.supplyLevel))
    (hback : ¬ (s.turner.supply = .low ∧ s.turner.g6.supplyLevel + 8 ≤ s.lines.supplySense)) :
    sampleSupply s = s := by
  unfold sampleSupply
  cases hsupply : s.turner.supply with
  | ok => exact if_neg fun hbelow => hfall ⟨hsupply, hbelow⟩
  | low => exact if_neg fun habove => hback ⟨hsupply, habove⟩

theorem sampleSupply_falls {s : State} (hok : s.turner.supply = .ok)
    (hbelow : s.lines.supplySense < s.turner.g6.supplyLevel) : sampleSupply s = supplyFall s := by
  unfold sampleSupply
  rw [hok]
  exact if_pos hbelow

theorem sampleSupply_recovers {s : State} (hlow : s.turner.supply = .low)
    (habove : s.turner.g6.supplyLevel + 8 ≤ s.lines.supplySense) :
    sampleSupply s = { s with turner := { s.turner with supply := .ok } } := by
  unfold sampleSupply
  rw [hlow]
  exact if_pos habove

/-- A SAFE_STOP fall of a turn, or one that aborted a turn, is a turn fault, else a capture fault of the sides
still owed (R51; notes/assumptions/20.md). -/
theorem safeStopFall_eq (s : State) [Decidable (s.cycle.state = .turn ∨
      (s.cycle.state = .paused ∧ s.cycle.run.bind RunRecord.resume = some .turn))] :
    safeStopFall s =
      if (s.cycle.state = .turn ∨ (s.cycle.state = .paused ∧ s.cycle.run.bind RunRecord.resume = some .turn)) ∨
          (abortWork .supplyLow s).2.aborted = true then
        haltTurn .supplyLow s.turner.stage (abortWork .supplyLow s).1
      else haltCapture .supplyLow (s.cycle.sidesWith SideStatus.owed) (abortWork .supplyLow s).1 := by
  have hturning : (s.cycle.state == .turn || (s.cycle.state == .paused && s.cycle.point == some .turn)) = true ↔
      s.cycle.state = .turn ∨ (s.cycle.state = .paused ∧ s.cycle.run.bind RunRecord.resume = some .turn) := by
    simp [Cycle.point]
  exact if_congr (or_congr_left hturning) rfl rfl

theorem sidesWith_owed {c : Cycle} {o : OpeningRecord} (ho : c.opening = some o) :
    c.sidesWith SideStatus.owed = ⟨o.sides.left.status.owed, o.sides.right.status.owed⟩ := by
  unfold Cycle.sidesWith
  rw [ho]
  rfl

theorem sidesWith_none {c : Cycle} (p : SideStatus → Bool) (ho : c.opening = none) :
    c.sidesWith p = ⟨false, false⟩ := by
  unfold Cycle.sidesWith
  rw [ho]
  rfl

theorem owed_eq (x : SideStatus) : x.owed = (x == .wanted || x == .pending) := by cases x <;> rfl

/-- Settles O60: the sample's comparison, what follows a fall, and the halt of a SAFE_STOP fall. -/
theorem supplyMonitorWatches : Obligations.SupplyMonitorWatches := by
  intro m sample s a c level e fell told fall back
  have hx := exec_supplySenseSample m sample s
  have hready (hphase : a.start.phase = .ready) {u : State} (hu : sampleSupply e = u) :
      (if e.ready then sampleSupply e else e) = u := (if_pos (ready_of_phase hphase)).trans hu
  have hfell : e.supplyFell.cameTo s.req.newest fell [told] := supplyFell_came rfl
  have hfall (h : fall) : (if e.ready then sampleSupply e else e) = supplyFall e :=
    hready h.1 (sampleSupply_falls h.2.1 h.2.2)
  refine ⟨fun ⟨hphase, hlow, habove⟩ => ?back, fun hnofall hnoback => ?stays, fun h hquiet => ?quiet,
    fun h hmode hwork => ?stops, fun h hmode hcal => ?calibrates, ?_⟩
  case back => exact completes_now hx (hready hphase (sampleSupply_recovers hlow habove))
  case stays =>
    refine completes_now hx ?_
    show (if e.ready then sampleSupply e else e) = e
    split
    next hphase =>
      have hphase : a.start.phase = .ready := beq_iff_eq.1 hphase
      exact sampleSupply_stays (fun h => hnofall ⟨hphase, h⟩) fun h => hnoback ⟨hphase, h⟩
    next => rfl
  case quiet =>
    exact completes_by hx (hfall h) (supplyFall_came (fs := []) ⟨rfl, rfl⟩ (or_assoc.1 hquiet.symm))
  case stops =>
    exact leads_of hx ((hfall h).trans ((supplyFall_eq e).trans ((if_pos hmode).trans (if_pos hwork)))) hfell
  case calibrates =>
    have hrest : ¬ e.cycle.state.working = true := by
      show ¬ a.cycle.state.working = true
      rw [hcal]
      exact nofun
    exact leads_of hx ((hfall h).trans ((supplyFall_eq e).trans
      ((if_pos hmode).trans ((if_neg hrest).trans (if_pos hcal))))) hfell
  classical
  have hstop := safeStopFall_eq s
  generalize abortWork .supplyLow s = q at hstop ⊢
  intro turning _ owed
  refine ⟨fun h => hstop.trans (if_pos h), fun hstill habort o ho => ?_, fun hstill habort ho => ?_⟩
  all_goals
    refine (hstop.trans (if_neg (not_or.2 ⟨hstill, Bool.eq_false_iff.1 habort⟩))).trans ?_
  · rw [sidesWith_owed ho, owed_eq, owed_eq]
  · rw [sidesWith_none _ ho]

end Sys2Proof.Machine
end

