-- ==== Sys2Proof/Proofs/Openings.lean ====
section
/-! PROOFS. An opening begun and finished (O47). -/

namespace Sys2Proof.Machine

/-! ## Openings begun and finished (R32, R34, R44) -/

/-- A side as an opening begins (R34). -/
theorem sideAtBegin_eq (skip : Bool) (v : Volume) (c : Camera) : sideAtBegin skip v c =
    ⟨if skip = true ∧ v.coverage.getD (2 * v.cursor + cameraCode c) .absent = .taken then .passed else .wanted,
      none⟩ := by
  unfold sideAtBegin sideOf
  congr 1
  exact if_congr (by rw [Bool.and_eq_true_iff, beq_iff_eq]) rfl rfl

theorem sideAtBegin_passed (skip : Bool) (v : Volume) (c : Camera) :
    ((sideAtBegin skip v c).status == .wanted) = false ↔ (sideAtBegin skip v c).status = .passed := by
  rw [sideAtBegin_eq]
  dsimp only
  split <;> decide

theorem size_eq_zero_iff (q : Sides) : q.size = 0 ↔ q.left = false ∧ q.right = false := by
  obtain ⟨left, right⟩ := q
  cases left <;> cases right <;> decide

/-- What an opening that begins at the run's stop opening writes (R32). -/
def reachStop (v : Volume) (r : RunRecord) (s : State) : State :=
  if v.cursor = r.stop ∧ ¬ r.stopReached then stopReached s else s

theorem reachStop_came {s : State} {r : RunRecord} {k : Nat} {v : Volume} (hrun : s.cycle.run = some r)
    (hactive : s.vols.active = some (k, v)) : (reachStop v r s).cameTo s.req.newest
      { s with cycle := { s.cycle with
        run := some { r with stopReached := r.stopReached || v.cursor == r.stop } } }
      (if v.cursor == r.stop && !r.stopReached then [noticeFields .stopOpeningReached
        [(12, u8 (orFF s.vols.activeHandle)), (14, u16 r.stop), (16, u16 v.cursor)]] else []) := by
  unfold reachStop
  by_cases h : v.cursor = r.stop ∧ ¬ r.stopReached = true
  · obtain ⟨hstop, hfresh⟩ := h
    have hreached := stopReached_came (came_self s) r hrun
    rw [cursor_active hactive] at hreached
    have hmark : (r.stopReached || v.cursor == r.stop) = true := by simp [hstop]
    rw [if_pos ⟨hstop, hfresh⟩, if_pos (by simp [hstop, hfresh]), hmark]
    exact hreached
  · have hmark : (r.stopReached || v.cursor == r.stop) = r.stopReached := by
      by_cases hr : r.stopReached = true
      · rw [hr, Bool.true_or]
      · have hstop : v.cursor ≠ r.stop := fun hstop => h ⟨hstop, hr⟩
        simp [hstop]
    rw [if_neg h, if_neg (by simpa using h), hmark, ← hrun]
    exact came_self s

theorem beginOpening_eq {s : State} {r : RunRecord} {k : Nat} {v : Volume} (hrun : s.cycle.run = some r)
    (hactive : s.vols.active = some (k, v)) :
    let o := OpeningRecord.fresh r.skipCovered v
    let s1 := updCycle (fun c => { c with opening := some o }) (reachStop v r s)
    beginOpening s = if o.prepared.sides.size = 0 then finishOpening s1 else enterPrepare s1 := by
  intro o s1
  unfold beginOpening
  rw [hrun, hactive]
  rfl

section
variable {s : State} {r : RunRecord} (hrun : s.cycle.run = some r)
include hrun

/-- At its stop opening the run is complete (R32, R44). -/
theorem finish_completes (hstop : s.vols.cursor = r.stop) :
    (finish s).cameTo s.req.newest { s with cycle := { s.cycle.over with camTimer := none } }
      [s.completeNotice r.kind r.stop] := by
  have hfinish : finish s = runComplete (updCycle (fun c => { c with opening := none }) s) :=
    if_pos (hstop.trans (stop_of_run hrun).symm)
  rw [hfinish]
  exact runComplete_came (came_self (updCycle (fun c => { c with opening := none }) s)) r hrun

theorem finish_before_stop (hstop : s.vols.cursor ≠ r.stop) :
    let e : State := { s with cycle := { s.cycle with opening := none } }
    finish s = if r.pausePending then enterPaused .turn e else startTurn e := by
  have hpending : s.cycle.pausePending = r.pausePending := by
    unfold Cycle.pausePending
    rw [hrun]
    rfl
  rw [← hpending]
  exact if_neg fun h => hstop (h.trans (stop_of_run hrun))

end

/-- Settles O47: the opening begun with its record and its stop, then finished. -/
theorem openingBeginsAndIsFinished : Obligations.OpeningBeginsAndIsFinished := by
  intro s r hrun
  refine ⟨?begins, ?finishes⟩
  case begins =>
    intro k v hactive reached side left right o
    have hleft : sideAtBegin r.skipCovered v .left = left := sideAtBegin_eq _ _ _
    have hright : sideAtBegin r.skipCovered v .right = right := sideAtBegin_eq _ _ _
    have ho : OpeningRecord.fresh r.skipCovered v = o := by
      unfold OpeningRecord.fresh
      rw [hleft, hright]
    have hnone : o.prepared.sides.size = 0 ↔ left.status = .passed ∧ right.status = .passed := by
      rw [size_eq_zero_iff]
      show (left.status == .wanted) = false ∧ (right.status == .wanted) = false ↔ _
      rw [← hleft, ← hright]
      exact and_congr (sideAtBegin_passed _ _ _) (sideAtBegin_passed _ _ _)
    have hbegin := beginOpening_eq hrun hactive
    rw [ho] at hbegin
    exact ⟨_, (reachStop_came hrun hactive).clean (clean_updCycle fun c => { c with opening := some o }),
      hbegin.trans (if_congr hnone rfl rfl)⟩
  case finishes =>
    intro e
    refine ⟨finish_completes hrun, fun hstop hpause => ?_, fun hstop hpause => ?_⟩
    · rw [finish_before_stop hrun hstop, if_pos hpause, ← stop_of_run hrun]
      exact enterPaused_came .turn e
    · rw [finish_before_stop hrun hstop, hpause]
      rfl

end Sys2Proof.Machine
end

