-- ==== Sys2Proof/Proofs/CameraWaits.lean ====
section
/-! PROOFS. The waits for cameras (O54). -/

namespace Sys2Proof.Machine

/-! ## Waits for cameras (R37, R124) -/

theorem enterCycle_same {s : State} {st : CycleState} (h : s.cycle.state = st) (sub : SubCondition) :
    enterCycle st sub s = { s with cycle := { s.cycle with sub := sub } } := by
  subst h
  rfl

section
variable {s : State}

theorem recheckCameras_prepare (hsub : s.cycle.sub = .waitCamera) (hstate : s.cycle.state = .prepare) :
    recheckCameras s = if s.camerasReady s.cycle.preparedSides then
        goOn { s with cycle := { s.cycle with sub := .none } }
      else s := by
  rw [← enterCycle_same hstate .none]
  unfold recheckCameras
  rw [if_pos hsub, hstate]

theorem recheckCameras_calibrate (hsub : s.cycle.sub = .waitCamera) (hstate : s.cycle.state = .calibrate) :
    recheckCameras s = if s.camerasReady Sides.both then calGo s else s := by
  unfold recheckCameras
  rw [if_pos hsub, hstate]

theorem recheckCameras_other (h : s.cycle.sub ≠ .waitCamera ∨
    (s.cycle.state ≠ .prepare ∧ s.cycle.state ≠ .calibrate)) : recheckCameras s = s := by
  unfold recheckCameras
  split
  next hsub =>
    obtain ⟨hprepare, hcalibrate⟩ := h.resolve_left (not_not.2 hsub)
    cases hstate : s.cycle.state with
    | prepare => exact absurd hstate hprepare
    | calibrate => exact absurd hstate hcalibrate
    | idle | expose | review | turn | paused | halted => rfl
  next => rfl

/-- A camera-ready timeout that has not run out (notes/assumptions/4.md). -/
theorem cameraTimeout_early (h : ∀ x, s.cycle.camTimer = some x → s.now < x) : cameraTimeoutExpires s = s := by
  unfold cameraTimeoutExpires
  split
  next x hx => exact if_neg (by have := h x hx; omega)
  next => rfl

/-- A camera-ready timeout that has run out, by the cycle's state (R37, R124). -/
theorem cameraTimeout_due {x : Nat} (hx : s.cycle.camTimer = some x) (hdue : x ≤ s.now) :
    (s.cycle.state = .prepare → cameraTimeoutExpires s = haltCapture .cameraNotReady s.notReady s) ∧
    (s.cycle.state = .calibrate → cameraTimeoutExpires s = calFail .cameraNotReady s) ∧
    (s.cycle.state ≠ .prepare → s.cycle.state ≠ .calibrate → cameraTimeoutExpires s = s) := by
  unfold cameraTimeoutExpires
  rw [hx]
  simp only [if_pos hdue]
  cases s.cycle.state <;> simp

end

/-- Settles O54: CAM_READY by what waits for it, then the timeout by whether it is due. -/
theorem camerasEndTheirWait : Obligations.CamerasEndTheirWait := by
  intro m s a sides
  have hsides : a.cycle.preparedSides = sides := preparedSides_eq a.cycle
  refine ⟨?ready, ?timeout⟩
  case ready =>
    intro cam c e l r
    have hx := exec_camReadyActive m cam s
    refine ⟨fun hsub hstate => ?prepare, fun hsub hstate => ?calibrate, fun hother => ?other⟩
    case prepare =>
      have hready : e.camerasReady e.cycle.preparedSides = true ↔
          (sides.left = true → l = true) ∧ (sides.right = true → r = true) := by
        rw [← hsides]
        exact camerasReady_iff e a.cycle.preparedSides
      exact leads_or_completes hx ((recheckCameras_prepare (s := e) hsub hstate).trans (if_congr hready rfl rfl))
    case calibrate =>
      exact leads_or_completes hx
        ((recheckCameras_calibrate (s := e) hsub hstate).trans (if_congr (bothReady_iff e) rfl rfl))
    case other => exact completes_now hx (recheckCameras_other (s := e) hother)
  case timeout =>
    intro c
    have hx := exec_cameraReadyTimeout m s
    refine ⟨fun hearly => completes_now hx (cameraTimeout_early hearly), fun x htimer hdue => ?_⟩
    obtain ⟨hprepare, hcalibrate, hother⟩ := cameraTimeout_due htimer hdue
    refine ⟨fun hstate => leads_now hx ?_, fun hstate => leads_now hx (hcalibrate hstate),
      fun hp hc => completes_now hx (hother hp hc)⟩
    rw [hprepare hstate, State.notReady, hsides]
    rfl

end Sys2Proof.Machine
end

