-- ==== Sys2Proof/Proofs/Prepare.lean ====
section
/-! PROOFS. The waits of PREPARE and the exposure it starts (O49). -/

namespace Sys2Proof.Machine

/-! ## PREPARE (R35 to R37) -/

section
variable {s : State} {o : OpeningRecord} (ho : s.cycle.opening = some o)
include ho

theorem preparedSides_some : s.cycle.preparedSides = o.prepared.sides := by
  rw [preparedSides_eq, ho]

/-- PREPARE entered away from rest is a halt (R35). -/
theorem enterPrepare_moved
    (h : ¬ (s.lines.platenDown = true ∧ s.lines.armParked = true ∧ s.turner.state = .rest)) :
    enterPrepare s = haltCapture .notAtRest o.prepared.sides (enterCycle .prepare .none s) := by
  rw [← preparedSides_some ho]
  exact if_neg (mt (cradleAtRest_iff s).1 h)

end

theorem enterPrepare_still {s : State}
    (h : s.lines.platenDown = true ∧ s.lines.armParked = true ∧ s.turner.state = .rest) :
    enterPrepare s = prepareWaits (enterCycle .prepare .none s) := if_pos ((cradleAtRest_iff s).2 h)

/-- Each camera of the side set has a FREE slot (R36). -/
theorem slotsFree_eq (s : State) (sides : Sides) : s.slotsFree sides =
    sides.list.all fun c => (s.intake.cams.get c).slots.any fun x => x.state == .free := by
  unfold State.slotsFree
  congr 1
  funext c
  exact List.findIdx?_isSome

/-- The waits of PREPARE in their order (R36, R37). -/
theorem prepareWaits_eq {s : State} {o : OpeningRecord} (ho : s.cycle.opening = some o) :
    let cams := o.prepared.sides.list
    prepareWaits s =
      if (cams.all fun c => (s.intake.cams.get c).slots.any fun x => x.state == .free) = false then
        enterCycle .prepare .waitSlot s
      else if s.freeRoom < 4 + cams.length then enterCycle .prepare .waitLog s
      else if (cams.all fun c => s.lines.camReady.get c) = false then
        { s with cycle := { s.cycle with
          state := .prepare, sub := .waitCamera, camTimer := some (s.now + ms s.intake.geo.camReadyTimeout) } }
      else goOn (enterCycle .prepare .none s) := by
  intro cams
  have hslots : (¬ s.slotsFree o.prepared.sides = true) ↔
      (cams.all fun c => (s.intake.cams.get c).slots.any fun x => x.state == .free) = false := by
    rw [slotsFree_eq, Bool.not_eq_true]
  have hroom : s.freeRoom < 4 + o.prepared.sides.size ↔ s.freeRoom < 4 + cams.length := by
    rw [Sides_size_eq]
  unfold prepareWaits
  rw [preparedSides_some ho]
  refine if_congr hslots rfl (if_congr hroom rfl ?_)
  by_cases hready : s.camerasReady o.prepared.sides = true
  · exact (if_pos hready).trans (if_neg fun hnot => Bool.false_ne_true (hnot.symm.trans hready)).symm
  · exact (if_neg hready).trans (if_pos (Bool.eq_false_of_not_eq_true hready)).symm

/-! ## The exposure of an opening (R37, R84, R88 to R90, R105) -/

/-- An exposure started, its cameras' slots not yet armed (R90). -/
def State.lampsStarted (s : State) (kind : ExposureKind) (sides : Sides) (p : Plan) (k : Nat) : State := { s with
  light := { s.light with
    channels := s.light.channels.map fun c => { c with wasLit := false, onTime := 0, target := 0 }
    exposure := ⟨if p.span = 0 then .warm else .rampUp, kind, sides, p, some k, false, s.now, false, false⟩ } }

theorem startExposure_eq (kind : ExposureKind) (sides : Sides) (p : Plan) (k : Nat) (s : State) :
    startExposure kind sides p (some k) s = s.lampsStarted kind sides p k := by
  unfold startExposure mapChannels
  rw [mapIdx_const]
  rfl

/-- The cycle in EXPOSE with the armed slots' line shown (R37, R181). -/
def State.exposing (s : State) (o : OpeningRecord) : State := { sync s with cycle := { s.cycle with
  state := .expose, sub := .none, opening := some { o with exposed := true, lampFault := false } } }

theorem enterExpose_eq {s : State} {o : OpeningRecord} (ho : s.cycle.opening = some o) :
    enterCycle .expose .none (updOpening (fun o => { o with exposed := true, lampFault := false }) (sync s)) =
      s.exposing o := by
  unfold updOpening updCycle enterCycle
  simp only [sync_cycle, ho, Option.map_some]
  rfl

theorem warmOnEntry_exposing (s : State) (o : OpeningRecord) : warmOnEntry (s.exposing o) =
    if s.light.exposure.phase = .warm ∧ s.light.warm = 0 then fireTriggers (s.exposing o) else s.exposing o := by
  have hlight : (s.exposing o).light = s.light := sync_light s
  unfold warmOnEntry
  rw [hlight]

theorem list_nodup (q : Sides) : q.list.Nodup := List.Nodup.filter _ (by decide)

/-- An exposure begun at rest: the lamps started, a slot of each camera armed, the triggers at once where span and
warm time are 0 (R37, R90, R91, R105; notes/assumptions/26.md). -/
theorem beginExposure_eq {s : State} {o : OpeningRecord} (ho : s.cycle.opening = some o)
    (hrest : s.cradleAtRest = true) (kind : ExposureKind) (k : Nat) (p : Plan) :
    ∃ slots : PerCam CamState,
      let started := State.exposing { s.lampsStarted kind o.prepared.sides p k with
        intake := { s.intake with cams := slots } } o
      beginExposure kind o k p s =
        (if p.span = 0 ∧ s.light.warm = 0 then fireTriggers started else started) ∧
      ∀ c, (c ∉ o.prepared.sides.list → slots.get c = s.intake.cams.get c) ∧
        (c ∈ o.prepared.sides.list → slots.get c = (s.intake.cams.get c).arm
          (Frame.fresh (some k) o.number (some (sideOf o.number c)) o.retakes)) := by
  obtain ⟨slots, harmed, hslots⟩ := armSides_eq k o.number o.retakes o.prepared.sides.list
    (s.lampsStarted kind o.prepared.sides p k)
  refine ⟨slots, ?_, fun c => ⟨(hslots c).1, fun hc => (hslots c).2 hc (list_nodup _)⟩⟩
  have hbegin : beginExposure kind o k p s = warmOnEntry (State.exposing { s.lampsStarted kind o.prepared.sides p k with
      intake := { s.intake with cams := slots } } o) := by
    unfold beginExposure
    rw [if_pos hrest, startExposure_eq, harmed]
    exact congrArg warmOnEntry (enterExpose_eq (s := { s.lampsStarted kind o.prepared.sides p k with
      intake := { s.intake with cams := slots } }) ho)
  rw [hbegin, warmOnEntry_exposing]
  refine if_congr (and_congr_left' ?_) rfl rfl
  show (if p.span = 0 then Phase.warm else .rampUp) = .warm ↔ _
  by_cases hspan : p.span = 0 <;> simp [hspan]

/-! ## Going on (R37, R84, R88, R89) -/

/-- The planned levels of a FIRST exposure, the channels of the side set chosen by their map (R84). -/
theorem firstLevels_eq (channels : List Channel) (v : Volume) (e : ClassEntry) (sides : Sides) :
    firstLevels channels v e sides = channels.mapIdx fun i x =>
      if x.sideMap = .both ∨ (x.sideMap = .left ∧ sides.left = true) ∨
          (x.sideMap = .right ∧ sides.right = true) then
        min e.ceiling (match v.baseLevels with
          | some l => l.getD i 0
          | none => e.baseLevel)
      else 0 := by
  have hchosen (m : SideMap) : m.chosen sides = true ↔
      m = .both ∨ (m = .left ∧ sides.left = true) ∨ (m = .right ∧ sides.right = true) := by
    cases m <;> simp [SideMap.chosen]
  unfold firstLevels
  congr 1
  funext i x
  exact if_congr (hchosen x.sideMap) rfl rfl

theorem doseTest_iff (v : Volume) (e : ClassEntry) (n : Nat) : doseTest v e n = true ↔
    v.openingDose + n ≤ e.doseLimit ∧ v.doseUsed + n ≤ v.budget := by
  simp [doseTest]

/-- The lighting unit at phase NONE admits a plan that passes both tests, and says which it fails (R88). -/
theorem judgeAdmission_eq {s : State} (hnone : s.light.exposure.phase = .none) (v : Volume) (e : ClassEntry)
    (p : Plan) : judgeAdmission s v e p =
      if lampTest s.light.channels p.levels = true ∧ doseTest v e p.predicted = true then .admitted p
      else .refused (!lampTest s.light.channels p.levels) (!doseTest v e p.predicted) :=
  (if_neg (not_not.2 hnone)).trans (if_congr (Bool.and_eq_true_iff) rfl rfl)

section
variable {s : State} {o : OpeningRecord} {k : Nat} {v : Volume} {e : ClassEntry}
  (ho : s.cycle.opening = some o) (hactive : s.vols.active = some (k, v)) (hclass : s.activeClass = some e)

/-- The camera-ready timeout ended (R37). -/
def State.untimed (s : State) : State := { s with cycle := { s.cycle with camTimer := none } }

include ho hactive hclass

/-- What going on with an opening does, its records at hand (R37). -/
theorem goOn_eq : goOn s =
    if s.lines.platenDown = true ∧ s.lines.armParked = true then
      match o.prepared.retake with
      | some p => beginExposure .retake o k p s.untimed
      | none =>
        match admitFirst s.untimed v e o.prepared.sides with
        | .admitted p => beginExposure .first o k p s.untimed
        | .refused lamp _ => haltCapture (if lamp then .lampFault else .doseLimit) o.prepared.sides s.untimed
        | .busy => s.untimed
    else haltCapture .notAtRest o.prepared.sides s.untimed := by
  have ho' : s.untimed.cycle.opening = some o := ho
  have hactive' : s.untimed.vols.active = some (k, v) := hactive
  have hclass' : s.untimed.activeClass = some e := hclass
  show (match s.untimed.cycle.opening, s.untimed.vols.active, s.untimed.activeClass with
    | some o, some (h, v), some e => _
    | _, _, _ => s.untimed) = _
  rw [ho', hactive', hclass']
  rfl

theorem goOn_moved (h : ¬ (s.lines.platenDown = true ∧ s.lines.armParked = true)) :
    goOn s = haltCapture .notAtRest o.prepared.sides s.untimed :=
  (goOn_eq ho hactive hclass).trans (if_neg h)

variable (hrest : s.lines.platenDown = true ∧ s.lines.armParked = true)
include hrest

theorem goOn_retake {p : Plan} (hp : o.prepared.retake = some p) :
    goOn s = beginExposure .retake o k p s.untimed := by
  rw [goOn_eq ho hactive hclass, if_pos hrest, hp]

/-- Without a prepared retake the answer to the request for a FIRST exposure decides (R88). -/
theorem goOn_first (hp : o.prepared.retake = none) : goOn s =
    match admitFirst s.untimed v e o.prepared.sides with
    | .admitted p => beginExposure .first o k p s.untimed
    | .refused lamp _ => haltCapture (if lamp then .lampFault else .doseLimit) o.prepared.sides s.untimed
    | .busy => s.untimed := by
  rw [goOn_eq ho hactive hclass, if_pos hrest, hp]

variable (hp : o.prepared.retake = none) (hnone : s.light.exposure.phase = .none)
include hp hnone

/-- The plan of a FIRST exposure is admitted, or refused by the lamp test, or by the dose test alone (R84, R88). -/
theorem goOn_admission :
    let p := s.planOf (firstLevels s.light.channels v e o.prepared.sides) (exposureTimeOf v e)
    (¬ lampTest s.light.channels p.levels = true → goOn s = haltCapture .lampFault o.prepared.sides s.untimed) ∧
    (lampTest s.light.channels p.levels = true → ¬ doseTest v e p.predicted = true →
      goOn s = haltCapture .doseLimit o.prepared.sides s.untimed) ∧
    (lampTest s.light.channels p.levels = true → doseTest v e p.predicted = true →
      goOn s = beginExposure .first o k p s.untimed) := by
  intro p
  have hjudge : admitFirst s.untimed v e o.prepared.sides =
      if lampTest s.light.channels p.levels = true ∧ doseTest v e p.predicted = true then .admitted p
      else .refused (!lampTest s.light.channels p.levels) (!doseTest v e p.predicted) :=
    judgeAdmission_eq (s := s.untimed) hnone v e p
  have hgo := goOn_first ho hactive hclass hrest hp
  refine ⟨fun hlamp => ?lamp, fun hlamp hdose => ?dose, fun hlamp hdose => ?fits⟩
  case lamp => simp only [hgo, hjudge, hlamp, Bool.false_eq_true, false_and, if_false, Bool.not_false, if_true]
  case dose => simp only [hgo, hjudge, hlamp, hdose, and_false, if_false, Bool.not_true, Bool.false_eq_true]
  case fits => simp only [hgo, hjudge, hlamp, hdose, and_self, if_true]

end

/-- Settles O49: the rest check and the waits of PREPARE in their order, then what going on starts or refuses. -/
theorem prepareChecksAndExposes : Obligations.PrepareChecksAndExposes := by
  intro s o ho sides cams prepare ready
  have hcams : cams = sides.list := (Sides_list_eq sides).symm
  refine ⟨fun hmoved => enterPrepare_moved ho hmoved, fun hplaten harm hturner =>
    enterPrepare_still ⟨hplaten, harm, hturner⟩, ?waits, ?goesOn⟩
  case waits =>
    rw [hcams]
    exact prepareWaits_eq ho
  case goesOn =>
    intro k v e hactive hclass
    refine ⟨fun hmoved => goOn_moved ho hactive hclass hmoved, ?_⟩
    intro hplaten harm hturner begun
    have hbegun (kind : ExposureKind) (p : Plan) (hgo : goOn s = beginExposure kind o k p s.untimed) :
        begun kind p := by
      obtain ⟨slots, hstarted, hslots⟩ := beginExposure_eq (s := s.untimed) ho
        ((cradleAtRest_iff _).2 ⟨hplaten, harm, hturner⟩) kind k p
      refine ⟨slots, hgo.trans hstarted, fun c => ⟨fun hc => (hslots c).1 (hcams ▸ hc), ?_⟩⟩
      intro j hc fresh hidle hfree
      exact ((hslots c).2 (hcams ▸ hc)).trans (arm_eq _ hidle hfree)
    refine ⟨fun p hp => hbegun .retake p (goOn_retake ho hactive hclass ⟨hplaten, harm⟩ hp), ?_⟩
    intro hp hnone levels p lampOut dosed
    have hlevels : levels = firstLevels s.light.channels v e sides := (firstLevels_eq _ v e sides).symm
    obtain ⟨hlamp, hdose, hfits⟩ := goOn_admission ho hactive hclass ⟨hplaten, harm⟩ hp hnone
    rw [← hlevels] at hlamp hdose hfits
    have hout : ¬ lampTest s.light.channels p.levels = true ↔ lampOut := lampTest_fails_iff _ _
    have hdosed : doseTest v e p.predicted = true ↔ dosed := doseTest_iff v e _
    exact ⟨fun h => hlamp (hout.2 h), fun h hd => hdose (not_not.1 (mt hout.1 h)) (mt hdosed.1 hd),
      fun h hd => hbegun .first p (hfits (not_not.1 (mt hout.1 h)) (hdosed.2 hd))⟩

end Sys2Proof.Machine
end

