-- ==== Sys2Proof/Proofs/CalibrationEnd.lean ====
section
/-! PROOFS. The end of a calibration (O42). -/

namespace Sys2Proof.Machine

/-! ## Frames in flight (R105, R110) -/

/-- The frame in flight of a camera is the record of its slot ARMED or FILLING (R105). -/
theorem flying_of_slot {y : CamState} {f : Frame}
    (h : ∃ k, (y.slots.findIdx? fun x => x.state == .armed || x.state == .filling) = some k ∧
      (y.slots[k]?.bind Slot.frame) = some f) : y.flying = some f := by
  obtain ⟨k, hslot, hframe⟩ := h
  exact (congrArg (·.bind y.frameAt) hslot).trans (frameAt_of_slot hframe)

section
variable {y : CamState} {f : Frame} (hf : y.flying = some f)
include hf

theorem hasEnded_flying : y.hasEnded = true ↔ f.ending ≠ .inFlight := by
  simp [CamState.hasEnded, hf]

theorem endOf_flying : y.endOf = f.ending := by
  simp [CamState.endOf, hf]

theorem calCamera_flying (clamped dark : Nat) : calCamera y clamped dark = ⟨f.number, f.mean, clamped, dark⟩ := by
  simp [calCamera, hf]

end

/-! ## The gains of a calibration (R137) -/

section
variable (g : Geometry) (target : Nat)

/-- The mean of a band and the gain that would bring it to the target (R137). -/
def bandMean (sum : Nat) : Nat := sum / (g.width / 64 * g.height)

def rawGain (sum : Nat) : Nat := (1024 * target + bandMean g sum / 2) / bandMean g sum

/-- A dark band gets the highest gain, unclamped (R137). -/
theorem bandGain_dark {sum : Nat} (hdark : bandMean g sum < 64) : bandGain g target sum = (4095, false, true) :=
  if_pos hdark

/-- A band that is not dark gets its raw gain, clamped to 512 to 4095 (R137). -/
theorem bandGain_bright {sum : Nat} (hbright : ¬ bandMean g sum < 64) : bandGain g target sum =
    (min 4095 (max 512 (rawGain g target sum)),
      decide (rawGain g target sum < 512) || decide (4095 < rawGain g target sum), false) := by
  rw [← clampGain_ne]
  exact if_neg hbright

theorem newGains_gains (bands : List Nat) : (newGains g target bands).map Prod.fst =
    bands.map fun sum => if bandMean g sum < 64 then 4095 else min 4095 (max 512 (rawGain g target sum)) := by
  unfold newGains
  rw [List.map_map]
  refine List.map_congr_left fun sum _ => ?_
  by_cases hdark : bandMean g sum < 64
  · simp [bandGain_dark g target hdark, hdark]
  · simp [bandGain_bright g target hdark, hdark]

theorem newGains_clamped (bands : List Nat) : ((newGains g target bands).countP fun q => q.2.1) =
    bands.countP fun sum => 64 ≤ bandMean g sum && (rawGain g target sum < 512 || 4095 < rawGain g target sum) := by
  unfold newGains
  rw [List.countP_map]
  refine List.countP_congr fun sum _ => ?_
  by_cases hdark : bandMean g sum < 64
  · simp [bandGain_dark g target hdark, hdark]
  · simp [bandGain_bright g target hdark, Nat.not_lt.1 hdark]

theorem newGains_dark (bands : List Nat) : ((newGains g target bands).countP fun q => q.2.2) =
    bands.countP fun sum => bandMean g sum < 64 := by
  unfold newGains
  rw [List.countP_map]
  refine List.countP_congr fun sum _ => ?_
  by_cases hdark : bandMean g sum < 64
  · simp [bandGain_dark g target hdark, hdark]
  · simp [bandGain_bright g target hdark, hdark]

end

/-! ## The calibration judged (R125) -/

/-- A camera's pending table filled from its band sums (R120, R137). -/
def CamState.gained (g : Geometry) (target : Nat) (y : CamState) : CamState := { y with
  pendingTable := y.intakeRec.bands.map fun sum =>
    if bandMean g sum < 64 then 4095 else min 4095 (max 512 (rawGain g target sum))
  pendingTableFlag := true }

/-- What the CALIBRATION record of a success says of a camera (R125, R137). -/
def CamState.calibrated (g : Geometry) (target : Nat) (y : CamState) (f : Frame) : CalCamera :=
  ⟨f.number, f.mean,
    y.intakeRec.bands.countP fun sum =>
      64 ≤ bandMean g sum && (rawGain g target sum < 512 || 4095 < rawGain g target sum),
    y.intakeRec.bands.countP fun sum => bandMean g sum < 64⟩

section
variable {s : State} {cal : Calibration} (hcal : s.cycle.cal = some cal)
include hcal

/-- The calibration waits until its exposure has completed and both frames have ended (R124). -/
theorem calCheck_waits (h : cal.exposureDone = false ∨ cal.recorded = true ∨
    s.intake.cams.left.hasEnded = false ∨ s.intake.cams.right.hasEnded = false) : calCheck s = s := by
  unfold calCheck
  rw [hcal]
  refine if_neg fun ⟨hdone, hrec, hl, hr⟩ => ?_
  rcases h with h | h | h | h
  · exact Bool.false_ne_true (h.symm.trans hdone)
  · exact hrec h
  · exact Bool.false_ne_true (h.symm.trans hl)
  · exact Bool.false_ne_true (h.symm.trans hr)

theorem calCheck_judges (hdone : cal.exposureDone = true) (hrec : cal.recorded = false)
    (hl : s.intake.cams.left.hasEnded = true) (hr : s.intake.cams.right.hasEnded = true) :
    calCheck s = calJudge s := by
  unfold calCheck
  rw [hcal]
  exact if_pos ⟨hdone, by simp [hrec], hl, hr⟩

variable {f g : Frame} (hf : s.intake.cams.left.flying = some f) (hg : s.intake.cams.right.flying = some g)
include hf hg

/-- With both frames COMPLETE the calibration is done, its gains pending (R125, R137). -/
theorem calJudge_done (hfc : f.ending = .complete) (hgc : g.ending = .complete) :
    calJudge s = calEnd true .none none
      ⟨s.intake.cams.left.calibrated s.intake.geo cal.target f,
        s.intake.cams.right.calibrated s.intake.geo cal.target g⟩ none
      { s with intake := { s.intake with cams := ⟨s.intake.cams.left.gained s.intake.geo cal.target,
        s.intake.cams.right.gained s.intake.geo cal.target⟩ } } := by
  have hends : s.intake.cams.left.endOf = .complete ∧ s.intake.cams.right.endOf = .complete :=
    ⟨(endOf_flying hf).trans hfc, (endOf_flying hg).trans hgc⟩
  unfold calJudge
  rw [hcal]
  refine (if_pos hends).trans ?_
  simp only [newGains_gains, newGains_clamped, newGains_dark]
  unfold CamState.calibrated
  rw [← calCamera_flying hf, ← calCamera_flying hg]
  rfl

/-- With a frame LOST or DAMAGED the calibration has failed (R125). -/
theorem calJudge_failed (h : ¬ (f.ending = .complete ∧ g.ending = .complete)) :
    let lost : Prop := f.ending = .lost ∨ g.ending = .lost
    let ended : FrameEnd := if lost then .lost else .damaged
    calJudge s = calEnd false (if lost then .lost else .damaged)
      (some (if f.ending = ended then .left else .right))
      ⟨⟨f.number, f.mean, 0, 0⟩, ⟨g.number, g.mean, 0, 0⟩⟩ none s := by
  intro lost ended
  have hl : (s.cam .left).endOf = f.ending := endOf_flying hf
  have hr : (s.cam .right).endOf = g.ending := endOf_flying hg
  have hcause : (if ended = .lost then CalCause.lost else .damaged) = if lost then .lost else .damaged := by
    by_cases hlost : lost <;> simp [ended, hlost]
  unfold calJudge
  rw [hcal, ← calCamera_flying hf, ← calCamera_flying hg, ← hcause]
  refine (if_neg (by rwa [hl, hr])).trans ?_
  rw [hl, hr]
  rfl

end

/-! ## The calibration ended (R50, R125) -/

/-- The slots in flight freed, the calibration's record to be asked for (R125). -/
def State.calibrationEnding (s : State) (cal : Calibration) : State := { s with
  cycle := { s.cycle with
    state := .calibrate, sub := .none, camTimer := none, cal := some { cal with recorded := true } }
  intake := { s.intake with cams := ⟨s.intake.cams.left.freeFlying, s.intake.cams.right.freeFlying⟩ } }

theorem calEnd_eq {s : State} {cal : Calibration} (hcal : s.cycle.cal = some cal) (done : Bool) (cause : CalCause)
    (concerned : Option Camera) (cams : PerCam CalCamera) (stopped : Option StopCause) :
    let b : CalBody := ⟨done, cause, concerned, cal.target, cal.levels, cal.exposure, cal.charge, cams,
      cal.ticket, cal.clamped, stopped⟩
    let q := requestAppend (.calibration b) (s.calibrationEnding cal)
    calEnd done cause concerned cams stopped s = if q.2 then calFinish b q.1 else q.1 := by
  intro b q
  have hending : updCal (fun c => { c with recorded := true })
      (enterCycle .calibrate .none (updCycle (fun c => { c with camTimer := none })
        (updCam .right CamState.freeFlying (updCam .left CamState.freeFlying s)))) = s.calibrationEnding cal := by
    unfold updCal enterCycle updCycle updCam
    simp only [hcal, Option.map_some]
    rfl
  unfold calEnd
  rw [hcal]
  simp only [hending]
  rfl

/-- The CALIBRATION record accepted: the reply, after a stop CYCLE_STOPPED, and IDLE (R50, R125). -/
theorem calFinish_came (b : CalBody) (u : State) : (calFinish b u).cameTo u.req.newest
    { u with cycle := { u.cycle with state := .idle, sub := .none, cal := none, camTimer := none } }
    (replyFields b.ticket (if b.done then .done else .failed) 0 b.clamped false
        [(12, u8 b.cause.code), (13, u8 (orFF (b.concerned.map cameraCode))),
         (14, u8 b.cams.left.clamped), (15, u8 b.cams.left.dark), (16, u8 b.cams.right.clamped),
         (17, u8 b.cams.right.dark)] ::
      match b.stopped with
      | some cause => [noticeFields .cycleStopped
          [(12, u8 cause.code), (13, u8 (orFF u.vols.activeHandle)), (14, u16 u.vols.cursor),
           (16, u8 CycleState.calibrate.code)]]
      | none => []) := by
  have hreply := (came_self u).entry (replyFields b.ticket (if b.done then .done else .failed) 0 b.clamped false
    [(12, u8 b.cause.code), (13, u8 (orFF (b.concerned.map cameraCode))),
     (14, u8 b.cams.left.clamped), (15, u8 b.cams.left.dark), (16, u8 b.cams.right.clamped),
     (17, u8 b.cams.right.dark)])
  have hidle {v : State} {fs : List Fields} (hv : v.cameTo u.req.newest u fs) :=
    (hv.clean (clean_updCycle fun c => { c with cal := none, camTimer := none })).clean (clean_enterCycle .idle .none)
  unfold calFinish
  cases b.stopped with
  | none => exact hidle hreply
  | some cause => exact hidle (cycleStopped_came cause .calibrate hreply)

/-- Settles O42: the calibration waits, is judged by its two frames, and ends with its record, or by a stop. -/
theorem calibrationEnds : Obligations.CalibrationEnds := by
  intro s cal hcal width l r flies flying freed
  have hflying {y : CamState} {f : Frame} (h : flying y f) : y.flying = some f := flying_of_slot h
  have hunended {y : CamState} {f : Frame} (h : flying y f) (hf : f.ending = .inFlight) : y.hasEnded = false :=
    Bool.eq_false_of_not_eq_true fun hended => (hasEnded_flying (hflying h)).1 hended hf
  refine ⟨?waits, ?judged, ?ended, fun cause => rfl, ?stopped, calFinish_came⟩
  case waits =>
    rintro (hdone | hrec | ⟨f, hfl | hfr, hf⟩)
    · exact calCheck_waits hcal (.inl hdone)
    · exact calCheck_waits hcal (.inr (.inl hrec))
    · exact calCheck_waits hcal (.inr (.inr (.inl (hunended hfl hf))))
    · exact calCheck_waits hcal (.inr (.inr (.inr (hunended hfr hf))))
  case judged =>
    intro f g hfl hgr hf hg hdone hrec
    have hjudge : calCheck s = calJudge s := calCheck_judges hcal hdone hrec
      ((hasEnded_flying (hflying hfl)).2 hf) ((hasEnded_flying (hflying hgr)).2 hg)
    refine ⟨?_, fun hfailed => hjudge.trans (calJudge_failed hcal (hflying hfl) (hflying hgr) hfailed)⟩
    intro hfc hgc mean raw gain clamped dark filled of
    exact hjudge.trans (calJudge_done hcal (hflying hfl) (hflying hgr) hfc hgc)
  case ended =>
    intro done cause concerned cams stopped b q
    exact calEnd_eq hcal done cause concerned cams stopped
  case stopped =>
    intro cause reply
    cases hrec : cal.recorded with
    | true => exact (calStop_recorded hcal hrec).trans (if_pos rfl).symm
    | false =>
      refine (calStop_ends hcal hrec).trans ?_
      rw [calCause_eq]
      exact (if_neg Bool.false_ne_true).symm

end Sys2Proof.Machine
end

