-- ==== Sys2Proof/Proofs/Review.lean ====
section
/-! PROOFS. The review of an exposure and its decision (O52). -/

namespace Sys2Proof.Machine

/-! ## The frames of an exposure as they are judged (R39) -/

theorem mem_list_iff (q : Sides) (c : Camera) : c ∈ q.list ↔ q.has c = true := by
  cases c <;> simp [Sides.list, cameras]

/-- The frames of an exposure, left first, with a status and a verdict taken from the verdict each was given. -/
def Sides.judged (sides : Sides) (slot : Camera → Nat) (verdict : Camera → Verdict × FrameReason)
    (status : Verdict → SideStatus) (as : Verdict → Verdict) : List Judged :=
  sides.list.map fun c => ⟨c, slot c, as (verdict c).1, (verdict c).2, status (verdict c).1⟩

/-- The status of a side as its frame is judged (R39). -/
def Verdict.statusJudged (x : Verdict) : SideStatus := if x = .accepted then .settled else .pending

/-- The frames as the review judges them. -/
def Sides.asJudged (sides : Sides) (slot : Camera → Nat) (verdict : Camera → Verdict × FrameReason) : List Judged :=
  sides.judged slot verdict Verdict.statusJudged id

/-- The frames as a review without a retake records them: only a DAMAGED side pending, a REJECTED frame MARGINAL
(R41). -/
def Sides.asKept (sides : Sides) (slot : Camera → Nat) (verdict : Camera → Verdict × FrameReason) : List Judged :=
  sides.judged slot verdict (fun x => if x = .damaged then .pending else .settled)
    (fun x => if x = .rejected then .marginal else x)

/-- The sides whose verdict satisfies a test. -/
def Sides.those (sides : Sides) (verdict : Camera → Verdict × FrameReason) (p : Verdict → Bool) : Sides :=
  ⟨sides.left && p (verdict .left).1, sides.right && p (verdict .right).1⟩

theorem those_has (sides : Sides) (verdict : Camera → Verdict × FrameReason) (p : Verdict → Bool) (c : Camera) :
    (sides.those verdict p).has c = (sides.has c && p (verdict c).1) := by
  cases c <;> rfl

section
variable {sides : Sides} {slot : Camera → Nat} {verdict : Camera → Verdict × FrameReason}

theorem judgedSides_judged {status : Verdict → SideStatus} {as : Verdict → Verdict} {p : Judged → Bool}
    {q : Verdict → Bool} (hq : ∀ c, sides.has c = true →
      p ⟨c, slot c, as (verdict c).1, (verdict c).2, status (verdict c).1⟩ = q (verdict c).1) :
    judgedSides (sides.judged slot verdict status as) p = sides.those verdict q := by
  have hany (c : Camera) : ((sides.judged slot verdict status as).any fun j => j.cam == c && p j) =
      (sides.has c && q (verdict c).1) := by
    rw [Bool.eq_iff_iff]
    simp only [Sides.judged, List.any_map, List.any_eq_true, Function.comp, Bool.and_eq_true, beq_iff_eq, mem_list_iff]
    constructor
    · rintro ⟨d, hd, rfl, hp⟩
      exact ⟨hd, hq d hd ▸ hp⟩
    · rintro ⟨hc, hv⟩
      exact ⟨c, hc, rfl, (hq c hc).trans hv⟩
  exact congrArg₂ Sides.mk (hany .left) (hany .right)

theorem find_asJudged (c : Camera) : ((sides.asJudged slot verdict).find? fun j => j.cam == c) =
    if sides.has c = true then some ⟨c, slot c, (verdict c).1, (verdict c).2, (verdict c).1.statusJudged⟩
    else none := by
  obtain ⟨left, right⟩ := sides
  cases c <;> cases left <;> cases right <;> rfl

/-- A verdict satisfies no side where it is given to none of the exposure. -/
theorem verdict_of_none {p : Verdict → Bool} (h : (sides.those verdict p).size = 0) {c : Camera}
    (hc : sides.has c = true) : p (verdict c).1 = false := by
  obtain ⟨hl, hr⟩ := (size_eq_zero_iff _).1 h
  cases c with
  | left => exact (Bool.and_eq_false_iff.1 hl).resolve_left fun h => Bool.false_ne_true (h.symm.trans hc)
  | right => exact (Bool.and_eq_false_iff.1 hr).resolve_left fun h => Bool.false_ne_true (h.symm.trans hc)

end

/-! ## The decision (R39 to R41) -/

/-- The verdict on a frame that has ended and its reason (R39, R116, R133). -/
def State.verdictOn (s : State) (o : OpeningRecord) (f : Frame) : Verdict × FrameReason :=
  if f.ending = .lost then (.lost, .timeout)
  else if o.lampFault = true then (.damaged, .lamp)
  else if f.ending = .damaged then (.damaged, f.reason)
  else judgeFrame s.cycle.rules s.intake.geo false f

theorem judgeFrame_ended (s : State) (o : OpeningRecord) {f : Frame}
    (hended : f.ending = .complete ∨ f.ending = .damaged ∨ f.ending = .lost) :
    judgeFrame s.cycle.rules s.intake.geo o.lampFault f = s.verdictOn o f := by
  unfold State.verdictOn judgeFrame
  obtain h | h | h := hended <;> cases o.lampFault <;> simp [h]

/-- The frames in flight of an exposure that have ended, by their slots (R39). -/
def State.framesEnded (s : State) (sides : Sides) (slot : Camera → Nat) (frame : Camera → Frame) : Prop :=
  ∀ c, sides.has c = true → (s.cam c).inFlight = some (slot c) ∧ (s.cam c).frameAt (slot c) = some (frame c) ∧
    ((frame c).ending = .complete ∨ (frame c).ending = .damaged ∨ (frame c).ending = .lost)

section
variable {s : State} {o : OpeningRecord} {v : Volume} {e : ClassEntry} {slot : Camera → Nat} {frame : Camera → Frame}

theorem flying_of_ended (hframes : s.framesEnded o.prepared.sides slot frame) {c : Camera}
    (hc : o.prepared.sides.has c = true) : (s.cam c).flying = some (frame c) := by
  obtain ⟨hslot, hframe, -⟩ := hframes c hc
  rw [CamState.flying, hslot, Option.bind_some, hframe]

theorem judgeSides_eq (hframes : s.framesEnded o.prepared.sides slot frame) :
    judgeSides s o = o.prepared.sides.asJudged slot fun c => s.verdictOn o (frame c) := by
  have hside (c : Camera) (hc : c ∈ o.prepared.sides.list) : judgeSide s o c = some ⟨c, slot c,
      (s.verdictOn o (frame c)).1, (s.verdictOn o (frame c)).2, (s.verdictOn o (frame c)).1.statusJudged⟩ := by
    have hhas := (mem_list_iff _ c).1 hc
    obtain ⟨hslot, -, hended⟩ := hframes c hhas
    unfold judgeSide
    rw [hslot, flying_of_ended hframes hhas, ← judgeFrame_ended s o hended]
    rfl
  exact (List.filterMap_congr hside).trans (congrFun List.filterMap_eq_map _)

end

/-! ## The review without a retake (R41) -/

section
variable {sides : Sides} {slot : Camera → Nat} {verdict : Camera → Verdict × FrameReason}
  (hverdict : ∀ c, sides.has c = true →
    (verdict c).1 = .accepted ∨ (verdict c).1 = .rejected ∨ (verdict c).1 = .damaged)
include hverdict

/-- The REJECTED frames kept as MARGINAL (R41). -/
theorem asJudged_keep : (sides.asJudged slot verdict).map Judged.keep = sides.asKept slot verdict := by
  unfold Sides.asJudged Sides.asKept Sides.judged
  rw [List.map_map]
  refine List.map_congr_left fun c hc => ?_
  obtain h | h | h := hverdict c ((mem_list_iff _ c).1 hc) <;> simp [Judged.keep, Verdict.statusJudged, h]

/-- Without a retake a DAMAGED side halts, then a MARGINAL one in a class that halts on them (R41). -/
theorem settleMarginal_eq (e : ClassEntry) : settleMarginal e (sides.asJudged slot verdict) =
    (sides.asKept slot verdict,
      if (sides.those verdict (· == .damaged)).size = 0 then
        if ¬ (sides.those verdict (· == .rejected)).size = 0 ∧ e.haltMarginal = true then
          .halt .marginalHalt (sides.those verdict (· == .rejected))
        else .finish
      else .halt .captureFault (sides.those verdict (· == .damaged))) := by
  have hdamaged : judgedSides (sides.asKept slot verdict) (fun j => j.status == .pending) =
      sides.those verdict (· == .damaged) := by
    refine judgedSides_judged fun c hc => ?_
    obtain h | h | h := hverdict c hc <;> simp [h]
  have hrejected : judgedSides (sides.asKept slot verdict) (fun j => j.verdict == .marginal) =
      sides.those verdict (· == .rejected) := by
    refine judgedSides_judged fun c hc => ?_
    obtain h | h | h := hverdict c hc <;> simp [h]
  simp only [settleMarginal, asJudged_keep hverdict, hdamaged, hrejected, ite_not, ne_eq]

end

/-! ## The plan of a retake (R40, R134 to R136) -/

/-- The factor a REJECTED side is trimmed by (R134). -/
theorem trimFactor_eq (target : Nat) (reason : FrameReason) (mean : Nat) : trimFactor target reason mean =
    if reason = .clipped then 896 else min 4096 (max 256 ((1024 * target + mean / 2) / max mean 1)) := by
  cases reason <;> rfl

/-- What a retake does with a side: pending, it is trimmed by its factor if it has one (R136). -/
def sideTrim (pending : Bool) (factor : Option Nat) : SideTrim :=
  match pending, factor with
  | false, _ => .out
  | true, some f => .rejected f
  | true, none => .damaged

/-- The trim factors of the pending sides: a REJECTED side has one (R40, R134). -/
def State.factor (s : State) (sides : Sides) (verdict : Camera → Verdict × FrameReason) (frame : Camera → Frame)
    (c : Camera) : Option Nat :=
  if (sides.those verdict (· != .accepted)).has c = true ∧ (verdict c).1 = .rejected then
    some (if (verdict c).2 = .clipped then 896 else min 4096 (max 256
      ((1024 * s.cycle.rules.target + (frame c).mean / 2) / max (frame c).mean 1)))
  else none

/-- The level of a channel in a retake of the pending sides, by their factors (R85, R135, R136). -/
def levelTrimmed (ceiling before : Nat) (m : SideMap) (pending : Sides) (factor : Camera → Option Nat) : Nat :=
  let trimmed (f : Nat) : Nat := if before = 0 then 0 else min ceiling (max 1 ((before * f + 512) / 1024))
  match m with
  | .none => 0
  | .left => if pending.left = true then ((factor .left).map trimmed).getD (min ceiling before) else 0
  | .right => if pending.right = true then ((factor .right).map trimmed).getD (min ceiling before) else 0
  | .both => match factor .left, factor .right with
    | some f, some g => trimmed (min f g)
    | some f, none => trimmed f
    | none, some g => trimmed g
    | none, none => min ceiling before

theorem retakeLevel_eq (ceiling before : Nat) (m : SideMap) {pending : Sides} {factor : Camera → Option Nat}
    (hpending : ¬ pending.size = 0) (hfactor : ∀ c, pending.has c = false → factor c = none) :
    retakeLevel ceiling before m (sideTrim pending.left (factor .left)) (sideTrim pending.right (factor .right)) =
      levelTrimmed ceiling before m pending factor := by
  have hleft (h : pending.left = false) : factor .left = none := hfactor .left h
  have hright (h : pending.right = false) : factor .right = none := hfactor .right h
  obtain ⟨left, right⟩ := pending
  unfold levelTrimmed
  cases m with
  | none => rfl
  | left => cases left <;> cases factor .left <;> rfl
  | right => cases right <;> cases factor .right <;> rfl
  | both =>
    cases left <;> cases right
    case false.false => exact absurd rfl hpending
    case false.true => rw [hleft rfl]; cases factor .right <;> rfl
    case true.false => rw [hright rfl]; cases factor .left <;> rfl
    case true.true => cases factor .left <;> cases factor .right <;> rfl

section
variable {s : State} {o : OpeningRecord} {slot : Camera → Nat} {frame : Camera → Frame}
  {verdict : Camera → Verdict × FrameReason}

theorem trimOf_asJudged (hframes : s.framesEnded o.prepared.sides slot frame)
    (hverdict : ∀ c, o.prepared.sides.has c = true →
      (verdict c).1 = .accepted ∨ (verdict c).1 = .rejected ∨ (verdict c).1 = .damaged) (c : Camera) :
    trimOf s.cycle.rules.target s (o.prepared.sides.asJudged slot verdict) c =
      sideTrim ((o.prepared.sides.those verdict (· != .accepted)).has c)
        (s.factor o.prepared.sides verdict frame c) := by
  unfold trimOf State.factor
  rw [find_asJudged, those_has]
  cases hc : o.prepared.sides.has c with
  | false => rfl
  | true =>
    obtain ⟨-, hframe, -⟩ := hframes c hc
    obtain h | h | h := hverdict c hc
    · simp only [if_pos, h]
      rfl
    · simp only [if_pos, h, hframe, trimFactor_eq]
      rfl
    · simp only [if_pos, h]
      rfl

/-- The plan of a retake of the pending sides, their trims by side and channel (R40, R85, R86). -/
theorem retakePlan_eq (hframes : s.framesEnded o.prepared.sides slot frame)
    (hverdict : ∀ c, o.prepared.sides.has c = true →
      (verdict c).1 = .accepted ∨ (verdict c).1 = .rejected ∨ (verdict c).1 = .damaged)
    (hpending : ¬ (o.prepared.sides.those verdict (· != .accepted)).size = 0) (v : Volume) (e : ClassEntry) :
    retakePlan s v e (o.prepared.sides.asJudged slot verdict) =
      s.planOf (s.light.channels.mapIdx fun i x => levelTrimmed e.ceiling (s.light.exposure.plan.levels.getD i 0)
        x.sideMap (o.prepared.sides.those verdict (· != .accepted)) (s.factor o.prepared.sides verdict frame))
        (v.exposureTime.getD e.exposure) := by
  unfold retakePlan retakeLevels
  rw [trimOf_asJudged hframes hverdict, trimOf_asJudged hframes hverdict]
  have hfactor (c : Camera) (hc : (o.prepared.sides.those verdict (· != .accepted)).has c = false) :
      s.factor o.prepared.sides verdict frame c = none := if_neg fun h => Bool.false_ne_true (hc.symm.trans h.1)
  refine congrArg (s.planOf · _) (congrArg (s.light.channels.mapIdx ·) ?_)
  funext i x
  exact retakeLevel_eq _ _ _ hpending hfactor

end

/-! ## The review (R39 to R41) -/

theorem judge_kinds (r : Rules) (pixels mean clip : Nat) :
    (r.judge pixels mean clip).1 = .accepted ∨ (r.judge pixels mean clip).1 = .rejected := by
  unfold Rules.judge
  split_ifs <;> simp

/-- A frame that has ended and is not LOST is ACCEPTED, REJECTED or DAMAGED (R39, R133). -/
theorem verdictOn_kinds (s : State) (o : OpeningRecord) {f : Frame}
    (hended : f.ending = .complete ∨ f.ending = .damaged ∨ f.ending = .lost) (hlost : (s.verdictOn o f).1 ≠ .lost) :
    (s.verdictOn o f).1 = .accepted ∨ (s.verdictOn o f).1 = .rejected ∨ (s.verdictOn o f).1 = .damaged := by
  unfold State.verdictOn at hlost ⊢
  obtain h | h | h := hended
  · cases o.lampFault with
    | true => simp [h]
    | false =>
      simp only [h, judgeFrame_complete, reduceCtorEq, Bool.false_eq_true, if_false]
      exact (judge_kinds _ _ _ _).imp_right .inl
  · cases o.lampFault <;> simp [h]
  · exact absurd (by simp [h]) hlost

section
variable {s : State} {o : OpeningRecord} {k : Nat} {v : Volume} {e : ClassEntry} {slot : Camera → Nat}
  {frame : Camera → Frame}

/-- The review's decision, the frames judged: a lamp fault, a lost frame, nothing pending, a retake, none (R39 to
R41). -/
theorem decideReview_eq (hframes : s.framesEnded o.prepared.sides slot frame) :
    let sides := o.prepared.sides
    let verdict := fun c => s.verdictOn o (frame c)
    let js := sides.asJudged slot verdict
    let lost := sides.those verdict (· == .lost)
    let pending := sides.those verdict (· != .accepted)
    decideReview s o v e =
      if o.lampFault = true then (sides.judged slot verdict (fun _ => .pending) id, .halt .lampFault sides)
      else if lost.size ≠ 0 then (js, .halt .cameraTimeout lost)
      else if pending.size = 0 then (js, .finish)
      else if o.retakes < e.maxRetakes then
        match judgeAdmission s v e (retakePlan s v e js) with
        | .admitted p => (js, .retake pending p)
        | .refused _ _ | .busy => settleMarginal e js
      else settleMarginal e js := by
  intro sides verdict js lost pending
  have hlost : judgedSides js (fun j => j.verdict == .lost) = lost := judgedSides_judged fun c hc => rfl
  have hpending : judgedSides js (fun j => j.status == .pending) = pending := judgedSides_judged fun c hc => by
    cases (verdict c).1 <;> rfl
  have hlamp : js.map (fun j => { j with status := .pending }) = sides.judged slot verdict (fun _ => .pending) id := by
    simp only [js, Sides.asJudged, Sides.judged, List.map_map]
    rfl
  unfold decideReview
  simp only [judgeSides_eq hframes]
  rw [← hlost, ← hpending, ← hlamp] <;> rfl

/-- The review goes on by its decision, every frame ended (R39, R89). -/
theorem reviewCheck_decides (ho : s.cycle.opening = some o) (hactive : s.vols.active = some (k, v))
    (hclass : s.activeClass = some e) (hstate : s.cycle.state = .review) (hreview : s.cycle.review = none)
    (hframes : s.framesEnded o.prepared.sides slot frame) {js : List Judged} {next : AfterReview}
    (hdecide : decideReview s o v e = (js, next)) : reviewCheck s = recordAll next js (holdRetake next s) := by
  have hall : (s.cycle.preparedSides.list.all fun c => (s.cam c).hasEnded) = true := by
    rw [preparedSides_some ho, List.all_eq_true]
    intro c hc
    have hhas := (mem_list_iff _ c).1 hc
    obtain ⟨-, -, hended⟩ := hframes c hhas
    refine (hasEnded_flying (flying_of_ended hframes hhas)).2 fun h => ?_
    rw [h] at hended
    simp at hended
  unfold reviewCheck
  rw [if_pos ⟨hstate, hreview, hall⟩, ho, hactive, hclass]
  simp only [hdecide]

end

/-- The review waits until every frame of the exposure has ended (R39). -/
theorem reviewCheck_waits {s : State} (h : s.cycle.state ≠ .review ∨ s.cycle.review.isSome = true ∨
    ∃ c, s.cycle.preparedSides.has c = true ∧ (s.cam c).hasEnded = false) : reviewCheck s = s := by
  refine if_neg fun ⟨hstate, hreview, hall⟩ => ?_
  obtain h | h | ⟨c, hc, hended⟩ := h
  · exact h hstate
  · rw [hreview] at h
    exact Bool.false_ne_true h
  · exact Bool.false_ne_true (hended.symm.trans (List.all_eq_true.1 hall c ((mem_list_iff _ c).2 hc)))

/-- What the lighting unit asks of a plan it admits (R88). -/
def State.admits (s : State) (v : Volume) (e : ClassEntry) (p : Plan) : Prop :=
  s.light.exposure.phase = .none ∧
    (∀ i x, s.light.channels[i]? = some x → x.state = .failed → p.levels.getD i 0 = 0) ∧
    v.openingDose + p.predicted ≤ e.doseLimit ∧ v.doseUsed + p.predicted ≤ v.budget

theorem lampTest_iff (channels : List Channel) (levels : List Nat) : lampTest channels levels = true ↔
    ∀ i x, channels[i]? = some x → x.state = .failed → levels.getD i 0 = 0 := by
  rw [← not_not (a := lampTest channels levels = true), lampTest_fails_iff]
  push Not
  rfl

theorem admits_iff {s : State} {v : Volume} {e : ClassEntry} {p : Plan} : s.admits v e p ↔
    s.light.exposure.phase = .none ∧ lampTest s.light.channels p.levels = true ∧ doseTest v e p.predicted = true := by
  unfold State.admits
  rw [lampTest_iff, doseTest_iff]

theorem judgeAdmission_admits {s : State} {v : Volume} {e : ClassEntry} {p : Plan} (h : s.admits v e p) :
    judgeAdmission s v e p = .admitted p := by
  obtain ⟨hnone, htests⟩ := admits_iff.1 h
  exact (judgeAdmission_eq hnone v e p).trans (if_pos htests)

/-- A plan that is not admitted is refused, or finds the lighting unit busy (R87, R88). -/
theorem judgeAdmission_denies {s : State} {v : Volume} {e : ClassEntry} {p : Plan} (h : ¬ s.admits v e p) :
    judgeAdmission s v e p = .busy ∨ ∃ lamp dose, judgeAdmission s v e p = .refused lamp dose := by
  by_cases hnone : s.light.exposure.phase = .none
  · exact .inr ⟨_, _, (judgeAdmission_eq hnone v e p).trans
      (if_neg fun htests => h (admits_iff.2 ⟨hnone, htests⟩))⟩
  · exact .inl (if_pos hnone)

section
variable {s : State} {o : OpeningRecord} {v : Volume} {e : ClassEntry} {slot : Camera → Nat} {frame : Camera → Frame}
  (hframes : s.framesEnded o.prepared.sides slot frame)
include hframes

theorem decideReview_lampFault (hlamp : o.lampFault = true) : decideReview s o v e =
    (o.prepared.sides.judged slot (fun c => s.verdictOn o (frame c)) (fun _ => .pending) id,
      .halt .lampFault o.prepared.sides) :=
  (decideReview_eq hframes).trans (if_pos hlamp)

theorem verdicts_kinds
    (hlost : (o.prepared.sides.those (fun c => s.verdictOn o (frame c)) (· == .lost)).size = 0) {c : Camera}
    (hc : o.prepared.sides.has c = true) :
    (s.verdictOn o (frame c)).1 = .accepted ∨ (s.verdictOn o (frame c)).1 = .rejected ∨
      (s.verdictOn o (frame c)).1 = .damaged := by
  obtain ⟨-, -, hended⟩ := hframes c hc
  refine verdictOn_kinds s o hended fun h => ?_
  have hno : ((s.verdictOn o (frame c)).1 == .lost) = false := verdict_of_none hlost hc
  exact beq_eq_false_iff_ne.1 hno h

variable (hlamp : o.lampFault = false)
include hlamp

theorem decideReview_lost
    (hlost : ¬ (o.prepared.sides.those (fun c => s.verdictOn o (frame c)) (· == .lost)).size = 0) :
    decideReview s o v e = (o.prepared.sides.asJudged slot fun c => s.verdictOn o (frame c),
      .halt .cameraTimeout (o.prepared.sides.those (fun c => s.verdictOn o (frame c)) (· == .lost))) :=
  (decideReview_eq hframes).trans ((if_neg (by simp [hlamp])).trans (if_pos hlost))

variable (hlost : (o.prepared.sides.those (fun c => s.verdictOn o (frame c)) (· == .lost)).size = 0)
include hlost

theorem decideReview_settled
    (hsettled : (o.prepared.sides.those (fun c => s.verdictOn o (frame c)) (· != .accepted)).size = 0) :
    decideReview s o v e = (o.prepared.sides.asJudged slot fun c => s.verdictOn o (frame c), .finish) :=
  (decideReview_eq hframes).trans ((if_neg (by simp [hlamp])).trans ((if_neg (not_not.2 hlost)).trans
    (if_pos hsettled)))

variable (hpending : ¬ (o.prepared.sides.those (fun c => s.verdictOn o (frame c)) (· != .accepted)).size = 0)
include hpending

/-- The sides pending: a retake where one is left and its plan is admitted, else the review settles (R40, R41). -/
theorem decideReview_pending :
    let verdict := fun c => s.verdictOn o (frame c)
    let js := o.prepared.sides.asJudged slot verdict
    let pending := o.prepared.sides.those verdict (· != .accepted)
    let p := s.planOf (s.light.channels.mapIdx fun i x => levelTrimmed e.ceiling
      (s.light.exposure.plan.levels.getD i 0) x.sideMap pending (s.factor o.prepared.sides verdict frame))
      (v.exposureTime.getD e.exposure)
    (o.retakes < e.maxRetakes ∧ s.admits v e p → decideReview s o v e = (js, .retake pending p)) ∧
    (¬ (o.retakes < e.maxRetakes ∧ s.admits v e p) → decideReview s o v e = settleMarginal e js) := by
  intro verdict js pending p
  have hplan : retakePlan s v e js = p :=
    retakePlan_eq hframes (fun c hc => verdicts_kinds hframes hlost hc) hpending v e
  have hdecide : decideReview s o v e = if o.retakes < e.maxRetakes then
        match judgeAdmission s v e (retakePlan s v e js) with
        | .admitted p => (js, .retake pending p)
        | .refused _ _ | .busy => settleMarginal e js
      else settleMarginal e js :=
    (decideReview_eq hframes).trans ((if_neg (by simp [hlamp])).trans ((if_neg (not_not.2 hlost)).trans
      (if_neg hpending)))
  rw [hplan] at hdecide
  constructor
  · rintro ⟨hleft, hadmits⟩
    rw [hdecide, if_pos hleft, judgeAdmission_admits hadmits]
  · intro hdenied
    by_cases hleft : o.retakes < e.maxRetakes
    · rw [hdecide, if_pos hleft]
      obtain hbusy | ⟨lamp, dose, hrefused⟩ := judgeAdmission_denies fun h => hdenied ⟨hleft, h⟩
      · rw [hbusy]
      · rw [hrefused]
    · rw [hdecide, if_neg hleft]

end

/-- A retake admitted is held for the active record (R89). -/
theorem holdRetake_retake {s : State} {k : Nat} {v : Volume} (hactive : s.vols.active = some (k, v)) (sides : Sides)
    (p : Plan) : holdRetake (.retake sides p) s = { s with light := { s.light with
      exposure := ⟨.admitted, .retake, sides, p, some k, false, 0, false, false⟩ } } := by
  have hhandle : s.vols.activeHandle = some k := (active_get hactive).1
  show holdAdmitted sides p s = _
  unfold holdAdmitted
  rw [hhandle]
  rfl

/-- Nothing is held where the review settles (R41). -/
theorem holdRetake_settles (e : ClassEntry) (js : List Judged) (s : State) :
    holdRetake (settleMarginal e js).2 s = s := by
  unfold settleMarginal
  dsimp only
  split_ifs <;> rfl

/-- Settles O52: the review waits, then halts, finishes, holds a retake or settles by the verdicts of its frames. -/
theorem reviewJudgesAndDecides : Obligations.ReviewJudgesAndDecides := by
  refine ⟨fun s => rfl, ?_⟩
  intro s o ho sides flying
  have hsides : s.cycle.preparedSides = sides := preparedSides_some ho
  refine ⟨?waits, ?decides⟩
  case waits =>
    rintro (hstate | hreview | ⟨c, k, f, hc, ⟨hslot, hframe⟩, hf⟩)
    · exact reviewCheck_waits (.inl hstate)
    · exact reviewCheck_waits (.inr (.inl hreview))
    · refine reviewCheck_waits (.inr (.inr ⟨c, hsides.symm ▸ hc, Bool.eq_false_of_not_eq_true fun hended => ?_⟩))
      exact (hasEnded_flying (flying_of_slot ⟨k, hslot, hframe⟩)).1 hended hf
  case decides =>
    intro k v e slot frame hactive hclass hstate hreview hflying cams judged kept asJudged those lost pending damaged
      marginal none' trim levels p granted
    have hframes : s.framesEnded sides slot frame := fun c hc =>
      have ⟨⟨hslot, hframe⟩, hended⟩ := hflying c hc
      ⟨hslot, frameAt_of_slot hframe, hended⟩
    have hcams : cams = sides.list := (Sides_list_eq sides).symm
    have hkept (status : Verdict → SideStatus) (as : Verdict → Verdict) :
        kept status as = sides.judged slot judged status as := by
      show cams.map _ = _
      rw [hcams]
      rfl
    have hnone (x : Sides) : none' x ↔ x.size = 0 := (size_eq_zero_iff x).symm
    have hcheck {js : List Judged} {next : AfterReview} (hdecide : decideReview s o v e = (js, next)) :=
      reviewCheck_decides ho hactive hclass hstate hreview hframes hdecide
    refine ⟨fun hlamp => ?lamp, fun hlamp => ⟨fun hlost => ?lost, fun hlost hsettled => ?settled,
      fun hlost hpending hgranted => ?retake, fun hlost hpending hdenied => ?marginal⟩⟩
    case lamp =>
      exact (hcheck (decideReview_lampFault hframes hlamp)).trans (congrArg (recordAll _ · s) (hkept _ _).symm)
    case lost =>
      exact (hcheck (decideReview_lost hframes hlamp (mt (hnone _).2 hlost))).trans
        (congrArg (recordAll _ · s) (hkept _ _).symm)
    case settled =>
      exact (hcheck (decideReview_settled hframes hlamp ((hnone _).1 hlost) ((hnone _).1 hsettled))).trans
        (congrArg (recordAll _ · s) (hkept _ _).symm)
    case retake =>
      have hdecide := (decideReview_pending hframes hlamp ((hnone _).1 hlost) (mt (hnone _).2 hpending)).1 hgranted
      refine (hcheck hdecide).trans ?_
      rw [holdRetake_retake hactive]
      exact congrArg (recordAll _ · _) (hkept _ _).symm
    case marginal =>
      have hdecide := (decideReview_pending hframes hlamp ((hnone _).1 hlost) (mt (hnone _).2 hpending)).2 hdenied
      have hkinds (c : Camera) := verdicts_kinds (c := c) hframes ((hnone _).1 hlost)
      have hheld := holdRetake_settles e (o.prepared.sides.asJudged slot fun c => s.verdictOn o (frame c)) s
      rw [settleMarginal_eq hkinds] at hdecide hheld
      refine ((hcheck hdecide).trans (congrArg (recordAll _ _) hheld)).trans
        (congrArg₂ (recordAll · · s) ?_ (hkept _ _).symm)
      exact if_congr (hnone _).symm (if_congr (and_congr_left' (not_congr (hnone _).symm)) rfl rfl) rfl

end Sys2Proof.Machine
end
